-- ==== Sys2Proof/Word.lean ====
section
/-! DEFINITION. The word types of the block: the byte of every frame, operand and cell, the 16-bit
operand and EEPROM address (20_memory.md R60, R69; 30_encoding.md R102), and the 7-bit bus address. -/

namespace Sys2Proof

/-- One byte: a data frame, an operand byte, a memory cell (R69). -/
abbrev Byte := BitVec 8

/-- A 16-bit quantity: an EEPROM address, a cursor, a speed in kHz, a period in ms (R102). -/
abbrev Half := BitVec 16

/-- A 7-bit device address on the two-wire bus (R90). -/
abbrev DevAddr := BitVec 7

end Sys2Proof
end

