-- ==== Sys2Proof/Syntax.lean ====
section
/-! DEFINITION. The instruction set: one constructor for each of the 25 rows of the opcode map
(30_encoding.md R103), in the map's order. Register numbers and flags are already decoded; a machine
never sees a raw encoding. -/

namespace Sys2Proof

/-- The Time Record (10_state.md R58): "plain integers" and two flags. On the command stream each
integer takes one byte (R101, format DT). -/
structure TimeRecord where
  year : Nat
  month : Nat
  day : Nat
  weekday : Nat
  hour : Nat
  mode12 : Bool
  pm : Bool
  minute : Nat
  second : Nat
  deriving DecidableEq, Repr

/-- Why a byte stream is no operation (R105, R106): the block gives it no meaning. -/
inductive BadEncoding where
  /-- The opcode byte is not in the opcode map (R105). -/
  | unassignedOpcode
  /-- A reserved operand bit is 1 (R105). -/
  | reservedBits
  /-- The stream ends inside the operation (R106). -/
  | truncated
  deriving DecidableEq, Repr

/-- The operations of the command stream (R103); TICK and SETIN are the script's TIMER and ENV steps
(R110). -/
inductive Instr where
  | twinit (khz : Half)
  | start
  | write (b : Byte)
  | read (sendAck : Bool)
  | stop
  | wrreg (dev : DevAddr) (reg : Byte) (val : Byte)
  | rdreg (dev : DevAddr) (reg : Byte)
  | eerd (dev : DevAddr) (addr : Half)
  | eewr (dev : DevAddr) (addr : Half) (val : Byte)
  | eegetcur (dev : DevAddr)
  | eesetcur (dev : DevAddr) (cursor : Half)
  | rtcinit (dev : DevAddr) (batt : Bool)
  | rtcget (dev : DevAddr)
  | rtcset (dev : DevAddr) (record : TimeRecord)
  | tobcd (v : Byte)
  | frombcd (b : Byte)
  | seqinit
  | seqreinit
  | seqstep
  | poll
  | tmrcfg (ms : Half)
  | tmrieon
  | tmrieoff
  | tick
  | setin (level : Bool)
  deriving DecidableEq, Repr

end Sys2Proof
end

