-- ==== Sys2Proof/WellFormed.lean ====
section
/-! DEFINITION. When an instruction has an encoding. Addresses, registers and flags fit by their types;
the integers of a Time Record must each fit the one byte that format DT gives it (30_encoding.md R101). -/

namespace Sys2Proof

/-- Every integer of the record fits its operand byte (R101, format DT). -/
def TimeRecord.fits (r : TimeRecord) : Bool :=
  decide (r.year < 256) && decide (r.month < 256) && decide (r.day < 256) &&
  decide (r.weekday < 256) && decide (r.hour < 256) && decide (r.minute < 256) &&
  decide (r.second < 256)

/-- The instruction has an encoding in the command stream. -/
def Instr.wf : Instr → Bool
  | .twinit _ => true
  | .start => true
  | .write _ => true
  | .read _ => true
  | .stop => true
  | .wrreg _ _ _ => true
  | .rdreg _ _ => true
  | .eerd _ _ => true
  | .eewr _ _ _ => true
  | .eegetcur _ => true
  | .eesetcur _ _ => true
  | .rtcinit _ _ => true
  | .rtcget _ => true
  | .rtcset _ record => record.fits
  | .tobcd _ => true
  | .frombcd _ => true
  | .seqinit => true
  | .seqreinit => true
  | .seqstep => true
  | .poll => true
  | .tmrcfg _ => true
  | .tmrieon => true
  | .tmrieoff => true
  | .tick => true
  | .setin _ => true

end Sys2Proof
end

