-- ==== Sys2Proof/Decode.lean ====
section
/-! DEFINITION. The command stream (30_encoding.md R100 to R106): the opcode map, a decoder that is total
on any list of bytes and names what it refuses, and the encoder. -/

namespace Sys2Proof

/-! ## The opcode map -/

/-- The operand formats of R101. -/
inductive Format where
  | n | b | k | h | d | dk | dr | drv | da | dav | dt
  deriving DecidableEq, Repr

/-- The length of an operation in bytes, the opcode byte included (R101). -/
def Format.length : Format → Nat
  | .n => 1
  | .b => 2
  | .k => 2
  | .h => 3
  | .d => 2
  | .dk => 3
  | .dr => 3
  | .drv => 4
  | .da => 4
  | .dav => 5
  | .dt => 10

/-- One row of the opcode map (R103). -/
structure OpcodeRow where
  opcode : Byte
  mnemonic : String
  format : Format
  results : Nat
  deriving DecidableEq, Repr

/-- The opcode map (R103), row by row. -/
def opcodeMap : List OpcodeRow := [
  ⟨0x00, "TWINIT", .h, 0⟩,
  ⟨0x01, "START", .n, 1⟩,
  ⟨0x02, "WRITE", .b, 1⟩,
  ⟨0x03, "READ", .k, 1⟩,
  ⟨0x04, "STOP", .n, 0⟩,
  ⟨0x10, "WRREG", .drv, 0⟩,
  ⟨0x11, "RDREG", .dr, 1⟩,
  ⟨0x20, "EERD", .da, 1⟩,
  ⟨0x21, "EEWR", .dav, 0⟩,
  ⟨0x22, "EEGETCUR", .d, 2⟩,
  ⟨0x23, "EESETCUR", .da, 0⟩,
  ⟨0x30, "RTCINIT", .dk, 1⟩,
  ⟨0x31, "RTCGET", .d, 8⟩,
  ⟨0x32, "RTCSET", .dt, 0⟩,
  ⟨0x38, "TOBCD", .b, 1⟩,
  ⟨0x39, "FROMBCD", .b, 1⟩,
  ⟨0x40, "SEQINIT", .n, 0⟩,
  ⟨0x41, "SEQREINIT", .n, 0⟩,
  ⟨0x42, "SEQSTEP", .n, 0⟩,
  ⟨0x43, "POLL", .n, 0⟩,
  ⟨0x50, "TMRCFG", .h, 0⟩,
  ⟨0x51, "TMRIEON", .n, 0⟩,
  ⟨0x52, "TMRIEOFF", .n, 0⟩,
  ⟨0xF0, "TICK", .n, 0⟩,
  ⟨0xF1, "SETIN", .k, 0⟩]

/-- The format of an opcode byte, if it is assigned (R103, R106: the opcode byte alone decides it). -/
def formatOf (op : Byte) : Option Format :=
  (opcodeMap.find? (fun r => r.opcode == op)).map OpcodeRow.format

/-! ## The decoder -/

/-- What the decoder answers: the operation and the bytes after it, or why there is none. -/
abbrev Decoded := Except BadEncoding (Instr × List Byte)

/-- A boolean operand byte `k`: bit 0 the flag, bits 7:1 zero (R101, R105). -/
def decodeFlag (k : Byte) : Option Bool :=
  if k = 0x00 then some false else if k = 0x01 then some true else none

/-- A device operand byte `dev`: bits 6:0 the address, bit 7 zero (R101, R105). -/
def decodeDev (b : Byte) : Option DevAddr :=
  if b.getLsbD 7 then none else some (b.setWidth 7)

/-- The operand byte `hflags`: bit 0 is pm, bit 1 is mode12, bits 7:2 zero (R101). Answers
(mode12, pm). -/
def decodeHflags (b : Byte) : Option (Bool × Bool) :=
  if b = 0x00 then some (false, false)
  else if b = 0x01 then some (false, true)
  else if b = 0x02 then some (true, false)
  else if b = 0x03 then some (true, true)
  else none

/-- An operand that must have no reserved bit set (R105). -/
def reservedUnless {α : Type} (o : Option α) (f : α → Instr) (rest : List Byte) : Decoded :=
  match o with
  | some a => .ok (f a, rest)
  | none => .error .reservedBits

/-- Format B: one 8-bit operand. -/
def operandsB (f : Byte → Instr) : List Byte → Decoded
  | b :: rest => .ok (f b, rest)
  | _ => .error .truncated

/-- Format K: one flag. -/
def operandsK (f : Bool → Instr) : List Byte → Decoded
  | k :: rest => reservedUnless (decodeFlag k) f rest
  | _ => .error .truncated

/-- Format H: one 16-bit operand, high byte first (R102). -/
def operandsH (f : Half → Instr) : List Byte → Decoded
  | hi :: lo :: rest => .ok (f (hi ++ lo), rest)
  | _ => .error .truncated

/-- Format D: a device. -/
def operandsD (f : DevAddr → Instr) : List Byte → Decoded
  | d :: rest => reservedUnless (decodeDev d) f rest
  | _ => .error .truncated

/-- Format DK: a device and a flag. -/
def operandsDK (f : DevAddr → Bool → Instr) : List Byte → Decoded
  | d :: k :: rest =>
    match decodeDev d with
    | some dev => reservedUnless (decodeFlag k) (f dev) rest
    | none => .error .reservedBits
  | _ => .error .truncated

/-- Format DR: a device and a register number. -/
def operandsDR (f : DevAddr → Byte → Instr) : List Byte → Decoded
  | d :: r :: rest => reservedUnless (decodeDev d) (fun dev => f dev r) rest
  | _ => .error .truncated

/-- Format DRV: a device, a register number and a value. -/
def operandsDRV (f : DevAddr → Byte → Byte → Instr) : List Byte → Decoded
  | d :: r :: v :: rest => reservedUnless (decodeDev d) (fun dev => f dev r v) rest
  | _ => .error .truncated

/-- Format DA: a device and a 16-bit address, high byte first (R102). -/
def operandsDA (f : DevAddr → Half → Instr) : List Byte → Decoded
  | d :: hi :: lo :: rest => reservedUnless (decodeDev d) (fun dev => f dev (hi ++ lo)) rest
  | _ => .error .truncated

/-- Format DAV: a device, a 16-bit address and a value. -/
def operandsDAV (f : DevAddr → Half → Byte → Instr) : List Byte → Decoded
  | d :: hi :: lo :: v :: rest => reservedUnless (decodeDev d) (fun dev => f dev (hi ++ lo) v) rest
  | _ => .error .truncated

/-- Format DT: a device and a Time Record. -/
def operandsDT (f : DevAddr → TimeRecord → Instr) : List Byte → Decoded
  | d :: y :: mo :: da :: w :: h :: fl :: mi :: s :: rest =>
    match decodeDev d with
    | some dev =>
      reservedUnless (decodeHflags fl)
        (fun p => f dev
          { year := y.toNat, month := mo.toNat, day := da.toNat, weekday := w.toNat,
            hour := h.toNat, mode12 := p.1, pm := p.2, minute := mi.toNat, second := s.toNat })
        rest
    | none => .error .reservedBits
  | _ => .error .truncated

/-- The operands of the operation whose opcode byte is `op` (R101, R103). -/
def decodeOperands (op : Byte) (bs : List Byte) : Decoded :=
  match op.toNat with
  | 0x00 => operandsH .twinit bs
  | 0x01 => .ok (.start, bs)
  | 0x02 => operandsB .write bs
  | 0x03 => operandsK .read bs
  | 0x04 => .ok (.stop, bs)
  | 0x10 => operandsDRV .wrreg bs
  | 0x11 => operandsDR .rdreg bs
  | 0x20 => operandsDA .eerd bs
  | 0x21 => operandsDAV .eewr bs
  | 0x22 => operandsD .eegetcur bs
  | 0x23 => operandsDA .eesetcur bs
  | 0x30 => operandsDK .rtcinit bs
  | 0x31 => operandsD .rtcget bs
  | 0x32 => operandsDT .rtcset bs
  | 0x38 => operandsB .tobcd bs
  | 0x39 => operandsB .frombcd bs
  | 0x40 => .ok (.seqinit, bs)
  | 0x41 => .ok (.seqreinit, bs)
  | 0x42 => .ok (.seqstep, bs)
  | 0x43 => .ok (.poll, bs)
  | 0x50 => operandsH .tmrcfg bs
  | 0x51 => .ok (.tmrieon, bs)
  | 0x52 => .ok (.tmrieoff, bs)
  | 0xF0 => .ok (.tick, bs)
  | 0xF1 => operandsK .setin bs
  | _ => .error .unassignedOpcode

/-- The first operation of a byte stream and the bytes after it; an empty stream holds no operation. -/
def decode : List Byte → Decoded
  | [] => .error .truncated
  | op :: bs => decodeOperands op bs

/-! ## The encoder -/

/-- The high byte of a 16-bit operand (R102). -/
def hiByte (x : Half) : Byte := x.extractLsb' 8 8

/-- The low byte of a 16-bit operand (R102). -/
def loByte (x : Half) : Byte := x.extractLsb' 0 8

/-- The operand byte of a boolean (R101, format K). -/
def encodeFlag (k : Bool) : Byte := if k then 0x01 else 0x00

/-- The operand byte of a device address (R101, format D). -/
def encodeDev (d : DevAddr) : Byte := d.setWidth 8

/-- The operand byte `hflags` (R101, format DT). -/
def encodeHflags (mode12 pm : Bool) : Byte :=
  match mode12, pm with
  | false, false => 0x00
  | false, true => 0x01
  | true, false => 0x02
  | true, true => 0x03

/-- The bytes of a Time Record (R101, format DT). -/
def encodeRecord (t : TimeRecord) : List Byte :=
  [BitVec.ofNat 8 t.year, BitVec.ofNat 8 t.month, BitVec.ofNat 8 t.day, BitVec.ofNat 8 t.weekday,
   BitVec.ofNat 8 t.hour, encodeHflags t.mode12 t.pm, BitVec.ofNat 8 t.minute, BitVec.ofNat 8 t.second]

/-- The bytes of an operation (R101, R103). -/
def encode : Instr → List Byte
  | .twinit khz => [0x00, hiByte khz, loByte khz]
  | .start => [0x01]
  | .write b => [0x02, b]
  | .read sendAck => [0x03, encodeFlag sendAck]
  | .stop => [0x04]
  | .wrreg dev reg val => [0x10, encodeDev dev, reg, val]
  | .rdreg dev reg => [0x11, encodeDev dev, reg]
  | .eerd dev addr => [0x20, encodeDev dev, hiByte addr, loByte addr]
  | .eewr dev addr val => [0x21, encodeDev dev, hiByte addr, loByte addr, val]
  | .eegetcur dev => [0x22, encodeDev dev]
  | .eesetcur dev cursor => [0x23, encodeDev dev, hiByte cursor, loByte cursor]
  | .rtcinit dev batt => [0x30, encodeDev dev, encodeFlag batt]
  | .rtcget dev => [0x31, encodeDev dev]
  | .rtcset dev record => 0x32 :: encodeDev dev :: encodeRecord record
  | .tobcd v => [0x38, v]
  | .frombcd b => [0x39, b]
  | .seqinit => [0x40]
  | .seqreinit => [0x41]
  | .seqstep => [0x42]
  | .poll => [0x43]
  | .tmrcfg ms => [0x50, hiByte ms, loByte ms]
  | .tmrieon => [0x51]
  | .tmrieoff => [0x52]
  | .tick => [0xF0]
  | .setin level => [0xF1, encodeFlag level]

/-! ## Words of the opcode table -/

/-- The stream that holds the instruction whose bits are `w` as spec/opcode_table.json numbers them:
byte i is bits 8i+7 .. 8i, every bit at or above `nbits` is 0, up to the longest operation (10 bytes). -/
def tableBytes (nbits w : Nat) : List Byte :=
  (List.range 10).map (fun i => BitVec.ofNat 8 ((w % 2 ^ nbits) / 2 ^ (8 * i)))

/-- The instruction the decoder reads from a word of the opcode table. -/
def decodeTableWord (nbits w : Nat) : Option Instr :=
  match decode (tableBytes nbits w) with
  | .ok (i, _) => some i
  | .error _ => none

end Sys2Proof
end

