-- ==== Sys2Proof/Config.lean ====
section
/-! DEFINITION. The implementation parameters of 00_scope.md R9 to R12 as plain data, the reference
values the model resets with, and the one opaque source of free values. Logs 1, 2, 3, 11. -/

namespace Sys2Proof

/-- The two readings of the re-initialisation pattern (43_sequencer.md R205, 90_conflicts.md C3). -/
inductive ReinitPattern where
  | byteAlternating
  | halves
  deriving DecidableEq, Repr, Inhabited

/-- `DivFor` at this block's clock (R11, OPEN) as plain data (log 3): either the formula of
93_implementation_defined.md G3, or any finite table from a speed in kHz to the divider setting it
gives; a speed that is not in the table is one that `DivFor` cannot realise. -/
inductive DivRule where
  | formula
  | table (rows : List (Half × Nat))
  deriving DecidableEq, Repr, Inhabited

/-- One implementation of the block: every parameter of R9 to R12 that is neither a constant of the
source (`beginFlashes`, `endFlashes` below) nor an oracle of the environment (R13). -/
structure Config where
  /-- FIRST (R9): the first EEPROM address of the sample buffer. -/
  first : Half
  /-- COUNT (R9, OPEN): the number of Sample Bytes. -/
  count : Nat
  /-- FLASH_ON_MS (R9, OPEN). -/
  flashOnMs : Nat
  /-- FLASH_OFF_MS (R9, OPEN). -/
  flashOffMs : Nat
  /-- REINIT_PATTERN (R9, R205). -/
  reinitPattern : ReinitPattern
  /-- TICK_PERIOD_MS (R11): used by the boot order only (R280). -/
  tickPeriodMs : Half
  /-- BUS_KHZ (R11, OPEN): used by the boot order only (R280). -/
  busKhz : Half
  /-- F_CLK_HZ (R11, OPEN). -/
  fClkHz : Nat
  /-- DivFor (R11, OPEN). -/
  divFor : DivRule
  /-- MONITORED (R11). -/
  monitored : Bool
  /-- EE_DEV (R12, OPEN). -/
  eeDev : DevAddr
  /-- RTC_DEV (R12, OPEN). -/
  rtcDev : DevAddr
  /-- EE_SIZE (R12, OPEN). -/
  eeSize : Nat
  /-- RTC_SEC (R12, OPEN). -/
  rtcSec : Byte
  /-- RTC_MIN (R12, OPEN). -/
  rtcMin : Byte
  /-- RTC_HOUR (R12, OPEN). -/
  rtcHour : Byte
  /-- RTC_WKDAY (R12, OPEN). -/
  rtcWkday : Byte
  /-- RTC_DATE (R12, OPEN). -/
  rtcDate : Byte
  /-- RTC_MONTH (R12, OPEN). -/
  rtcMonth : Byte
  /-- RTC_YEAR (R12, OPEN). -/
  rtcYear : Byte
  /-- RTC_CTRL (R12, OPEN); no rule of the block touches it (R66). -/
  rtcCtrl : Byte
  /-- B_ST (R12, OPEN): the start bit of the seconds register. -/
  bSt : Fin 8
  /-- B_OSCRUN (R12, OPEN): the oscillator-running bit of the weekday register. -/
  bOscrun : Fin 8
  /-- B_VBATEN (R12, OPEN): the battery-enable bit of the weekday register. -/
  bVbaten : Fin 8
  /-- B_12H (R12, OPEN): the 12-hour-mode bit of the hour register. -/
  b12h : Fin 8
  /-- B_PM (R12, OPEN): the AM/PM bit of the hour register. -/
  bPm : Fin 8
  /-- M_SEC (R12, OPEN). -/
  mSec : Byte
  /-- M_MIN (R12, OPEN). -/
  mMin : Byte
  /-- M_DATE (R12, OPEN). -/
  mDate : Byte
  /-- M_MONTH (R12, OPEN). -/
  mMonth : Byte
  /-- M_YEAR (R12, OPEN). -/
  mYear : Byte
  /-- RTC_SETTLE_MS (R12, OPEN). -/
  rtcSettleMs : Nat
  deriving DecidableEq, Repr

/-- BEGIN_FLASHES (R9): "three on/off flashes". -/
def Config.beginFlashes : Nat := 3

/-- END_FLASHES (R9): "five flashes". -/
def Config.endFlashes : Nat := 5

/-- The configuration the machine resets with. The source's values (FIRST 20, tick period 100 ms), the
spec's defaults (unmonitored, byte alternation), PRESUMED: the general-knowledge numbers of
93_implementation_defined.md G3 to G5, and DESIGN CHOICE: a value for each parameter left OPEN without
one (COUNT, EE_SIZE, the delays). Log 2; every statement is about every configuration. -/
def Config.reference : Config where
  first := 20
  count := 2
  flashOnMs := 100
  flashOffMs := 100
  reinitPattern := .byteAlternating
  tickPeriodMs := 100
  busKhz := 100
  fClkHz := 16000000
  divFor := .formula
  monitored := false
  eeDev := 0x50
  rtcDev := 0x6F
  eeSize := 65536
  rtcSec := 0x00
  rtcMin := 0x01
  rtcHour := 0x02
  rtcWkday := 0x03
  rtcDate := 0x04
  rtcMonth := 0x05
  rtcYear := 0x06
  rtcCtrl := 0x07
  bSt := 7
  bOscrun := 5
  bVbaten := 3
  b12h := 6
  bPm := 5
  mSec := 0x7F
  mMin := 0x7F
  mDate := 0x3F
  mMonth := 0x1F
  mYear := 0xFF
  rtcSettleMs := 1000

/-- The free values: the n-th byte the environment draws under no law (00_scope.md R16 `draw`). It has
no body, so no proof can know one. Log 11. -/
opaque Config.freeByte : Nat → Byte

end Sys2Proof
end

