-- ==== Sys2Proof/Machine/State.lean ====
section
/-! DEFINITION. The state of the machine: every register of 10_state.md, the two devices, the host port,
and, as plain data, what the other agents and the environment's oracles do next (00_scope.md R13, R17).
The reasons a step can stop. The state after reset (10_state.md R45). -/

namespace Sys2Proof.Machine

/-! ## The kinds of value the registers hold -/

/-- PH, the transaction phase (10_state.md R22). -/
inductive Phase where
  | idle
  | addrPending
  | mt
  | mr
  deriving DecidableEq, Repr

/-- The status enumeration (30_encoding.md R95); `fail c` is `S_FAIL(c)`. -/
inductive Status where
  | start
  | rstart
  | mtSlaAck
  | mtSlaNack
  | mtDataAck
  | mtDataNack
  | mrSlaAck
  | mrSlaNack
  | mrDataAck
  | mrDataNack
  | fail (c : Byte)
  deriving DecidableEq, Repr

/-- INFLIGHT, the primitive the BUS agent is performing (10_state.md R26). -/
inductive Inflight where
  | none
  | start
  | write (b : Byte)
  | read (sendAck : Bool)
  deriving DecidableEq, Repr

/-- A wire event (00_scope.md R18): `S`, `Sr`, `P`, `A(a, W|R, ack|nack)`, `Dw(b, ack|nack)`,
`Dr(b, ack|nack)`. -/
inductive WireEvent where
  | s
  | sr
  | p
  | a (addr : DevAddr) (read : Bool) (ack : Bool)
  | dw (b : Byte) (ack : Bool)
  | dr (b : Byte) (ack : Bool)
  deriving DecidableEq, Repr

/-- CS, the Controller State (10_state.md R30). -/
inductive Ctl where
  | replay
  | beginRecording
  | recording
  | endRecording
  deriving DecidableEq, Repr

/-- EEPH, the EEPROM's phase (10_state.md R50). -/
inductive EePhase where
  | devIdle
  | addrHi
  | addrLo
  | data
  | done
  deriving DecidableEq, Repr

/-- RTCPH, the RTC's phase (10_state.md R52). -/
inductive RtcPhase where
  | devIdle
  | reg
  | data
  | done
  deriving DecidableEq, Repr

/-- The time-keeping registers of the RTC that the ENV may change (10_state.md R56). -/
inductive RtcField where
  | second
  | minute
  | hour
  | weekday
  | date
  | month
  | year
  deriving DecidableEq, Repr

/-- One step of an agent other than the HOST at an interleaving point (00_scope.md R17). -/
inductive AgentStep where
  /-- The TIMER fires, if its step is enabled (44_tick_timer.md R226). -/
  | tick
  /-- The ENV sets the input line (44_tick_timer.md R230, 10_state.md R56). -/
  | setInput (level : Bool)
  /-- The ENV advances one time-keeping register to the value `v` in that register's own bits (R56). -/
  | rtcField (f : RtcField) (v : Byte)
  /-- The ENV sets the oscillator-running bit (R56). -/
  | oscRun (on : Bool)
  /-- The BUS agent puts a pending stop condition on the wire, if its step is enabled (R129). -/
  | busStop
  deriving DecidableEq, Repr

/-- Memory of bytes in canonical form: addresses strictly rising, no byte listed that an unlisted
address reads as (Sys2Proof/Machine/Memory.lean). -/
abbrev Memory := List Host.Cell

/-! ## The state -/

structure State where
  /-- The configuration (00_scope.md R9 to R12), which no step changes. Log 1. -/
  cfg : Config
  /-- BR (R21), the bus clock divider; none until TWINIT has given it a value (R120). Log 12. -/
  br : Option Nat
  /-- PH (R22). -/
  ph : Phase
  /-- ST (R23). -/
  st : Status
  /-- DR (R24). -/
  dr : Byte
  /-- DONE (R25). -/
  done : Bool
  /-- INFLIGHT (R26). -/
  inflight : Inflight
  /-- STOPPING (R27). -/
  stopping : Bool
  /-- SEL (R28). -/
  sel : Option DevAddr
  /-- WIRE (R29), oldest event first. -/
  wire : List WireEvent
  /-- CS (R30). -/
  cs : Ctl
  /-- BC (R31). -/
  bc : Half
  /-- BI (R32), 0..8. -/
  bi : BitVec 4
  /-- ACC (R33). -/
  acc : Byte
  /-- CUR (R34). -/
  cur : Byte
  /-- OUT (R35); true is high. -/
  out : Bool
  /-- IN (R36); false is asserted. -/
  inp : Bool
  /-- PEND (R37). -/
  pend : Bool
  /-- TIE (R38). -/
  tie : Bool
  /-- TCFG (R39), a period in milliseconds. -/
  tcfg : Option Half
  /-- EE (R50), the EEPROM's array. -/
  ee : Memory
  /-- EEPTR (R50). -/
  eeptr : Half
  /-- EEPH (R50). -/
  eeph : EePhase
  /-- The EEPROM has sent a byte since its last address frame for writing or the last stop (R51, U9).
  Log 15. -/
  eeSent : Bool
  /-- RTCREG (R52), the RTC's registers. -/
  rtcreg : Memory
  /-- RTCPTR (R52). -/
  rtcptr : Byte
  /-- RTCPH (R52). -/
  rtcph : RtcPhase
  /-- As `eeSent`, for the RTC (R53, U9). Log 15. -/
  rtcSent : Bool
  /-- The bytes of the command stream the block has not yet taken (R100). -/
  stream : List Byte
  /-- The result bytes returned to the HOST so far (R109), oldest first. Log 24. -/
  resp : List Byte
  /-- The values written to OUT so far (R35, R59), oldest first. Log 25. -/
  outTrace : List Bool
  /-- The HOST spins in AwaitDone for ever (R122, R244). Log 7. -/
  hung : Bool
  /-- What the other agents do at each coming interleaving point (R17); nothing past the end. Log 6. -/
  agenda : List (List AgentStep)
  /-- DevAck's coming answers (R54): `none`, or past the end, is IdealDevices' answer. Log 8. -/
  ackScript : List (Option Bool)
  /-- BusOutcome's coming answers (R130): `some c` is a failure with code c; success past the end.
  Log 9. -/
  startScript : List (Option Byte)
  /-- How many steps the BUS agent still takes (R55); `none` is BusLive. Log 7. -/
  busLeft : Option Nat
  /-- How many free values have been drawn (R16 `draw`). Log 11. -/
  drawn : Nat
  deriving DecidableEq, Repr

/-! ## How a step can stop -/

/-- The block has no faults: "The block raises no exceptions and takes no traps" (60_exceptions.md
R240), and 93_implementation_defined.md uses the treatment `fault` nowhere. Log 29. -/
inductive Fault where
  deriving DecidableEq, Repr

/-- The refusals (60_exceptions.md R245): where the spec gives an operation no meaning. A refused
operation has gone wrong; nothing may be concluded from a run past it. -/
inductive Refusal where
  /-- WRITE with PH Idle or MR (R126). Safe: the machine stops where hardware might do something. -/
  | writeOutOfPhase
  /-- READ with PH not MR (R127). Safe. -/
  | readOutOfPhase
  /-- STOP with PH Idle (R128). Safe. -/
  | stopWhileIdle
  /-- A composite operation issued with PH not Idle (R150). Safe. -/
  | compositeInOpenTransaction
  /-- START, WRITE, READ or STOP before TWINIT has given BR a value (R120). Safe. -/
  | busNotInitialised
  /-- TOBCD above 99; a Time Record field above 99 or an hour that does not fit its field in RTCSET
  (R171, R177, R178). Safe. -/
  | bcdDomain
  /-- TMRCFG with period 0 (R222). Safe. -/
  | timerPeriod
  /-- TWINIT with a speed DivFor cannot realise, or with PH not Idle (R124). Safe. -/
  | busSpeed
  /-- An unassigned opcode, a non-zero reserved bit or a truncated stream (R105, R106). Raised by the
  step's fetch. Safe. -/
  | badEncoding (why : BadEncoding)
  /-- An invalid configuration (R10, U18, U23). Raised by the step, for every state that holds one. Safe. -/
  | badConfiguration
  /-- TICK in a script where the TIMER's step is not enabled (R110, R226). Safe. -/
  | tickNotEnabled
  /-- A device asked for what its rules leave unspecified: a second data byte in one write transaction,
  a second byte read in one transaction (R51, R53, U9). Raised by a BUS completion. Safe. -/
  | deviceUnspecified
  /-- An EEPROM access at an address at or above EE_SIZE (R51, R64, U10). Raised by a BUS completion.
  Safe. -/
  | eepromRange
  /-- An instruction that the model gives no meaning yet. Raised by exec only. Safe. -/
  | notModelled (mnemonic : String)
  deriving DecidableEq, Repr

/-! ## Reset -/

/-- The machine right after power-up (10_state.md R45, 70_reset_and_hazards.md R270), for a
configuration, a content of the two non-volatile devices and a level of the input, which reset does not
touch. R45 leaves six values unspecified: ACC, CUR, EEPTR and RTCPTR are DESIGN CHOICE (log 13); ST
("no state information", 93_implementation_defined.md G1) and DR are PRESUMED, the values of the family
whose status numbers R95 takes (log 26). -/
def State.powerUp (c : Config) (ee rtcreg : Memory) (inp : Bool) : State where
  cfg := c
  br := none
  ph := .idle
  st := .fail 0xF8
  dr := 0xFF
  done := false
  inflight := .none
  stopping := false
  sel := none
  wire := []
  cs := .replay
  bc := c.first
  bi := 8
  acc := 0x00
  cur := 0x00
  out := false
  inp := inp
  pend := false
  tie := false
  tcfg := none
  ee := ee
  eeptr := 0x0000
  eeph := .devIdle
  eeSent := false
  rtcreg := rtcreg
  rtcptr := 0x00
  rtcph := .devIdle
  rtcSent := false
  stream := []
  resp := []
  outTrace := []
  hung := false
  agenda := []
  ackScript := []
  startScript := []
  busLeft := none
  drawn := 0

/-- What the RTC's registers hold when it is first powered. PRESUMED: the power-on values of the family
whose register layout the reference configuration takes (93_implementation_defined.md G4): weekday, date,
month and year 1, control 0x80, everything else 0. Log 26. -/
def State.rtcAtPowerOn : Memory := [(0x03, 0x01), (0x04, 0x01), (0x05, 0x01), (0x06, 0x01), (0x07, 0x80)]

/-- The machine right after reset: `State.powerUp` of the reference configuration (log 2), with the RTC as
it is first powered (PRESUMED, log 26), the EEPROM reading 0x00 everywhere and the input released (DESIGN
CHOICE, log 14). -/
def State.reset : State := State.powerUp Config.reference [] State.rtcAtPowerOn true

end Sys2Proof.Machine
end

