-- ==== Sys2Proof/Machine/Flags.lean ====
section
/-! DEFINITION. Status codes (30_encoding.md R95): their numbers, and the status each primitive leaves. -/

namespace Sys2Proof.Machine

/-- The number of a status (R95, 93_implementation_defined.md G1). -/
def Status.number : Status → Byte
  | .start => 0x08
  | .rstart => 0x10
  | .mtSlaAck => 0x18
  | .mtSlaNack => 0x20
  | .mtDataAck => 0x28
  | .mtDataNack => 0x30
  | .mrSlaAck => 0x40
  | .mrSlaNack => 0x48
  | .mrDataAck => 0x50
  | .mrDataNack => 0x58
  | .fail c => c

/-- The status a number stands for; any number not in the table of R95 is `S_FAIL` of it. -/
def Status.ofNumber (c : Byte) : Status :=
  if c = 0x08 then .start
  else if c = 0x10 then .rstart
  else if c = 0x18 then .mtSlaAck
  else if c = 0x20 then .mtSlaNack
  else if c = 0x28 then .mtDataAck
  else if c = 0x30 then .mtDataNack
  else if c = 0x40 then .mrSlaAck
  else if c = 0x48 then .mrSlaNack
  else if c = 0x50 then .mrDataAck
  else if c = 0x58 then .mrDataNack
  else .fail c

/-- `S_FAIL(c)` carries a code that is none of the ten named numbers (R95, U3). -/
def Status.wf : Status → Bool
  | .fail c => decide (Status.ofNumber c = .fail c)
  | _ => true

/-- What a start that succeeds leaves: initial start on an idle bus, repeated start inside a transaction
(R125). -/
def startStatus (ph : Phase) : Status :=
  match ph with
  | .idle => .start
  | .addrPending => .rstart
  | .mt => .rstart
  | .mr => .rstart

/-- The wire event of a start that succeeds (R125). -/
def startEvent (ph : Phase) : WireEvent :=
  match ph with
  | .idle => .s
  | .addrPending => .sr
  | .mt => .sr
  | .mr => .sr

/-- The status of an address frame by direction and acknowledge (R126). -/
def slaStatus (read ack : Bool) : Status :=
  match read, ack with
  | false, true => .mtSlaAck
  | false, false => .mtSlaNack
  | true, true => .mrSlaAck
  | true, false => .mrSlaNack

/-- The status of a data frame sent (R126). -/
def dataOutStatus (ack : Bool) : Status := if ack then .mtDataAck else .mtDataNack

/-- The status of a data frame received (R127). -/
def dataInStatus (sendAck : Bool) : Status := if sendAck then .mrDataAck else .mrDataNack

end Sys2Proof.Machine
end

