-- ==== Sys2Proof/Machine/Memory.lean ====
section
/-! DEFINITION. Memory of bytes: the EEPROM's array (10_state.md R50) and the RTC's registers (R52), as a
list of cells in one canonical form. -/

namespace Sys2Proof.Machine

/-- What an unlisted address reads as: the content of a device that nothing has written. DESIGN CHOICE:
the spec calls it arbitrary (R45, U20); log 14. -/
def memBlank : Byte := 0x00

/-- The byte at an address. -/
def Memory.read : Memory → Nat → Byte
  | [], _ => memBlank
  | (k, v) :: rest, a => if k = a then v else Memory.read rest a

/-- A cell in front of a canonical list of higher addresses: not listed if it reads as unlisted. -/
def Memory.cons (a : Nat) (v : Byte) (m : Memory) : Memory :=
  if v = memBlank then m else (a, v) :: m

/-- The memory with the byte at `a` set to `v`, in canonical form. -/
def Memory.write : Memory → Nat → Byte → Memory
  | [], a, v => Memory.cons a v []
  | (k, w) :: rest, a, v =>
    if a < k then Memory.cons a v ((k, w) :: rest)
    else if a = k then Memory.cons a v rest
    else (k, w) :: Memory.write rest a v

/-- The canonical form: addresses strictly rising, no byte listed that an unlisted address reads as. -/
def Memory.wf : Memory → Bool
  | [] => true
  | (k, v) :: rest => decide (v ≠ memBlank) && rest.all (fun c => decide (k < c.1)) && Memory.wf rest

/-- Every listed address lies below `n`. -/
def Memory.below (m : Memory) (n : Nat) : Bool := m.all (fun c => decide (c.1 < n))

end Sys2Proof.Machine
end

