-- ==== Sys2Proof/Machine/Operands.lean ====
section
/-! DEFINITION. What the operands and data formats mean: address bytes, 16-bit join, BCD, the
RTC's hour byte, the Time Record's result bytes, `DivFor`, the sample buffer's bounds, the
re-initialisation pattern, and when a configuration is valid. -/

namespace Sys2Proof.Machine

/-! ## Bits and bytes -/

/-- `v with [i] := b` (00_scope.md R14). -/
def withBit (v : Byte) (i : Nat) (b : Bool) : Byte :=
  if b then v ||| (1#8 <<< i) else v &&& ~~~(1#8 <<< i)

/-- The bits of `old` outside the mask and of `v` inside it. -/
def underMask (mask old v : Byte) : Byte := (old &&& ~~~mask) ||| (v &&& mask)

/-- `hi ++ lo` (00_scope.md R14). -/
def joinBytes (hi lo : Byte) : Half := hi ++ lo

/-- `SLA_W(a)` (30_encoding.md R91). -/
def slaW (a : DevAddr) : Byte := a ++ (0 : BitVec 1)

/-- `SLA_R(a)` (30_encoding.md R91). -/
def slaR (a : DevAddr) : Byte := a ++ (1 : BitVec 1)

/-- `b[7:1]`, the device address of an address byte (R91, R126). -/
def addrOf (b : Byte) : DevAddr := b.extractLsb' 1 7

/-- `b[0]`, the direction of an address byte: true is read (R91, R126). -/
def dirOf (b : Byte) : Bool := b.getLsbD 0

/-- A boolean as a result byte (30_encoding.md R109). -/
def boolByte (b : Bool) : Byte := if b then 0x01 else 0x00

/-! ## BCD (42_rtc_protocol.md) -/

/-- `toBcd(v) = (v/10)*16 + (v%10)` (R171). -/
def toBcd (v : Nat) : Nat := (v / 10) * 16 + v % 10

/-- `fromBcd(b) = (b/16)*10 + (b%16)` (R172). -/
def fromBcd (b : Nat) : Nat := (b / 16) * 10 + b % 16

/-- `toBcd` as a byte, for a value in 0..99 (R171). -/
def toBcdByte (v : Nat) : Byte := BitVec.ofNat 8 (toBcd v)

/-- `fromBcd` of a byte under a mask (R176). -/
def fromBcdMasked (x mask : Byte) : Nat := fromBcd (x &&& mask).toNat

/-- `HourDecode(h)` (R175): hour, mode12, pm. The neutral AM/PM value is false. -/
def hourDecode (c : Config) (h : Byte) : Nat × Bool × Bool :=
  if h.getLsbD c.b12h then (fromBcdMasked h 0x1F, true, h.getLsbD c.bPm)
  else (fromBcdMasked h 0x3F, false, false)

/-- The largest BCD hour that fits its field: 5 bits in 12-hour mode, 6 bits in 24-hour mode (R177). -/
def hourLimit (mode12 : Bool) : Nat := if mode12 then 0x1F else 0x3F

/-- `HourEncode(hour, mode12, pm)` (R177), where the BCD hour fits its field. -/
def hourEncode (c : Config) (hour : Nat) (mode12 pm : Bool) : Byte :=
  if mode12 then
    (1#8 <<< c.b12h.val) ||| (if pm then 1#8 <<< c.bPm.val else 0#8) ||| toBcdByte hour
  else toBcdByte hour

/-- The start command `0x10 | (1 << B_ST)` (30_encoding.md R98). -/
def startCommand (c : Config) : Byte := 0x10#8 ||| (1#8 <<< c.bSt.val)

/-- The seconds byte `toBcd(second) | (1 << B_ST)` (R178). -/
def secondsByte (c : Config) (second : Nat) : Byte := toBcdByte second ||| (1#8 <<< c.bSt.val)

/-- A record that RTCSET accepts: "Any field above 99 is refused", and so is an hour whose BCD does not
fit its field (R177, R178, R245). Log 23. -/
def TimeRecord.settable (t : TimeRecord) : Bool :=
  decide (t.year ≤ 99) && decide (t.month ≤ 99) && decide (t.day ≤ 99) && decide (t.weekday ≤ 99) &&
  decide (t.hour ≤ 99) && decide (t.minute ≤ 99) && decide (t.second ≤ 99) &&
  decide (toBcd t.hour ≤ hourLimit t.mode12)

/-- The eight result bytes of RTCGET, in the order and with the `hflags` of format DT (30_encoding.md
R101, R109). -/
def recordBytes (t : TimeRecord) : List Byte := encodeRecord t

/-! ## The RTC's registers -/

/-- The register number of a time-keeping register (00_scope.md R12). -/
def fieldReg (c : Config) : RtcField → Byte
  | .second => c.rtcSec
  | .minute => c.rtcMin
  | .hour => c.rtcHour
  | .weekday => c.rtcWkday
  | .date => c.rtcDate
  | .month => c.rtcMonth
  | .year => c.rtcYear

/-- The bits of a time-keeping register that hold the time (20_memory.md R66), given the register's
content: the ENV changes these and no other (10_state.md R56). The hour field and the AM/PM bit depend
on the mode bit; the weekday is what the two status bits leave. Log 19. -/
def fieldMask (c : Config) (f : RtcField) (old : Byte) : Byte :=
  match f with
  | .second => c.mSec
  | .minute => c.mMin
  | .hour => if old.getLsbD c.b12h then 0x1F#8 ||| (1#8 <<< c.bPm.val) else 0x3F#8
  | .weekday => ~~~((1#8 <<< c.bOscrun.val) ||| (1#8 <<< c.bVbaten.val))
  | .date => c.mDate
  | .month => c.mMonth
  | .year => c.mYear

/-! ## Bus speed -/

/-- The first row of a table for a key. -/
def tableLookup : List (Half × Nat) → Half → Option Nat
  | [], _ => none
  | (k, v) :: rest, x => if k = x then some v else tableLookup rest x

/-- `DivFor(khz, F_CLK_HZ)` (00_scope.md R11): none where it cannot realise the speed (U12). The formula
is PRESUMED, 93_implementation_defined.md G3: `(f / (khz * 1000) - 16) / 2`, valid in 0..255. Log 3. -/
def divFor (c : Config) (khz : Half) : Option Nat :=
  if khz = 0 then none
  else
    match c.divFor with
    | .table rows => tableLookup rows khz
    | .formula =>
      let q := c.fClkHz / (khz.toNat * 1000)
      if 16 ≤ q ∧ (q - 16) / 2 ≤ 255 then some ((q - 16) / 2) else none

/-! ## The sample buffer -/

/-- `LAST = FIRST + COUNT - 1` (00_scope.md R9). -/
def lastAddr (c : Config) : Nat := c.first.toNat + c.count - 1

/-- `Pattern(i)` (43_sequencer.md R205). -/
def pattern (c : Config) (i : Nat) : Byte :=
  match c.reinitPattern with
  | .byteAlternating => if i % 2 = 0 then 0xFF else 0x00
  | .halves => if i < (c.count + 1) / 2 then 0xFF else 0x00

/-! ## Valid configurations -/

/-- The duration the buffer records, in milliseconds: COUNT bytes of 8 ticks (20_memory.md R63). -/
def recordedMs (c : Config) : Nat := c.count * 8 * c.tickPeriodMs.toNat

/-- R10, R12, U18: the buffer. "period divides evenly, count > 0", off the cursor header, inside 16 bits
and inside the EEPROM. A tick period of 0 is invalid too: DESIGN CHOICE, log 4. The rules do not list it, and
"divides evenly" says nothing of a period of 0. -/
def bufferValid (c : Config) : Bool :=
  decide (0 < c.count) && decide (0 < c.tickPeriodMs.toNat) &&
  decide (recordedMs c % c.tickPeriodMs.toNat = 0) && decide (2 ≤ c.first.toNat) &&
  decide (c.first.toNat + c.count ≤ 0xFFFF) && decide (c.first.toNat + c.count ≤ c.eeSize) &&
  decide (c.eeSize ≤ 65536)

/-- R97, U23: the RTC's layout. The mode bit is bit 6 or 7, the AM/PM bit another of 5, 6, 7; the start
bit is outside the seconds mask; no mask drops a BCD bit of a calendar value (log 4). -/
def rtcLayoutValid (c : Config) : Bool :=
  decide (6 ≤ c.b12h.val) && decide (5 ≤ c.bPm.val) && decide (c.bPm ≠ c.b12h) &&
  !c.mSec.getLsbD c.bSt && decide (c.mSec &&& 0x7F = 0x7F#8) && decide (c.mMin &&& 0x7F = 0x7F#8) &&
  decide (c.mDate &&& 0x3F = 0x3F#8) && decide (c.mMonth &&& 0x1F = 0x1F#8) &&
  decide (c.mYear = 0xFF#8)

/-- A valid configuration (00_scope.md R10, U18, U23); the two devices have different addresses (DESIGN
CHOICE, log 4). -/
def configValid (c : Config) : Bool :=
  bufferValid c && rtcLayoutValid c && decide (c.eeDev ≠ c.rtcDev)

end Sys2Proof.Machine
end

