-- ==== Sys2Proof/Machine/Ops.lean ====
section
/-! DEFINITION. The operations that every instruction is made of: a run of HOST lines that may end in a
refusal or hang, the tick interrupt, the other agents' steps at an interleaving point, the environment's
draws and oracles, the two devices, and the BUS agent (00_scope.md R16, R17; 40_bus_primitives.md R121,
R129; 10_state.md R50 to R56; 60_exceptions.md R246 to R249). -/

namespace Sys2Proof.Machine

/-! ## Runs of HOST lines -/

/-- How an operation ends early: it hangs, or the spec gives it no meaning (00_scope.md R16 `hang`,
`refuse`). -/
inductive Stop where
  | hang
  | refuse (r : Refusal)
  deriving DecidableEq, Repr

/-- A piece of an operation: it runs the HOST's lines from a state and ends with a result and a state,
or stops early. -/
abbrev Op (α : Type) := EStateM Stop State α

/-- `refuse(reason)` (00_scope.md R16). -/
def refuse {α : Type} (r : Refusal) : Op α := fun s => .error (.refuse r) s

/-- `hang` (00_scope.md R16): the HOST never returns from here. -/
def hang {α : Type} : Op α := fun s => .error .hang s

/-- The HOST goes on only if the condition holds (a refusal test of a rule). -/
def require (b : Bool) (r : Refusal) : Op Unit := if b then pure () else refuse r

/-- Read something from the state. -/
def look {α : Type} (f : State → α) : Op α := fun s => .ok (f s) s

/-- A whole operation, from its pieces: its result bytes go to the HOST (30_encoding.md R109); a hang
leaves the machine running with the HOST stuck (60_exceptions.md R244); a refusal ends the run. -/
def finish (m : Op (List Byte)) (s : State) : Host.Outcome State Fault Refusal :=
  match m s with
  | .ok bytes t => .next { t with resp := t.resp ++ bytes }
  | .error .hang t => .next { t with hung := true }
  | .error (.refuse r) _ => .refused r

/-- A piece that returns nothing, as a whole operation. -/
def noResult (m : Op Unit) : Op (List Byte) := do
  m
  pure []

/-- A piece that returns one byte, as a whole operation. -/
def byteResult (m : Op Byte) : Op (List Byte) := do
  let b ← m
  pure [b]

/-! ## The tick interrupt -/

/-- The TIMER agent's step is enabled (44_tick_timer.md R226). -/
def tickEnabled (s : State) : Bool := s.tcfg.isSome && s.tie

/-- Taking the tick interrupt and returning from it, one atomic step (60_exceptions.md R247 to R249):
entry saves nothing and changes no register, the handler's whole body is `PEND <- 1`, and the return to
the point of interruption is implicit, every other register as it was. -/
def tickInterrupt (s : State) : State := { s with pend := true }

/-! ## The BUS agent's stop completion -/

/-- The stop step of the selected device (10_state.md R51, R53); the transaction is over for both
devices, so that a byte may be asked for again (log 15). -/
def deviceStop (s : State) : State :=
  { s with
    eeph := if s.sel = some s.cfg.eeDev then .devIdle else s.eeph
    rtcph := if s.sel = some s.cfg.rtcDev then .devIdle else s.rtcph
    eeSent := false
    rtcSent := false }

/-- The stop completion (40_bus_primitives.md R128, R129): `P` on the wire, the device's stop step,
`SEL <- None; STOPPING <- 0`. -/
def completeStop (s : State) : State :=
  { deviceStop s with wire := s.wire ++ [.p], sel := none, stopping := false }

/-- One step of the BUS agent taken off what it still takes; none when it takes no more (R55). -/
def spendBusStep (s : State) : Option State :=
  match s.busLeft with
  | none => some s
  | some 0 => none
  | some (n + 1) => some { s with busLeft := some n }

/-- The BUS agent puts a pending stop condition on the wire, if there is one and the bus is alive. -/
def settleStop (s : State) : State :=
  if s.stopping then
    match spendBusStep s with
    | some t => completeStop t
    | none => s
  else s

/-! ## The other agents -/

/-- One step of the TIMER, ENV or BUS agent between two HOST lines (00_scope.md R17). A step that is not
enabled does nothing. -/
def AgentStep.apply (e : AgentStep) (s : State) : State :=
  match e with
  | .tick => if tickEnabled s then tickInterrupt s else s
  | .setInput level => { s with inp := level }
  | .rtcField f v =>
    let reg := (fieldReg s.cfg f).toNat
    let old := s.rtcreg.read reg
    { s with rtcreg := s.rtcreg.write reg (underMask (fieldMask s.cfg f old) old v) }
  | .oscRun on =>
    let reg := s.cfg.rtcWkday.toNat
    { s with rtcreg := s.rtcreg.write reg (withBit (s.rtcreg.read reg) s.cfg.bOscrun on) }
  | .busStop => settleStop s

/-- An interleaving point: the other agents take the steps the schedule gives them here; past the end of
the schedule they take none, which is a script's schedule (30_encoding.md R110). Log 6. -/
def State.others (s : State) : State :=
  match s.agenda with
  | [] => s
  | steps :: rest => steps.foldl (fun t e => e.apply t) { s with agenda := rest }

/-- An interleaving point between two HOST lines. -/
def point : Op Unit := modify State.others

/-- `Delay(ms)` (00_scope.md R16): time passes, nothing of the block changes, the others may step. -/
def delay (_ms : Nat) : Op Unit := point

/-! ## Draws and oracles -/

/-- `draw` (00_scope.md R16): a byte under no law. -/
def draw : Op Byte := fun s => .ok (Config.freeByte s.drawn) { s with drawn := s.drawn + 1 }

/-- DevAck's answer to a frame, where IdealDevices would answer `ideal` (10_state.md R54). -/
def devAck (ideal : Bool) : Op Bool := fun s =>
  match s.ackScript with
  | [] => .ok ideal s
  | a :: rest => .ok (a.getD ideal) { s with ackScript := rest }

/-- BusOutcome's answer to a start (40_bus_primitives.md R130): a failure code, or none for success. A
code that is one of the ten named numbers is no code of a failure (R95, U3); log 9. -/
def busOutcome : Op (Option Byte) := fun s =>
  match s.startScript with
  | [] => .ok none s
  | a :: rest => .ok (a.filter (fun c => (Status.fail c).wf)) { s with startScript := rest }

/-! ## The devices -/

/-- The device an acknowledged address frame reaches (10_state.md R51, R53): for writing it waits for
its address bytes; for reading it stays as it is. -/
def deviceAddressed (a : DevAddr) (read : Bool) (s : State) : State :=
  if read then s
  else if a = s.cfg.eeDev then { s with eeph := .addrHi, eeSent := false }
  else if a = s.cfg.rtcDev then { s with rtcph := .reg, rtcSent := false }
  else s

/-- The EEPROM takes a data byte (10_state.md R51). -/
def eeTakes (b : Byte) : Op Unit := do
  let s ← get
  match s.eeph with
  | .addrHi => set { s with eeptr := joinBytes b (loByte s.eeptr), eeph := .addrLo }
  | .addrLo => set { s with eeptr := joinBytes (hiByte s.eeptr) b, eeph := .data }
  | .data =>
    require (decide (s.eeptr.toNat < s.cfg.eeSize)) .eepromRange
    set { s with ee := s.ee.write s.eeptr.toNat b, eeph := .done }
  | .done => refuse .deviceUnspecified
  | .devIdle => refuse .deviceUnspecified

/-- The RTC takes a data byte (10_state.md R53). -/
def rtcTakes (b : Byte) : Op Unit := do
  let s ← get
  match s.rtcph with
  | .reg => set { s with rtcptr := b, rtcph := .data }
  | .data => set { s with rtcreg := s.rtcreg.write s.rtcptr.toNat b, rtcph := .done }
  | .done => refuse .deviceUnspecified
  | .devIdle => refuse .deviceUnspecified

/-- The selected device takes an acknowledged data byte. An address that is neither device's is answered
only by a free DevAck, and the spec gives that device no state (log 17). -/
def deviceTakes (a : DevAddr) (b : Byte) : Op Unit := do
  let c ← look State.cfg
  if a = c.eeDev then eeTakes b
  else if a = c.rtcDev then rtcTakes b
  else pure ()

/-- The EEPROM sends the byte under its pointer (10_state.md R51), once in a transaction (U9). -/
def eeSends : Op Byte := do
  let s ← get
  require (!s.eeSent) .deviceUnspecified
  require (decide (s.eeptr.toNat < s.cfg.eeSize)) .eepromRange
  set { s with eeSent := true }
  pure (s.ee.read s.eeptr.toNat)

/-- The RTC sends the register under its pointer (10_state.md R53), once in a transaction (U9). -/
def rtcSends : Op Byte := do
  let s ← get
  require (!s.rtcSent) .deviceUnspecified
  set { s with rtcSent := true }
  pure (s.rtcreg.read s.rtcptr.toNat)

/-- The byte on the bus when the master reads: the selected device's, or a draw if no device that the
spec describes is selected (40_bus_primitives.md R127, U5). DESIGN CHOICE (log 15): in the second case a further
READ of the transaction, also after a READ NACK, draws again, though U9's words may be read to refuse it; U9's
refusal is the EEPROM's and the RTC's. -/
def deviceSends (sel : Option DevAddr) : Op Byte := do
  let c ← look State.cfg
  match sel with
  | none => draw
  | some a =>
    if a = c.eeDev then eeSends
    else if a = c.rtcDev then rtcSends
    else draw

/-! ## The BUS agent's completions -/

/-- START completes (40_bus_primitives.md R125). DR is unspecified after it, success or not (R24; log
22). -/
def completeStart : Op Unit := do
  let o ← busOutcome
  let d ← draw
  match o with
  | some c => modify fun s => { s with st := .fail c, dr := d }
  | none =>
    modify fun s =>
      { s with wire := s.wire ++ [startEvent s.ph], st := startStatus s.ph, ph := .addrPending, dr := d }

/-- The address frame of WRITE completes (40_bus_primitives.md R126, case AddrPending). -/
def completeAddress (b : Byte) : Op Unit := do
  let c ← look State.cfg
  let a := addrOf b
  let d := dirOf b
  let k ← devAck (decide (a = c.eeDev) || decide (a = c.rtcDev))
  modify fun s =>
    let t := if k then deviceAddressed a d s else s
    { t with
      wire := s.wire ++ [.a a d k]
      sel := if k then some a else none
      ph := if d then .mr else .mt
      st := slaStatus d k }

/-- A data byte that the selected device acknowledges is taken by it (40_bus_primitives.md R126). -/
def takeIfAcked (a : DevAddr) (b : Byte) (k : Bool) : Op Unit :=
  if k then deviceTakes a b else pure ()

/-- The answer to a data frame: DevAck's for a selected device, not-acknowledge if there is none
(40_bus_primitives.md R126, case MT). -/
def answerData (b : Byte) : Option DevAddr → Op Bool
  | none => pure false
  | some a => do
    let k ← devAck true
    takeIfAcked a b k
    pure k

/-- The data frame of WRITE completes (40_bus_primitives.md R126, case MT). -/
def completeDataOut (b : Byte) : Op Unit := do
  let sel ← look State.sel
  let k ← answerData b sel
  modify fun s => { s with wire := s.wire ++ [.dw b k], st := dataOutStatus k }

/-- WRITE completes (40_bus_primitives.md R126). The HOST has refused the other phases. -/
def completeWrite (b : Byte) : Op Unit := do
  let ph ← look State.ph
  match ph with
  | .addrPending => completeAddress b
  | .mt => completeDataOut b
  | .idle => refuse .writeOutOfPhase
  | .mr => refuse .writeOutOfPhase

/-- READ completes (40_bus_primitives.md R127). -/
def completeRead (sendAck : Bool) : Op Unit := do
  let sel ← look State.sel
  let v ← deviceSends sel
  modify fun s =>
    { s with wire := s.wire ++ [.dr v sendAck], dr := v, st := dataInStatus sendAck }

/-- The completion of a primitive (40_bus_primitives.md R125 to R127). -/
def completion : Inflight → Op Unit
  | .none => pure ()
  | .start => completeStart
  | .write b => completeWrite b
  | .read sendAck => completeRead sendAck

/-- The completion of the primitive in flight, then `INFLIGHT <- None; DONE <- 1` (R129). -/
def completeInflight : Op Unit := do
  let op ← look State.inflight
  completion op
  modify fun s => { s with inflight := .none, done := true }

/-- The BUS agent must step before the HOST can go on: it does, or the HOST waits for ever (R122). -/
def busMustStep : Op Unit := fun s =>
  match spendBusStep s with
  | some t => .ok () t
  | none => .error .hang s

/-- `Issue(op)` (40_bus_primitives.md R121): `DONE <- 0; INFLIGHT <- op`, one atomic step. -/
def issue (op : Inflight) : Op Unit := modify fun s => { s with done := false, inflight := op }

/-- The BUS agent performs a stop condition that is still pending (R129), and the others may step. -/
def awaitStop : Op Unit := do
  if (← look State.stopping) then
    busMustStep
    modify completeStop
    point

/-- `AwaitDone()` (40_bus_primitives.md R121): the HOST spins until DONE is 1. The BUS agent performs a
pending stop first and then the primitive in flight (R129); the others may step before, between and
after. -/
def awaitDone : Op Unit := do
  point
  awaitStop
  busMustStep
  completeInflight
  point

end Sys2Proof.Machine
end

