-- ==== Sys2Proof/Machine/Bus.lean ====
section
/-! DEFINITION. The bus primitives (40_bus_primitives.md R120 to R131): TWINIT, START, WRITE, READ, STOP.
The pieces `bus...` are what the composites are made of; the `exec...` are the HOST's operations. -/

namespace Sys2Proof.Machine

/-- START, WRITE, READ and STOP need BR (R120, R281). -/
def requireBus : Op Unit := do
  let br ← look State.br
  require br.isSome .busNotInitialised

/-- START (R125): issue, wait, return the status. -/
def busStart : Op Status := do
  requireBus
  issue .start
  awaitDone
  look State.st

/-- A byte may be written in this phase (R126). -/
def Phase.canWrite : Phase → Bool
  | .idle => false
  | .addrPending => true
  | .mt => true
  | .mr => false

/-- WRITE b (R126): `DR <- b`, issue, wait, return the status. -/
def busWrite (b : Byte) : Op Status := do
  requireBus
  require (← look State.ph).canWrite .writeOutOfPhase
  modify fun s => { s with dr := b }
  issue (.write b)
  awaitDone
  look State.st

/-- READ sendAck (R127): issue, wait, return DR. -/
def busRead (sendAck : Bool) : Op Byte := do
  requireBus
  require (decide ((← look State.ph) = .mr)) .readOutOfPhase
  issue (.read sendAck)
  awaitDone
  look State.dr

/-- STOP (R128): `STOPPING <- 1; PH <- Idle`, ST and DR unspecified, as one atomic step; it does not
wait. -/
def busStop : Op Unit := do
  requireBus
  require (decide ((← look State.ph) ≠ .idle)) .stopWhileIdle
  let c ← draw
  let d ← draw
  modify fun s => { s with stopping := true, ph := .idle, st := Status.ofNumber c, dr := d }

/-- TWINIT khz (R124): `BR <- DivFor(khz, F_CLK_HZ)`; refused for a speed DivFor cannot realise and
inside an open transaction (U11, U12). -/
def busInit (khz : Half) : Op Unit := do
  require (decide ((← look State.ph) = .idle)) .busSpeed
  match divFor (← look State.cfg) khz with
  | some div => modify fun s => { s with br := some div }
  | none => refuse .busSpeed

/-- TWINIT khz (R124). -/
def execTwinit (khz : Half) (s : State) : Host.Outcome State Fault Refusal :=
  finish (noResult (busInit khz)) s

/-- START (R125); the result is the status number (30_encoding.md R109). -/
def execStart (s : State) : Host.Outcome State Fault Refusal :=
  finish (byteResult (Status.number <$> busStart)) s

/-- WRITE b (R126); the result is the status number (30_encoding.md R109). -/
def execWrite (b : Byte) (s : State) : Host.Outcome State Fault Refusal :=
  finish (byteResult (Status.number <$> busWrite b)) s

/-- READ sendAck (R127); the result is the byte received. -/
def execRead (sendAck : Bool) (s : State) : Host.Outcome State Fault Refusal :=
  finish (byteResult (busRead sendAck)) s

/-- STOP (R128). -/
def execStop (s : State) : Host.Outcome State Fault Refusal :=
  finish (noResult busStop) s

end Sys2Proof.Machine
end

