-- ==== Sys2Proof/Machine/Register.lean ====
section
/-! DEFINITION. The register-device protocol (41_register_protocol.md R150 to R161): WRREG, RDREG, EERD,
EEWR, EEGETCUR, EESETCUR. Each transaction is one fixed sequence of bus primitives, issued to its end
whatever the statuses (R154). -/

namespace Sys2Proof.Machine

/-- A composite operation begins only with no transaction open (R150). -/
def requireIdle : Op Unit := do
  require (decide ((← look State.ph) = .idle)) .compositeInOpenTransaction

/-- `Chk(e)` (R151): in the monitored configuration `ok` stays true only if ST is the expected status. -/
def chk (ok : Bool) (e : Status) : Op Bool := do
  if (← look State.cfg).monitored then
    pure (ok && decide ((← look State.st) = e))
  else pure ok

/-- START with its check (R151). -/
def startChk (ok : Bool) (e : Status) : Op Bool := do
  let _ ← busStart
  chk ok e

/-- WRITE of one byte with its check (R151). -/
def writeChk (ok : Bool) (b : Byte) (e : Status) : Op Bool := do
  let _ ← busWrite b
  chk ok e

/-- Data bytes written one after the other, each expected to be acknowledged (R151 to R157). -/
def writeAll (ok : Bool) : List Byte → Op Bool
  | [] => pure ok
  | b :: rest => do
    let ok ← writeChk ok b .mtDataAck
    writeAll ok rest

/-- The write transaction: start, select-device-for-write, the data bytes, stop (30_encoding.md R93,
R94). -/
def writeTransaction (dev : DevAddr) (bytes : List Byte) : Op Unit := do
  requireIdle
  let ok ← startChk true .start
  let ok ← writeChk ok (slaW dev) .mtSlaAck
  let _ ← writeAll ok bytes
  busStop

/-- The read transaction: start, select-device-for-write, the select bytes, repeated start,
select-device-for-read, one byte received with no acknowledge, stop (30_encoding.md R93, R94). A
monitored mismatch makes the result 0x00 (R153). -/
def readTransaction (dev : DevAddr) (select : List Byte) : Op Byte := do
  requireIdle
  let ok ← startChk true .start
  let ok ← writeChk ok (slaW dev) .mtSlaAck
  let ok ← writeAll ok select
  let ok ← startChk ok .rstart
  let ok ← writeChk ok (slaR dev) .mrSlaAck
  let v ← busRead false
  let ok ← chk ok .mrDataNack
  busStop
  pure (if ok then v else 0x00)

/-- WRREG dev, reg, val (R152). -/
def wrreg (dev : DevAddr) (reg val : Byte) : Op Unit := writeTransaction dev [reg, val]

/-- RDREG dev, reg (R153). -/
def rdreg (dev : DevAddr) (reg : Byte) : Op Byte := readTransaction dev [reg]

/-- EERD dev, addr (R156): the address high byte first (R155). -/
def eerd (dev : DevAddr) (addr : Half) : Op Byte := readTransaction dev [hiByte addr, loByte addr]

/-- EEWR dev, addr, val (R157). -/
def eewr (dev : DevAddr) (addr : Half) (val : Byte) : Op Unit :=
  writeTransaction dev [hiByte addr, loByte addr, val]

/-- EEGETCUR dev (R158): bytes 0 and 1, high first. -/
def eegetcur (dev : DevAddr) : Op Half := do
  let hi ← eerd dev 0
  point
  let lo ← eerd dev 1
  pure (joinBytes hi lo)

/-- EESETCUR dev, cursor (R159): high byte to 0, then low byte to 1. -/
def eesetcur (dev : DevAddr) (cursor : Half) : Op Unit := do
  eewr dev 0 (hiByte cursor)
  point
  eewr dev 1 (loByte cursor)

/-- WRREG dev, reg, val (R152). -/
def execWrreg (dev : DevAddr) (reg val : Byte) (s : State) : Host.Outcome State Fault Refusal :=
  finish (noResult (wrreg dev reg val)) s

/-- RDREG dev, reg (R153). -/
def execRdreg (dev : DevAddr) (reg : Byte) (s : State) : Host.Outcome State Fault Refusal :=
  finish (byteResult (rdreg dev reg)) s

/-- EERD dev, addr (R156). -/
def execEerd (dev : DevAddr) (addr : Half) (s : State) : Host.Outcome State Fault Refusal :=
  finish (byteResult (eerd dev addr)) s

/-- EEWR dev, addr, val (R157). -/
def execEewr (dev : DevAddr) (addr : Half) (val : Byte) (s : State) :
    Host.Outcome State Fault Refusal :=
  finish (noResult (eewr dev addr val)) s

/-- A 16-bit cursor as two result bytes, high then low (30_encoding.md R109). -/
def cursorResult (m : Op Half) : Op (List Byte) := do
  let c ← m
  pure [hiByte c, loByte c]

/-- EEGETCUR dev (R158); the result is the cursor as high byte, low byte (30_encoding.md R109). -/
def execEegetcur (dev : DevAddr) (s : State) : Host.Outcome State Fault Refusal :=
  finish (cursorResult (eegetcur dev)) s

/-- EESETCUR dev, cursor (R159). -/
def execEesetcur (dev : DevAddr) (cursor : Half) (s : State) : Host.Outcome State Fault Refusal :=
  finish (noResult (eesetcur dev cursor)) s

end Sys2Proof.Machine
end

