-- ==== Sys2Proof/Machine/Rtc.lean ====
section
/-! DEFINITION. BCD conversion and the real-time clock (42_rtc_protocol.md R170 to R179): TOBCD, FROMBCD,
RTCINIT, RTCGET, RTCSET. -/

namespace Sys2Proof.Machine

/-- The check of RTCINIT's first test, and its rewrite of the weekday register with only the battery bit
changed (R174). -/
def rtcBattery (dev : DevAddr) (batt : Bool) (w : Byte) : Op Unit := do
  let c ← look State.cfg
  if w.getLsbD c.bVbaten ≠ batt then wrreg dev c.rtcWkday (withBit w c.bVbaten batt)

/-- The start of a stopped oscillator: the start command, the settle delay, the re-check (R174). -/
def rtcStartOscillator (dev : DevAddr) : Op Bool := do
  let c ← look State.cfg
  wrreg dev c.rtcSec (startCommand c)
  delay c.rtcSettleMs
  let w ← rdreg dev c.rtcWkday
  pure (w.getLsbD c.bOscrun)

/-- RTCINIT dev, batt (R174). -/
def rtcinit (dev : DevAddr) (batt : Bool) : Op Bool := do
  let c ← look State.cfg
  let w ← rdreg dev c.rtcWkday
  point
  rtcBattery dev batt w
  point
  if w.getLsbD c.bOscrun then pure true else rtcStartOscillator dev

/-- RTCGET dev (R176): six single reads in the order year, month, day, hour, minute, second, each decoded
under its mask; the weekday has no value (U8), a draw. -/
def rtcget (dev : DevAddr) : Op TimeRecord := do
  let c ← look State.cfg
  let y ← rdreg dev c.rtcYear
  point
  let mo ← rdreg dev c.rtcMonth
  point
  let d ← rdreg dev c.rtcDate
  point
  let h ← rdreg dev c.rtcHour
  point
  let mi ← rdreg dev c.rtcMin
  point
  let s ← rdreg dev c.rtcSec
  let weekday ← draw
  let hr := hourDecode c h
  pure
    { year := fromBcdMasked y c.mYear
      month := fromBcdMasked mo c.mMonth
      day := fromBcdMasked d c.mDate
      weekday := weekday.toNat
      hour := hr.1
      mode12 := hr.2.1
      pm := hr.2.2
      minute := fromBcdMasked mi c.mMin
      second := fromBcdMasked s c.mSec }

/-- RTCSET dev, record (R178): refused before any bus activity if a field is above 99 or the hour does
not fit; then six single writes in the order year, month, day, hour, minute, second; the weekday is
ignored. -/
def rtcset (dev : DevAddr) (t : TimeRecord) : Op Unit := do
  requireIdle
  require (TimeRecord.settable t) .bcdDomain
  let c ← look State.cfg
  wrreg dev c.rtcYear (toBcdByte t.year)
  point
  wrreg dev c.rtcMonth (toBcdByte t.month)
  point
  wrreg dev c.rtcDate (toBcdByte t.day)
  point
  wrreg dev c.rtcHour (hourEncode c t.hour t.mode12 t.pm)
  point
  wrreg dev c.rtcMin (toBcdByte t.minute)
  point
  wrreg dev c.rtcSec (secondsByte c t.second)

/-- TOBCD v (R171): refused above 99. -/
def tobcd (v : Byte) : Op Byte := do
  require (decide (v.toNat ≤ 99)) .bcdDomain
  pure (toBcdByte v.toNat)

/-- FROMBCD b (R172): the formula, total on every byte. -/
def frombcd (b : Byte) : Op Byte := pure (BitVec.ofNat 8 (fromBcd b.toNat))

/-- RTCINIT dev, batt (R174); the result is 0x01 for success and 0x00 for failure (30_encoding.md R109). -/
def execRtcinit (dev : DevAddr) (batt : Bool) (s : State) : Host.Outcome State Fault Refusal :=
  finish (byteResult (boolByte <$> rtcinit dev batt)) s

/-- RTCGET dev (R176); the result is the record's eight bytes (30_encoding.md R109). -/
def execRtcget (dev : DevAddr) (s : State) : Host.Outcome State Fault Refusal :=
  finish (recordBytes <$> rtcget dev) s

/-- RTCSET dev, record (R178). -/
def execRtcset (dev : DevAddr) (t : TimeRecord) (s : State) : Host.Outcome State Fault Refusal :=
  finish (noResult (rtcset dev t)) s

/-- TOBCD v (R171). -/
def execTobcd (v : Byte) (s : State) : Host.Outcome State Fault Refusal :=
  finish (byteResult (tobcd v)) s

/-- FROMBCD b (R172). -/
def execFrombcd (b : Byte) (s : State) : Host.Outcome State Fault Refusal :=
  finish (byteResult (frombcd b)) s

end Sys2Proof.Machine
end

