-- ==== Sys2Proof/Machine/Sequencer.lean ====
section
/-! DEFINITION. The record/playback sequencer (43_sequencer.md R190 to R206): SEQINIT, SEQREINIT, SEQSTEP,
and the main loop's POLL (44_tick_timer.md R228). -/

namespace Sys2Proof.Machine

/-- `OUT <- v`, noted in the output's history (10_state.md R35, R59). -/
def setOut (v : Bool) : Op Unit := modify fun s => { s with out := v, outTrace := s.outTrace ++ [v] }

/-- `TIE <- v` (10_state.md R38). -/
def setTie (v : Bool) : Op Unit := modify fun s => { s with tie := v }

/-- `CS <- c` (10_state.md R30). -/
def setCs (c : Ctl) : Op Unit := modify fun s => { s with cs := c }

/-- `BC <- FIRST; BI <- i` (R193, R201, R202). -/
def rewind (i : BitVec 4) : Op Unit := modify fun s => { s with bc := s.cfg.first, bi := i }

/-- `Sample()` (R191): one read of the input line; true is asserted, the low level. -/
def sample : Op Bool := look fun s => !s.inp

/-- `Flash(n)` (R192): n times high, delay, low, delay. -/
def flash : Nat → Op Unit
  | 0 => pure ()
  | n + 1 => do
    let c ← look State.cfg
    setOut true
    delay c.flashOnMs
    setOut false
    delay c.flashOffMs
    flash n

/-- BeginAction (R201). -/
def beginAction : Op Unit := do
  setTie false
  point
  flash Config.beginFlashes
  rewind 0
  point
  setTie true
  point
  setCs .recording

/-- EndAction (R202). -/
def endAction : Op Unit := do
  setTie false
  point
  flash Config.endFlashes
  rewind 8
  point
  setTie true
  point
  setCs .replay

/-- ReplayBit's refill (R198): at bit 8 a fresh byte is read and the bit cursor goes to 0. -/
def refill : Op Unit := do
  let s ← get
  if s.bi = 8 then
    let v ← eerd s.cfg.eeDev s.bc
    modify fun t => { t with cur := v, bi := 0 }

/-- ReplayBit's advance of the byte cursor when the last bit of a byte has been driven, wrapping to
FIRST past LAST (R198). -/
def advanceReplay (s : State) : State :=
  if s.bi = 8 then
    let n := s.bc + 1
    { s with bc := if lastAddr s.cfg < n.toNat then s.cfg.first else n }
  else s

/-- ReplayBit (R198). -/
def replayBit : Op Unit := do
  refill
  point
  let s ← get
  setOut (s.cur.getLsbD s.bi.toNat)
  point
  modify fun t => { t with bi := t.bi + 1 }
  point
  modify advanceReplay

/-- RecordBit's sample into the accumulator (R200): zeroed at bit 0, bit BI set if asserted. -/
def accumulate (s : State) (asserted : Bool) : Byte :=
  let acc := if s.bi = 0 then 0x00 else s.acc
  if asserted then withBit acc s.bi.toNat true else acc

/-- RecordBit's end of a byte, after the store: the byte cursor advances without wrapping, the bit cursor
goes to 0, and past LAST the recording ends (R200). -/
def advanceRecord (s : State) : State :=
  let n := s.bc + 1
  { s with bc := n, bi := 0, cs := if lastAddr s.cfg < n.toNat then .endRecording else s.cs }

/-- RecordBit (R200). -/
def recordBit : Op Unit := do
  let asserted ← sample
  point
  modify fun s => { s with acc := accumulate s asserted }
  point
  modify fun s => { s with bi := s.bi + 1 }
  point
  let s ← get
  if s.bi = 8 then
    eewr s.cfg.eeDev s.bc s.acc
    point
    modify advanceRecord

/-- SEQSTEP in Replay (R195, R196, R197): a press goes to BeginRecording and performs its action in this
step, with no bit read or driven; otherwise one bit is replayed. -/
def stepReplay : Op Unit := do
  if ← sample then
    setCs .beginRecording
    point
    beginAction
  else replayBit

/-- SEQSTEP in Recording (R195, R196): one bit is recorded, and the step that stores the last byte
performs the end action. -/
def stepRecording : Op Unit := do
  recordBit
  point
  if (← look State.cs) = .endRecording then endAction

/-- The tick-processing step (R195), on each of the four states. -/
def seqStep : Op Unit := do
  requireIdle
  match ← look State.cs with
  | .replay => stepReplay
  | .recording => stepRecording
  | .beginRecording => beginAction
  | .endRecording => endAction

/-- SEQINIT (R193). -/
def seqInit : Op Unit := do
  setCs .replay
  rewind 8

/-- The `COUNT` writes of SEQREINIT, `n` of them left, the next at offset `i` (R204). -/
def reinitBuffer : Nat → Nat → Op Unit
  | 0, _ => pure ()
  | n + 1, i => do
    let c ← look State.cfg
    eewr c.eeDev (c.first + BitVec.ofNat 16 i) (pattern c i)
    point
    reinitBuffer n (i + 1)

/-- SEQREINIT (R204). -/
def seqReinit : Op Unit := do
  requireIdle
  flash Config.beginFlashes
  reinitBuffer (← look State.cfg).count 0
  flash Config.endFlashes
  seqInit

/-- POLL (44_tick_timer.md R228): the read and the clear of PEND are two atomic steps. -/
def poll : Op Unit := do
  let p ← look State.pend
  if p then
    point
    modify fun s => { s with pend := false }
    point
    seqStep

/-- SEQINIT (R193). -/
def execSeqinit (s : State) : Host.Outcome State Fault Refusal :=
  finish (noResult seqInit) s

/-- SEQREINIT (R204). -/
def execSeqreinit (s : State) : Host.Outcome State Fault Refusal :=
  finish (noResult seqReinit) s

/-- SEQSTEP (R195). -/
def execSeqstep (s : State) : Host.Outcome State Fault Refusal :=
  finish (noResult seqStep) s

/-- POLL (44_tick_timer.md R228). -/
def execPoll (s : State) : Host.Outcome State Fault Refusal :=
  finish (noResult poll) s

end Sys2Proof.Machine
end

