-- ==== Sys2Proof/Machine/Timer.lean ====
section
/-! DEFINITION. The tick timer (44_tick_timer.md R222 to R230): TMRCFG, TMRIEON, TMRIEOFF, and the script's
TIMER and ENV steps TICK and SETIN (30_encoding.md R110). -/

namespace Sys2Proof.Machine

/-- TMRCFG ms (R222): refused for 0; `TCFG <- ms; TIE <- 1`. -/
def timerConfig (ms : Half) : Op Unit := do
  require (decide (ms ≠ 0)) .timerPeriod
  modify fun s => { s with tcfg := some ms, tie := true }

/-- `TIE <- v` as a HOST operation (R223, R224). -/
def timerMask (v : Bool) : Op Unit := modify fun s => { s with tie := v }

/-- The TIMER agent's step, now (R226): refused by the script runner if it is not enabled (30_encoding.md
R110). -/
def timerTick : Op Unit := do
  require (tickEnabled (← get)) .tickNotEnabled
  modify tickInterrupt

/-- The ENV agent's step `IN <- level` (R230). -/
def inputLevel (level : Bool) : Op Unit := modify fun s => { s with inp := level }

/-- TMRCFG ms (R222). -/
def execTmrcfg (ms : Half) (s : State) : Host.Outcome State Fault Refusal :=
  finish (noResult (timerConfig ms)) s

/-- TMRIEON (R223). -/
def execTmrieon (s : State) : Host.Outcome State Fault Refusal :=
  finish (noResult (timerMask true)) s

/-- TMRIEOFF (R224). -/
def execTmrieoff (s : State) : Host.Outcome State Fault Refusal :=
  finish (noResult (timerMask false)) s

/-- TICK (R226). -/
def execTick (s : State) : Host.Outcome State Fault Refusal :=
  finish (noResult timerTick) s

/-- SETIN level (R230). -/
def execSetin (level : Bool) (s : State) : Host.Outcome State Fault Refusal :=
  finish (noResult (inputLevel level)) s

end Sys2Proof.Machine
end

