-- ==== Sys2Proof/Machine/Dispatch.lean ====
section
/-! DEFINITION. The dispatch: each operation of the opcode map to its meaning (45_common_semantics.md
R231). -/

namespace Sys2Proof.Machine

def exec (i : Instr) (s : State) : Host.Outcome State Fault Refusal :=
  match i with
  | .twinit khz => Sys2Proof.Machine.execTwinit khz s
  | .start => Sys2Proof.Machine.execStart s
  | .write b => Sys2Proof.Machine.execWrite b s
  | .read sendAck => Sys2Proof.Machine.execRead sendAck s
  | .stop => Sys2Proof.Machine.execStop s
  | .wrreg dev reg val => Sys2Proof.Machine.execWrreg dev reg val s
  | .rdreg dev reg => Sys2Proof.Machine.execRdreg dev reg s
  | .eerd dev addr => Sys2Proof.Machine.execEerd dev addr s
  | .eewr dev addr val => Sys2Proof.Machine.execEewr dev addr val s
  | .eegetcur dev => Sys2Proof.Machine.execEegetcur dev s
  | .eesetcur dev cursor => Sys2Proof.Machine.execEesetcur dev cursor s
  | .rtcinit dev batt => Sys2Proof.Machine.execRtcinit dev batt s
  | .rtcget dev => Sys2Proof.Machine.execRtcget dev s
  | .rtcset dev record => Sys2Proof.Machine.execRtcset dev record s
  | .tobcd v => Sys2Proof.Machine.execTobcd v s
  | .frombcd b => Sys2Proof.Machine.execFrombcd b s
  | .seqinit => Sys2Proof.Machine.execSeqinit s
  | .seqreinit => Sys2Proof.Machine.execSeqreinit s
  | .seqstep => Sys2Proof.Machine.execSeqstep s
  | .poll => Sys2Proof.Machine.execPoll s
  | .tmrcfg ms => Sys2Proof.Machine.execTmrcfg ms s
  | .tmrieon => Sys2Proof.Machine.execTmrieon s
  | .tmrieoff => Sys2Proof.Machine.execTmrieoff s
  | .tick => Sys2Proof.Machine.execTick s
  | .setin level => Sys2Proof.Machine.execSetin level s

end Sys2Proof.Machine
end

