-- ==== Sys2Proof/Machine/Fetch.lean ====
section
/-! DEFINITION. What the HOST does next (30_encoding.md R100, 70_reset_and_hazards.md R294, 60_exceptions.md
R244). -/

namespace Sys2Proof.Machine

/-- What the HOST does next. -/
inductive Fetched where
  /-- It issues nothing: it is stuck in AwaitDone, or the command stream is empty. -/
  | waiting (t : State)
  /-- It issues this operation, whose bytes are taken off the stream. -/
  | operation (i : Instr) (t : State)
  /-- The stream's next bytes are no operation. -/
  | malformed (why : BadEncoding)
  deriving DecidableEq, Repr

/-- Take the next operation off the command stream. A stuck HOST takes none; with an empty stream the
HOST idles and the BUS agent finishes a pending stop condition. -/
def State.fetch (s : State) : Fetched :=
  if s.hung then .waiting s
  else
    match s.stream with
    | [] => .waiting (settleStop s)
    | b :: bs =>
      match decode (b :: bs) with
      | .ok (i, rest) => .operation i { s with stream := rest }
      | .error why => .malformed why

end Sys2Proof.Machine
end

