-- ==== Sys2Proof/Machine/Step.lean ====
section
/-! DEFINITION. One step of the machine, and where the host stores an instruction for it to run. -/

namespace Sys2Proof.Machine

/-- One step: an invalid configuration is refused (00_scope.md R10). Then the other agents take the steps
the schedule gives them before the HOST's next line. A HOST stuck in AwaitDone stays so (60_exceptions.md
R244). A HOST with nothing to issue idles while the BUS agent finishes a pending stop (70_reset_and_hazards
R294). Otherwise the next operation of the command stream is taken and performed (30_encoding.md R100). -/
def step (s : State) : Host.Outcome State Fault Refusal :=
  if configValid s.cfg then
    match s.others.fetch with
    | .waiting t => .next t
    | .operation i t => exec i t
    | .malformed why => .refused (.badEncoding why)
  else .refused .badConfiguration

/-- `s` with the instruction whose bits are `w` at the head of the command stream, which is where `step`
fetches, and with a HOST that is free to issue it. -/
def State.withFetchWord (s : State) (nbits w : Nat) : State :=
  { s with stream := tableBytes nbits w, hung := false }

end Sys2Proof.Machine
end

