-- ==== Sys2Proof/Machine/Boot.lean ====
section
/-! DEFINITION. The boot order (70_reset_and_hazards.md R280) and the main loop (44_tick_timer.md R221): the
HOST's own lines after power-up, made of the operations' own pieces; and the bytes of the operations they
issue. The gate of step 4 is a branch of the HOST, which a command stream does not have
(45_common_semantics.md R234). Log 24. -/

namespace Sys2Proof.Machine

/-- Step 4 of the boot order (R280): one sample of the input; SEQREINIT if it is asserted. -/
def bootGate : Op Unit := do
  if ← sample then
    point
    seqReinit

/-- Steps 2 to 5 of the boot order (R280): TWINIT, SEQINIT, the gate, TMRCFG. The other agents may step
before each line. -/
def boot : Op Unit := do
  let c ← look State.cfg
  point
  busInit c.busKhz
  point
  seqInit
  point
  bootGate
  point
  timerConfig c.tickPeriodMs

/-- Step 6 of the boot order: `n` turns of `forever { POLL }` (R221). -/
def mainLoop : Nat → Op Unit
  | 0 => pure ()
  | n + 1 => do
    point
    poll
    mainLoop n

/-- The operations that `boot` issues, where the gate samples an input that is asserted or not. -/
def bootOps (c : Config) (asserted : Bool) : List Instr :=
  [.twinit c.busKhz, .seqinit] ++ (if asserted then [.seqreinit] else []) ++ [.tmrcfg c.tickPeriodMs]

/-- The operations that `mainLoop` issues. -/
def pollLoop (n : Nat) : List Instr := List.replicate n .poll

/-- A HOST program as the bytes it gives the block (30_encoding.md R100). -/
def programBytes (p : List Instr) : List Byte := p.flatMap encode

end Sys2Proof.Machine
end

