-- ==== Sys2Proof/Safety.lean ====
section
/-! DEFINITION. The terms claims about the block are stated in: the spec's premises about the environment
(00_scope.md R13), what an operation leaves alone, the invariant of states between operations, and the
runs claims speak of. -/

namespace Sys2Proof.Machine

/-! ## Premises about the environment -/

/-- BusLive, in a state (10_state.md R55): the BUS agent has no last step, so that whatever waits for one goes
on. A pending stop that nothing waits for is a matter of a run: `BusLiveRun`. -/
abbrev BusLive (s : State) : Prop := s.busLeft = none

/-- IdealDevices, the default of DevAck (10_state.md R54). -/
abbrev IdealDevices (s : State) : Prop := s.ackScript = []

/-- The default of BusOutcome: every start succeeds (40_bus_primitives.md R130). -/
abbrev StartsSucceed (s : State) : Prop := s.startScript = []

/-- The default oracles together. -/
structure DefaultOracles (s : State) : Prop where
  live : BusLive s
  ideal : IdealDevices s
  starts : StartsSucceed s

/-- A script's schedule (30_encoding.md R110): between its lines, and inside an operation, no TIMER or ENV
step happens. -/
abbrev Scripted (s : State) : Prop := s.agenda = []

/-- A composite operation may be issued (41_register_protocol.md R150, 40_bus_primitives.md R120): no
transaction is open, and the bus has its speed. -/
structure BusReady (s : State) : Prop where
  idle : s.ph = .idle
  init : s.br.isSome

/-- The run of a finite HOST program is over (70_reset_and_hazards.md R294). -/
abbrev RunOver (s : State) : Prop :=
  s.hung = false ∧ s.stream = [] ∧ s.inflight = .none ∧ s.stopping = false

/-! ## What an operation leaves alone -/

/-- The configuration and the HOST's pending command bytes are unchanged. -/
structure SamePort (s t : State) : Prop where
  cfg : t.cfg = s.cfg
  stream : t.stream = s.stream

/-- The sequencer's registers are unchanged. -/
structure SameSequencer (s t : State) : Prop where
  cs : t.cs = s.cs
  bc : t.bc = s.bc
  bi : t.bi = s.bi
  acc : t.acc = s.acc
  cur : t.cur = s.cur

/-- The output and its history are unchanged. -/
structure SameOutput (s t : State) : Prop where
  out : t.out = s.out
  outTrace : t.outTrace = s.outTrace

/-- The timer's registers are unchanged. -/
structure SameTimer (s t : State) : Prop where
  tie : t.tie = s.tie
  tcfg : t.tcfg = s.tcfg

/-- The bus engine's registers, BR apart, are unchanged. -/
structure SameEngine (s t : State) : Prop where
  ph : t.ph = s.ph
  st : t.st = s.st
  dr : t.dr = s.dr
  done : t.done = s.done
  inflight : t.inflight = s.inflight
  stopping : t.stopping = s.stopping
  sel : t.sel = s.sel
  wire : t.wire = s.wire

/-- Every byte of the EEPROM reads as before. -/
def SameEe (s t : State) : Prop := ∀ a, t.ee.read a = s.ee.read a

/-- Every register of the RTC reads as before. -/
def SameRtc (s t : State) : Prop := ∀ r, t.rtcreg.read r = s.rtcreg.read r

/-- The EEPROM's own pointer and phase are unchanged. -/
structure SameEePointer (s t : State) : Prop where
  eeptr : t.eeptr = s.eeptr
  eeph : t.eeph = s.eeph
  eeSent : t.eeSent = s.eeSent

/-- The RTC's own pointer and phase are unchanged. -/
structure SameRtcPointer (s t : State) : Prop where
  rtcptr : t.rtcptr = s.rtcptr
  rtcph : t.rtcph = s.rtcph
  rtcSent : t.rtcSent = s.rtcSent

/-- The two devices are unchanged. -/
structure SameDevices (s t : State) : Prop where
  ee : SameEe s t
  rtc : SameRtc s t
  eePointer : SameEePointer s t
  rtcPointer : SameRtcPointer s t

/-- What the TIMER and ENV agents alone write is unchanged: PEND's set and IN. -/
structure SameLines (s t : State) : Prop where
  pend : t.pend = s.pend
  inp : t.inp = s.inp

/-- What a HOST-issued bus operation leaves alone: everything but the bus engine, the devices, and what
the other agents may change meanwhile. -/
structure OutsideBus (s t : State) : Prop where
  port : SamePort s t
  br : t.br = s.br
  sequencer : SameSequencer s t
  output : SameOutput s t
  timer : SameTimer s t
  /-- A tick that is pending stays pending (10_state.md R37). -/
  pend : s.pend = true → t.pend = true
  /-- Under a script's schedule no other agent moves. -/
  lines : Scripted s → SameLines s t

/-- Everything but the bus engine's registers, BR and the timer's registers is unchanged, and no result is
returned; used for the operations that touch neither devices nor the sequencer. -/
structure OutsideControl (s t : State) : Prop where
  port : SamePort s t
  sequencer : SameSequencer s t
  output : SameOutput s t
  devices : SameDevices s t
  engine : SameEngine s t
  resp : t.resp = s.resp

/-! ## The invariant of states between operations -/

/-- 10_state.md R31, R32, 43_sequencer.md R196: between steps CS is Replay or Recording, the byte cursor
lies in the buffer, and the bit cursor in the range of that state. -/
def SequencerRest (s : State) : Prop :=
  s.cfg.first.toNat ≤ s.bc.toNat ∧ s.bc.toNat ≤ lastAddr s.cfg ∧
  ((s.cs = .replay ∧ 1 ≤ s.bi.toNat ∧ s.bi.toNat ≤ 8) ∨ (s.cs = .recording ∧ s.bi.toNat ≤ 7))

/-- 20_memory.md R64, 10_state.md R50, R52: the devices' memories are canonical and inside the devices. -/
def DeviceMemory (s : State) : Prop :=
  s.ee.wf = true ∧ s.ee.below s.cfg.eeSize = true ∧ s.rtcreg.wf = true ∧ s.rtcreg.below 256 = true

/-- The bus engine between operations (10_state.md R22, R26, R27, R28; 40_bus_primitives.md R129,
R131): no transaction is open before BR has a value, a stop is pending only with no transaction open, a
device is selected only inside a transaction or until its stop is on the wire, and a primitive is in flight
only while the HOST is stuck. -/
structure EngineRest (s : State) : Prop where
  open_init : s.ph ≠ .idle → s.br.isSome
  stop_idle : s.stopping = true → s.ph = .idle
  sel_open : s.sel ≠ none → s.ph ≠ .idle ∨ s.stopping = true
  flight_hung : s.inflight ≠ .none → s.hung = true

/-- A device is marked as having sent its byte only inside a transaction, or until the stop of that
transaction is on the wire (10_state.md R51, R53, U9; log 15). -/
def SentOpen (s : State) : Prop :=
  s.eeSent = true ∨ s.rtcSent = true → s.ph ≠ .idle ∨ s.stopping = true

/-- The invariant: a valid configuration, canonical device memories, an engine at rest, and, unless the
HOST is stuck inside an operation, a sequencer at rest. -/
structure Inv (s : State) : Prop where
  config : configValid s.cfg = true
  memory : DeviceMemory s
  engine : EngineRest s
  sequencer : s.hung = false → SequencerRest s

/-! ## Primitives -/

/-- The devices' pointers and phases, and the selection, are those of the state with its pending stop
condition performed (40_bus_primitives.md R129). -/
structure DevicesAfterStop (s t : State) : Prop where
  sel : t.sel = (settleStop s).sel
  eeptr : t.eeptr = s.eeptr
  eeph : t.eeph = (settleStop s).eeph
  eeSent : t.eeSent = (settleStop s).eeSent
  rtcptr : t.rtcptr = s.rtcptr
  rtcph : t.rtcph = (settleStop s).rtcph
  rtcSent : t.rtcSent = (settleStop s).rtcSent

/-- The wire once a pending stop is on it (40_bus_primitives.md R129). -/
def wireSettled (s : State) : List WireEvent := s.wire ++ (if s.stopping then [.p] else [])

/-- START, WRITE or READ has completed (40_bus_primitives.md R129): DONE is set, nothing is in flight, any
earlier stop and then `events` are on the wire, and nothing outside the bus has changed. -/
structure Completed (s t : State) (events : List WireEvent) : Prop where
  outside : OutsideBus s t
  hung : t.hung = s.hung
  done : t.done = true
  inflight : t.inflight = .none
  stopping : t.stopping = false
  wire : t.wire = wireSettled s ++ events

/-- A primitive may be issued and will complete: BR is set, the BUS agent is alive, DevAck and BusOutcome are
the defaults, and the engine is at rest. -/
structure PrimitiveReady (s : State) : Prop where
  init : s.br.isSome
  oracles : DefaultOracles s
  engine : EngineRest s

/-- As `PrimitiveReady`, with DevAck and BusOutcome free. -/
structure PrimitiveLive (s : State) : Prop where
  init : s.br.isSome
  live : BusLive s
  engine : EngineRest s

/-- DevAck's answer to the `i`-th frame from here, where IdealDevices would answer `ideal` (10_state.md R54;
log 8). -/
def ackAt (s : State) (i : Nat) (ideal : Bool) : Bool := s.ackScript[i]?.join.getD ideal

/-- A data byte goes out and is not acknowledged: no device takes it (40_bus_primitives.md R126). -/
structure NotTaken (s t : State) (b : Byte) : Prop where
  completed : Completed s t [.dw b false]
  st : t.st = .mtDataNack
  resp : t.resp = s.resp ++ [0x30]
  dr : t.dr = b
  ph : t.ph = s.ph
  sel : t.sel = s.sel
  ee : SameEe s t
  rtc : Scripted s → SameRtc s t
  eePointer : SameEePointer s t
  rtcPointer : SameRtcPointer s t

/-! ## Transactions on the wire -/

/-- A device of the ideal environment: DevAck answers for the two devices and for no other address
(10_state.md R54). -/
def answers (c : Config) (dev : DevAddr) : Bool := decide (dev = c.eeDev) || decide (dev = c.rtcDev)

/-- The events of a write transaction before its stop (30_encoding.md R94), acknowledged or not. -/
def writeEvents (dev : DevAddr) (k : Bool) (bytes : List Byte) : List WireEvent :=
  .s :: .a dev false k :: bytes.map (fun b => .dw b k)

/-- The events of a read transaction before its stop (30_encoding.md R94), acknowledged or not. -/
def readEvents (dev : DevAddr) (k : Bool) (select : List Byte) (b : Byte) : List WireEvent :=
  writeEvents dev k select ++ [.sr, .a dev true k, .dr b false]

/-- A composite operation has put `events` on the wire, the last transaction being with `dev`, whose stop
condition is pending (40_bus_primitives.md R128): the engine is idle again and nothing outside the bus has
changed. -/
structure Closed (s t : State) (dev : DevAddr) (k : Bool) (events : List WireEvent) : Prop where
  outside : OutsideBus s t
  hung : t.hung = s.hung
  ph : t.ph = .idle
  done : t.done = true
  inflight : t.inflight = .none
  stopping : t.stopping = true
  sel : t.sel = if k then some dev else none
  wire : t.wire = wireSettled s ++ events

/-- What a composite operation needs to run to its end: a HOST that is not stuck, a valid configuration, no
open transaction, BR set, the default oracles, canonical device memories and an engine at rest. -/
structure Ready (s : State) : Prop where
  running : s.hung = false
  config : configValid s.cfg = true
  bus : BusReady s
  engine : EngineRest s
  oracles : DefaultOracles s
  memory : DeviceMemory s

/-! ## Transactions with a free DevAck -/

/-- As `Ready`, with DevAck free. -/
structure ReadyAnyAck (s : State) : Prop where
  running : s.hung = false
  config : configValid s.cfg = true
  bus : BusReady s
  engine : EngineRest s
  live : BusLive s
  starts : StartsSucceed s
  memory : DeviceMemory s

/-- The answer to the address frame that selects `dev` for writing, the first frame of a transaction. -/
def selectAck (s : State) (dev : DevAddr) : Bool := ackAt s 0 (answers s.cfg dev)

/-- The answers to the `n` data frames after it: DevAck's for a selected device, not-acknowledge if there is
none (40_bus_primitives.md R126). -/
def dataAcks (s : State) (dev : DevAddr) (n : Nat) : List Bool :=
  (List.range n).map (fun i => selectAck s dev && ackAt s (i + 1) true)

/-- How many of DevAck's answers that address frame and those data frames use up. -/
def framesAnswered (s : State) (dev : DevAddr) (n : Nat) : Nat := if selectAck s dev then n + 1 else 1

/-- The data bytes that the selected device takes: the acknowledged ones (40_bus_primitives.md R126). -/
def takenBytes (s : State) (dev : DevAddr) (bytes : List Byte) : List Byte :=
  ((bytes.zip (dataAcks s dev bytes.length)).filter (fun p => p.2)).map (fun p => p.1)

/-- The events of a write transaction before its stop, each frame with its own answer. -/
def frameEvents (s : State) (dev : DevAddr) (bytes : List Byte) : List WireEvent :=
  .s :: .a dev false (selectAck s dev) ::
    (bytes.zip (dataAcks s dev bytes.length)).map (fun p => .dw p.1 p.2)

/-- The EEPROM's pointer, after an address frame for writing and the data bytes taken (10_state.md R51). -/
def eePointerAfter (p : Half) : List Byte → Half
  | [] => p
  | [h] => joinBytes h (loByte p)
  | h :: l :: _ => joinBytes h l

/-- The EEPROM's array after them: the third byte taken is stored (10_state.md R51). -/
def eeAfter (m : Memory) : List Byte → Memory
  | [h, l, v] => m.write (joinBytes h l).toNat v
  | _ => m

/-- The RTC's pointer after them (10_state.md R53). -/
def rtcPointerAfter (p : Byte) : List Byte → Byte
  | [] => p
  | r :: _ => r

/-- The RTC's registers after them: the second byte taken is stored (10_state.md R53). -/
def rtcAfter (m : Memory) : List Byte → Memory
  | [r, v] => m.write r.toNat v
  | _ => m

/-- What the two devices hold after a transaction that offered `bytes` to `dev`: each has taken what it
acknowledged, and a byte that was not acknowledged is nowhere. -/
structure Took (s t : State) (dev : DevAddr) (bytes : List Byte) : Prop where
  ee : ∀ a, t.ee.read a =
    (if dev = s.cfg.eeDev then eeAfter s.ee (takenBytes s dev bytes) else s.ee).read a
  rtc : Scripted s → ∀ r, t.rtcreg.read r =
    (if dev = s.cfg.rtcDev then rtcAfter s.rtcreg (takenBytes s dev bytes) else s.rtcreg).read r
  eeptr : t.eeptr = if dev = s.cfg.eeDev then eePointerAfter s.eeptr (takenBytes s dev bytes) else s.eeptr
  rtcptr : t.rtcptr =
    if dev = s.cfg.rtcDev then rtcPointerAfter s.rtcptr (takenBytes s dev bytes) else s.rtcptr

/-- A write transaction, whatever DevAck answered (41_register_protocol.md R154). -/
structure WroteFrames (s t : State) (dev : DevAddr) (bytes : List Byte) : Prop where
  closed : Closed s t dev (selectAck s dev) (frameEvents s dev bytes)
  took : Took s t dev bytes
  acks : t.ackScript = s.ackScript.drop (framesAnswered s dev bytes.length)

/-- The answer to the address frame for reading, after the select bytes. -/
def readAck (s : State) (dev : DevAddr) (n : Nat) : Bool :=
  ackAt s (framesAnswered s dev n) (answers s.cfg dev)

/-- Every frame of a read transaction was acknowledged, as the monitored configuration demands
(41_register_protocol.md R153). -/
def allAcked (s : State) (dev : DevAddr) (n : Nat) : Bool :=
  selectAck s dev && (dataAcks s dev n).all id && readAck s dev n

/-- The result of a read transaction that received `v` (41_register_protocol.md R153). -/
def readResult (s : State) (dev : DevAddr) (n : Nat) (v : Byte) : Byte :=
  if s.cfg.monitored && !allAcked s dev n then 0x00 else v

/-- A read transaction that received `v`, whatever DevAck answered (41_register_protocol.md R154): the byte is
that of the device that acknowledged the address frame for reading, or some byte if none did. -/
structure ReadFrames (s t : State) (dev : DevAddr) (select : List Byte) (v : Byte) : Prop where
  closed : Closed s t dev (readAck s dev select.length)
    (frameEvents s dev select ++ [.sr, .a dev true (readAck s dev select.length), .dr v false])
  took : Took s t dev select
  ee : readAck s dev select.length = true → dev = s.cfg.eeDev → v = t.ee.read t.eeptr.toNat
  rtc : readAck s dev select.length = true → Scripted s → dev = s.cfg.rtcDev →
    v = t.rtcreg.read t.rtcptr.toNat
  acks : t.ackScript = s.ackScript.drop (framesAnswered s dev select.length + 1)

/-- Where the EEPROM answers a read transaction, it has the address that its pointer shows (20_memory.md
R64). -/
def MaySend (s : State) (dev : DevAddr) (select : List Byte) : Prop :=
  dev = s.cfg.eeDev → readAck s dev select.length = true →
    (eePointerAfter s.eeptr (takenBytes s dev select)).toNat < s.cfg.eeSize

/-! ## The operations in an open transaction -/

/-- The composite operations (30_encoding.md R107): those that R150 refuses in an open transaction, POLL
apart, which is one SEQSTEP. -/
def composite : Instr → Bool
  | .twinit _ => false
  | .start => false
  | .write _ => false
  | .read _ => false
  | .stop => false
  | .wrreg _ _ _ => true
  | .rdreg _ _ => true
  | .eerd _ _ => true
  | .eewr _ _ _ => true
  | .eegetcur _ => true
  | .eesetcur _ _ => true
  | .rtcinit _ _ => true
  | .rtcget _ => true
  | .rtcset _ _ => true
  | .tobcd _ => false
  | .frombcd _ => false
  | .seqinit => false
  | .seqreinit => true
  | .seqstep => true
  | .poll => false
  | .tmrcfg _ => false
  | .tmrieon => false
  | .tmrieoff => false
  | .tick => false
  | .setin _ => false

/-! ## The command stream -/

/-- Which operand bytes of a format have reserved bits, and which bits (30_encoding.md R101, R105): the
byte's index after the opcode, and the mask of its reserved bits. -/
def reservedBits : Format → List (Nat × Byte)
  | .n => []
  | .b => []
  | .k => [(0, 0xFE)]
  | .h => []
  | .d => [(0, 0x80)]
  | .dk => [(0, 0x80), (1, 0xFE)]
  | .dr => [(0, 0x80)]
  | .drv => [(0, 0x80)]
  | .da => [(0, 0x80)]
  | .dav => [(0, 0x80)]
  | .dt => [(0, 0x80), (6, 0xFC)]

/-! ## The RTC -/

/-- The RTC's registers after the six writes of RTCSET, in the order year, month, day, hour, minute, second
(42_rtc_protocol.md R178). -/
def rtcAfterSet (c : Config) (m : Memory) (r : TimeRecord) : Memory :=
  (((((m.write c.rtcYear.toNat (toBcdByte r.year)).write c.rtcMonth.toNat (toBcdByte r.month)).write
    c.rtcDate.toNat (toBcdByte r.day)).write c.rtcHour.toNat (hourEncode c r.hour r.mode12 r.pm)).write
    c.rtcMin.toNat (toBcdByte r.minute)).write c.rtcSec.toNat (secondsByte c r.second)

/-- The record that RTCGET reads off the RTC's registers, with some weekday (42_rtc_protocol.md R176). -/
def rtcRecord (c : Config) (m : Memory) (weekday : Byte) : TimeRecord :=
  let h := m.read c.rtcHour.toNat
  { year := fromBcdMasked (m.read c.rtcYear.toNat) c.mYear
    month := fromBcdMasked (m.read c.rtcMonth.toNat) c.mMonth
    day := fromBcdMasked (m.read c.rtcDate.toNat) c.mDate
    weekday := weekday.toNat
    hour := (hourDecode c h).1
    mode12 := (hourDecode c h).2.1
    pm := (hourDecode c h).2.2
    minute := fromBcdMasked (m.read c.rtcMin.toNat) c.mMin
    second := fromBcdMasked (m.read c.rtcSec.toNat) c.mSec }

/-- The weekday register after RTCINIT's battery test, and the RTC's registers with it
(42_rtc_protocol.md R174). -/
def rtcAfterBattery (c : Config) (m : Memory) (batt : Bool) : Memory :=
  let w := m.read c.rtcWkday.toNat
  if w.getLsbD c.bVbaten = batt then m else m.write c.rtcWkday.toNat (withBit w c.bVbaten batt)

/-- The oscillator-running bit that RTCINIT tests first (42_rtc_protocol.md R174). -/
def oscillatorRuns (c : Config) (m : Memory) : Bool := (m.read c.rtcWkday.toNat).getLsbD c.bOscrun

/-- RTCINIT's lines before the start of a stopped oscillator (42_rtc_protocol.md R174); the result is the
weekday register as first read. -/
def rtcBeforeStart (dev : DevAddr) (batt : Bool) : Op Byte := do
  let c ← look State.cfg
  let w ← rdreg dev c.rtcWkday
  point
  rtcBattery dev batt w
  point
  pure w

/-- Transactions one after the other, each stopped before the next starts (40_bus_primitives.md R129). -/
def transactions (l : List (List WireEvent)) : List WireEvent := List.intercalate [WireEvent.p] l

/-- The transactions of RTCINIT with the RTC, where the registers hold `m` (42_rtc_protocol.md R174). -/
def rtcInitTransactions (c : Config) (m : Memory) (batt : Bool) : List (List WireEvent) :=
  let w := m.read c.rtcWkday.toNat
  let started := (rtcAfterBattery c m batt).write c.rtcSec.toNat (startCommand c)
  [readEvents c.rtcDev true [c.rtcWkday] w] ++
  (if w.getLsbD c.bVbaten = batt then []
   else [writeEvents c.rtcDev true [c.rtcWkday, withBit w c.bVbaten batt]]) ++
  (if oscillatorRuns c m then []
   else [writeEvents c.rtcDev true [c.rtcSec, startCommand c],
     readEvents c.rtcDev true [c.rtcWkday] (started.read c.rtcWkday.toNat)])

/-- The six transactions of RTCGET with the RTC, in the order year, month, day, hour, minute, second
(42_rtc_protocol.md R176). -/
def rtcGetTransactions (c : Config) (m : Memory) : List (List WireEvent) :=
  [c.rtcYear, c.rtcMonth, c.rtcDate, c.rtcHour, c.rtcMin, c.rtcSec].map
    (fun reg => readEvents c.rtcDev true [reg] (m.read reg.toNat))

/-- The six transactions of RTCSET with a device, in the order year, month, day, hour, minute, second
(42_rtc_protocol.md R178). -/
def rtcSetTransactions (c : Config) (dev : DevAddr) (r : TimeRecord) : List (List WireEvent) :=
  [writeEvents dev (answers c dev) [c.rtcYear, toBcdByte r.year],
   writeEvents dev (answers c dev) [c.rtcMonth, toBcdByte r.month],
   writeEvents dev (answers c dev) [c.rtcDate, toBcdByte r.day],
   writeEvents dev (answers c dev) [c.rtcHour, hourEncode c r.hour r.mode12 r.pm],
   writeEvents dev (answers c dev) [c.rtcMin, toBcdByte r.minute],
   writeEvents dev (answers c dev) [c.rtcSec, secondsByte c r.second]]

/-- The time registers have six different numbers. -/
def timeRegistersDistinct (c : Config) : Prop :=
  [c.rtcYear, c.rtcMonth, c.rtcDate, c.rtcHour, c.rtcMin, c.rtcSec].Nodup

/-! ## The sequencer -/

/-- The values `Flash(n)` drives (43_sequencer.md R192). -/
def flashTrace (n : Nat) : List Bool := (List.replicate n [true, false]).flatten

/-- The transactions of SEQREINIT, each with its stop: one EEWR for each byte of the buffer, at ascending
addresses (43_sequencer.md R204). -/
def reinitEvents (c : Config) : List WireEvent :=
  (List.range c.count).flatMap (fun i =>
    let a := c.first + BitVec.ofNat 16 i
    writeEvents c.eeDev true [hiByte a, loByte a, pattern c i] ++ [.p])

/-- The state in which the begin or the end action starts: after a press in Replay, CS is BeginRecording and
the other agents may have stepped (43_sequencer.md R197). -/
def actionStart (s : State) : State :=
  if s.cs = .replay then { s with cs := .beginRecording }.others else s

/-- The lines of the begin or the end action up to the one that enables the tick interrupt again
(43_sequencer.md R201, R202). -/
def maskedAction (cs : Ctl) : Op Unit := do
  setTie false
  point
  flash (if cs = .endRecording then 5 else 3)
  rewind (if cs = .endRecording then 8 else 0)
  point

/-- The last lines of the begin or the end action (43_sequencer.md R201, R202). -/
def unmaskInto (cs : Ctl) : Op Unit := do
  setTie true
  point
  setCs cs

/-- Bit `t` of the recorded sequence, read off the EEPROM (43_sequencer.md R199): bit `t % 8` of the byte at
`FIRST + (t / 8) % COUNT`. -/
def sequenceBit (c : Config) (ee : Memory) (t : Nat) : Bool :=
  (ee.read (c.first.toNat + t / 8 % c.count)).getLsbD (t % 8)

/-- The EEPROM address of the byte that replay fetches for the `j`-th time (43_sequencer.md R199). -/
def replayAddress (c : Config) (j : Nat) : Half := c.first + BitVec.ofNat 16 (j % c.count)

/-- An address of the sample buffer (20_memory.md R61). -/
def inBuffer (c : Config) (a : Nat) : Prop := c.first.toNat ≤ a ∧ a ≤ lastAddr c

/-! ## Runs -/

/-- The sequencer's ticks with the input at the given levels: each level is set (44_tick_timer.md R230)
and one tick-processing step follows (43_sequencer.md R195). -/
def tickRun : List Bool → State → Host.Outcome State Fault Refusal
  | [], s => .next s
  | level :: rest, s =>
    match exec (.setin level) s with
    | .next t =>
      match exec .seqstep t with
      | .next u => tickRun rest u
      | .fault r => .fault r
      | .refused r => .refused r
    | .fault r => .fault r
    | .refused r => .refused r

/-- Two operations in a row. -/
def execTwo (i j : Instr) (s : State) : Host.Outcome State Fault Refusal :=
  match exec i s with
  | .next t => exec j t
  | .fault r => .fault r
  | .refused r => .refused r

/-- `n` steps of the machine. -/
def steps : Nat → State → Host.Outcome State Fault Refusal
  | 0, s => .next s
  | n + 1, s =>
    match step s with
    | .next t => steps n t
    | .fault r => .fault r
    | .refused r => .refused r

/-- Operations one after the other. -/
def execAll : List Instr → State → Host.Outcome State Fault Refusal
  | [], s => .next s
  | i :: rest, s =>
    match exec i s with
    | .next t => execAll rest t
    | .fault r => .fault r
    | .refused r => .refused r

/-- `n` firings of the timer, one after the other (44_tick_timer.md R226). -/
def ticks : Nat → State → Host.Outcome State Fault Refusal
  | 0, s => .next s
  | n + 1, s =>
    match exec .tick s with
    | .next t => ticks n t
    | .fault r => .fault r
    | .refused r => .refused r

/-! ## Runs without end, and their fairness -/

/-- What comes from outside the block before each step of a run without end: the HOST's next command bytes
(30_encoding.md R100), and what the other agents do at the interleaving points that follow (00_scope.md
R17). -/
structure Arrivals where
  bytes : Nat → List Byte
  schedule : Nat → List (List AgentStep)

/-- The state in which the `n`-th step is taken. -/
def Arrivals.deliver (w : Arrivals) (n : Nat) (s : State) : State :=
  { s with stream := s.stream ++ w.bytes n, agenda := s.agenda ++ w.schedule n }

/-- A run without end: `σ n` is the state after `n` steps. -/
def Run (w : Arrivals) (σ : Nat → State) : Prop := ∀ n, step (w.deliver n (σ n)) = .next (σ (n + 1))

/-- The operation that a step from `s` takes off the stream, if it takes one. -/
def nextOp (s : State) : Option Instr :=
  if s.hung then none else (decode s.stream).toOption.map (fun p => p.1)

/-- The step from `s` to `t` performs a begin or an end action, which masks TICK while it lasts
(43_sequencer.md R201, R202): a tick-processing step that changes CS. -/
def Masks (s t : State) : Prop := (nextOp s = some .seqstep ∨ nextOp s = some .poll) ∧ t.cs ≠ s.cs

/-- TICK is enabled in the `n`-th state and in every later one, and no step on the way masks it
(44_tick_timer.md R226). -/
def StaysEnabled (w : Arrivals) (σ : Nat → State) (n : Nat) : Prop :=
  ∀ m, n ≤ m → tickEnabled (σ m) = true ∧ ¬ Masks (w.deliver m (σ m)) (σ (m + 1))

/-- The TIMER takes its step in the step of the machine from `s` to `t`: at one of the interleaving points
that this step uses up, or as the script's TICK (30_encoding.md R110). -/
def TimerSteps (s t : State) : Prop :=
  (∃ used, s.agenda = used ++ t.agenda ∧ ∃ steps ∈ used, AgentStep.tick ∈ steps) ∨
    nextOp s = some .tick

/-- TimerLive (00_scope.md R13, 44_tick_timer.md R227), the fairness of the TIMER agent: from every state of
the run, if TICK stays enabled the TIMER eventually takes its step. -/
def TimerLive (w : Arrivals) (σ : Nat → State) : Prop :=
  ∀ n, StaysEnabled w σ n → ∃ m, n ≤ m ∧ TimerSteps (w.deliver m (σ m)) (σ (m + 1))

/-- BusLive over a run without end (10_state.md R55), the fairness of the BUS agent: from every state of the run
in which its step is enabled (40_bus_primitives.md R129), the completion step is eventually taken. -/
structure BusLiveRun (σ : Nat → State) : Prop where
  /-- A pending stop condition reaches the wire, before anything else does. -/
  stop : ∀ n, (σ n).stopping = true → ∃ m, n ≤ m ∧ (σ n).wire ++ [.p] <+: (σ m).wire
  /-- A primitive in flight completes, and none is in flight. -/
  primitive : ∀ n, (σ n).inflight ≠ .none → ∃ m, n ≤ m ∧ (σ m).inflight = .none

end Sys2Proof.Machine
end

