-- ==== Sys2Proof/Certificates/Slice0/Obligations.lean ====
section
/-! DEFINITION. The statements for the provers. Each says which rule of the spec it formalises, or what of
the model's own it rests on. -/

open Sys2Proof Sys2Proof.Machine

/-! ## The command stream -/

/-- 30_encoding.md R100 to R103: every well-formed operation, with every operand at every value its format
admits, decodes from its own encoding, whatever bytes follow it. -/
def Obligations.DecodeEncodeAgree : Prop :=
  ∀ (i : Instr) (rest : List Byte), i.wf = true → decode (encode i ++ rest) = .ok (i, rest)

/-- 30_encoding.md R100 to R103: what decodes was well-formed and was exactly its own encoding, so that no
operation has two encodings. -/
def Obligations.EncodeDecodeAgree : Prop :=
  ∀ (bs : List Byte) (i : Instr) (rest : List Byte),
    decode bs = .ok (i, rest) → i.wf = true ∧ bs = encode i ++ rest

/-- 30_encoding.md R106: the opcode byte alone decides the length; a stream that ends inside the operation
is refused, and no other is refused for its length. -/
def Obligations.OpcodeDecidesLength : Prop :=
  ∀ (op : Byte) (f : Format), formatOf op = some f → ∀ bs : List Byte,
    (decode (op :: bs) = .error .truncated ↔ bs.length + 1 < f.length) ∧
    ∀ (i : Instr) (rest : List Byte), decode (op :: bs) = .ok (i, rest) →
      bs.length + 1 = f.length + rest.length

/-- 30_encoding.md R105, R103: an opcode byte is refused as unassigned exactly if it is not in the map; a
complete operation is refused for its reserved operand bits exactly if one of them is not zero, and decodes
otherwise. -/
def Obligations.ReservedEncodingsRefused : Prop :=
  (∀ (op : Byte) (bs : List Byte), decode (op :: bs) = .error .unassignedOpcode ↔ formatOf op = none) ∧
  ∀ (op : Byte) (f : Format) (bs : List Byte), formatOf op = some f → f.length ≤ bs.length + 1 →
    (decode (op :: bs) = .error .reservedBits ↔
      ∃ p ∈ reservedBits f, ∃ b, bs[p.1]? = some b ∧ b &&& p.2 ≠ 0#8) ∧
    ((∀ p ∈ reservedBits f, ∀ b, bs[p.1]? = some b → b &&& p.2 = 0#8) →
      ∃ i, decode (op :: bs) = .ok (i, bs.drop (f.length - 1)))

/-- 30_encoding.md R103, R101: words written out from the opcode map and the formats. -/
def Obligations.DecodedWords : Prop :=
  decode [0x00, 0x00, 0x64] = .ok (.twinit 100, []) ∧
  decode [0x03, 0x01, 0x04] = .ok (.read true, [0x04]) ∧
  decode [0x10, 0x6F, 0x06, 0x15] = .ok (.wrreg 0x6F 0x06 0x15, []) ∧
  decode [0x21, 0x50, 0x00, 0x64, 0xA5] = .ok (.eewr 0x50 100 0xA5, []) ∧
  decode [0x30, 0x6F, 0x01] = .ok (.rtcinit 0x6F true, []) ∧
  decode [0x43, 0x42] = .ok (.poll, [0x42]) ∧
  decode [0x50, 0x00, 0x64] = .ok (.tmrcfg 100, []) ∧
  decode [0xF1, 0x00] = .ok (.setin false, [])

/-! ## Steps -/

/-- 30_encoding.md R100, 00_scope.md R17: where the bytes at the head of the command stream decode to an
operation, a step takes them off the stream and performs it, after what the schedule gives the other agents
before the HOST's next line; under a script's schedule that is nothing. -/
def Obligations.StepRunsDecoded : Prop :=
  ∀ (s : State) (i : Instr) (rest : List Byte), configValid s.cfg = true → s.hung = false →
    decode s.stream = .ok (i, rest) →
    step s = exec i { s.others with stream := rest } ∧
      (Scripted s → step s = exec i { s with stream := rest })

/-- 00_scope.md R10, 30_encoding.md R105, R106, 60_exceptions.md R245: an invalid configuration is refused,
and so are bytes that are no operation. What is invalid beyond R10, R12, U18 and U23 is the model's (log 4: a
tick period of 0 and devices that share an address, DESIGN CHOICE; which masks drop a BCD bit, PRESUMED), and
so is refusing it at each step and not at construction (log 5, DESIGN CHOICE). -/
def Obligations.StepRefusesWhatHasNoMeaning : Prop :=
  (∀ s : State, configValid s.cfg = false → step s = .refused .badConfiguration) ∧
  ∀ (s : State) (why : BadEncoding), configValid s.cfg = true → s.hung = false → s.stream ≠ [] →
    decode s.stream = .error why → step s = .refused (.badEncoding why)

/-- 70_reset_and_hazards.md R294, 40_bus_primitives.md R129, 10_state.md R55: when the command stream is at its
end, the HOST idles; with a live bus a pending stop condition reaches the wire and the run is over. In a run
without end to which no more bytes come and that is fair to the BUS agent (BusLiveRun), the finite program is
eventually over and stays so, the pending stop being the last thing on the wire. -/
def Obligations.IdleStepEndsTheRun : Prop :=
  (∀ s : State, configValid s.cfg = true → s.hung = false → s.stream = [] → EngineRest s → BusLive s →
    ∃ t, step s = .next t ∧ RunOver t ∧ t.wire = wireSettled s ∧ t.resp = s.resp ∧ t.st = s.st ∧
      t.dr = s.dr ∧ t.ph = s.ph ∧ SameEe s t ∧ SameSequencer s t ∧ SameOutput s t ∧ SameTimer s t) ∧
  ∀ (w : Arrivals) (σ : Nat → State), Run w σ → BusLiveRun σ → (∀ n, w.bytes n = []) →
    (σ 0).hung = false → (σ 0).stream = [] → EngineRest (σ 0) →
    ∃ n, ∀ m, n ≤ m → RunOver (σ m) ∧ (σ m).wire = wireSettled (σ 0)

/-- 60_exceptions.md R244, 40_bus_primitives.md R122, 44_tick_timer.md R227, 10_state.md R55: a HOST stuck in
AwaitDone stays stuck however many steps are taken; the output keeps its value, no operation is taken, no
result is returned, and a pending tick is never drained. In a run without end that is fair to the TIMER
(TimerLive), with TICK enabled, a tick comes and stays pending for ever. In a run without end that is fair to
the BUS agent (BusLiveRun), the HOST never gets stuck. -/
def Obligations.StalledHostStaysStalled : Prop :=
  (∀ (n : Nat) (s : State), configValid s.cfg = true → s.hung = true →
    ∃ t, steps n s = .next t ∧ t.hung = true ∧ SamePort s t ∧ t.resp = s.resp ∧ SameOutput s t ∧
      SameSequencer s t ∧ SameTimer s t ∧ t.inflight = s.inflight ∧ t.done = s.done ∧
      (s.pend = true → t.pend = true) ∧ SameEe s t) ∧
  (∀ (w : Arrivals) (σ : Nat → State), Run w σ → TimerLive w σ → (σ 0).hung = true →
    tickEnabled (σ 0) = true → ∃ n, ∀ m, n ≤ m → (σ m).pend = true) ∧
  ∀ (w : Arrivals) (σ : Nat → State), Run w σ → BusLiveRun σ → (σ 0).hung = false → ∀ n, (σ n).hung = false

/-! ## Reset -/

/-- 10_state.md R45: the registers that have a reset value hold it, the devices' phases are DevIdle, and what
is not reset is what it was: the content of the devices and the input. -/
def Obligations.ResetValues : Prop :=
  ∀ (c : Config) (ee rtcreg : Memory) (inp : Bool),
    let s := State.powerUp c ee rtcreg inp
    s.cs = .replay ∧ s.bi = 8 ∧ s.bc = c.first ∧ s.ph = .idle ∧ s.done = false ∧ s.inflight = .none ∧
    s.stopping = false ∧ s.sel = none ∧ s.wire = [] ∧ s.out = false ∧ s.pend = false ∧ s.tie = false ∧
    s.tcfg = none ∧ s.eeph = .devIdle ∧ s.rtcph = .devIdle ∧ s.ee = ee ∧ s.rtcreg = rtcreg ∧
    s.inp = inp ∧ tickEnabled s = false

/-- The invariant holds after reset: of every valid configuration, whatever the two devices hold, and so of
the machine's own reset state. The reset state's values that the spec leaves open are the model's (logs 13,
14, 26). -/
def Obligations.ResetInv : Prop :=
  (∀ (c : Config) (ee rtcreg : Memory) (inp : Bool), configValid c = true → ee.wf = true →
    ee.below c.eeSize = true → rtcreg.wf = true → rtcreg.below 256 = true →
    Inv (State.powerUp c ee rtcreg inp) ∧ SentOpen (State.powerUp c ee rtcreg inp)) ∧
  Inv State.reset ∧ SentOpen State.reset

/-- 10_state.md R31, R32, R26 to R28, 40_bus_primitives.md R129, 20_memory.md R64: whatever the devices, the
schedule and the oracles do, a step keeps the invariant: the configuration valid, the device memories
canonical and inside the devices, the engine's registers fitting together, and between steps the sequencer's
cursors in their ranges; and with it, that a device is marked as having sent its byte only inside a
transaction or until its stop (the mark is the model's, log 15). -/
def Obligations.StepKeepsInv : Prop :=
  ∀ s t : State, Inv s → step s = .next t → Inv t ∧ (SentOpen s → SentOpen t)

/-! ## Who writes what -/

/-- 10_state.md R37: PEND is cleared by POLL only; under a script's schedule it is set by TICK only. -/
def Obligations.PendIsClearedByPollOnly : Prop :=
  ∀ (i : Instr) (s t : State), exec i s = .next t →
    (i ≠ .poll → s.pend = true → t.pend = true) ∧
    (i ≠ .tick → Scripted s → s.pend = false → t.pend = false)

/-- 10_state.md R42: the HOST's registers outside the bus engine are written by the operations the table
lists and by no other, and the configuration by none. -/
def Obligations.RegisterWriters : Prop :=
  ∀ (i : Instr) (s t : State), exec i s = .next t →
    SamePort s t ∧
    ((∀ khz, i ≠ .twinit khz) → t.br = s.br) ∧
    ((∀ ms, i ≠ .tmrcfg ms) → t.tcfg = s.tcfg) ∧
    ((∀ ms, i ≠ .tmrcfg ms) → i ≠ .tmrieon → i ≠ .tmrieoff → i ≠ .seqstep → i ≠ .poll →
      t.tie = s.tie) ∧
    (i ≠ .seqinit → i ≠ .seqreinit → i ≠ .seqstep → i ≠ .poll →
      t.cs = s.cs ∧ t.bc = s.bc ∧ t.bi = s.bi) ∧
    (i ≠ .seqstep → i ≠ .poll → t.acc = s.acc ∧ t.cur = s.cur) ∧
    (i ≠ .seqreinit → i ≠ .seqstep → i ≠ .poll → SameOutput s t) ∧
    ((∀ level, i ≠ .setin level) → Scripted s → t.inp = s.inp)

/-- 20_memory.md R61, R62, 43_sequencer.md R194: no operation of the sequencer changes an EEPROM byte outside
the sample buffer, whatever the devices acknowledge, whichever starts fail, whether the bus lives and whatever
the other agents do meanwhile; the cursor header is outside it. -/
def Obligations.SequencerStaysInItsBuffer : Prop :=
  ∀ (i : Instr) (s t : State), i = .seqinit ∨ i = .seqreinit ∨ i = .seqstep ∨ i = .poll → Inv s →
    s.hung = false → exec i s = .next t →
    (∀ a, ¬ inBuffer s.cfg a → t.ee.read a = s.ee.read a) ∧ ¬ inBuffer s.cfg 0 ∧ ¬ inBuffer s.cfg 1

/-! ## The bus primitives -/

/-- 30_encoding.md R95: the status numbers, and no failure code is one of them. -/
def Obligations.StatusNumbers : Prop :=
  Status.start.number = 0x08 ∧ Status.rstart.number = 0x10 ∧ Status.mtSlaAck.number = 0x18 ∧
  Status.mtSlaNack.number = 0x20 ∧ Status.mtDataAck.number = 0x28 ∧ Status.mtDataNack.number = 0x30 ∧
  Status.mrSlaAck.number = 0x40 ∧ Status.mrSlaNack.number = 0x48 ∧ Status.mrDataAck.number = 0x50 ∧
  Status.mrDataNack.number = 0x58 ∧
  ∀ c : Byte, (Status.fail c).wf = true ↔
    c ≠ 0x08 ∧ c ≠ 0x10 ∧ c ≠ 0x18 ∧ c ≠ 0x20 ∧ c ≠ 0x28 ∧ c ≠ 0x30 ∧ c ≠ 0x40 ∧ c ≠ 0x48 ∧ c ≠ 0x50 ∧
    c ≠ 0x58

/-- 40_bus_primitives.md R124: TWINIT writes BR and nothing else; a speed that DivFor cannot realise and a
TWINIT inside an open transaction are refused. -/
def Obligations.TwinitSetsBr : Prop :=
  encode (.twinit 100) = [0x00, 0x00, 0x64] ∧
  ∀ (khz : Half) (s : State),
    (∀ div, s.ph = .idle → divFor s.cfg khz = some div →
      exec (.twinit khz) s = .next { s with br := some div }) ∧
    (s.ph = .idle → divFor s.cfg khz = none → exec (.twinit khz) s = .refused .busSpeed) ∧
    (s.ph ≠ .idle → exec (.twinit khz) s = .refused .busSpeed) ∧
    divFor s.cfg 0 = none

/-- 40_bus_primitives.md R125: START returns the status of an initial start on an idle engine and of a repeated
start otherwise; the next byte is an address. DR is left free. -/
def Obligations.StartCompletes : Prop :=
  ∀ s : State, PrimitiveReady s →
    ∃ t, exec .start s = .next t ∧
      Completed s t [if s.ph = .idle then .s else .sr] ∧
      t.st = (if s.ph = .idle then .start else .rstart) ∧
      t.resp = s.resp ++ [if s.ph = .idle then 0x08 else 0x10] ∧ t.ph = .addrPending ∧
      DevicesAfterStop s t ∧ SameEe s t ∧ (Scripted s → SameRtc s t)

/-- 40_bus_primitives.md R125, R130: a start that fails with code c returns c, leaves the phase as it was and
puts nothing on the wire. A composite operation whose first start fails is refused where it writes its first
byte (93_implementation_defined.md U4): each operation with a device, and the sequencer's where they use the
bus. -/
def Obligations.StartFails : Prop :=
  ∀ (s : State) (c : Byte) (later : List (Option Byte)), s.br.isSome → BusLive s →
    s.startScript = some c :: later → (Status.fail c).wf = true →
    (∃ t, exec .start s = .next t ∧ Completed s t [] ∧ t.st = .fail c ∧ t.resp = s.resp ++ [c] ∧
      t.ph = s.ph ∧ t.startScript = later ∧ DevicesAfterStop s t ∧ SameEe s t ∧
      (Scripted s → SameRtc s t)) ∧
    (s.ph = .idle →
      (∀ (dev : DevAddr) (reg val : Byte) (addr : Half) (batt : Bool) (record : TimeRecord),
        exec (.wrreg dev reg val) s = .refused .writeOutOfPhase ∧
        exec (.rdreg dev reg) s = .refused .writeOutOfPhase ∧
        exec (.eerd dev addr) s = .refused .writeOutOfPhase ∧
        exec (.eewr dev addr val) s = .refused .writeOutOfPhase ∧
        exec (.eegetcur dev) s = .refused .writeOutOfPhase ∧
        exec (.eesetcur dev addr) s = .refused .writeOutOfPhase ∧
        exec (.rtcinit dev batt) s = .refused .writeOutOfPhase ∧
        exec (.rtcget dev) s = .refused .writeOutOfPhase ∧
        (TimeRecord.settable record = true → exec (.rtcset dev record) s = .refused .writeOutOfPhase)) ∧
      (0 < s.cfg.count → exec .seqreinit s = .refused .writeOutOfPhase) ∧
      (s.cs = .replay ∧ s.inp = true ∧ s.bi = 8 ∨ s.cs = .recording ∧ s.bi = 7 →
        exec .seqstep s = .refused .writeOutOfPhase))

/-- 40_bus_primitives.md R122, 10_state.md R55: with a BUS agent that never steps, START, WRITE and READ
never return: the HOST is stuck with DONE clear and the primitive in flight. -/
def Obligations.DeadBusHangsThePrimitives : Prop :=
  ∀ s : State, s.br.isSome → s.busLeft = some 0 →
    (∃ t, exec .start s = .next t ∧ t.hung = true ∧ t.done = false ∧ t.inflight = .start ∧
      t.wire = s.wire ∧ t.resp = s.resp ∧ OutsideBus s t) ∧
    (∀ b, s.ph = .addrPending ∨ s.ph = .mt →
      ∃ t, exec (.write b) s = .next t ∧ t.hung = true ∧ t.done = false ∧ t.inflight = .write b ∧
        t.wire = s.wire ∧ t.resp = s.resp ∧ OutsideBus s t) ∧
    (∀ k, s.ph = .mr →
      ∃ t, exec (.read k) s = .next t ∧ t.hung = true ∧ t.done = false ∧ t.inflight = .read k ∧
        t.wire = s.wire ∧ t.resp = s.resp ∧ OutsideBus s t)

/-- 40_bus_primitives.md R126, case AddrPending, 10_state.md R51, R53, R54: the byte after a start is an address
frame; DevAck answers, which is free and by default acknowledges for a device that is there; an acknowledged
frame selects the device, which for writing waits for its address bytes; one that is not acknowledged selects
none and changes no device; the phase follows the direction bit either way. That a frame for writing takes
back the mark of a byte sent, and a frame for reading leaves it, is log 15 (DEDUCED). -/
def Obligations.WriteAddressCompletes : Prop :=
  ∀ (b : Byte) (s : State), PrimitiveLive s → s.ph = .addrPending →
    let a := addrOf b
    let d := dirOf b
    let k := ackAt s 0 (answers s.cfg a)
    ∃ t, exec (.write b) s = .next t ∧ Completed s t [.a a d k] ∧
      t.st = slaStatus d k ∧ t.resp = s.resp ++ [(slaStatus d k).number] ∧ t.dr = b ∧
      t.ph = (if d then .mr else .mt) ∧ t.sel = (if k then some a else none) ∧
      t.eeph = (if k ∧ d = false ∧ a = s.cfg.eeDev then .addrHi else s.eeph) ∧
      t.eeSent = (if k ∧ d = false ∧ a = s.cfg.eeDev then false else s.eeSent) ∧
      t.rtcph = (if k ∧ d = false ∧ a = s.cfg.rtcDev ∧ a ≠ s.cfg.eeDev then .reg else s.rtcph) ∧
      t.rtcSent = (if k ∧ d = false ∧ a = s.cfg.rtcDev ∧ a ≠ s.cfg.eeDev then false else s.rtcSent) ∧
      t.eeptr = s.eeptr ∧ t.rtcptr = s.rtcptr ∧ SameEe s t ∧ (Scripted s → SameRtc s t) ∧
      t.ackScript = s.ackScript.tail ∧ (IdealDevices s → k = answers s.cfg a)

/-- 40_bus_primitives.md R126, case MT, 10_state.md R51: a data byte to the EEPROM is the high byte of its
address, then the low byte, then the byte stored there; a second byte of data and a store outside the device
are refused. A byte that the EEPROM does not acknowledge (10_state.md R54: DevAck is free) is not taken: it is
no address byte, is not stored and is never refused. -/
def Obligations.WriteToEepromCompletes : Prop :=
  ∀ (b : Byte) (s : State), PrimitiveLive s → DeviceMemory s → s.ph = .mt →
    s.sel = some s.cfg.eeDev →
    (ackAt s 0 true = false →
      ∃ t, exec (.write b) s = .next t ∧ NotTaken s t b ∧ t.ackScript = s.ackScript.tail) ∧
    (ackAt s 0 true = true →
      s.eeph = .addrHi ∨ s.eeph = .addrLo ∨ (s.eeph = .data ∧ s.eeptr.toNat < s.cfg.eeSize) →
      ∃ t, exec (.write b) s = .next t ∧ Completed s t [.dw b true] ∧ t.st = .mtDataAck ∧
        t.resp = s.resp ++ [0x28] ∧ t.dr = b ∧ t.ph = .mt ∧ t.sel = s.sel ∧
        t.eeptr = (match s.eeph with
          | .addrHi => joinBytes b (loByte s.eeptr)
          | .addrLo => joinBytes (hiByte s.eeptr) b
          | .devIdle => s.eeptr
          | .data => s.eeptr
          | .done => s.eeptr) ∧
        t.eeph = (match s.eeph with
          | .addrHi => .addrLo
          | .addrLo => .data
          | .devIdle => s.eeph
          | .data => .done
          | .done => s.eeph) ∧
        (∀ a, t.ee.read a =
          if s.eeph = .data ∧ a = s.eeptr.toNat then b else s.ee.read a) ∧
        t.eeSent = s.eeSent ∧ SameRtcPointer s t ∧ (Scripted s → SameRtc s t) ∧
        t.ackScript = s.ackScript.tail) ∧
    (ackAt s 0 true = true → s.eeph = .data → s.cfg.eeSize ≤ s.eeptr.toNat →
      exec (.write b) s = .refused .eepromRange) ∧
    (ackAt s 0 true = true → s.eeph = .done → exec (.write b) s = .refused .deviceUnspecified) ∧
    (IdealDevices s → ackAt s 0 true = true)

/-- 40_bus_primitives.md R126, case MT, 10_state.md R53: a data byte to the RTC is the register number, then the
byte stored in that register; a second byte of data is refused. A byte that the RTC does not acknowledge
(10_state.md R54: DevAck is free) is not taken: it is no register number, is not stored and is never
refused. -/
def Obligations.WriteToRtcCompletes : Prop :=
  ∀ (b : Byte) (s : State), PrimitiveLive s → configValid s.cfg = true → DeviceMemory s → s.ph = .mt →
    s.sel = some s.cfg.rtcDev →
    (ackAt s 0 true = false →
      ∃ t, exec (.write b) s = .next t ∧ NotTaken s t b ∧ t.ackScript = s.ackScript.tail) ∧
    (ackAt s 0 true = true → s.rtcph = .reg ∨ s.rtcph = .data →
      ∃ t, exec (.write b) s = .next t ∧ Completed s t [.dw b true] ∧ t.st = .mtDataAck ∧
        t.resp = s.resp ++ [0x28] ∧ t.dr = b ∧ t.ph = .mt ∧ t.sel = s.sel ∧
        t.rtcptr = (if s.rtcph = .reg then b else s.rtcptr) ∧
        t.rtcph = (if s.rtcph = .reg then .data else .done) ∧
        (Scripted s → ∀ r, t.rtcreg.read r =
          if s.rtcph = .data ∧ r = s.rtcptr.toNat then b else s.rtcreg.read r) ∧
        t.rtcSent = s.rtcSent ∧ SameEePointer s t ∧ SameEe s t ∧ t.ackScript = s.ackScript.tail) ∧
    (ackAt s 0 true = true → s.rtcph = .done → exec (.write b) s = .refused .deviceUnspecified) ∧
    (IdealDevices s → ackAt s 0 true = true)

/-- 40_bus_primitives.md R126, case MT: with no device selected a data byte is not acknowledged, and no device
changes. A device that answered and that the spec does not describe acknowledges or not as DevAck has it, and
neither the EEPROM nor the RTC changes (the model's choice, log 17). -/
def Obligations.WriteElsewhereCompletes : Prop :=
  ∀ (b : Byte) (s : State), PrimitiveLive s → s.ph = .mt → s.sel ≠ some s.cfg.eeDev →
    s.sel ≠ some s.cfg.rtcDev →
    let k := s.sel.isSome && ackAt s 0 true
    ∃ t, exec (.write b) s = .next t ∧ Completed s t [.dw b k] ∧
      t.st = (if k then .mtDataAck else .mtDataNack) ∧
      t.resp = s.resp ++ [if k then 0x28 else 0x30] ∧ t.dr = b ∧ t.ph = .mt ∧ t.sel = s.sel ∧
      SameEe s t ∧ (Scripted s → SameRtc s t) ∧ SameEePointer s t ∧ SameRtcPointer s t ∧
      t.ackScript = (if s.sel.isSome then s.ackScript.tail else s.ackScript)

/-- 40_bus_primitives.md R127, 10_state.md R51, R53: READ returns the byte the selected device sends, and with
none selected some byte (as from a device that the spec does not describe: log 17); the master's answer is what
it was told; a second byte of one transaction from the EEPROM or the RTC and a byte outside the EEPROM are
refused. With no device that the spec describes selected, a further READ of the transaction is another draw, by
the model's choice (log 15): U9 may be read to refuse it. -/
def Obligations.ReadCompletes : Prop :=
  ∀ (k : Bool) (s : State), PrimitiveReady s → configValid s.cfg = true → s.ph = .mr →
    ((s.sel ≠ some s.cfg.eeDev ∧ s.sel ≠ some s.cfg.rtcDev) ∨
        (s.sel = some s.cfg.eeDev ∧ s.eeSent = false ∧ s.eeptr.toNat < s.cfg.eeSize) ∨
        (s.sel = some s.cfg.rtcDev ∧ s.rtcSent = false) →
      ∃ v t, exec (.read k) s = .next t ∧ Completed s t [.dr v k] ∧ t.dr = v ∧
        t.resp = s.resp ++ [v] ∧ t.st = (if k then .mrDataAck else .mrDataNack) ∧ t.ph = .mr ∧
        t.sel = s.sel ∧
        (s.sel = some s.cfg.eeDev → v = s.ee.read s.eeptr.toNat ∧ t.eeSent = true) ∧
        (s.sel = some s.cfg.rtcDev → t.rtcSent = true) ∧
        (s.sel = some s.cfg.rtcDev → Scripted s → v = s.rtcreg.read s.rtcptr.toNat) ∧
        (s.sel ≠ some s.cfg.eeDev → t.eeSent = s.eeSent) ∧
        (s.sel ≠ some s.cfg.rtcDev → t.rtcSent = s.rtcSent) ∧
        t.eeptr = s.eeptr ∧ t.eeph = s.eeph ∧ t.rtcptr = s.rtcptr ∧ t.rtcph = s.rtcph ∧
        SameEe s t ∧ (Scripted s → SameRtc s t)) ∧
    (s.sel = some s.cfg.eeDev → s.eeSent = true → exec (.read k) s = .refused .deviceUnspecified) ∧
    (s.sel = some s.cfg.eeDev → s.eeSent = false → s.cfg.eeSize ≤ s.eeptr.toNat →
      exec (.read k) s = .refused .eepromRange) ∧
    (s.sel = some s.cfg.rtcDev → s.rtcSent = true → exec (.read k) s = .refused .deviceUnspecified)

/-- 40_bus_primitives.md R128: STOP returns at once with the engine idle and the stop condition pending; ST and
DR are left free and nothing else changes; once the BUS agent steps, the wire shows `P` and no device is
selected. -/
def Obligations.StopCompletes : Prop :=
  ∀ s : State, s.br.isSome → s.ph ≠ .idle →
    ∃ t, exec .stop s = .next t ∧
      t = { s with stopping := true, ph := .idle, st := t.st, dr := t.dr, drawn := t.drawn } ∧
      (BusLive s → (settleStop t).wire = s.wire ++ [.p] ∧ (settleStop t).sel = none ∧
        (settleStop t).stopping = false ∧ (settleStop t).eeptr = s.eeptr ∧
        (s.sel = some s.cfg.eeDev → (settleStop t).eeph = .devIdle) ∧
        (s.sel = some s.cfg.rtcDev → (settleStop t).rtcph = .devIdle))

/-- 40_bus_primitives.md R131: the whole of the phase's behaviour, cell by cell: START, WRITE and READ once they
complete, STOP once it is issued. -/
def Obligations.PhaseTable : Prop :=
  ∀ s : State, PrimitiveReady s → configValid s.cfg = true →
    (∃ t, exec .start s = .next t ∧ t.ph = .addrPending ∧
      t.wire = wireSettled s ++ [if s.ph = .idle then .s else .sr] ∧
      t.st = (if s.ph = .idle then .start else .rstart)) ∧
    (s.ph = .idle ∨ s.ph = .mr → ∀ b, exec (.write b) s = .refused .writeOutOfPhase) ∧
    (s.ph = .addrPending → ∀ b, ∃ t, exec (.write b) s = .next t ∧
      t.ph = (if b.getLsbD 0 then .mr else .mt) ∧ ∃ k, t.wire = s.wire ++ [.a (addrOf b) (dirOf b) k]) ∧
    (s.ph = .mt → ∀ b t, exec (.write b) s = .next t →
      t.ph = .mt ∧ ∃ k, t.wire = s.wire ++ [.dw b k]) ∧
    (s.ph ≠ .mr → ∀ k, exec (.read k) s = .refused .readOutOfPhase) ∧
    (s.ph = .mr → ∀ k t, exec (.read k) s = .next t →
      t.ph = .mr ∧ ∃ v, t.wire = s.wire ++ [.dr v k]) ∧
    (s.ph = .idle → exec .stop s = .refused .stopWhileIdle) ∧
    (s.ph ≠ .idle → ∃ t, exec .stop s = .next t ∧ t.ph = .idle)

/-- 40_bus_primitives.md R120, 41_register_protocol.md R150, 60_exceptions.md R245: a bus primitive before
TWINIT is refused; a composite operation in an open transaction is refused, whatever its operands, and so is a
POLL that would run a step. Which refusal is given where two apply is the model's (log 20, DESIGN CHOICE), and
that SEQSTEP, SEQREINIT and such a POLL are composite operations is log 21 (DEDUCED). -/
def Obligations.OperationsOutOfPlaceAreRefused : Prop :=
  ∀ s : State,
    (s.br = none → exec .start s = .refused .busNotInitialised ∧
      (∀ b, exec (.write b) s = .refused .busNotInitialised) ∧
      (∀ k, exec (.read k) s = .refused .busNotInitialised) ∧
      exec .stop s = .refused .busNotInitialised) ∧
    (s.ph ≠ .idle →
      (∀ i, composite i = true → exec i s = .refused .compositeInOpenTransaction) ∧
      (s.pend = true → exec .poll s = .refused .compositeInOpenTransaction))

/-! ## The register protocol -/

/-- 41_register_protocol.md R152, R154, 10_state.md R51, R53: WRREG puts its five primitives on the wire
whatever device is addressed; the RTC stores the value in the register, the EEPROM takes the two bytes as an
address and stores nothing, and an absent device changes nothing. -/
def Obligations.WrregCompletes : Prop :=
  ∀ (dev : DevAddr) (reg val : Byte) (s : State), Ready s →
    ∃ t, exec (.wrreg dev reg val) s = .next t ∧
      Closed s t dev (answers s.cfg dev) (writeEvents dev (answers s.cfg dev) [reg, val]) ∧
      t.resp = s.resp ∧ SameEe s t ∧
      (Scripted s → ∀ r, t.rtcreg.read r =
        if dev = s.cfg.rtcDev ∧ r = reg.toNat then val else s.rtcreg.read r) ∧
      t.eeptr = (if dev = s.cfg.eeDev then joinBytes reg val else s.eeptr) ∧
      t.rtcptr = (if dev = s.cfg.rtcDev then reg else s.rtcptr)

/-- 41_register_protocol.md R153, R154, 10_state.md R51, R53: RDREG puts its seven primitives on the wire and
returns the byte received, which is the RTC's register, or the EEPROM's byte under a pointer whose high byte
is the register number; with an absent device some byte, and 0x00 when monitored. -/
def Obligations.RdregCompletes : Prop :=
  ∀ (dev : DevAddr) (reg : Byte) (s : State), Ready s →
    (dev = s.cfg.eeDev → (joinBytes reg (loByte s.eeptr)).toNat < s.cfg.eeSize) →
    ∃ v t, exec (.rdreg dev reg) s = .next t ∧
      Closed s t dev (answers s.cfg dev) (readEvents dev (answers s.cfg dev) [reg] v) ∧
      t.resp = s.resp ++ [if s.cfg.monitored && !answers s.cfg dev then 0x00 else v] ∧
      SameEe s t ∧ (Scripted s → SameRtc s t) ∧
      (Scripted s → dev = s.cfg.rtcDev → v = s.rtcreg.read reg.toNat) ∧
      (dev = s.cfg.eeDev → v = s.ee.read (joinBytes reg (loByte s.eeptr)).toNat) ∧
      t.eeptr = (if dev = s.cfg.eeDev then joinBytes reg (loByte s.eeptr) else s.eeptr) ∧
      t.rtcptr = (if dev = s.cfg.rtcDev then reg else s.rtcptr)

/-- 41_register_protocol.md R156, 10_state.md R51, R53: EERD sends the address high byte first and returns the
byte received: the EEPROM's at that address; the RTC takes the two bytes as a register number and its value
and sends that register; with an absent device some byte, and 0x00 when monitored. -/
def Obligations.EerdCompletes : Prop :=
  ∀ (dev : DevAddr) (addr : Half) (s : State), Ready s →
    (dev = s.cfg.eeDev → addr.toNat < s.cfg.eeSize) →
    ∃ v t, exec (.eerd dev addr) s = .next t ∧
      Closed s t dev (answers s.cfg dev)
        (readEvents dev (answers s.cfg dev) [hiByte addr, loByte addr] v) ∧
      t.resp = s.resp ++ [if s.cfg.monitored && !answers s.cfg dev then 0x00 else v] ∧
      SameEe s t ∧ (dev = s.cfg.eeDev → v = s.ee.read addr.toNat) ∧
      (Scripted s → ∀ r, t.rtcreg.read r =
        if dev = s.cfg.rtcDev ∧ r = (hiByte addr).toNat then loByte addr else s.rtcreg.read r) ∧
      (Scripted s → dev = s.cfg.rtcDev → v = loByte addr) ∧
      t.eeptr = (if dev = s.cfg.eeDev then addr else s.eeptr) ∧
      t.rtcptr = (if dev = s.cfg.rtcDev then hiByte addr else s.rtcptr)

/-- 41_register_protocol.md R157, 10_state.md R51: EEWR stores its value at its address in the EEPROM and
nowhere else, and with an absent device stores nothing; the RTC is offered a second byte of data, which is
refused (10_state.md R53). -/
def Obligations.EewrCompletes : Prop :=
  ∀ (dev : DevAddr) (addr : Half) (val : Byte) (s : State), Ready s →
    (dev ≠ s.cfg.rtcDev → (dev = s.cfg.eeDev → addr.toNat < s.cfg.eeSize) →
      ∃ t, exec (.eewr dev addr val) s = .next t ∧
        Closed s t dev (answers s.cfg dev)
          (writeEvents dev (answers s.cfg dev) [hiByte addr, loByte addr, val]) ∧
        t.resp = s.resp ∧
        (∀ a, t.ee.read a =
          if dev = s.cfg.eeDev ∧ a = addr.toNat then val else s.ee.read a) ∧
        (Scripted s → SameRtc s t) ∧
        t.eeptr = (if dev = s.cfg.eeDev then addr else s.eeptr) ∧ t.rtcptr = s.rtcptr) ∧
    (dev = s.cfg.rtcDev → exec (.eewr dev addr val) s = .refused .deviceUnspecified)

/-- 20_memory.md R64 (93_implementation_defined.md U10): an access at an address at or above the EEPROM's size
is refused. -/
def Obligations.EepromRangeRefused : Prop :=
  ∀ (addr : Half) (val : Byte) (s : State), Ready s → s.cfg.eeSize ≤ addr.toNat →
    exec (.eerd s.cfg.eeDev addr) s = .refused .eepromRange ∧
    exec (.eewr s.cfg.eeDev addr val) s = .refused .eepromRange

/-- 41_register_protocol.md R158: EEGETCUR returns the bytes at 0 and 1, high then low, and changes no byte;
with an absent device two bytes of which nothing is known, 0x00 when monitored. From the RTC, which takes
each read as a register write first (10_state.md R53), it returns what it wrote. -/
def Obligations.EegetcurCompletes : Prop :=
  ∀ (dev : DevAddr) (s : State), Ready s →
    ∃ hi lo t, exec (.eegetcur dev) s = .next t ∧ OutsideBus s t ∧ t.hung = s.hung ∧ t.ph = .idle ∧
      t.inflight = .none ∧ SameEe s t ∧
      t.resp = s.resp ++
        (if s.cfg.monitored && !answers s.cfg dev then [0x00, 0x00] else [hi, lo]) ∧
      t.wire = wireSettled s ++ readEvents dev (answers s.cfg dev) [0x00, 0x00] hi ++ [.p] ++
        readEvents dev (answers s.cfg dev) [0x00, 0x01] lo ∧
      (dev = s.cfg.eeDev → hi = s.ee.read 0 ∧ lo = s.ee.read 1) ∧
      (Scripted s → dev ≠ s.cfg.rtcDev → SameRtc s t) ∧
      (Scripted s → dev = s.cfg.rtcDev → hi = 0x00 ∧ lo = 0x01 ∧
        ∀ r, t.rtcreg.read r = if r = 0 then 0x01 else s.rtcreg.read r)

/-- 41_register_protocol.md R159, 20_memory.md R62: EESETCUR stores the high byte of the cursor at 0 and the
low byte at 1, in that order, and no other byte; with an absent device it stores nothing; the RTC is offered a
second byte of data, which is refused (10_state.md R53). -/
def Obligations.EesetcurCompletes : Prop :=
  ∀ (dev : DevAddr) (cursor : Half) (s : State), Ready s →
    (dev ≠ s.cfg.rtcDev →
      ∃ t, exec (.eesetcur dev cursor) s = .next t ∧ OutsideBus s t ∧ t.hung = s.hung ∧ t.ph = .idle ∧
        t.inflight = .none ∧ t.resp = s.resp ∧
        t.wire = wireSettled s ++ writeEvents dev (answers s.cfg dev) [0x00, 0x00, hiByte cursor] ++
          [.p] ++ writeEvents dev (answers s.cfg dev) [0x00, 0x01, loByte cursor] ∧
        (∀ a, t.ee.read a =
          if dev = s.cfg.eeDev ∧ a = 0 then hiByte cursor
          else if dev = s.cfg.eeDev ∧ a = 1 then loByte cursor
          else s.ee.read a) ∧
        (Scripted s → SameRtc s t)) ∧
    (dev = s.cfg.rtcDev → exec (.eesetcur dev cursor) s = .refused .deviceUnspecified)

/-- 41_register_protocol.md R160: a byte written to the EEPROM is what a later read of that address returns,
for every address of the device and every byte, monitored or not, whatever was done between that left the
byte alone; and the cursor that was set is the cursor that is got. -/
def Obligations.EepromRoundTrip : Prop :=
  (∀ (a : Half) (v : Byte) (s : State), Ready s → a.toNat < s.cfg.eeSize →
    ∃ t, exec (.eewr s.cfg.eeDev a v) s = .next t ∧
      (∃ u, exec (.eerd s.cfg.eeDev a) t = .next u ∧ u.resp = t.resp ++ [v]) ∧
      ∀ m, Ready m → m.cfg = s.cfg → m.ee.read a.toNat = t.ee.read a.toNat →
        ∃ u, exec (.eerd s.cfg.eeDev a) m = .next u ∧ u.resp = m.resp ++ [v]) ∧
  ∀ (c : Half) (s : State), Ready s →
    ∃ t u, exec (.eesetcur s.cfg.eeDev c) s = .next t ∧ exec (.eegetcur s.cfg.eeDev) t = .next u ∧
      u.resp = s.resp ++ [hiByte c, loByte c]

/-! ## BCD and the RTC -/

/-- 42_rtc_protocol.md R171, R172: TOBCD's result is the formula's up to 99, above it is refused; FROMBCD's is
the formula's on every byte and fits a byte; neither changes anything else. -/
def Obligations.BcdOperations : Prop :=
  encode (.tobcd 59) = [0x38, 0x3B] ∧ encode (.frombcd 0x59) = [0x39, 0x59] ∧
  ∀ (v b : Byte) (s : State),
    (v.toNat ≤ 99 → exec (.tobcd v) s =
      .next { s with resp := s.resp ++ [BitVec.ofNat 8 (v.toNat / 10 * 16 + v.toNat % 10)] }) ∧
    (99 < v.toNat → exec (.tobcd v) s = .refused .bcdDomain) ∧
    exec (.frombcd b) s =
      .next { s with resp := s.resp ++ [BitVec.ofNat 8 (b.toNat / 16 * 10 + b.toNat % 16)] } ∧
    b.toNat / 16 * 10 + b.toNat % 16 ≤ 165

/-- 42_rtc_protocol.md R173: the round-trip laws, of the functions and of the operations one after the
other. -/
def Obligations.BcdRoundTrip : Prop :=
  (∀ v : Nat, v ≤ 99 → fromBcd (toBcd v) = v ∧ toBcd v / 16 = v / 10 ∧ toBcd v % 16 = v % 10) ∧
  (∀ b : Nat, b / 16 ≤ 9 → b % 16 ≤ 9 → toBcd (fromBcd b) = b) ∧
  (∀ (v : Byte) (s : State), v.toNat ≤ 99 → ∃ w, exec (.tobcd v) s = .next { s with resp := s.resp ++ [w] } ∧
    exec (.frombcd w) s = .next { s with resp := s.resp ++ [v] }) ∧
  ∀ (b : Byte) (s : State), b.toNat / 16 ≤ 9 → b.toNat % 16 ≤ 9 →
    ∃ w, exec (.frombcd b) s = .next { s with resp := s.resp ++ [w] } ∧
      exec (.tobcd w) s = .next { s with resp := s.resp ++ [b] }

/-- 42_rtc_protocol.md R174, 10_state.md R56. With the RTC's registers moved by the block alone: the battery bit
becomes what was asked, with no other bit of that register changed by it; a running oscillator is success; a
stopped one gets the start command in the seconds register and is looked at once more. That the registers then
read as written, the oscillator-running bit among them, is log 18 (DEDUCED, unsafe). With the ENV moving them
too: an oscillator seen running at first is success; otherwise the result is the oscillator-running bit of the
byte read after the settle delay, which with nothing further from the ENV is the bit as the delay left it; so an
oscillator that the ENV reports running during the delay is success, whatever was written. -/
def Obligations.RtcinitCompletes : Prop :=
  ∀ (batt : Bool) (s : State), Ready s →
    let c := s.cfg
    (Scripted s →
      let m := rtcAfterBattery c s.rtcreg batt
      let m' := m.write c.rtcSec.toNat (startCommand c)
      ∃ t, exec (.rtcinit c.rtcDev batt) s = .next t ∧ OutsideBus s t ∧ t.hung = s.hung ∧ t.ph = .idle ∧
        t.inflight = .none ∧ SameEe s t ∧
        t.wire = wireSettled s ++ transactions (rtcInitTransactions c s.rtcreg batt) ∧
        (oscillatorRuns c s.rtcreg = true →
          t.resp = s.resp ++ [0x01] ∧ ∀ r, t.rtcreg.read r = m.read r) ∧
        (oscillatorRuns c s.rtcreg = false →
          t.resp = s.resp ++ [if oscillatorRuns c m' then 0x01 else 0x00] ∧
          ∀ r, t.rtcreg.read r = m'.read r)) ∧
    ∃ (w : Byte) (u t : State), rtcBeforeStart c.rtcDev batt s = .ok w u ∧
      exec (.rtcinit c.rtcDev batt) s = .next t ∧ OutsideBus s t ∧ t.hung = s.hung ∧ t.ph = .idle ∧
      t.inflight = .none ∧ SameEe s t ∧
      (w.getLsbD c.bOscrun = true → t.resp = s.resp ++ [0x01]) ∧
      (w.getLsbD c.bOscrun = false →
        ∃ (started : State) (v : Byte), wrreg c.rtcDev c.rtcSec (startCommand c) u = .ok () started ∧
          t.resp = s.resp ++ [boolByte (v.getLsbD c.bOscrun)] ∧
          (Scripted started.others → v = started.others.rtcreg.read c.rtcWkday.toNat) ∧
          ∀ on, started.agenda = [[.oscRun on]] → t.resp = s.resp ++ [boolByte on])

/-- 42_rtc_protocol.md R176: RTCGET returns the six fields decoded under their masks, with a weekday of which
nothing is known, and changes no register. -/
def Obligations.RtcgetCompletes : Prop :=
  ∀ s : State, Ready s → Scripted s →
    ∃ (weekday : Byte) (t : State), exec (.rtcget s.cfg.rtcDev) s = .next t ∧ OutsideBus s t ∧
      t.hung = s.hung ∧ t.ph = .idle ∧ t.inflight = .none ∧ SameEe s t ∧ SameRtc s t ∧
      t.wire = wireSettled s ++ transactions (rtcGetTransactions s.cfg s.rtcreg) ∧
      t.resp = s.resp ++ encodeRecord (rtcRecord s.cfg s.rtcreg weekday)

/-- 42_rtc_protocol.md R178: RTCSET writes the six fields in their order, the seconds with the start bit, and
not the weekday; a record with a field above 99 or an hour that does not fit is refused before any bus
activity: the HOST's lines stop in the state they started from. That a weekday above 99 is refused, which
nothing converts, is log 23 (DEDUCED). -/
def Obligations.RtcsetCompletes : Prop :=
  ∀ (record : TimeRecord) (s : State), Ready s → Scripted s →
    (TimeRecord.settable record = true →
      ∃ t, exec (.rtcset s.cfg.rtcDev record) s = .next t ∧ OutsideBus s t ∧ t.hung = s.hung ∧
        t.ph = .idle ∧ t.inflight = .none ∧ t.resp = s.resp ∧ SameEe s t ∧
        t.wire = wireSettled s ++ transactions (rtcSetTransactions s.cfg s.cfg.rtcDev record) ∧
        ∀ r, t.rtcreg.read r = (rtcAfterSet s.cfg s.rtcreg record).read r) ∧
    (TimeRecord.settable record = false →
      rtcset s.cfg.rtcDev record s = .error (.refuse .bcdDomain) s ∧
      exec (.rtcset s.cfg.rtcDev record) s = .refused .bcdDomain)

/-- 42_rtc_protocol.md R174, R176, R178, R154: with the clock running on its own, and with any device in the
RTC's place (an EEPROM large enough for every pointer), the RTC operations still run to their end; with a
device that is not the RTC they change no register of it. -/
def Obligations.RtcOperationsAlwaysReturn : Prop :=
  ∀ (dev : DevAddr) (s : State), Ready s → (dev = s.cfg.eeDev → s.cfg.eeSize = 65536) →
    (∀ batt, ∃ (ok : Bool) (t : State), exec (.rtcinit dev batt) s = .next t ∧ OutsideBus s t ∧
      t.hung = s.hung ∧ t.ph = .idle ∧ t.resp = s.resp ++ [if ok then 0x01 else 0x00] ∧ SameEe s t ∧
      (Scripted s → dev ≠ s.cfg.rtcDev → SameRtc s t)) ∧
    (∃ (record : TimeRecord) (t : State), exec (.rtcget dev) s = .next t ∧ OutsideBus s t ∧
      t.hung = s.hung ∧ t.ph = .idle ∧ t.resp = s.resp ++ encodeRecord record ∧ SameEe s t ∧
      (Scripted s → dev ≠ s.cfg.rtcDev → SameRtc s t)) ∧
    (∀ record, TimeRecord.settable record = true → ∃ t, exec (.rtcset dev record) s = .next t ∧
      OutsideBus s t ∧ t.hung = s.hung ∧ t.ph = .idle ∧ t.resp = s.resp ∧ SameEe s t ∧
      (Scripted s → dev ≠ s.cfg.rtcDev → SameRtc s t))

/-- 42_rtc_protocol.md R179: the time that was set is the time that is got at once: year, month, day, hour,
mode, minute and second, AM/PM in the 12-hour mode and false in the 24-hour mode; where the six registers
are six and the masks keep every bit of the values. -/
def Obligations.RtcRoundTrip : Prop :=
  ∀ (r : TimeRecord) (s : State), Ready s → Scripted s → timeRegistersDistinct s.cfg →
    TimeRecord.settable r = true →
    toBcdByte r.year &&& s.cfg.mYear = toBcdByte r.year →
    toBcdByte r.month &&& s.cfg.mMonth = toBcdByte r.month →
    toBcdByte r.day &&& s.cfg.mDate = toBcdByte r.day →
    toBcdByte r.minute &&& s.cfg.mMin = toBcdByte r.minute →
    toBcdByte r.second &&& s.cfg.mSec = toBcdByte r.second →
    ∃ (t u : State) (weekday : Byte), exec (.rtcset s.cfg.rtcDev r) s = .next t ∧
      exec (.rtcget s.cfg.rtcDev) t = .next u ∧
      u.resp = s.resp ++
        encodeRecord { r with weekday := weekday.toNat, pm := r.mode12 && r.pm }

/-! ## The sequencer -/

/-- 43_sequencer.md R193: SEQINIT writes CS, BC and BI and nothing else; after reset it changes nothing. -/
def Obligations.SeqinitRewinds : Prop :=
  encode .seqinit = [0x40] ∧
  (∀ s : State, exec .seqinit s = .next { s with cs := .replay, bc := s.cfg.first, bi := 8 }) ∧
  exec .seqinit State.reset = .next State.reset ∧ State.reset.bc = 20

/-- 43_sequencer.md R205: both patterns have ceil(COUNT/2) all-ones bytes and floor(COUNT/2) all-zero bytes, and
they are one pattern up to two bytes. -/
def Obligations.PatternHalves : Prop :=
  ∀ c : Config,
    (∀ i, c.reinitPattern = .byteAlternating → pattern c i = if i % 2 = 0 then 0xFF else 0x00) ∧
    (∀ i, c.reinitPattern = .halves → pattern c i = if i < (c.count + 1) / 2 then 0xFF else 0x00) ∧
    (List.range c.count).countP (fun i => pattern c i = 0xFF) = (c.count + 1) / 2 ∧
    (List.range c.count).countP (fun i => pattern c i = 0x00) = c.count / 2 ∧
    (c.count ≤ 2 → ∀ i < c.count, ∀ p q, pattern { c with reinitPattern := p } i =
      pattern { c with reinitPattern := q } i)

/-- 43_sequencer.md R204: SEQREINIT fills the buffer with the pattern, one EEWR for each byte at ascending
addresses, between its two acknowledgments: the begin flashes, then the writes, then the end flashes, then the
registers as SEQINIT sets them. It changes no byte outside the buffer. At boot it is performed exactly if one
sample of the input finds it asserted (70_reset_and_hazards.md R280). -/
def Obligations.SeqreinitCompletes : Prop :=
  ∀ s : State, Ready s →
    (∃ u v w, flash 3 s = .ok () u ∧ u.outTrace = s.outTrace ++ flashTrace 3 ∧
      wireSettled u = wireSettled s ∧ SameEe s u ∧
      reinitBuffer s.cfg.count 0 u = .ok () v ∧ v.outTrace = u.outTrace ∧
      wireSettled v = wireSettled u ++ reinitEvents s.cfg ∧
      flash 5 v = .ok () w ∧ w.outTrace = v.outTrace ++ flashTrace 5 ∧
      wireSettled w = wireSettled v ∧ SameEe v w ∧
      exec .seqreinit s = .next { w with cs := .replay, bc := s.cfg.first, bi := 8 }) ∧
    (∃ t, exec .seqreinit s = .next t ∧ SamePort s t ∧ t.br = s.br ∧ SameTimer s t ∧
      t.hung = s.hung ∧ t.resp = s.resp ∧ t.ph = .idle ∧ t.inflight = .none ∧ t.done = true ∧
      (∀ a, t.ee.read a =
        if s.cfg.first.toNat ≤ a ∧ a ≤ lastAddr s.cfg then pattern s.cfg (a - s.cfg.first.toNat)
        else s.ee.read a) ∧
      t.cs = .replay ∧ t.bc = s.cfg.first ∧ t.bi = 8 ∧ t.acc = s.acc ∧ t.cur = s.cur ∧
      t.out = false ∧ t.outTrace = s.outTrace ++ flashTrace 3 ++ flashTrace 5 ∧
      wireSettled t = wireSettled s ++ reinitEvents s.cfg ∧
      (s.pend = true → t.pend = true) ∧ (Scripted s → SameLines s t ∧ SameRtc s t)) ∧
    (s.inp = true → bootGate s = .ok () s) ∧
    (s.inp = false → ∃ t, bootGate s = .ok () t ∧ exec .seqreinit s.others = .next t)

/-- 43_sequencer.md R197, R201, R202, R195, R196: a step of Replay that samples a press drives nothing from the
buffer: it plays the begin acknowledgment, rewinds the cursors for recording, enables the tick interrupt and
ends in Recording; a step that starts in BeginRecording does the same; one that starts in EndRecording plays
the end acknowledgment, rewinds for replay, enables the tick interrupt and ends in Replay. From the first line
of the action to the line that enables the tick interrupt again it is masked (20_memory.md R76): whatever the
other agents try, no tick becomes pending there. -/
def Obligations.SeqstepActions : Prop :=
  ∀ s : State, s.ph = .idle → (s.cs = .replay ∧ s.inp = false) ∨ s.cs = .beginRecording ∨
      s.cs = .endRecording →
    (∃ u, maskedAction s.cs (actionStart s) = .ok () u ∧ u.tie = false ∧
      u.pend = (actionStart s).pend ∧ tickEnabled u = false ∧
      exec .seqstep s = finish (noResult (unmaskInto (if s.cs = .endRecording then .replay else .recording)))
        u) ∧
    ∃ t, exec .seqstep s = .next t ∧ SamePort s t ∧ t.br = s.br ∧ t.tcfg = s.tcfg ∧ t.tie = true ∧
      t.hung = s.hung ∧ t.resp = s.resp ∧ t.bc = s.cfg.first ∧ t.acc = s.acc ∧ t.cur = s.cur ∧
      (s.cs ≠ .endRecording → t.cs = .recording ∧ t.bi = 0 ∧
        t.outTrace = s.outTrace ++ flashTrace 3) ∧
      (s.cs = .endRecording → t.cs = .replay ∧ t.bi = 8 ∧ t.outTrace = s.outTrace ++ flashTrace 5) ∧
      t.out = false ∧ (s.pend = true → t.pend = true) ∧ SameEe s t ∧
      (Scripted s → SameLines s t ∧ SameEngine s t ∧ SameDevices s t)

/-- 43_sequencer.md R198: a step of Replay with the input not asserted and a bit left in the current byte
drives that bit and touches no bus; past the last bit of a byte the byte cursor advances and wraps. -/
def Obligations.SeqstepReplaysABit : Prop :=
  ∀ s : State, configValid s.cfg = true → SequencerRest s → s.ph = .idle → s.cs = .replay →
    s.inp = true → s.bi ≠ 8 →
    ∃ t, exec .seqstep s = .next t ∧ SamePort s t ∧ t.br = s.br ∧ SameTimer s t ∧ t.hung = s.hung ∧
      t.resp = s.resp ∧ t.out = s.cur.getLsbD s.bi.toNat ∧
      t.outTrace = s.outTrace ++ [s.cur.getLsbD s.bi.toNat] ∧ t.bi = s.bi + 1 ∧
      t.bc.toNat = (if s.bi = 7 then (if s.bc.toNat = lastAddr s.cfg then s.cfg.first.toNat
        else s.bc.toNat + 1) else s.bc.toNat) ∧
      t.cs = .replay ∧ t.cur = s.cur ∧ t.acc = s.acc ∧ (s.pend = true → t.pend = true) ∧ SameEe s t ∧
      (Scripted s → SameLines s t ∧ SameEngine s t ∧ SameDevices s t)

/-- 43_sequencer.md R198, R193: a step of Replay with the bit cursor out of range fetches the byte under the
byte cursor with one EERD and drives its bit 0. -/
def Obligations.SeqstepRefills : Prop :=
  ∀ s : State, Ready s → SequencerRest s → s.cs = .replay → s.inp = true → s.bi = 8 →
    ∃ t, exec .seqstep s = .next t ∧ SamePort s t ∧ t.br = s.br ∧ SameTimer s t ∧ t.hung = s.hung ∧
      t.resp = s.resp ∧ t.cur = s.ee.read s.bc.toNat ∧ t.out = (s.ee.read s.bc.toNat).getLsbD 0 ∧
      t.outTrace = s.outTrace ++ [(s.ee.read s.bc.toNat).getLsbD 0] ∧ t.bi = 1 ∧ t.bc = s.bc ∧
      t.cs = .replay ∧ t.acc = s.acc ∧ (s.pend = true → t.pend = true) ∧ SameEe s t ∧
      t.ph = .idle ∧ t.inflight = .none ∧
      wireSettled t = wireSettled s ++
        readEvents s.cfg.eeDev true [hiByte s.bc, loByte s.bc] (s.ee.read s.bc.toNat) ++ [.p] ∧
      (Scripted s → SameLines s t ∧ SameRtc s t)

/-- 43_sequencer.md R200: a step of Recording that does not complete a byte takes one sample into the
accumulator, zeroed at bit 0, and touches neither the bus nor the output. -/
def Obligations.SeqstepRecordsABit : Prop :=
  ∀ s : State, s.ph = .idle → s.cs = .recording → s.bi.toNat < 7 →
    ∃ t, exec .seqstep s = .next t ∧ SamePort s t ∧ t.br = s.br ∧ SameTimer s t ∧ t.hung = s.hung ∧
      t.resp = s.resp ∧ t.bi = s.bi + 1 ∧ t.bc = s.bc ∧ t.cs = .recording ∧ t.cur = s.cur ∧
      SameOutput s t ∧ (s.pend = true → t.pend = true) ∧ SameEe s t ∧
      (∀ j < 8, t.acc.getLsbD j =
        if j = s.bi.toNat ∧ s.inp = false then true
        else if s.bi = 0 then false else s.acc.getLsbD j) ∧
      (Scripted s → SameLines s t ∧ SameEngine s t ∧ SameDevices s t)

/-- 43_sequencer.md R200, R202: a step of Recording that completes a byte stores it under the byte cursor with
one EEWR, and no other byte; it goes on with the next address, or, the last address stored, performs the end
action and is back in Replay. -/
def Obligations.SeqstepStoresAByte : Prop :=
  ∀ s : State, Ready s → SequencerRest s → s.cs = .recording → s.bi = 7 →
    ∃ t, exec .seqstep s = .next t ∧ SamePort s t ∧ t.br = s.br ∧ t.tcfg = s.tcfg ∧ t.hung = s.hung ∧
      t.resp = s.resp ∧ t.cur = s.cur ∧ (s.pend = true → t.pend = true) ∧
      (∀ j < 8, t.acc.getLsbD j = if j = 7 ∧ s.inp = false then true else s.acc.getLsbD j) ∧
      (∀ a, t.ee.read a = if a = s.bc.toNat then t.acc else s.ee.read a) ∧
      t.ph = .idle ∧ t.inflight = .none ∧
      wireSettled t = wireSettled s ++
        writeEvents s.cfg.eeDev true [hiByte s.bc, loByte s.bc, t.acc] ++ [.p] ∧
      (s.bc.toNat < lastAddr s.cfg →
        t.cs = .recording ∧ t.bc = s.bc + 1 ∧ t.bi = 0 ∧ SameOutput s t ∧ t.tie = s.tie) ∧
      (s.bc.toNat = lastAddr s.cfg →
        t.cs = .replay ∧ t.bc = s.cfg.first ∧ t.bi = 8 ∧ t.tie = true ∧ t.out = false ∧
        t.outTrace = s.outTrace ++ flashTrace 5) ∧
      (Scripted s → SameLines s t ∧ SameRtc s t)

/-- 43_sequencer.md R199: a replay from the start of the buffer drives the recorded bits in order, for ever:
step t drives bit t % 8 of the byte at FIRST + (t / 8) % COUNT, each byte is fetched at the step of its bit 0
and at no other, and after 8 * COUNT steps the cursors are back at the start. -/
def Obligations.ReplayPass : Prop :=
  ∀ (n : Nat) (s : State), Ready s → Scripted s → s.cs = .replay → s.bc = s.cfg.first → s.bi = 8 →
    ∃ t, tickRun (List.replicate n true) s = .next t ∧
      t.outTrace = s.outTrace ++ (List.range n).map (sequenceBit s.cfg s.ee) ∧
      wireSettled t = wireSettled s ++ (List.range ((n + 7) / 8)).flatMap (fun j =>
        readEvents s.cfg.eeDev true [hiByte (replayAddress s.cfg j), loByte (replayAddress s.cfg j)]
          (s.ee.read (replayAddress s.cfg j).toNat) ++ [.p]) ∧
      SameEe s t ∧ t.cs = .replay ∧
      (n % (8 * s.cfg.count) = 0 → t.bc = s.cfg.first ∧ t.bi = 8)

/-- 43_sequencer.md R203, 20_memory.md R63: a recording stores a byte every eighth step, at ascending
addresses; it leaves Recording at step 8 * COUNT and at no earlier step; and the sample of step 8k + i is bit
i of the byte at FIRST + k. `levels` are the input's levels, low being asserted. -/
def Obligations.RecordingStoresTheSamples : Prop :=
  ∀ (levels : List Bool) (s : State), Ready s → Scripted s → s.cs = .recording →
    s.bc = s.cfg.first → s.bi = 0 → levels.length ≤ 8 * s.cfg.count →
    ∃ t, tickRun levels s = .next t ∧
      (levels.length < 8 * s.cfg.count → t.cs = .recording ∧
        t.bc.toNat = s.cfg.first.toNat + levels.length / 8 ∧ t.bi.toNat = levels.length % 8 ∧
        t.outTrace = s.outTrace) ∧
      (levels.length = 8 * s.cfg.count → t.cs = .replay ∧ t.bc = s.cfg.first ∧ t.bi = 8 ∧
        t.outTrace = s.outTrace ++ flashTrace 5) ∧
      (∀ k i, k < levels.length / 8 → i < 8 → ∃ level, levels[8 * k + i]? = some level ∧
        (t.ee.read (s.cfg.first.toNat + k)).getLsbD i = !level) ∧
      (∀ a, a < s.cfg.first.toNat ∨ s.cfg.first.toNat + levels.length / 8 ≤ a →
        t.ee.read a = s.ee.read a)

/-! ## The tick timer -/

/-- 44_tick_timer.md R228: POLL with no tick pending does nothing; with one pending, under a script's schedule,
it clears PEND and is one tick-processing step. -/
def Obligations.PollDrainsOneTick : Prop :=
  encode .poll = [0x43] ∧
  ∀ s : State,
    (s.pend = false → exec .poll s = .next s) ∧
    (s.pend = true → Scripted s → exec .poll s = exec .seqstep { s with pend := false }) ∧
    (s.pend = true → Scripted s → s.ph = .idle → s.cs = .replay → s.inp = false →
      ∃ t, exec .poll s = .next t ∧ t.pend = false ∧ t.cs = .recording)

/-- 44_tick_timer.md R229: ticks are not queued: any number of them, at least one, between two polls leaves one
pending tick, and under a script's schedule the next poll runs one tick-processing step. -/
def Obligations.TicksCoalesce : Prop :=
  ∀ (k : Nat) (s : State), tickEnabled s = true →
    ticks (k + 1) s = .next { s with pend := true } ∧
    (Scripted s → exec .poll { s with pend := true } = exec .seqstep { s with pend := false })

/-- 44_tick_timer.md R222: TMRCFG sets the period and enables the tick interrupt, and nothing else; a period of
0 is refused; from then on the TIMER's step is enabled. -/
def Obligations.TmrcfgConfigures : Prop :=
  encode (.tmrcfg 100) = [0x50, 0x00, 0x64] ∧
  ∀ (ms : Half) (s : State),
    (ms ≠ 0 → exec (.tmrcfg ms) s = .next { s with tcfg := some ms, tie := true } ∧
      tickEnabled { s with tcfg := some ms, tie := true } = true) ∧
    (ms = 0 → exec (.tmrcfg ms) s = .refused .timerPeriod)

/-- 44_tick_timer.md R223, R224, R226, 30_encoding.md R110: TMRIEON and TMRIEOFF write TIE and nothing else:
with no period configured the first enables nothing; after the second no tick fires and a script's TICK is
refused, a pending tick stays pending and the timer keeps its period. -/
def Obligations.MaskOperations : Prop :=
  encode .tmrieon = [0x51] ∧ encode .tmrieoff = [0x52] ∧
  ∀ s : State,
    exec .tmrieon s = .next { s with tie := true } ∧
    (s.tcfg = none → tickEnabled { s with tie := true } = false) ∧
    exec .tmrieoff s = .next { s with tie := false } ∧
    tickEnabled { s with tie := false } = false ∧
    exec .tick { s with tie := false } = .refused .tickNotEnabled

/-- 44_tick_timer.md R226, 60_exceptions.md R247, R248, 30_encoding.md R110: the tick interrupt, where it is
enabled, sets PEND and changes nothing else; where it is not, a script's TICK is refused. -/
def Obligations.TickSetsPend : Prop :=
  ∀ s : State,
    (s.tcfg ≠ none → s.tie = true → exec .tick s = .next { s with pend := true }) ∧
    (s.tcfg = none ∨ s.tie = false → exec .tick s = .refused .tickNotEnabled)

/-- 44_tick_timer.md R230, 30_encoding.md R110: SETIN sets the input line and nothing else; 0 is asserted, which
is what `Sample()` then reads. -/
def Obligations.SetinSetsTheLine : Prop :=
  encode (.setin false) = [0xF1, 0x00] ∧ encode (.setin true) = [0xF1, 0x01] ∧
  ∀ (level : Bool) (s : State), exec (.setin level) s = .next { s with inp := level } ∧
    sample { s with inp := level } = .ok (!level) { s with inp := level }

/-! ## The register protocol with DevAck free -/

/-- 41_register_protocol.md R152 to R159, 40_bus_primitives.md R126, 10_state.md R54, with DevAck free: in the
forms stated, whatever the frames are answered, the transactions go on to their end with each frame's own answer
on the wire. A byte that was not acknowledged is not taken: the EEPROM stores, and the RTC writes, what the
acknowledged bytes say. A read that any frame of was not acknowledged is 0x00 when monitored; otherwise it is
the byte of the device that acknowledged the address frame for reading, and some byte if none did. Where a
device that is neither the EEPROM nor the RTC acknowledges, that it takes bytes without an effect and sends some
byte is the model's choice (log 17, DESIGN CHOICE). EESETCUR and EEGETCUR are two such transactions: the state
between them is the one that the HOST's lines of the first leave, after which the other agents may step; under a
script's schedule the second begins in that very state. Left out: EEWR to an RTC that acknowledges all three
bytes; EEWR to the EEPROM at an address outside it; EESETCUR to the RTC; and RDREG, EERD and EEGETCUR where the
EEPROM is to send with its pointer outside it. -/
def Obligations.TransactionsUnderAnyDevAck : Prop :=
  ∀ (dev : DevAddr) (s : State), ReadyAnyAck s →
    (∀ reg val, ∃ t, exec (.wrreg dev reg val) s = .next t ∧ t.resp = s.resp ∧
      WroteFrames s t dev [reg, val]) ∧
    (∀ addr val, (dev = s.cfg.rtcDev → dataAcks s dev 3 ≠ [true, true, true]) →
      (dev = s.cfg.eeDev → addr.toNat < s.cfg.eeSize) →
      ∃ t, exec (.eewr dev addr val) s = .next t ∧ t.resp = s.resp ∧
        WroteFrames s t dev [hiByte addr, loByte addr, val]) ∧
    (∀ cursor, dev ≠ s.cfg.rtcDev → ∃ u t, eewr dev 0 (hiByte cursor) s = .ok () u ∧
      (Scripted s → Scripted u ∧ u.others = u) ∧
      exec (.eesetcur dev cursor) s = .next t ∧ t.resp = s.resp ∧
      WroteFrames s u dev [0x00, 0x00, hiByte cursor] ∧
      WroteFrames u.others t dev [0x00, 0x01, loByte cursor]) ∧
    (SentOpen s →
      (∀ reg, MaySend s dev [reg] → ∃ v t, exec (.rdreg dev reg) s = .next t ∧
        t.resp = s.resp ++ [readResult s dev 1 v] ∧ ReadFrames s t dev [reg] v) ∧
      (∀ addr, MaySend s dev [hiByte addr, loByte addr] → ∃ v t, exec (.eerd dev addr) s = .next t ∧
        t.resp = s.resp ++ [readResult s dev 2 v] ∧ ReadFrames s t dev [hiByte addr, loByte addr] v) ∧
      (MaySend s dev [0x00, 0x00] →
        (∀ v u, eerd dev 0 s = .ok v u → MaySend u.others dev [0x00, 0x01]) →
        ∃ hi lo u t, eerd dev 0 s = .ok (readResult s dev 2 hi) u ∧
          (Scripted s → Scripted u ∧ u.others = u) ∧
          exec (.eegetcur dev) s = .next t ∧
          t.resp = s.resp ++ [readResult s dev 2 hi, readResult u.others dev 2 lo] ∧
          ReadFrames s u dev [0x00, 0x00] hi ∧ ReadFrames u.others t dev [0x00, 0x01] lo))
end

