-- ==== Sys2Proof/Laws/Bytes.lean ====
section
/-! SUPPORT. Bytes and halves: splitting and joining. -/

namespace Sys2Proof.Machine

/-- The value of a joined pair, high byte first (30_encoding.md R102). -/
theorem toNat_joinBytes (h l : Byte) : (joinBytes h l).toNat = h.toNat * 256 + l.toNat := by
  have e : (joinBytes h l).toNat = h.toNat <<< 8 ||| l.toNat := BitVec.toNat_append h l
  rw [e, ← Nat.shiftLeft_add_eq_or_of_lt l.isLt, Nat.shiftLeft_eq]

theorem toNat_hiByte (x : Half) : (hiByte x).toNat = x.toNat / 256 := by
  have := x.isLt
  simp only [hiByte, BitVec.extractLsb'_toNat, Nat.shiftRight_eq_div_pow]
  omega

theorem toNat_loByte (x : Half) : (loByte x).toNat = x.toNat % 256 := by
  simp only [loByte, BitVec.extractLsb'_toNat, Nat.shiftRight_eq_div_pow]
  omega

@[simp] theorem hiByte_joinBytes (h l : Byte) : hiByte (joinBytes h l) = h := by
  apply BitVec.eq_of_toNat_eq
  rw [toNat_hiByte, toNat_joinBytes]
  omega

@[simp] theorem loByte_joinBytes (h l : Byte) : loByte (joinBytes h l) = l := by
  apply BitVec.eq_of_toNat_eq
  rw [toNat_loByte, toNat_joinBytes]
  omega

@[simp] theorem joinBytes_hiByte_loByte (x : Half) : joinBytes (hiByte x) (loByte x) = x := by
  apply BitVec.eq_of_toNat_eq
  rw [toNat_joinBytes, toNat_hiByte, toNat_loByte]
  omega

end Sys2Proof.Machine
end

