-- ==== Sys2Proof/Laws/State.lean ====
section
/-! SUPPORT. The small lemmas of the named updates of State: for each update, one lemma per field. -/

namespace Sys2Proof.Machine

/-! ## The tick interrupt: PEND alone (60_exceptions.md R247, R248) -/

@[simp] theorem tickInterrupt_cfg (s : State) : (tickInterrupt s).cfg = s.cfg := rfl
@[simp] theorem tickInterrupt_br (s : State) : (tickInterrupt s).br = s.br := rfl
@[simp] theorem tickInterrupt_ph (s : State) : (tickInterrupt s).ph = s.ph := rfl
@[simp] theorem tickInterrupt_st (s : State) : (tickInterrupt s).st = s.st := rfl
@[simp] theorem tickInterrupt_dr (s : State) : (tickInterrupt s).dr = s.dr := rfl
@[simp] theorem tickInterrupt_done (s : State) : (tickInterrupt s).done = s.done := rfl
@[simp] theorem tickInterrupt_inflight (s : State) : (tickInterrupt s).inflight = s.inflight := rfl
@[simp] theorem tickInterrupt_stopping (s : State) : (tickInterrupt s).stopping = s.stopping := rfl
@[simp] theorem tickInterrupt_sel (s : State) : (tickInterrupt s).sel = s.sel := rfl
@[simp] theorem tickInterrupt_wire (s : State) : (tickInterrupt s).wire = s.wire := rfl
@[simp] theorem tickInterrupt_cs (s : State) : (tickInterrupt s).cs = s.cs := rfl
@[simp] theorem tickInterrupt_bc (s : State) : (tickInterrupt s).bc = s.bc := rfl
@[simp] theorem tickInterrupt_bi (s : State) : (tickInterrupt s).bi = s.bi := rfl
@[simp] theorem tickInterrupt_acc (s : State) : (tickInterrupt s).acc = s.acc := rfl
@[simp] theorem tickInterrupt_cur (s : State) : (tickInterrupt s).cur = s.cur := rfl
@[simp] theorem tickInterrupt_out (s : State) : (tickInterrupt s).out = s.out := rfl
@[simp] theorem tickInterrupt_inp (s : State) : (tickInterrupt s).inp = s.inp := rfl
@[simp] theorem tickInterrupt_pend (s : State) : (tickInterrupt s).pend = true := rfl
@[simp] theorem tickInterrupt_tie (s : State) : (tickInterrupt s).tie = s.tie := rfl
@[simp] theorem tickInterrupt_tcfg (s : State) : (tickInterrupt s).tcfg = s.tcfg := rfl
@[simp] theorem tickInterrupt_ee (s : State) : (tickInterrupt s).ee = s.ee := rfl
@[simp] theorem tickInterrupt_eeptr (s : State) : (tickInterrupt s).eeptr = s.eeptr := rfl
@[simp] theorem tickInterrupt_eeph (s : State) : (tickInterrupt s).eeph = s.eeph := rfl
@[simp] theorem tickInterrupt_eeSent (s : State) : (tickInterrupt s).eeSent = s.eeSent := rfl
@[simp] theorem tickInterrupt_rtcreg (s : State) : (tickInterrupt s).rtcreg = s.rtcreg := rfl
@[simp] theorem tickInterrupt_rtcptr (s : State) : (tickInterrupt s).rtcptr = s.rtcptr := rfl
@[simp] theorem tickInterrupt_rtcph (s : State) : (tickInterrupt s).rtcph = s.rtcph := rfl
@[simp] theorem tickInterrupt_rtcSent (s : State) : (tickInterrupt s).rtcSent = s.rtcSent := rfl
@[simp] theorem tickInterrupt_stream (s : State) : (tickInterrupt s).stream = s.stream := rfl
@[simp] theorem tickInterrupt_resp (s : State) : (tickInterrupt s).resp = s.resp := rfl
@[simp] theorem tickInterrupt_outTrace (s : State) : (tickInterrupt s).outTrace = s.outTrace := rfl
@[simp] theorem tickInterrupt_hung (s : State) : (tickInterrupt s).hung = s.hung := rfl
@[simp] theorem tickInterrupt_agenda (s : State) : (tickInterrupt s).agenda = s.agenda := rfl
@[simp] theorem tickInterrupt_ackScript (s : State) : (tickInterrupt s).ackScript = s.ackScript := rfl
@[simp] theorem tickInterrupt_startScript (s : State) : (tickInterrupt s).startScript = s.startScript := rfl
@[simp] theorem tickInterrupt_busLeft (s : State) : (tickInterrupt s).busLeft = s.busLeft := rfl
@[simp] theorem tickInterrupt_drawn (s : State) : (tickInterrupt s).drawn = s.drawn := rfl

/-! ## The stop step of the devices (10_state.md R51, R53) -/

@[simp] theorem deviceStop_cfg (s : State) : (deviceStop s).cfg = s.cfg := rfl
@[simp] theorem deviceStop_br (s : State) : (deviceStop s).br = s.br := rfl
@[simp] theorem deviceStop_ph (s : State) : (deviceStop s).ph = s.ph := rfl
@[simp] theorem deviceStop_st (s : State) : (deviceStop s).st = s.st := rfl
@[simp] theorem deviceStop_dr (s : State) : (deviceStop s).dr = s.dr := rfl
@[simp] theorem deviceStop_done (s : State) : (deviceStop s).done = s.done := rfl
@[simp] theorem deviceStop_inflight (s : State) : (deviceStop s).inflight = s.inflight := rfl
@[simp] theorem deviceStop_stopping (s : State) : (deviceStop s).stopping = s.stopping := rfl
@[simp] theorem deviceStop_sel (s : State) : (deviceStop s).sel = s.sel := rfl
@[simp] theorem deviceStop_wire (s : State) : (deviceStop s).wire = s.wire := rfl
@[simp] theorem deviceStop_cs (s : State) : (deviceStop s).cs = s.cs := rfl
@[simp] theorem deviceStop_bc (s : State) : (deviceStop s).bc = s.bc := rfl
@[simp] theorem deviceStop_bi (s : State) : (deviceStop s).bi = s.bi := rfl
@[simp] theorem deviceStop_acc (s : State) : (deviceStop s).acc = s.acc := rfl
@[simp] theorem deviceStop_cur (s : State) : (deviceStop s).cur = s.cur := rfl
@[simp] theorem deviceStop_out (s : State) : (deviceStop s).out = s.out := rfl
@[simp] theorem deviceStop_inp (s : State) : (deviceStop s).inp = s.inp := rfl
@[simp] theorem deviceStop_pend (s : State) : (deviceStop s).pend = s.pend := rfl
@[simp] theorem deviceStop_tie (s : State) : (deviceStop s).tie = s.tie := rfl
@[simp] theorem deviceStop_tcfg (s : State) : (deviceStop s).tcfg = s.tcfg := rfl
@[simp] theorem deviceStop_ee (s : State) : (deviceStop s).ee = s.ee := rfl
@[simp] theorem deviceStop_eeptr (s : State) : (deviceStop s).eeptr = s.eeptr := rfl
@[simp] theorem deviceStop_eeSent (s : State) : (deviceStop s).eeSent = false := rfl
@[simp] theorem deviceStop_rtcreg (s : State) : (deviceStop s).rtcreg = s.rtcreg := rfl
@[simp] theorem deviceStop_rtcptr (s : State) : (deviceStop s).rtcptr = s.rtcptr := rfl
@[simp] theorem deviceStop_rtcSent (s : State) : (deviceStop s).rtcSent = false := rfl
@[simp] theorem deviceStop_stream (s : State) : (deviceStop s).stream = s.stream := rfl
@[simp] theorem deviceStop_resp (s : State) : (deviceStop s).resp = s.resp := rfl
@[simp] theorem deviceStop_outTrace (s : State) : (deviceStop s).outTrace = s.outTrace := rfl
@[simp] theorem deviceStop_hung (s : State) : (deviceStop s).hung = s.hung := rfl
@[simp] theorem deviceStop_agenda (s : State) : (deviceStop s).agenda = s.agenda := rfl
@[simp] theorem deviceStop_ackScript (s : State) : (deviceStop s).ackScript = s.ackScript := rfl
@[simp] theorem deviceStop_startScript (s : State) : (deviceStop s).startScript = s.startScript := rfl
@[simp] theorem deviceStop_busLeft (s : State) : (deviceStop s).busLeft = s.busLeft := rfl
@[simp] theorem deviceStop_drawn (s : State) : (deviceStop s).drawn = s.drawn := rfl

/-! ## The stop completion (40_bus_primitives.md R128, R129) -/

@[simp] theorem completeStop_cfg (s : State) : (completeStop s).cfg = s.cfg := rfl
@[simp] theorem completeStop_br (s : State) : (completeStop s).br = s.br := rfl
@[simp] theorem completeStop_ph (s : State) : (completeStop s).ph = s.ph := rfl
@[simp] theorem completeStop_st (s : State) : (completeStop s).st = s.st := rfl
@[simp] theorem completeStop_dr (s : State) : (completeStop s).dr = s.dr := rfl
@[simp] theorem completeStop_done (s : State) : (completeStop s).done = s.done := rfl
@[simp] theorem completeStop_inflight (s : State) : (completeStop s).inflight = s.inflight := rfl
@[simp] theorem completeStop_stopping (s : State) : (completeStop s).stopping = false := rfl
@[simp] theorem completeStop_sel (s : State) : (completeStop s).sel = none := rfl
@[simp] theorem completeStop_wire (s : State) : (completeStop s).wire = s.wire ++ [.p] := rfl
@[simp] theorem completeStop_cs (s : State) : (completeStop s).cs = s.cs := rfl
@[simp] theorem completeStop_bc (s : State) : (completeStop s).bc = s.bc := rfl
@[simp] theorem completeStop_bi (s : State) : (completeStop s).bi = s.bi := rfl
@[simp] theorem completeStop_acc (s : State) : (completeStop s).acc = s.acc := rfl
@[simp] theorem completeStop_cur (s : State) : (completeStop s).cur = s.cur := rfl
@[simp] theorem completeStop_out (s : State) : (completeStop s).out = s.out := rfl
@[simp] theorem completeStop_inp (s : State) : (completeStop s).inp = s.inp := rfl
@[simp] theorem completeStop_pend (s : State) : (completeStop s).pend = s.pend := rfl
@[simp] theorem completeStop_tie (s : State) : (completeStop s).tie = s.tie := rfl
@[simp] theorem completeStop_tcfg (s : State) : (completeStop s).tcfg = s.tcfg := rfl
@[simp] theorem completeStop_ee (s : State) : (completeStop s).ee = s.ee := rfl
@[simp] theorem completeStop_eeptr (s : State) : (completeStop s).eeptr = s.eeptr := rfl
@[simp] theorem completeStop_eeSent (s : State) : (completeStop s).eeSent = false := rfl
@[simp] theorem completeStop_rtcreg (s : State) : (completeStop s).rtcreg = s.rtcreg := rfl
@[simp] theorem completeStop_rtcptr (s : State) : (completeStop s).rtcptr = s.rtcptr := rfl
@[simp] theorem completeStop_rtcSent (s : State) : (completeStop s).rtcSent = false := rfl
@[simp] theorem completeStop_stream (s : State) : (completeStop s).stream = s.stream := rfl
@[simp] theorem completeStop_resp (s : State) : (completeStop s).resp = s.resp := rfl
@[simp] theorem completeStop_outTrace (s : State) : (completeStop s).outTrace = s.outTrace := rfl
@[simp] theorem completeStop_hung (s : State) : (completeStop s).hung = s.hung := rfl
@[simp] theorem completeStop_agenda (s : State) : (completeStop s).agenda = s.agenda := rfl
@[simp] theorem completeStop_ackScript (s : State) : (completeStop s).ackScript = s.ackScript := rfl
@[simp] theorem completeStop_startScript (s : State) : (completeStop s).startScript = s.startScript := rfl
@[simp] theorem completeStop_busLeft (s : State) : (completeStop s).busLeft = s.busLeft := rfl
@[simp] theorem completeStop_drawn (s : State) : (completeStop s).drawn = s.drawn := rfl

/-! ## A BUS step taken off what the bus has left (10_state.md R55) -/

/-- Spending a BUS step changes the count alone. -/
theorem spendBusStep_some {s t : State} (h : spendBusStep s = some t) :
    t = { s with busLeft := t.busLeft } := by
  unfold spendBusStep at h
  split at h
  · cases h; rfl
  · cases h
  · cases h; rfl

@[simp] theorem spendBusStep_live {s : State} (h : s.busLeft = none) : spendBusStep s = some s := by
  simp [spendBusStep, h]

@[simp] theorem spendBusStep_dead {s : State} (h : s.busLeft = some 0) : spendBusStep s = none := by
  simp [spendBusStep, h]

/-! ## A pending stop settled (40_bus_primitives.md R129) -/

/-- Settling either does nothing or is the stop completion after one BUS step. -/
theorem settleStop_cases (s : State) :
    settleStop s = s ∨
      (s.stopping = true ∧ ∃ n, settleStop s = completeStop { s with busLeft := n }) := by
  unfold settleStop
  split
  · rename_i h
    split
    · rename_i t ht
      refine .inr ⟨h, t.busLeft, ?_⟩
      rw [← spendBusStep_some ht]
    · exact .inl rfl
  · exact .inl rfl

@[simp] theorem settleStop_of_not_stopping {s : State} (h : s.stopping = false) :
    settleStop s = s := by
  simp [settleStop, h]

theorem settleStop_of_stopping_live {s : State} (h : s.stopping = true) (hl : s.busLeft = none) :
    settleStop s = completeStop s := by
  simp [settleStop, h, hl]

/-- A field that the stop completion keeps, settling keeps. -/
theorem settleStop_keeps {α : Type} (f : State → α) (hc : ∀ s, f (completeStop s) = f s)
    (hb : ∀ s n, f { s with busLeft := n } = f s) (s : State) : f (settleStop s) = f s := by
  rcases settleStop_cases s with h | ⟨_, n, h⟩
  · rw [h]
  · rw [h, hc, hb]

@[simp] theorem settleStop_cfg (s : State) : (settleStop s).cfg = s.cfg :=
  settleStop_keeps State.cfg completeStop_cfg (fun _ _ => rfl) s
@[simp] theorem settleStop_br (s : State) : (settleStop s).br = s.br :=
  settleStop_keeps State.br completeStop_br (fun _ _ => rfl) s
@[simp] theorem settleStop_ph (s : State) : (settleStop s).ph = s.ph :=
  settleStop_keeps State.ph completeStop_ph (fun _ _ => rfl) s
@[simp] theorem settleStop_st (s : State) : (settleStop s).st = s.st :=
  settleStop_keeps State.st completeStop_st (fun _ _ => rfl) s
@[simp] theorem settleStop_dr (s : State) : (settleStop s).dr = s.dr :=
  settleStop_keeps State.dr completeStop_dr (fun _ _ => rfl) s
@[simp] theorem settleStop_done (s : State) : (settleStop s).done = s.done :=
  settleStop_keeps State.done completeStop_done (fun _ _ => rfl) s
@[simp] theorem settleStop_inflight (s : State) : (settleStop s).inflight = s.inflight :=
  settleStop_keeps State.inflight completeStop_inflight (fun _ _ => rfl) s
@[simp] theorem settleStop_cs (s : State) : (settleStop s).cs = s.cs :=
  settleStop_keeps State.cs completeStop_cs (fun _ _ => rfl) s
@[simp] theorem settleStop_bc (s : State) : (settleStop s).bc = s.bc :=
  settleStop_keeps State.bc completeStop_bc (fun _ _ => rfl) s
@[simp] theorem settleStop_bi (s : State) : (settleStop s).bi = s.bi :=
  settleStop_keeps State.bi completeStop_bi (fun _ _ => rfl) s
@[simp] theorem settleStop_acc (s : State) : (settleStop s).acc = s.acc :=
  settleStop_keeps State.acc completeStop_acc (fun _ _ => rfl) s
@[simp] theorem settleStop_cur (s : State) : (settleStop s).cur = s.cur :=
  settleStop_keeps State.cur completeStop_cur (fun _ _ => rfl) s
@[simp] theorem settleStop_out (s : State) : (settleStop s).out = s.out :=
  settleStop_keeps State.out completeStop_out (fun _ _ => rfl) s
@[simp] theorem settleStop_inp (s : State) : (settleStop s).inp = s.inp :=
  settleStop_keeps State.inp completeStop_inp (fun _ _ => rfl) s
@[simp] theorem settleStop_pend (s : State) : (settleStop s).pend = s.pend :=
  settleStop_keeps State.pend completeStop_pend (fun _ _ => rfl) s
@[simp] theorem settleStop_tie (s : State) : (settleStop s).tie = s.tie :=
  settleStop_keeps State.tie completeStop_tie (fun _ _ => rfl) s
@[simp] theorem settleStop_tcfg (s : State) : (settleStop s).tcfg = s.tcfg :=
  settleStop_keeps State.tcfg completeStop_tcfg (fun _ _ => rfl) s
@[simp] theorem settleStop_ee (s : State) : (settleStop s).ee = s.ee :=
  settleStop_keeps State.ee completeStop_ee (fun _ _ => rfl) s
@[simp] theorem settleStop_eeptr (s : State) : (settleStop s).eeptr = s.eeptr :=
  settleStop_keeps State.eeptr completeStop_eeptr (fun _ _ => rfl) s
@[simp] theorem settleStop_rtcreg (s : State) : (settleStop s).rtcreg = s.rtcreg :=
  settleStop_keeps State.rtcreg completeStop_rtcreg (fun _ _ => rfl) s
@[simp] theorem settleStop_rtcptr (s : State) : (settleStop s).rtcptr = s.rtcptr :=
  settleStop_keeps State.rtcptr completeStop_rtcptr (fun _ _ => rfl) s
@[simp] theorem settleStop_stream (s : State) : (settleStop s).stream = s.stream :=
  settleStop_keeps State.stream completeStop_stream (fun _ _ => rfl) s
@[simp] theorem settleStop_resp (s : State) : (settleStop s).resp = s.resp :=
  settleStop_keeps State.resp completeStop_resp (fun _ _ => rfl) s
@[simp] theorem settleStop_outTrace (s : State) : (settleStop s).outTrace = s.outTrace :=
  settleStop_keeps State.outTrace completeStop_outTrace (fun _ _ => rfl) s
@[simp] theorem settleStop_hung (s : State) : (settleStop s).hung = s.hung :=
  settleStop_keeps State.hung completeStop_hung (fun _ _ => rfl) s
@[simp] theorem settleStop_agenda (s : State) : (settleStop s).agenda = s.agenda :=
  settleStop_keeps State.agenda completeStop_agenda (fun _ _ => rfl) s
@[simp] theorem settleStop_ackScript (s : State) : (settleStop s).ackScript = s.ackScript :=
  settleStop_keeps State.ackScript completeStop_ackScript (fun _ _ => rfl) s
@[simp] theorem settleStop_startScript (s : State) : (settleStop s).startScript = s.startScript :=
  settleStop_keeps State.startScript completeStop_startScript (fun _ _ => rfl) s
@[simp] theorem settleStop_drawn (s : State) : (settleStop s).drawn = s.drawn :=
  settleStop_keeps State.drawn completeStop_drawn (fun _ _ => rfl) s

theorem settleStop_live {s : State} (h : s.busLeft = none) : (settleStop s).busLeft = none := by
  cases hs : s.stopping
  · rw [settleStop_of_not_stopping hs, h]
  · rw [settleStop_of_stopping_live hs h, completeStop_busLeft, h]

/-! ## One step of another agent (00_scope.md R17) -/

/-- A field that none of the agents' registers is, an agent's step keeps. -/
theorem AgentStep.apply_keeps {α : Type} (f : State → α) (hp : ∀ s, f (tickInterrupt s) = f s)
    (hi : ∀ s b, f { s with inp := b } = f s) (hr : ∀ s m, f { s with rtcreg := m } = f s)
    (hs : ∀ s, f (settleStop s) = f s) (e : AgentStep) (s : State) : f (e.apply s) = f s := by
  cases e with
  | tick =>
    simp only [AgentStep.apply]
    split
    · exact hp s
    · rfl
  | setInput b => exact hi s b
  | rtcField _ _ => exact hr s _
  | oscRun _ => exact hr s _
  | busStop => exact hs s

@[simp] theorem AgentStep.apply_cfg (e : AgentStep) (s : State) : (e.apply s).cfg = s.cfg :=
  apply_keeps State.cfg (fun _ => rfl) (fun _ _ => rfl) (fun _ _ => rfl) settleStop_cfg e s
@[simp] theorem AgentStep.apply_br (e : AgentStep) (s : State) : (e.apply s).br = s.br :=
  apply_keeps State.br (fun _ => rfl) (fun _ _ => rfl) (fun _ _ => rfl) settleStop_br e s
@[simp] theorem AgentStep.apply_ph (e : AgentStep) (s : State) : (e.apply s).ph = s.ph :=
  apply_keeps State.ph (fun _ => rfl) (fun _ _ => rfl) (fun _ _ => rfl) settleStop_ph e s
@[simp] theorem AgentStep.apply_st (e : AgentStep) (s : State) : (e.apply s).st = s.st :=
  apply_keeps State.st (fun _ => rfl) (fun _ _ => rfl) (fun _ _ => rfl) settleStop_st e s
@[simp] theorem AgentStep.apply_dr (e : AgentStep) (s : State) : (e.apply s).dr = s.dr :=
  apply_keeps State.dr (fun _ => rfl) (fun _ _ => rfl) (fun _ _ => rfl) settleStop_dr e s
@[simp] theorem AgentStep.apply_done (e : AgentStep) (s : State) : (e.apply s).done = s.done :=
  apply_keeps State.done (fun _ => rfl) (fun _ _ => rfl) (fun _ _ => rfl) settleStop_done e s
@[simp] theorem AgentStep.apply_inflight (e : AgentStep) (s : State) : (e.apply s).inflight = s.inflight :=
  apply_keeps State.inflight (fun _ => rfl) (fun _ _ => rfl) (fun _ _ => rfl) settleStop_inflight e s
@[simp] theorem AgentStep.apply_cs (e : AgentStep) (s : State) : (e.apply s).cs = s.cs :=
  apply_keeps State.cs (fun _ => rfl) (fun _ _ => rfl) (fun _ _ => rfl) settleStop_cs e s
@[simp] theorem AgentStep.apply_bc (e : AgentStep) (s : State) : (e.apply s).bc = s.bc :=
  apply_keeps State.bc (fun _ => rfl) (fun _ _ => rfl) (fun _ _ => rfl) settleStop_bc e s
@[simp] theorem AgentStep.apply_bi (e : AgentStep) (s : State) : (e.apply s).bi = s.bi :=
  apply_keeps State.bi (fun _ => rfl) (fun _ _ => rfl) (fun _ _ => rfl) settleStop_bi e s
@[simp] theorem AgentStep.apply_acc (e : AgentStep) (s : State) : (e.apply s).acc = s.acc :=
  apply_keeps State.acc (fun _ => rfl) (fun _ _ => rfl) (fun _ _ => rfl) settleStop_acc e s
@[simp] theorem AgentStep.apply_cur (e : AgentStep) (s : State) : (e.apply s).cur = s.cur :=
  apply_keeps State.cur (fun _ => rfl) (fun _ _ => rfl) (fun _ _ => rfl) settleStop_cur e s
@[simp] theorem AgentStep.apply_out (e : AgentStep) (s : State) : (e.apply s).out = s.out :=
  apply_keeps State.out (fun _ => rfl) (fun _ _ => rfl) (fun _ _ => rfl) settleStop_out e s
@[simp] theorem AgentStep.apply_tie (e : AgentStep) (s : State) : (e.apply s).tie = s.tie :=
  apply_keeps State.tie (fun _ => rfl) (fun _ _ => rfl) (fun _ _ => rfl) settleStop_tie e s
@[simp] theorem AgentStep.apply_tcfg (e : AgentStep) (s : State) : (e.apply s).tcfg = s.tcfg :=
  apply_keeps State.tcfg (fun _ => rfl) (fun _ _ => rfl) (fun _ _ => rfl) settleStop_tcfg e s
@[simp] theorem AgentStep.apply_ee (e : AgentStep) (s : State) : (e.apply s).ee = s.ee :=
  apply_keeps State.ee (fun _ => rfl) (fun _ _ => rfl) (fun _ _ => rfl) settleStop_ee e s
@[simp] theorem AgentStep.apply_eeptr (e : AgentStep) (s : State) : (e.apply s).eeptr = s.eeptr :=
  apply_keeps State.eeptr (fun _ => rfl) (fun _ _ => rfl) (fun _ _ => rfl) settleStop_eeptr e s
@[simp] theorem AgentStep.apply_rtcptr (e : AgentStep) (s : State) : (e.apply s).rtcptr = s.rtcptr :=
  apply_keeps State.rtcptr (fun _ => rfl) (fun _ _ => rfl) (fun _ _ => rfl) settleStop_rtcptr e s
@[simp] theorem AgentStep.apply_stream (e : AgentStep) (s : State) : (e.apply s).stream = s.stream :=
  apply_keeps State.stream (fun _ => rfl) (fun _ _ => rfl) (fun _ _ => rfl) settleStop_stream e s
@[simp] theorem AgentStep.apply_resp (e : AgentStep) (s : State) : (e.apply s).resp = s.resp :=
  apply_keeps State.resp (fun _ => rfl) (fun _ _ => rfl) (fun _ _ => rfl) settleStop_resp e s
@[simp] theorem AgentStep.apply_outTrace (e : AgentStep) (s : State) : (e.apply s).outTrace = s.outTrace :=
  apply_keeps State.outTrace (fun _ => rfl) (fun _ _ => rfl) (fun _ _ => rfl) settleStop_outTrace e s
@[simp] theorem AgentStep.apply_hung (e : AgentStep) (s : State) : (e.apply s).hung = s.hung :=
  apply_keeps State.hung (fun _ => rfl) (fun _ _ => rfl) (fun _ _ => rfl) settleStop_hung e s
@[simp] theorem AgentStep.apply_ackScript (e : AgentStep) (s : State) : (e.apply s).ackScript = s.ackScript :=
  apply_keeps State.ackScript (fun _ => rfl) (fun _ _ => rfl) (fun _ _ => rfl) settleStop_ackScript e s
@[simp] theorem AgentStep.apply_startScript (e : AgentStep) (s : State) : (e.apply s).startScript = s.startScript :=
  apply_keeps State.startScript (fun _ => rfl) (fun _ _ => rfl) (fun _ _ => rfl) settleStop_startScript e s
@[simp] theorem AgentStep.apply_drawn (e : AgentStep) (s : State) : (e.apply s).drawn = s.drawn :=
  apply_keeps State.drawn (fun _ => rfl) (fun _ _ => rfl) (fun _ _ => rfl) settleStop_drawn e s
@[simp] theorem AgentStep.apply_agenda (e : AgentStep) (s : State) : (e.apply s).agenda = s.agenda :=
  apply_keeps State.agenda (fun _ => rfl) (fun _ _ => rfl) (fun _ _ => rfl) settleStop_agenda e s

/-! ## An interleaving point (00_scope.md R17) -/

/-- A field that every agent's step keeps, an interleaving point keeps. -/
theorem State.others_keeps {α : Type} (f : State → α) (ha : ∀ e s, f (AgentStep.apply e s) = f s)
    (hg : ∀ s g, f { s with agenda := g } = f s) (s : State) : f s.others = f s := by
  have fold : ∀ (l : List AgentStep) (t : State), f (l.foldl (fun t e => e.apply t) t) = f t := by
    intro l
    induction l with
    | nil => intro t; rfl
    | cons e l ih => intro t; rw [List.foldl_cons, ih, ha]
  unfold State.others
  split
  · rfl
  · rw [fold, hg]

/-- A property that every agent's step keeps, an interleaving point keeps. -/
theorem State.others_preserves (P : State → Prop) (ha : ∀ e s, P s → P (AgentStep.apply e s))
    (hg : ∀ s g, P s → P { s with agenda := g }) (s : State) (h : P s) : P s.others := by
  have fold : ∀ (l : List AgentStep) (t : State), P t → P (l.foldl (fun t e => e.apply t) t) := by
    intro l
    induction l with
    | nil => intro t ht; exact ht
    | cons e l ih => intro t ht; exact ih _ (ha e t ht)
  unfold State.others
  split
  · exact h
  · exact fold _ _ (hg _ _ h)

/-- Under a script's schedule no other agent moves (30_encoding.md R110). -/
theorem State.others_scripted {s : State} (h : s.agenda = []) : s.others = s := by
  simp [State.others, h]

@[simp] theorem State.others_cfg (s : State) : s.others.cfg = s.cfg :=
  others_keeps State.cfg AgentStep.apply_cfg (fun _ _ => rfl) s
@[simp] theorem State.others_br (s : State) : s.others.br = s.br :=
  others_keeps State.br AgentStep.apply_br (fun _ _ => rfl) s
@[simp] theorem State.others_ph (s : State) : s.others.ph = s.ph :=
  others_keeps State.ph AgentStep.apply_ph (fun _ _ => rfl) s
@[simp] theorem State.others_st (s : State) : s.others.st = s.st :=
  others_keeps State.st AgentStep.apply_st (fun _ _ => rfl) s
@[simp] theorem State.others_dr (s : State) : s.others.dr = s.dr :=
  others_keeps State.dr AgentStep.apply_dr (fun _ _ => rfl) s
@[simp] theorem State.others_done (s : State) : s.others.done = s.done :=
  others_keeps State.done AgentStep.apply_done (fun _ _ => rfl) s
@[simp] theorem State.others_inflight (s : State) : s.others.inflight = s.inflight :=
  others_keeps State.inflight AgentStep.apply_inflight (fun _ _ => rfl) s
@[simp] theorem State.others_cs (s : State) : s.others.cs = s.cs :=
  others_keeps State.cs AgentStep.apply_cs (fun _ _ => rfl) s
@[simp] theorem State.others_bc (s : State) : s.others.bc = s.bc :=
  others_keeps State.bc AgentStep.apply_bc (fun _ _ => rfl) s
@[simp] theorem State.others_bi (s : State) : s.others.bi = s.bi :=
  others_keeps State.bi AgentStep.apply_bi (fun _ _ => rfl) s
@[simp] theorem State.others_acc (s : State) : s.others.acc = s.acc :=
  others_keeps State.acc AgentStep.apply_acc (fun _ _ => rfl) s
@[simp] theorem State.others_cur (s : State) : s.others.cur = s.cur :=
  others_keeps State.cur AgentStep.apply_cur (fun _ _ => rfl) s
@[simp] theorem State.others_out (s : State) : s.others.out = s.out :=
  others_keeps State.out AgentStep.apply_out (fun _ _ => rfl) s
@[simp] theorem State.others_tie (s : State) : s.others.tie = s.tie :=
  others_keeps State.tie AgentStep.apply_tie (fun _ _ => rfl) s
@[simp] theorem State.others_tcfg (s : State) : s.others.tcfg = s.tcfg :=
  others_keeps State.tcfg AgentStep.apply_tcfg (fun _ _ => rfl) s
@[simp] theorem State.others_ee (s : State) : s.others.ee = s.ee :=
  others_keeps State.ee AgentStep.apply_ee (fun _ _ => rfl) s
@[simp] theorem State.others_eeptr (s : State) : s.others.eeptr = s.eeptr :=
  others_keeps State.eeptr AgentStep.apply_eeptr (fun _ _ => rfl) s
@[simp] theorem State.others_rtcptr (s : State) : s.others.rtcptr = s.rtcptr :=
  others_keeps State.rtcptr AgentStep.apply_rtcptr (fun _ _ => rfl) s
@[simp] theorem State.others_stream (s : State) : s.others.stream = s.stream :=
  others_keeps State.stream AgentStep.apply_stream (fun _ _ => rfl) s
@[simp] theorem State.others_resp (s : State) : s.others.resp = s.resp :=
  others_keeps State.resp AgentStep.apply_resp (fun _ _ => rfl) s
@[simp] theorem State.others_outTrace (s : State) : s.others.outTrace = s.outTrace :=
  others_keeps State.outTrace AgentStep.apply_outTrace (fun _ _ => rfl) s
@[simp] theorem State.others_hung (s : State) : s.others.hung = s.hung :=
  others_keeps State.hung AgentStep.apply_hung (fun _ _ => rfl) s
@[simp] theorem State.others_ackScript (s : State) : s.others.ackScript = s.ackScript :=
  others_keeps State.ackScript AgentStep.apply_ackScript (fun _ _ => rfl) s
@[simp] theorem State.others_startScript (s : State) : s.others.startScript = s.startScript :=
  others_keeps State.startScript AgentStep.apply_startScript (fun _ _ => rfl) s
@[simp] theorem State.others_drawn (s : State) : s.others.drawn = s.drawn :=
  others_keeps State.drawn AgentStep.apply_drawn (fun _ _ => rfl) s

/-- The bus stays alive. -/
theorem State.others_live {s : State} (h : s.busLeft = none) : s.others.busLeft = none :=
  others_preserves (fun s => s.busLeft = none)
    (fun e s hs => by
      cases e with
      | tick => simp only [AgentStep.apply]; split <;> simpa using hs
      | setInput b => exact hs
      | rtcField _ _ => exact hs
      | oscRun _ => exact hs
      | busStop => exact settleStop_live hs)
    (fun _ _ hs => hs) s h

/-- A pending tick stays pending (10_state.md R37). -/
theorem State.others_pend {s : State} (h : s.pend = true) : s.others.pend = true :=
  others_preserves (fun s => s.pend = true)
    (fun e s hs => by
      cases e with
      | tick => simp only [AgentStep.apply]; split <;> simp [hs]
      | setInput b => exact hs
      | rtcField _ _ => exact hs
      | oscRun _ => exact hs
      | busStop => simpa [AgentStep.apply] using hs)
    (fun _ _ hs => hs) s h

/-- With no tick enabled, PEND stays as it is (44_tick_timer.md R226). -/
theorem State.others_pend_masked {s : State} (h : tickEnabled s = false) :
    s.others.pend = s.pend := by
  have := others_preserves (fun t => tickEnabled t = false ∧ t.pend = s.pend)
    (fun e t ht => by
      have he : tickEnabled (e.apply t) = tickEnabled t := by simp [tickEnabled]
      refine ⟨he.trans ht.1, ?_⟩
      cases e with
      | tick => simp only [AgentStep.apply, ht.1]; exact ht.2
      | setInput b => exact ht.2
      | rtcField _ _ => exact ht.2
      | oscRun _ => exact ht.2
      | busStop => simpa [AgentStep.apply] using ht.2)
    (fun _ _ ht => ht) s ⟨h, rfl⟩
  exact this.2

/-- The schedule goes on. -/
theorem State.others_agenda (s : State) : s.others.agenda = s.agenda.tail := by
  have fold : ∀ (l : List AgentStep) (t : State),
      (l.foldl (fun t e => e.apply t) t).agenda = t.agenda := by
    intro l
    induction l with
    | nil => intro t; rfl
    | cons e l ih => intro t; rw [List.foldl_cons, ih, AgentStep.apply_agenda]
  unfold State.others
  split
  · rename_i h; rw [h]; rfl
  · rename_i h; rw [fold, h]; rfl

/-! With no stop pending, an interleaving point keeps the engine and the device phases too. -/

/-- With no stop pending, a field that is none of the TIMER's and ENV's registers is kept. -/
theorem State.others_keeps_settled {α : Type} (f : State → α) (hp : ∀ s, f (tickInterrupt s) = f s)
    (hi : ∀ s b, f { s with inp := b } = f s) (hr : ∀ s m, f { s with rtcreg := m } = f s)
    (hg : ∀ s g, f { s with agenda := g } = f s) {s : State} (h : s.stopping = false) :
    f s.others = f s ∧ s.others.stopping = false := by
  have := others_preserves (fun t => f t = f s ∧ t.stopping = false)
    (fun e t ht => by
      cases e with
      | tick =>
        simp only [AgentStep.apply]
        split
        · exact ⟨(hp t).trans ht.1, ht.2⟩
        · exact ht
      | setInput b => exact ⟨(hi t b).trans ht.1, ht.2⟩
      | rtcField _ _ => exact ⟨(hr t _).trans ht.1, ht.2⟩
      | oscRun _ => exact ⟨(hr t _).trans ht.1, ht.2⟩
      | busStop => simpa [AgentStep.apply, ht.2] using ht)
    (fun t g ht => ⟨(hg t g).trans ht.1, ht.2⟩) s ⟨rfl, h⟩
  exact this

theorem State.others_stopping {s : State} (h : s.stopping = false) : s.others.stopping = false :=
  (others_keeps_settled State.cfg (fun _ => rfl) (fun _ _ => rfl) (fun _ _ => rfl) (fun _ _ => rfl) h).2
theorem State.others_sel {s : State} (h : s.stopping = false) : s.others.sel = s.sel :=
  (others_keeps_settled State.sel (fun _ => rfl) (fun _ _ => rfl) (fun _ _ => rfl) (fun _ _ => rfl) h).1
theorem State.others_wire {s : State} (h : s.stopping = false) : s.others.wire = s.wire :=
  (others_keeps_settled State.wire (fun _ => rfl) (fun _ _ => rfl) (fun _ _ => rfl) (fun _ _ => rfl) h).1
theorem State.others_eeph {s : State} (h : s.stopping = false) : s.others.eeph = s.eeph :=
  (others_keeps_settled State.eeph (fun _ => rfl) (fun _ _ => rfl) (fun _ _ => rfl) (fun _ _ => rfl) h).1
theorem State.others_eeSent {s : State} (h : s.stopping = false) : s.others.eeSent = s.eeSent :=
  (others_keeps_settled State.eeSent (fun _ => rfl) (fun _ _ => rfl) (fun _ _ => rfl) (fun _ _ => rfl) h).1
theorem State.others_rtcph {s : State} (h : s.stopping = false) : s.others.rtcph = s.rtcph :=
  (others_keeps_settled State.rtcph (fun _ => rfl) (fun _ _ => rfl) (fun _ _ => rfl) (fun _ _ => rfl) h).1
theorem State.others_rtcSent {s : State} (h : s.stopping = false) : s.others.rtcSent = s.rtcSent :=
  (others_keeps_settled State.rtcSent (fun _ => rfl) (fun _ _ => rfl) (fun _ _ => rfl) (fun _ _ => rfl) h).1
theorem State.others_busLeft {s : State} (h : s.stopping = false) : s.others.busLeft = s.busLeft :=
  (others_keeps_settled State.busLeft (fun _ => rfl) (fun _ _ => rfl) (fun _ _ => rfl) (fun _ _ => rfl) h).1

end Sys2Proof.Machine
end

