-- ==== Sys2Proof/Laws/Run.lean ====
section
/-! SUPPORT. How runs of HOST lines compose: what each building block answers, and how a relation between
the states before and after is carried through a whole operation, a hang included. -/

namespace Sys2Proof.Machine

/-! ## What the building blocks answer -/

theorem bind_apply {α β : Type} (m : Op α) (f : α → Op β) (s : State) :
    (m >>= f) s = match m s with
      | .ok a t => f a t
      | .error e t => .error e t := by
  show EStateM.bind m f s = _
  unfold EStateM.bind
  cases m s <;> rfl

theorem bind_of_ok {α β : Type} {m : Op α} {f : α → Op β} {s t : State} {a : α}
    (h : m s = .ok a t) : (m >>= f) s = f a t := by rw [bind_apply, h]

theorem bind_of_error {α β : Type} {m : Op α} {f : α → Op β} {s t : State} {e : Stop}
    (h : m s = .error e t) : (m >>= f) s = .error e t := by rw [bind_apply, h]

@[simp] theorem pure_apply {α : Type} (a : α) (s : State) : (pure a : Op α) s = .ok a s := rfl

@[simp] theorem get_apply (s : State) : (get : Op State) s = .ok s s := rfl

@[simp] theorem set_apply (t s : State) : (set t : Op PUnit) s = .ok ⟨⟩ t := rfl

@[simp] theorem modify_apply (f : State → State) (s : State) :
    (modify f : Op PUnit) s = .ok ⟨⟩ (f s) := rfl

@[simp] theorem look_apply {α : Type} (f : State → α) (s : State) : look f s = .ok (f s) s := rfl

@[simp] theorem refuse_apply {α : Type} (r : Refusal) (s : State) :
    (refuse r : Op α) s = .error (.refuse r) s := rfl

@[simp] theorem hang_apply {α : Type} (s : State) : (hang : Op α) s = .error .hang s := rfl

@[simp] theorem require_apply (b : Bool) (r : Refusal) (s : State) :
    require b r s = if b then .ok () s else .error (.refuse r) s := by
  cases b <;> rfl

@[simp] theorem point_apply (s : State) : point s = .ok () s.others := rfl

@[simp] theorem delay_apply (n : Nat) (s : State) : delay n s = .ok () s.others := rfl

@[simp] theorem draw_apply (s : State) :
    draw s = .ok (Config.freeByte s.drawn) { s with drawn := s.drawn + 1 } := rfl

@[simp] theorem map_apply {α β : Type} (f : α → β) (m : Op α) (s : State) :
    (f <$> m) s = match m s with
      | .ok a t => .ok (f a) t
      | .error e t => .error e t := by
  show (EStateM.map f m) s = _
  unfold EStateM.map
  split <;> simp_all

/-- `modify`, under a name that a namespace of relations does not hide. -/
abbrev update (f : State → State) : Op PUnit := modify f

/-! ## A relation carried through an operation -/

/-- Whether the operation returns or hangs, the states before and after are so related. -/
def Op.Keeps {α : Type} (R : State → State → Prop) (m : Op α) : Prop :=
  ∀ s, match m s with
    | .ok _ t => R s t
    | .error .hang t => R s t
    | .error (.refuse _) _ => True

/-- A relation that one line after another can be carried through. -/
structure Chain (R : State → State → Prop) : Prop where
  refl : ∀ s, R s s
  trans : ∀ s t u, R s t → R t u → R s u

theorem Op.Keeps.pure {R : State → State → Prop} (hR : Chain R) {α : Type} (a : α) :
    Op.Keeps R (Pure.pure a : Op α) := fun s => hR.refl s

theorem Op.Keeps.look {R : State → State → Prop} (hR : Chain R) {α : Type} (f : State → α) :
    Op.Keeps R (Sys2Proof.Machine.look f) := fun s => hR.refl s

theorem Op.Keeps.get {R : State → State → Prop} (hR : Chain R) :
    Op.Keeps R (MonadState.get : Op State) := fun s => hR.refl s

theorem Op.Keeps.refuse {R : State → State → Prop} {α : Type} (r : Refusal) :
    Op.Keeps R (Sys2Proof.Machine.refuse r : Op α) := fun _ => trivial

theorem Op.Keeps.require {R : State → State → Prop} (hR : Chain R) (b : Bool) (r : Refusal) :
    Op.Keeps R (Sys2Proof.Machine.require b r) := by
  cases b
  · exact Op.Keeps.refuse r
  · exact Op.Keeps.pure hR ()

theorem Op.Keeps.modify {R : State → State → Prop} (f : State → State) (h : ∀ s, R s (f s)) :
    Op.Keeps R (update f) := fun s => h s

theorem Op.Keeps.bind {R : State → State → Prop} (hR : Chain R) {α β : Type} {m : Op α}
    {f : α → Op β} (hm : Op.Keeps R m) (hf : ∀ a, Op.Keeps R (f a)) : Op.Keeps R (m >>= f) := by
  intro s
  have h1 := hm s
  rw [bind_apply]
  cases h : m s with
  | ok a t =>
    rw [h] at h1
    have h2 := hf a t
    revert h2
    show (match f a t with | .ok _ u => R t u | .error .hang u => R t u | .error (.refuse _) _ => True) →
      (match f a t with | .ok _ u => R s u | .error .hang u => R s u | .error (.refuse _) _ => True)
    cases f a t with
    | ok b u => exact fun h2 => hR.trans s t u h1 h2
    | error e u =>
      cases e with
      | hang => exact fun h2 => hR.trans s t u h1 h2
      | refuse r => exact fun _ => trivial
  | error e t =>
    rw [h] at h1
    cases e with
    | hang => exact h1
    | refuse r => trivial

theorem Op.Keeps.map {R : State → State → Prop} {α β : Type} {m : Op α} (f : α → β)
    (hm : Op.Keeps R m) : Op.Keeps R (f <$> m) := by
  intro s
  have h1 := hm s
  rw [map_apply]
  cases h : m s with
  | ok a t => rw [h] at h1; exact h1
  | error e t =>
    rw [h] at h1
    cases e with
    | hang => exact h1
    | refuse r => trivial

theorem Op.Keeps.ite {R : State → State → Prop} {α : Type} {p : Prop} [Decidable p] {m n : Op α}
    (hm : p → Op.Keeps R m) (hn : ¬p → Op.Keeps R n) : Op.Keeps R (if p then m else n) := by
  by_cases h : p
  · rw [if_pos h]; exact hm h
  · rw [if_neg h]; exact hn h

/-- A weaker relation is carried through as well. -/
theorem Op.Keeps.mono {R S : State → State → Prop} {α : Type} {m : Op α} (hm : Op.Keeps R m)
    (h : ∀ s t, R s t → S s t) : Op.Keeps S m := by
  intro s
  have h1 := hm s
  revert h1
  cases m s with
  | ok a t => exact h s t
  | error e t =>
    cases e with
    | hang => exact h s t
    | refuse r => exact fun _ => trivial

/-! ## Whole operations -/

/-- What a whole operation can answer: its result, or a HOST that is stuck. -/
theorem finish_next {m : Op (List Byte)} {s u : State} (h : finish m s = .next u) :
    (∃ bytes t, m s = .ok bytes t ∧ u = { t with resp := t.resp ++ bytes }) ∨
      (∃ t, m s = .error .hang t ∧ u = { t with hung := true }) := by
  unfold finish at h
  split at h
  · rename_i bytes t hm
    exact .inl ⟨bytes, t, hm, by cases h; rfl⟩
  · rename_i t hm
    exact .inr ⟨t, hm, by cases h; rfl⟩
  · cases h

theorem finish_of_ok {m : Op (List Byte)} {s t : State} {bytes : List Byte}
    (h : m s = .ok bytes t) : finish m s = .next { t with resp := t.resp ++ bytes } := by
  simp [finish, h]

theorem finish_of_hang {m : Op (List Byte)} {s t : State} (h : m s = .error .hang t) :
    finish m s = .next { t with hung := true } := by
  simp [finish, h]

theorem finish_of_refuse {m : Op (List Byte)} {s t : State} {r : Refusal}
    (h : m s = .error (.refuse r) t) : finish m s = .refused r := by
  simp [finish, h]

theorem finish_noResult {m : Op Unit} {s t : State} (h : m s = .ok () t) :
    finish (noResult m) s = .next t := by
  have : noResult m s = .ok [] t := by
    unfold noResult
    rw [bind_of_ok h]
    rfl
  rw [finish_of_ok this, List.append_nil]

theorem finish_byteResult {m : Op Byte} {s t : State} {b : Byte} (h : m s = .ok b t) :
    finish (byteResult m) s = .next { t with resp := t.resp ++ [b] } := by
  have : byteResult m s = .ok [b] t := by
    unfold byteResult
    rw [bind_of_ok h]
    rfl
  exact finish_of_ok this

/-- A relation that an operation carries through holds between the states before and after it, but for
the result bytes and the mark of a stuck HOST. -/
theorem finish_keeps {R : State → State → Prop} {m : Op (List Byte)} (hm : Op.Keeps R m)
    (hresp : ∀ s t r, R s t → R s { t with resp := r })
    (hhung : ∀ s t, R s t → R s { t with hung := true }) {s u : State}
    (h : finish m s = .next u) : R s u := by
  have h1 := hm s
  rcases finish_next h with ⟨bytes, t, hok, rfl⟩ | ⟨t, hh, rfl⟩
  · rw [hok] at h1
    exact hresp _ _ _ h1
  · rw [hh] at h1
    exact hhung _ _ h1

theorem Op.Keeps.noResult {R : State → State → Prop} (hR : Chain R) {m : Op Unit}
    (hm : Op.Keeps R m) : Op.Keeps R (Sys2Proof.Machine.noResult m) :=
  Op.Keeps.bind hR hm (fun _ => Op.Keeps.pure hR [])

theorem Op.Keeps.byteResult {R : State → State → Prop} (hR : Chain R) {m : Op Byte}
    (hm : Op.Keeps R m) : Op.Keeps R (Sys2Proof.Machine.byteResult m) :=
  Op.Keeps.bind hR hm (fun b => Op.Keeps.pure hR [b])

end Sys2Proof.Machine
end

