-- ==== Sys2Proof/Laws/Frame.lean ====
section
/-! SUPPORT. What every bus primitive leaves alone, whatever the devices, the schedule and
the oracles do: the HOST's registers outside the bus engine, and PEND once set. -/

namespace Sys2Proof.Machine

/-- What the BUS agent, the devices and the other agents leave alone. -/
structure BusFrame (s t : State) : Prop where
  cfg : t.cfg = s.cfg
  br : t.br = s.br
  cs : t.cs = s.cs
  bc : t.bc = s.bc
  bi : t.bi = s.bi
  acc : t.acc = s.acc
  cur : t.cur = s.cur
  out : t.out = s.out
  outTrace : t.outTrace = s.outTrace
  tie : t.tie = s.tie
  tcfg : t.tcfg = s.tcfg
  stream : t.stream = s.stream
  resp : t.resp = s.resp
  hung : t.hung = s.hung
  live : s.busLeft = none → t.busLeft = none
  pend : s.pend = true → t.pend = true
  masked : tickEnabled s = false → t.pend = s.pend
  agenda : s.agenda = [] → t.agenda = []
  lines : s.agenda = [] → t.pend = s.pend ∧ t.inp = s.inp

theorem BusFrame.refl (s : State) : BusFrame s s := by
  constructor <;> first | rfl | exact id | exact fun _ => rfl | exact fun _ => ⟨rfl, rfl⟩

theorem BusFrame.enabled {s t : State} (h : BusFrame s t) : tickEnabled t = tickEnabled s := by
  simp [tickEnabled, h.tie, h.tcfg]

theorem BusFrame.trans {s t u : State} (h : BusFrame s t) (k : BusFrame t u) : BusFrame s u where
  cfg := k.cfg.trans h.cfg
  br := k.br.trans h.br
  cs := k.cs.trans h.cs
  bc := k.bc.trans h.bc
  bi := k.bi.trans h.bi
  acc := k.acc.trans h.acc
  cur := k.cur.trans h.cur
  out := k.out.trans h.out
  outTrace := k.outTrace.trans h.outTrace
  tie := k.tie.trans h.tie
  tcfg := k.tcfg.trans h.tcfg
  stream := k.stream.trans h.stream
  resp := k.resp.trans h.resp
  hung := k.hung.trans h.hung
  live := fun e => k.live (h.live e)
  pend := fun e => k.pend (h.pend e)
  masked := fun e => (k.masked (h.enabled.trans e)).trans (h.masked e)
  agenda := fun e => k.agenda (h.agenda e)
  lines := fun e =>
    ⟨(k.lines (h.agenda e)).1.trans (h.lines e).1, (k.lines (h.agenda e)).2.trans (h.lines e).2⟩

theorem BusFrame.chain : Chain BusFrame := ⟨BusFrame.refl, fun _ _ _ => BusFrame.trans⟩

/-- An update of the engine, the devices and the oracles alone. -/
theorem BusFrame.of_update {s t : State} (h : t =
    { s with ph := t.ph, st := t.st, dr := t.dr, done := t.done, inflight := t.inflight,
             stopping := t.stopping, sel := t.sel, wire := t.wire, ee := t.ee, eeptr := t.eeptr,
             eeph := t.eeph, eeSent := t.eeSent, rtcreg := t.rtcreg, rtcptr := t.rtcptr,
             rtcph := t.rtcph, rtcSent := t.rtcSent, ackScript := t.ackScript,
             startScript := t.startScript, drawn := t.drawn }) : BusFrame s t := by
  rw [h]
  constructor <;> first | rfl | exact id | exact fun _ => rfl | exact fun _ => ⟨rfl, rfl⟩

/-- The other agents leave the HOST's registers alone (10_state.md R42, R57). -/
theorem BusFrame.others (s : State) : BusFrame s s.others where
  cfg := s.others_cfg
  br := s.others_br
  cs := s.others_cs
  bc := s.others_bc
  bi := s.others_bi
  acc := s.others_acc
  cur := s.others_cur
  out := s.others_out
  outTrace := s.others_outTrace
  tie := s.others_tie
  tcfg := s.others_tcfg
  stream := s.others_stream
  resp := s.others_resp
  hung := s.others_hung
  live := State.others_live
  pend := State.others_pend
  masked := State.others_pend_masked
  agenda := fun h => by rw [State.others_agenda, h]; rfl
  lines := fun h => by rw [State.others_scripted h]; exact ⟨rfl, rfl⟩

/-- The other agents, at an interleaving point. -/
theorem BusFrame.point : Op.Keeps BusFrame point := fun s => BusFrame.others s

theorem BusFrame.delay (n : Nat) : Op.Keeps BusFrame (delay n) := fun s => BusFrame.others s

theorem BusFrame.draw : Op.Keeps BusFrame draw := fun _ => BusFrame.of_update rfl

theorem BusFrame.devAck (b : Bool) : Op.Keeps BusFrame (devAck b) := by
  intro s
  unfold Sys2Proof.Machine.devAck
  split
  · rename_i h
    split at h <;> (cases h; exact BusFrame.of_update rfl)
  · rename_i h
    split at h <;> cases h
  · trivial

theorem BusFrame.busOutcome : Op.Keeps BusFrame busOutcome := by
  intro s
  unfold Sys2Proof.Machine.busOutcome
  split
  · rename_i h
    split at h <;> (cases h; exact BusFrame.of_update rfl)
  · rename_i h
    split at h <;> cases h
  · trivial

theorem BusFrame.set {s t : State} (h : BusFrame s t) :
    match (MonadStateOf.set t : Op PUnit) s with
    | .ok _ u => BusFrame s u
    | .error .hang u => BusFrame s u
    | .error (.refuse _) _ => True := h

theorem BusFrame.eeTakes (b : Byte) : Op.Keeps BusFrame (eeTakes b) := by
  intro s
  unfold Sys2Proof.Machine.eeTakes
  rw [bind_of_ok (get_apply s)]
  cases h : s.eeph with
  | addrHi => exact BusFrame.of_update rfl
  | addrLo => exact BusFrame.of_update rfl
  | data =>
    simp only [bind_apply, require_apply]
    cases hd : decide (s.eeptr.toNat < s.cfg.eeSize)
    · trivial
    · exact BusFrame.of_update rfl
  | done => trivial
  | devIdle => trivial

theorem BusFrame.rtcTakes (b : Byte) : Op.Keeps BusFrame (rtcTakes b) := by
  intro s
  unfold Sys2Proof.Machine.rtcTakes
  rw [bind_of_ok (get_apply s)]
  cases h : s.rtcph with
  | reg => exact BusFrame.of_update rfl
  | data => exact BusFrame.of_update rfl
  | done => trivial
  | devIdle => trivial

theorem BusFrame.deviceTakes (a : DevAddr) (b : Byte) : Op.Keeps BusFrame (deviceTakes a b) :=
  Op.Keeps.bind chain (Op.Keeps.look chain _) (fun _ =>
    Op.Keeps.ite (fun _ => eeTakes b) (fun _ =>
      Op.Keeps.ite (fun _ => rtcTakes b) (fun _ => Op.Keeps.pure chain _)))

theorem BusFrame.eeSends : Op.Keeps BusFrame eeSends := by
  intro s
  unfold Sys2Proof.Machine.eeSends
  rw [bind_of_ok (get_apply s)]
  simp only [bind_apply, require_apply]
  cases s.eeSent
  · cases hd : decide (s.eeptr.toNat < s.cfg.eeSize)
    · trivial
    · exact BusFrame.of_update rfl
  · trivial

theorem BusFrame.rtcSends : Op.Keeps BusFrame rtcSends := by
  intro s
  unfold Sys2Proof.Machine.rtcSends
  rw [bind_of_ok (get_apply s)]
  simp only [bind_apply, require_apply]
  cases s.rtcSent
  · exact BusFrame.of_update rfl
  · trivial

theorem BusFrame.deviceSends (sel : Option DevAddr) : Op.Keeps BusFrame (deviceSends sel) := by
  refine Op.Keeps.bind chain (Op.Keeps.look chain _) (fun c => ?_)
  cases sel with
  | none => exact draw
  | some a =>
    exact Op.Keeps.ite (fun _ => eeSends) (fun _ => Op.Keeps.ite (fun _ => rtcSends) (fun _ => draw))

theorem BusFrame.completeStart : Op.Keeps BusFrame completeStart := by
  refine Op.Keeps.bind chain busOutcome (fun o => Op.Keeps.bind chain draw (fun d => ?_))
  cases o <;> exact Op.Keeps.modify _ (fun s => BusFrame.of_update rfl)

theorem deviceAddressed_update (a : DevAddr) (read : Bool) (s : State) :
    deviceAddressed a read s =
      { s with eeph := (deviceAddressed a read s).eeph, eeSent := (deviceAddressed a read s).eeSent,
               rtcph := (deviceAddressed a read s).rtcph,
               rtcSent := (deviceAddressed a read s).rtcSent } := by
  unfold deviceAddressed
  split
  · rfl
  · split
    · rfl
    · split <;> rfl

theorem BusFrame.completeAddress (b : Byte) : Op.Keeps BusFrame (completeAddress b) := by
  refine Op.Keeps.bind chain (Op.Keeps.look chain _) (fun c =>
    Op.Keeps.bind chain (devAck _) (fun k => Op.Keeps.modify _ (fun s => ?_)))
  cases k
  · exact BusFrame.of_update rfl
  · simp only [if_true]
    rw [deviceAddressed_update]
    exact BusFrame.of_update rfl

theorem BusFrame.answerData (b : Byte) (sel : Option DevAddr) :
    Op.Keeps BusFrame (answerData b sel) := by
  cases sel with
  | none => exact Op.Keeps.pure chain _
  | some a =>
    exact Op.Keeps.bind chain (devAck _) (fun k =>
      Op.Keeps.bind chain (Op.Keeps.ite (fun _ => deviceTakes a b) (fun _ => Op.Keeps.pure chain _))
        (fun _ => Op.Keeps.pure chain _))

theorem BusFrame.completeDataOut (b : Byte) : Op.Keeps BusFrame (completeDataOut b) :=
  Op.Keeps.bind chain (Op.Keeps.look chain _) (fun sel =>
    Op.Keeps.bind chain (answerData b sel) (fun _ =>
      Op.Keeps.modify _ (fun _ => BusFrame.of_update rfl)))

theorem BusFrame.completeWrite (b : Byte) : Op.Keeps BusFrame (completeWrite b) := by
  refine Op.Keeps.bind chain (Op.Keeps.look chain _) (fun ph => ?_)
  cases ph with
  | idle => exact Op.Keeps.refuse _
  | addrPending => exact completeAddress b
  | mt => exact completeDataOut b
  | mr => exact Op.Keeps.refuse _

theorem BusFrame.completeRead (k : Bool) : Op.Keeps BusFrame (completeRead k) :=
  Op.Keeps.bind chain (Op.Keeps.look chain _) (fun sel =>
    Op.Keeps.bind chain (deviceSends sel) (fun _ =>
      Op.Keeps.modify _ (fun _ => BusFrame.of_update rfl)))

theorem BusFrame.completion (op : Inflight) : Op.Keeps BusFrame (completion op) := by
  cases op with
  | none => exact Op.Keeps.pure chain _
  | start => exact completeStart
  | write b => exact completeWrite b
  | read k => exact completeRead k

theorem BusFrame.completeInflight : Op.Keeps BusFrame completeInflight :=
  Op.Keeps.bind chain (Op.Keeps.look chain _) (fun op =>
    Op.Keeps.bind chain (completion op) (fun _ =>
      Op.Keeps.modify _ (fun _ => BusFrame.of_update rfl)))

theorem BusFrame.spend {s t : State} (h : spendBusStep s = some t) : BusFrame s t := by
  unfold spendBusStep at h
  split at h
  · cases h; exact refl s
  · cases h
  · rename_i n hn
    cases h
    constructor <;>
      first | rfl | exact id | exact fun _ => rfl | exact fun _ => ⟨rfl, rfl⟩ |
        (intro h; rw [hn] at h; cases h)

theorem BusFrame.busMustStep : Op.Keeps BusFrame busMustStep := by
  intro s
  unfold Sys2Proof.Machine.busMustStep
  cases h : spendBusStep s with
  | none => exact refl s
  | some t => exact spend h

theorem BusFrame.completeStop (s : State) : BusFrame s (completeStop s) := BusFrame.of_update rfl

theorem BusFrame.awaitStop : Op.Keeps BusFrame awaitStop :=
  Op.Keeps.bind chain (Op.Keeps.look chain _) (fun _ =>
    Op.Keeps.ite
      (fun _ => Op.Keeps.bind chain busMustStep (fun _ =>
        Op.Keeps.bind chain (Op.Keeps.modify _ completeStop) (fun _ => point)))
      (fun _ => Op.Keeps.pure chain _))

theorem BusFrame.awaitDone : Op.Keeps BusFrame awaitDone :=
  Op.Keeps.bind chain point (fun _ => Op.Keeps.bind chain awaitStop (fun _ =>
    Op.Keeps.bind chain busMustStep (fun _ => Op.Keeps.bind chain completeInflight (fun _ => point))))

theorem BusFrame.requireBus : Op.Keeps BusFrame requireBus :=
  Op.Keeps.bind chain (Op.Keeps.look chain _) (fun _ => Op.Keeps.require chain _ _)

theorem BusFrame.issue (op : Inflight) : Op.Keeps BusFrame (issue op) :=
  Op.Keeps.modify _ (fun _ => BusFrame.of_update rfl)

/-! ## The primitives (40_bus_primitives.md) -/

theorem BusFrame.busStart : Op.Keeps BusFrame busStart :=
  Op.Keeps.bind chain requireBus (fun _ => Op.Keeps.bind chain (issue _) (fun _ =>
    Op.Keeps.bind chain awaitDone (fun _ => Op.Keeps.look chain _)))

theorem BusFrame.busWrite (b : Byte) : Op.Keeps BusFrame (busWrite b) :=
  Op.Keeps.bind chain requireBus (fun _ => Op.Keeps.bind chain (Op.Keeps.look chain _) (fun _ =>
    Op.Keeps.bind chain (Op.Keeps.require chain _ _) (fun _ =>
      Op.Keeps.bind chain (Op.Keeps.modify _ (fun _ => BusFrame.of_update rfl)) (fun _ =>
        Op.Keeps.bind chain (issue _) (fun _ =>
          Op.Keeps.bind chain awaitDone (fun _ => Op.Keeps.look chain _))))))

theorem BusFrame.busRead (k : Bool) : Op.Keeps BusFrame (busRead k) :=
  Op.Keeps.bind chain requireBus (fun _ => Op.Keeps.bind chain (Op.Keeps.look chain _) (fun _ =>
    Op.Keeps.bind chain (Op.Keeps.require chain _ _) (fun _ =>
      Op.Keeps.bind chain (issue _) (fun _ =>
        Op.Keeps.bind chain awaitDone (fun _ => Op.Keeps.look chain _)))))

theorem BusFrame.busStop : Op.Keeps BusFrame busStop :=
  Op.Keeps.bind chain requireBus (fun _ => Op.Keeps.bind chain (Op.Keeps.look chain _) (fun _ =>
    Op.Keeps.bind chain (Op.Keeps.require chain _ _) (fun _ =>
      Op.Keeps.bind chain draw (fun _ => Op.Keeps.bind chain draw (fun _ =>
        Op.Keeps.modify _ (fun _ => BusFrame.of_update rfl))))))

end Sys2Proof.Machine
end

