-- ==== Sys2Proof/Laws/Composite.lean ====
section
/-! SUPPORT. What the bus primitives keep, every composite operation keeps: a predicate is carried once
through the fixed sequences of 41_register_protocol.md, 42_rtc_protocol.md and 43_sequencer.md. -/

namespace Sys2Proof.Machine

/-- From a state with `Q` the operation returns with `Q`, hangs with `H`, or is refused. -/
def Op.Maintains {α : Type} (Q H : State → Prop) (m : Op α) : Prop :=
  ∀ s, Q s → match m s with
    | .ok _ t => Q t
    | .error .hang t => H t
    | .error (.refuse _) _ => True

namespace Op.Maintains

variable {Q H : State → Prop} {α β : Type}

theorem of_pure (a : α) : Op.Maintains Q H (Pure.pure a : Op α) := fun _ h => h

theorem of_look (f : State → α) : Op.Maintains Q H (look f) := fun _ h => h

theorem of_get : Op.Maintains Q H (MonadState.get : Op State) := fun _ h => h

theorem of_refuse (r : Refusal) : Op.Maintains Q H (refuse r : Op α) := fun _ _ => trivial

theorem of_require (b : Bool) (r : Refusal) : Op.Maintains Q H (require b r) := by
  cases b
  · exact of_refuse r
  · exact of_pure ()

theorem of_modify (f : State → State) (h : ∀ s, Q s → Q (f s)) : Op.Maintains Q H (update f) :=
  fun s hs => h s hs

theorem of_bind {m : Op α} {f : α → Op β} (hm : Op.Maintains Q H m) (hf : ∀ a, Op.Maintains Q H (f a)) :
    Op.Maintains Q H (m >>= f) := by
  intro s hs
  have h1 := hm s hs
  rw [bind_apply]
  cases h : m s with
  | ok a t =>
    rw [h] at h1
    exact hf a t h1
  | error e t =>
    rw [h] at h1
    cases e with
    | hang => exact h1
    | refuse r => trivial

theorem of_map {m : Op α} (f : α → β) (hm : Op.Maintains Q H m) : Op.Maintains Q H (f <$> m) := by
  intro s hs
  have h1 := hm s hs
  rw [map_apply]
  cases h : m s with
  | ok a t => rw [h] at h1; exact h1
  | error e t =>
    rw [h] at h1
    cases e with
    | hang => exact h1
    | refuse r => trivial

theorem of_ite {p : Prop} [Decidable p] {m n : Op α} (hm : p → Op.Maintains Q H m)
    (hn : ¬p → Op.Maintains Q H n) : Op.Maintains Q H (if p then m else n) := by
  by_cases h : p
  · rw [if_pos h]; exact hm h
  · rw [if_neg h]; exact hn h

theorem noResult {m : Op Unit} (hm : Op.Maintains Q H m) :
    Op.Maintains Q H (Sys2Proof.Machine.noResult m) := of_bind hm (fun _ => of_pure [])

theorem byteResult {m : Op Byte} (hm : Op.Maintains Q H m) :
    Op.Maintains Q H (Sys2Proof.Machine.byteResult m) := of_bind hm (fun b => of_pure [b])

/-- What a whole operation leaves. -/
theorem finish {m : Op (List Byte)} (hm : Op.Maintains Q H m) {s u : State} (hs : Q s)
    (h : Sys2Proof.Machine.finish m s = .next u) :
    (∃ bytes t, Q t ∧ u = { t with resp := t.resp ++ bytes }) ∨
      (∃ t, H t ∧ u = { t with hung := true }) := by
  have h1 := hm s hs
  rcases finish_next h with ⟨bytes, t, hok, rfl⟩ | ⟨t, hh, rfl⟩
  · rw [hok] at h1
    exact .inl ⟨bytes, t, h1, rfl⟩
  · rw [hh] at h1
    exact .inr ⟨t, h1, rfl⟩

/-- A relation carried through an operation, from a fixed state. -/
theorem of_keeps {R : State → State → Prop} (hR : Chain R) {m : Op α} (h : Op.Keeps R m) (s₀ : State) :
    Op.Maintains (R s₀) (R s₀) m := by
  intro s hs
  have h1 := h s
  revert h1
  cases m s with
  | ok a t => exact fun h1 => hR.trans _ _ _ hs h1
  | error e t =>
    cases e with
    | hang => exact fun h1 => hR.trans _ _ _ hs h1
    | refuse r => exact fun _ => trivial

theorem keeps {R : State → State → Prop} (hR : Chain R) {m : Op α}
    (h : ∀ s₀, Op.Maintains (R s₀) (R s₀) m) : Op.Keeps R m := fun s => h s s (hR.refl s)

end Op.Maintains

/-- A predicate that every bus primitive, every interleaving point and every draw keeps. -/
structure BusClosed (Q H : State → Prop) : Prop where
  start : Op.Maintains Q H busStart
  write : ∀ b, Op.Maintains Q H (busWrite b)
  read : ∀ k, Op.Maintains Q H (busRead k)
  stop : Op.Maintains Q H busStop
  point : Op.Maintains Q H point
  draw : Op.Maintains Q H draw

/-- What the frame of the primitives is a case of. -/
theorem BusFrame.closed (s₀ : State) : BusClosed (BusFrame s₀) (BusFrame s₀) where
  start := .of_keeps chain busStart s₀
  write b := .of_keeps chain (busWrite b) s₀
  read k := .of_keeps chain (busRead k) s₀
  stop := .of_keeps chain busStop s₀
  point := .of_keeps chain point s₀
  draw := .of_keeps chain draw s₀

namespace BusClosed

variable {Q H : State → Prop} (C : BusClosed Q H)
include C

open Op.Maintains

/-! ## The transactions (41_register_protocol.md) -/

omit C in
theorem requireIdle : Op.Maintains Q H requireIdle := of_bind (of_look _) (fun _ => of_require _ _)

omit C in
theorem chk (ok : Bool) (e : Status) : Op.Maintains Q H (chk ok e) :=
  of_bind (of_look _) (fun _ => of_ite (fun _ => of_bind (of_look _) (fun _ => of_pure _)) (fun _ => of_pure _))

theorem startChk (ok : Bool) (e : Status) : Op.Maintains Q H (startChk ok e) :=
  of_bind C.start (fun _ => chk ok e)

theorem writeChk (ok : Bool) (b : Byte) (e : Status) : Op.Maintains Q H (writeChk ok b e) :=
  of_bind (C.write b) (fun _ => chk ok e)

theorem writeAll (ok : Bool) (bytes : List Byte) : Op.Maintains Q H (writeAll ok bytes) := by
  induction bytes generalizing ok with
  | nil => exact of_pure _
  | cons b bytes ih => exact of_bind (C.writeChk ok b _) (fun ok => ih ok)

theorem writeTransaction (dev : DevAddr) (bytes : List Byte) :
    Op.Maintains Q H (writeTransaction dev bytes) :=
  of_bind requireIdle (fun _ => of_bind (C.startChk _ _) (fun _ => of_bind (C.writeChk _ _ _) (fun _ =>
    of_bind (C.writeAll _ _) (fun _ => C.stop))))

theorem readTransaction (dev : DevAddr) (select : List Byte) :
    Op.Maintains Q H (readTransaction dev select) :=
  of_bind requireIdle (fun _ => of_bind (C.startChk _ _) (fun _ => of_bind (C.writeChk _ _ _) (fun _ =>
    of_bind (C.writeAll _ _) (fun _ => of_bind (C.startChk _ _) (fun _ => of_bind (C.writeChk _ _ _) (fun _ =>
      of_bind (C.read _) (fun _ => of_bind (chk _ _) (fun _ => of_bind C.stop (fun _ => of_pure _)))))))))

theorem eegetcur (dev : DevAddr) : Op.Maintains Q H (eegetcur dev) :=
  of_bind (C.readTransaction dev _) (fun _ => of_bind C.point (fun _ =>
    of_bind (C.readTransaction dev _) (fun _ => of_pure _)))

theorem eesetcur (dev : DevAddr) (c : Half) : Op.Maintains Q H (eesetcur dev c) :=
  of_bind (C.writeTransaction dev _) (fun _ => of_bind C.point (fun _ => C.writeTransaction dev _))

/-! ## The RTC (42_rtc_protocol.md) -/

theorem rtcBattery (dev : DevAddr) (batt : Bool) (w : Byte) :
    Op.Maintains Q H (rtcBattery dev batt w) :=
  of_bind (of_look _) (fun _ => of_ite (fun _ => C.writeTransaction dev _) (fun _ => of_pure _))

theorem rtcStartOscillator (dev : DevAddr) : Op.Maintains Q H (rtcStartOscillator dev) :=
  of_bind (of_look _) (fun _ => of_bind (C.writeTransaction dev _) (fun _ => of_bind C.point (fun _ =>
    of_bind (C.readTransaction dev _) (fun _ => of_pure _))))

theorem rtcinit (dev : DevAddr) (batt : Bool) : Op.Maintains Q H (rtcinit dev batt) :=
  of_bind (of_look _) (fun _ => of_bind (C.readTransaction dev _) (fun _ => of_bind C.point (fun _ =>
    of_bind (C.rtcBattery dev batt _) (fun _ => of_bind C.point (fun _ =>
      of_ite (fun _ => of_pure _) (fun _ => C.rtcStartOscillator dev))))))

theorem rtcget (dev : DevAddr) : Op.Maintains Q H (rtcget dev) := by
  refine of_bind (of_look _) (fun _ => ?_)
  iterate 5 refine of_bind (C.readTransaction dev _) (fun _ => of_bind C.point (fun _ => ?_))
  exact of_bind (C.readTransaction dev _) (fun _ => of_bind C.draw (fun _ => of_pure _))

theorem rtcset (dev : DevAddr) (t : TimeRecord) : Op.Maintains Q H (rtcset dev t) := by
  refine of_bind requireIdle (fun _ => of_bind (of_require _ _) (fun _ => of_bind (of_look _) (fun _ => ?_)))
  iterate 5 refine of_bind (C.writeTransaction dev _) (fun _ => of_bind C.point (fun _ => ?_))
  exact C.writeTransaction dev _

end BusClosed

/-- The sequencer's own registers, the output and the mask replaced. -/
def State.withControl (s : State) (out : Bool) (trace : List Bool) (tie : Bool) (cs : Ctl) (bc : Half)
    (bi : BitVec 4) (acc cur : Byte) : State :=
  { s with out := out, outTrace := trace, tie := tie, cs := cs, bc := bc, bi := bi, acc := acc, cur := cur }

/-- A predicate that the sequencer's own writes keep as well. -/
structure SeqClosed (Q H : State → Prop) : Prop extends BusClosed Q H where
  control : ∀ s out trace tie cs bc bi acc cur, Q s → Q (s.withControl out trace tie cs bc bi acc cur)

namespace SeqClosed

variable {Q H : State → Prop} (C : SeqClosed Q H)
include C

open Op.Maintains

/-- A write of the sequencer's own registers alone. -/
theorem ownWrite (f : State → State)
    (hf : ∀ s, f s = s.withControl (f s).out (f s).outTrace (f s).tie (f s).cs (f s).bc (f s).bi (f s).acc
      (f s).cur) : Op.Maintains Q H (update f) :=
  of_modify f (fun s h => (hf s).symm ▸ C.control s _ _ _ _ _ _ _ _ h)

theorem setOut (v : Bool) : Op.Maintains Q H (setOut v) :=
  C.ownWrite _ (fun _ => rfl)

theorem setTie (v : Bool) : Op.Maintains Q H (setTie v) :=
  C.ownWrite _ (fun _ => rfl)

theorem setCs (c : Ctl) : Op.Maintains Q H (setCs c) :=
  C.ownWrite _ (fun _ => rfl)

theorem rewind (i : BitVec 4) : Op.Maintains Q H (rewind i) :=
  C.ownWrite _ (fun _ => rfl)

theorem flash (n : Nat) : Op.Maintains Q H (flash n) := by
  induction n with
  | zero => exact of_pure _
  | succ n ih =>
    exact of_bind (of_look _) (fun _ => of_bind (C.setOut _) (fun _ => of_bind C.point (fun _ =>
      of_bind (C.setOut _) (fun _ => of_bind C.point (fun _ => ih)))))

theorem beginAction : Op.Maintains Q H beginAction :=
  of_bind (C.setTie _) (fun _ => of_bind C.point (fun _ => of_bind (C.flash _) (fun _ => of_bind (C.rewind _)
    (fun _ => of_bind C.point (fun _ => of_bind (C.setTie _) (fun _ => of_bind C.point (fun _ => C.setCs _)))))))

theorem endAction : Op.Maintains Q H endAction :=
  of_bind (C.setTie _) (fun _ => of_bind C.point (fun _ => of_bind (C.flash _) (fun _ => of_bind (C.rewind _)
    (fun _ => of_bind C.point (fun _ => of_bind (C.setTie _) (fun _ => of_bind C.point (fun _ => C.setCs _)))))))

theorem refill : Op.Maintains Q H refill :=
  of_bind of_get (fun _ => of_ite (fun _ => of_bind (C.readTransaction _ _) (fun _ =>
    C.ownWrite _ (fun _ => rfl)))
    (fun _ => of_pure _))

theorem replayBit : Op.Maintains Q H replayBit :=
  of_bind C.refill (fun _ => of_bind C.point (fun _ => of_bind of_get (fun _ => of_bind (C.setOut _) (fun _ =>
    of_bind C.point (fun _ => of_bind (C.ownWrite _ (fun _ => rfl)) (fun _ =>
        of_bind C.point (fun _ => C.ownWrite _ (fun s => by
          unfold advanceReplay
          split <;> rfl))))))))

theorem recordBit : Op.Maintains Q H recordBit :=
  of_bind (of_look _) (fun _ => of_bind C.point (fun _ => of_bind (C.ownWrite _ (fun _ => rfl)) (fun _ =>
    of_bind C.point (fun _ => of_bind (C.ownWrite _ (fun _ => rfl)) (fun _ => of_bind C.point (fun _ =>
      of_bind of_get (fun _ => of_ite (fun _ => of_bind (C.writeTransaction _ _) (fun _ => of_bind C.point (fun _ =>
        C.ownWrite _ (fun _ => rfl)))) (fun _ => of_pure _))))))))

theorem stepReplay : Op.Maintains Q H stepReplay :=
  of_bind (of_look _) (fun _ => of_ite (fun _ => of_bind (C.setCs _) (fun _ => of_bind C.point (fun _ =>
    C.beginAction))) (fun _ => C.replayBit))

theorem stepRecording : Op.Maintains Q H stepRecording :=
  of_bind C.recordBit (fun _ => of_bind C.point (fun _ => of_bind (of_look _) (fun _ =>
    of_ite (fun _ => C.endAction) (fun _ => of_pure _))))

theorem seqStep : Op.Maintains Q H seqStep := by
  refine of_bind BusClosed.requireIdle (fun _ => of_bind (of_look _) (fun cs => ?_))
  cases cs with
  | replay => exact C.stepReplay
  | recording => exact C.stepRecording
  | beginRecording => exact C.beginAction
  | endRecording => exact C.endAction

theorem seqInit : Op.Maintains Q H seqInit := of_bind (C.setCs _) (fun _ => C.rewind _)

theorem reinitBuffer (n i : Nat) : Op.Maintains Q H (reinitBuffer n i) := by
  induction n generalizing i with
  | zero => exact of_pure _
  | succ n ih =>
    exact of_bind (of_look _) (fun _ => of_bind (C.writeTransaction _ _) (fun _ => of_bind C.point (fun _ =>
      ih _)))

theorem seqReinit : Op.Maintains Q H seqReinit :=
  of_bind BusClosed.requireIdle (fun _ => of_bind (C.flash _) (fun _ => of_bind (of_look _) (fun _ =>
    of_bind (C.reinitBuffer _ _) (fun _ => of_bind (C.flash _) (fun _ => C.seqInit)))))

end SeqClosed

end Sys2Proof.Machine
end

