-- ==== Sys2Proof/Laws/Memory.lean ====
section
/-! SUPPORT. The laws of memory: a read after a write, and the canonical form. -/

namespace Sys2Proof.Machine

@[simp] theorem Memory.read_nil (a : Nat) : Memory.read [] a = memBlank := rfl

theorem Memory.read_cons (k : Nat) (v : Byte) (m : Memory) (a : Nat) :
    Memory.read ((k, v) :: m) a = if k = a then v else Memory.read m a := rfl

/-- An address below every listed one reads as unlisted. -/
theorem Memory.read_of_below_all (m : Memory) (a : Nat) (h : m.all (fun c => decide (a < c.1)) = true) :
    m.read a = memBlank := by
  induction m with
  | nil => rfl
  | cons c m ih =>
    obtain ⟨k, v⟩ := c
    simp only [List.all_cons, Bool.and_eq_true, decide_eq_true_eq] at h
    rw [read_cons, if_neg (by omega), ih h.2]

theorem Memory.wf_cons (k : Nat) (v : Byte) (m : Memory) :
    Memory.wf ((k, v) :: m) = true ↔
      v ≠ memBlank ∧ m.all (fun c => decide (k < c.1)) = true ∧ Memory.wf m = true := by
  simp [Memory.wf, and_assoc]

theorem Memory.all_lt_trans (m : Memory) (a k : Nat) (hak : a < k)
    (h : m.all (fun c => decide (k < c.1)) = true) : m.all (fun c => decide (a < c.1)) = true := by
  simp only [List.all_eq_true, decide_eq_true_eq] at h ⊢
  exact fun c hc => lt_trans hak (h c hc)

/-- A cell put in front of higher addresses reads as its value, and every other address as before. -/
theorem Memory.read_cons_cell (a : Nat) (v : Byte) (m : Memory)
    (h : m.all (fun c => decide (a < c.1)) = true) (b : Nat) :
    (Memory.cons a v m).read b = if b = a then v else m.read b := by
  unfold Memory.cons
  by_cases hv : v = memBlank
  · rw [if_pos hv]
    by_cases hb : b = a
    · rw [if_pos hb, hb, read_of_below_all m a h, hv]
    · rw [if_neg hb]
  · rw [if_neg hv, read_cons]
    by_cases hb : b = a
    · rw [if_pos hb.symm, if_pos hb]
    · rw [if_neg (fun e => hb e.symm), if_neg hb]

/-- A write in a canonical memory: the address written reads as the value, every other as before. -/
theorem Memory.read_write (m : Memory) (hm : m.wf = true) (a : Nat) (v : Byte) (b : Nat) :
    (m.write a v).read b = if b = a then v else m.read b := by
  induction m with
  | nil => exact read_cons_cell a v [] rfl b
  | cons c m ih =>
    obtain ⟨k, w⟩ := c
    obtain ⟨_, hk, hm⟩ := (wf_cons k w m).mp hm
    simp only [Memory.write]
    by_cases h1 : a < k
    · rw [if_pos h1]
      exact read_cons_cell a v _ (by simpa [h1] using all_lt_trans m a k h1 hk) b
    · rw [if_neg h1]
      by_cases h2 : a = k
      · subst h2
        rw [if_pos rfl, read_cons_cell a v m hk, read_cons]
        by_cases hb : b = a
        · rw [if_pos hb, if_pos hb]
        · rw [if_neg hb, if_neg hb, if_neg (fun e => hb e.symm)]
      · rw [if_neg h2, read_cons, read_cons, ih hm]
        by_cases hb : k = b
        · rw [if_pos hb, if_pos hb, if_neg (by omega)]
        · rw [if_neg hb, if_neg hb]

theorem Memory.read_write_same (m : Memory) (hm : m.wf = true) (a : Nat) (v : Byte) :
    (m.write a v).read a = v := by rw [read_write m hm, if_pos rfl]

theorem Memory.read_write_other (m : Memory) (hm : m.wf = true) (a : Nat) (v : Byte) (b : Nat)
    (h : b ≠ a) : (m.write a v).read b = m.read b := by rw [read_write m hm, if_neg h]

/-- What a write may list: the address written and what was listed before. -/
theorem Memory.all_cons_cell (p : Host.Cell → Bool) (a : Nat) (v : Byte) (m : Memory)
    (hp : p (a, v) = true) (hm : m.all p = true) : (Memory.cons a v m).all p = true := by
  unfold Memory.cons
  split
  · exact hm
  · simp [hp, hm]

theorem Memory.all_write (p : Host.Cell → Bool) (m : Memory) (a : Nat) (v : Byte)
    (hp : p (a, v) = true) (hm : m.all p = true) : (m.write a v).all p = true := by
  induction m with
  | nil => exact all_cons_cell p a v [] hp rfl
  | cons c m ih =>
    obtain ⟨k, w⟩ := c
    simp only [List.all_cons, Bool.and_eq_true] at hm
    simp only [Memory.write]
    split
    · exact all_cons_cell p a v _ hp (by simp [hm.1, hm.2])
    · split
      · exact all_cons_cell p a v m hp hm.2
      · simp [hm.1, ih hm.2]

theorem Memory.wf_cons_cell (a : Nat) (v : Byte) (m : Memory) (hm : m.wf = true)
    (h : m.all (fun c => decide (a < c.1)) = true) : (Memory.cons a v m).wf = true := by
  unfold Memory.cons
  split
  · exact hm
  · rename_i hv
    exact (wf_cons a v m).mpr ⟨hv, h, hm⟩

/-- Every write keeps the canonical form. -/
theorem Memory.wf_write (m : Memory) (hm : m.wf = true) (a : Nat) (v : Byte) :
    (m.write a v).wf = true := by
  induction m with
  | nil => exact wf_cons_cell a v [] rfl rfl
  | cons c m ih =>
    obtain ⟨k, w⟩ := c
    obtain ⟨hw, hk, hm'⟩ := (wf_cons k w m).mp hm
    simp only [Memory.write]
    split
    · rename_i h1
      exact wf_cons_cell a v _ hm (by simpa [h1] using all_lt_trans m a k h1 hk)
    · split
      · rename_i h2
        subst h2
        exact wf_cons_cell a v m hm' hk
      · rename_i h1 h2
        refine (wf_cons k w _).mpr ⟨hw, all_write _ m a v ?_ hk, ih hm'⟩
        simp only [decide_eq_true_eq]
        omega

/-- A write below a bound stays below it. -/
theorem Memory.below_write (m : Memory) (n a : Nat) (v : Byte) (hm : m.below n = true) (ha : a < n) :
    (m.write a v).below n = true :=
  all_write _ m a v (by simpa using ha) hm

end Sys2Proof.Machine
end

