-- ==== Sys2Proof/Laws/Engine.lean ====
section
/-! SUPPORT. The bus engine and the devices' memories stay well-formed through every bus primitive,
whatever the devices answer, the schedule does and the oracles draw. -/

namespace Sys2Proof.Machine

/-- A valid configuration, canonical device memories, and the engine's registers fit together; a
primitive may be in flight. -/
structure Sound (s : State) : Prop where
  config : configValid s.cfg = true
  memory : DeviceMemory s
  open_init : s.ph ≠ .idle → s.br.isSome
  stop_idle : s.stopping = true → s.ph = .idle
  sel_open : s.sel ≠ none → s.ph ≠ .idle ∨ s.stopping = true

/-- `Sound`, and nothing is in flight. -/
structure Quiet (s : State) : Prop where
  sound : Sound s
  flight : s.inflight = .none

/-- `Sound` speaks of these registers only. -/
theorem Sound.of_same {s t : State} (h : Sound s) (hc : t.cfg = s.cfg) (he : t.ee = s.ee)
    (hr : t.rtcreg = s.rtcreg) (hp : t.ph = s.ph) (hb : t.br = s.br) (hs : t.stopping = s.stopping)
    (hl : t.sel = s.sel) : Sound t where
  config := by rw [hc]; exact h.config
  memory := by unfold DeviceMemory; rw [hc, he, hr]; exact h.memory
  open_init := by rw [hp, hb]; exact h.open_init
  stop_idle := by rw [hs, hp]; exact h.stop_idle
  sel_open := by rw [hl, hp, hs]; exact h.sel_open

theorem DeviceMemory.rtc_write {s : State} (h : DeviceMemory s) (r : Byte) (v : Byte) :
    DeviceMemory { s with rtcreg := s.rtcreg.write r.toNat v } :=
  ⟨h.1, h.2.1, Memory.wf_write _ h.2.2.1 _ _, Memory.below_write _ _ _ _ h.2.2.2 (by omega)⟩

theorem DeviceMemory.ee_write {s : State} (h : DeviceMemory s) {a : Nat} (ha : a < s.cfg.eeSize)
    (v : Byte) : DeviceMemory { s with ee := s.ee.write a v } :=
  ⟨Memory.wf_write _ h.1 _ _, Memory.below_write _ _ _ _ h.2.1 ha, h.2.2⟩

theorem Sound.completeStop {s : State} (h : Sound s) : Sound (completeStop s) where
  config := h.config
  memory := h.memory
  open_init := h.open_init
  stop_idle := fun e => by cases e
  sel_open := fun e => absurd rfl e

theorem Sound.settleStop {s : State} (h : Sound s) : Sound (settleStop s) := by
  rcases settleStop_cases s with e | ⟨_, n, e⟩
  · rw [e]; exact h
  · rw [e]
    exact Sound.completeStop (h.of_same rfl rfl rfl rfl rfl rfl rfl)

theorem Sound.apply {s : State} (e : AgentStep) (h : Sound s) : Sound (e.apply s) := by
  cases e with
  | tick =>
    simp only [AgentStep.apply]
    split
    · exact h.of_same rfl rfl rfl rfl rfl rfl rfl
    · exact h
  | setInput b => exact h.of_same rfl rfl rfl rfl rfl rfl rfl
  | rtcField f v => exact ⟨h.config, h.memory.rtc_write _ _, h.open_init, h.stop_idle, h.sel_open⟩
  | oscRun b => exact ⟨h.config, h.memory.rtc_write _ _, h.open_init, h.stop_idle, h.sel_open⟩
  | busStop => exact h.settleStop

theorem Sound.others {s : State} (h : Sound s) : Sound s.others :=
  State.others_preserves Sound (fun e _ => Sound.apply e)
    (fun _ _ h => h.of_same rfl rfl rfl rfl rfl rfl rfl) s h

theorem Quiet.others {s : State} (h : Quiet s) : Quiet s.others :=
  ⟨h.sound.others, by simpa using h.flight⟩

/-! ## The completions -/

/-- What a completion starts from: the stop is on the wire and BR has its value. -/
structure Completing (s : State) : Prop where
  sound : Sound s
  settled : s.stopping = false
  init : s.br.isSome

theorem Completing.of_same {s t : State} (h : Completing s) (hc : t.cfg = s.cfg) (he : t.ee = s.ee)
    (hr : t.rtcreg = s.rtcreg) (hp : t.ph = s.ph) (hb : t.br = s.br) (hs : t.stopping = s.stopping)
    (hl : t.sel = s.sel) : Completing t :=
  ⟨h.sound.of_same hc he hr hp hb hs hl, hs.trans h.settled, by rw [hb]; exact h.init⟩

open Op.Maintains

theorem Completing.draw : Op.Maintains Completing Completing draw :=
  fun _ h => h.of_same rfl rfl rfl rfl rfl rfl rfl

theorem Completing.devAck (b : Bool) : Op.Maintains Completing Completing (devAck b) := by
  intro s h
  unfold Sys2Proof.Machine.devAck
  cases s.ackScript with
  | nil => exact h
  | cons a l => exact h.of_same rfl rfl rfl rfl rfl rfl rfl

theorem Completing.busOutcome : Op.Maintains Completing Completing busOutcome := by
  intro s h
  unfold Sys2Proof.Machine.busOutcome
  cases s.startScript with
  | nil => exact h
  | cons a l => exact h.of_same rfl rfl rfl rfl rfl rfl rfl

theorem Completing.completeStart : Op.Maintains Completing Completing completeStart := by
  refine of_bind busOutcome (fun o => of_bind draw (fun d => ?_))
  cases o with
  | some c => exact of_modify _ (fun _ h => h.of_same rfl rfl rfl rfl rfl rfl rfl)
  | none =>
    exact of_modify _ (fun s h => ⟨⟨h.sound.config, h.sound.memory, fun _ => h.init,
      fun e => absurd (h.settled.symm.trans e) (by decide), fun _ => .inl (by simp)⟩, h.settled, h.init⟩)

theorem Completing.completeAddress (b : Byte) :
    Op.Maintains Completing Completing (completeAddress b) := by
  refine of_bind (of_look _) (fun c => of_bind (devAck _) (fun k => of_modify _ (fun s h => ?_)))
  have hph : (if dirOf b then Phase.mr else Phase.mt) ≠ .idle := by split <;> decide
  have hs := h.settled
  cases k
  · exact ⟨⟨h.sound.config, h.sound.memory, fun _ => h.init, fun e => absurd (hs.symm.trans e) (by decide),
      fun _ => .inl hph⟩, hs, h.init⟩
  · simp only [if_true]
    rw [deviceAddressed_update]
    exact ⟨⟨h.sound.config, h.sound.memory, fun _ => h.init, fun e => absurd (hs.symm.trans e) (by decide),
      fun _ => .inl hph⟩, hs, h.init⟩

theorem Completing.eeTakes (b : Byte) : Op.Maintains Completing Completing (eeTakes b) := by
  intro s h
  unfold Sys2Proof.Machine.eeTakes
  rw [bind_of_ok (get_apply s)]
  cases s.eeph with
  | addrHi => exact h.of_same rfl rfl rfl rfl rfl rfl rfl
  | addrLo => exact h.of_same rfl rfl rfl rfl rfl rfl rfl
  | data =>
    simp only [bind_apply, require_apply]
    by_cases hlt : s.eeptr.toNat < s.cfg.eeSize
    · rw [if_pos (by simpa using hlt)]
      exact ⟨⟨h.sound.config, h.sound.memory.ee_write hlt b, h.sound.open_init, h.sound.stop_idle,
        h.sound.sel_open⟩, h.settled, h.init⟩
    · rw [if_neg (by simpa using hlt)]
      trivial
  | done => trivial
  | devIdle => trivial

theorem Completing.rtcTakes (b : Byte) : Op.Maintains Completing Completing (rtcTakes b) := by
  intro s h
  unfold Sys2Proof.Machine.rtcTakes
  rw [bind_of_ok (get_apply s)]
  cases s.rtcph with
  | reg => exact h.of_same rfl rfl rfl rfl rfl rfl rfl
  | data =>
    exact ⟨⟨h.sound.config, h.sound.memory.rtc_write _ _, h.sound.open_init, h.sound.stop_idle,
      h.sound.sel_open⟩, h.settled, h.init⟩
  | done => trivial
  | devIdle => trivial

theorem Completing.answerData (b : Byte) (sel : Option DevAddr) :
    Op.Maintains Completing Completing (answerData b sel) := by
  cases sel with
  | none => exact of_pure _
  | some a =>
    exact of_bind (devAck _) (fun k => of_bind (of_ite
      (fun _ => of_bind (of_look _) (fun _ => of_ite (fun _ => eeTakes b)
        (fun _ => of_ite (fun _ => rtcTakes b) (fun _ => of_pure _))))
      (fun _ => of_pure _)) (fun _ => of_pure _))

theorem Completing.completeWrite (b : Byte) : Op.Maintains Completing Completing (completeWrite b) := by
  refine of_bind (of_look _) (fun ph => ?_)
  cases ph with
  | idle => exact of_refuse _
  | addrPending => exact completeAddress b
  | mt =>
    exact of_bind (of_look _) (fun sel => of_bind (answerData b sel) (fun _ =>
      of_modify _ (fun _ h => h.of_same rfl rfl rfl rfl rfl rfl rfl)))
  | mr => exact of_refuse _

theorem Completing.deviceSends (sel : Option DevAddr) :
    Op.Maintains Completing Completing (deviceSends sel) := by
  refine of_bind (of_look _) (fun c => ?_)
  cases sel with
  | none => exact draw
  | some a =>
    refine of_ite (fun _ => ?_) (fun _ => of_ite (fun _ => ?_) (fun _ => draw))
    · intro s h
      unfold eeSends
      simp only [bind_apply, get_apply, require_apply]
      cases s.eeSent
      · cases hd : decide (s.eeptr.toNat < s.cfg.eeSize)
        · trivial
        · exact h.of_same rfl rfl rfl rfl rfl rfl rfl
      · trivial
    · intro s h
      unfold rtcSends
      simp only [bind_apply, get_apply, require_apply]
      cases s.rtcSent
      · exact h.of_same rfl rfl rfl rfl rfl rfl rfl
      · trivial

theorem Completing.completeRead (k : Bool) : Op.Maintains Completing Completing (completeRead k) :=
  of_bind (of_look _) (fun sel => of_bind (deviceSends sel) (fun _ =>
    of_modify _ (fun _ h => h.of_same rfl rfl rfl rfl rfl rfl rfl)))

theorem Completing.completion (op : Inflight) : Op.Maintains Completing Completing (completion op) := by
  cases op with
  | none => exact of_pure _
  | start => exact completeStart
  | write b => exact completeWrite b
  | read k => exact completeRead k

/-! ## The wait -/

/-- The wait ends with nothing in flight, or hangs with the engine sound. -/
theorem awaitDone_sound {s : State} (h : Sound s) (hb : s.br.isSome) :
    match awaitDone s with
    | .ok _ t => Quiet t
    | .error .hang t => Sound t
    | .error (.refuse _) _ => True := by
  have hspend : ∀ {s t : State}, spendBusStep s = some t → Sound s → Sound t := by
    intro s t e hs
    rw [spendBusStep_some e]
    exact hs.of_same rfl rfl rfl rfl rfl rfl rfl
  have hspendb : ∀ {s t : State}, spendBusStep s = some t → t.br = s.br ∧ t.stopping = s.stopping := by
    intro s t e
    rw [spendBusStep_some e]
    exact ⟨rfl, rfl⟩
  have ho := h.others
  have hob : s.others.br.isSome := by rw [State.others_br]; exact hb
  -- the end of the wait, once the stop is on the wire
  have fin : ∀ t : State, Completing t →
      match (do busMustStep; completeInflight; point : Op Unit) t with
      | .ok _ t => Quiet t
      | .error .hang t => Sound t
      | .error (.refuse _) _ => True := by
    intro t ht
    rw [bind_apply]
    unfold busMustStep
    cases hsp : spendBusStep t with
    | none => exact ht.sound
    | some u =>
      have hu : Completing u := by
        rw [spendBusStep_some hsp]
        exact ht.of_same rfl rfl rfl rfl rfl rfl rfl
      simp only
      have hc := Completing.completion u.inflight u hu
      unfold completeInflight
      rw [bind_apply, bind_of_ok (look_apply _ _), bind_apply]
      cases hcu : completion u.inflight u with
      | ok a w =>
        rw [hcu] at hc
        exact Quiet.others ⟨hc.sound.of_same rfl rfl rfl rfl rfl rfl rfl, rfl⟩
      | error e w =>
        rw [hcu] at hc
        cases e with
        | hang => exact hc.sound
        | refuse r => trivial
  unfold awaitDone
  rw [bind_of_ok (point_apply s), bind_apply]
  cases hs : s.others.stopping with
  | false =>
    have hw : awaitStop s.others = .ok () s.others := by
      unfold awaitStop
      rw [bind_of_ok (look_apply _ _), hs]
      rfl
    rw [hw]
    exact fin _ ⟨ho, hs, hob⟩
  | true =>
    cases hsp : spendBusStep s.others with
    | none =>
      have hw : awaitStop s.others = .error .hang s.others := by
        unfold awaitStop
        rw [bind_of_ok (look_apply _ _), hs]
        exact bind_of_error (by unfold busMustStep; rw [hsp])
      rw [hw]
      exact ho
    | some u =>
      have hw : awaitStop s.others = .ok () (completeStop u).others := by
        unfold awaitStop
        rw [bind_of_ok (look_apply _ _), hs]
        have hm : busMustStep s.others = .ok () u := by unfold busMustStep; rw [hsp]
        simp only [if_true]
        rw [bind_of_ok hm, bind_of_ok (modify_apply _ _)]
        rfl
      rw [hw]
      refine fin _ ⟨(Sound.completeStop (hspend hsp ho)).others, State.others_stopping rfl, ?_⟩
      rw [State.others_br, completeStop_br, (hspendb hsp).1]
      exact hob

/-! ## The primitives -/

theorem requireBus_apply (s : State) :
    requireBus s = if s.br.isSome then .ok () s else .error (.refuse .busNotInitialised) s := by
  unfold requireBus
  rw [bind_of_ok (look_apply _ _), require_apply]

/-- Issue, wait, read a register: the common shape of START, WRITE and READ. -/
theorem issued_sound {α : Type} {s : State} (op : Inflight) (f : State → α) (h : Sound s)
    (hb : s.br.isSome) :
    match (do issue op; awaitDone; look f : Op α) s with
    | .ok _ t => Quiet t
    | .error .hang t => Sound t
    | .error (.refuse _) _ => True := by
  rw [bind_of_ok (show issue op s = .ok ⟨⟩ { s with done := false, inflight := op } from rfl), bind_apply]
  have := awaitDone_sound (s := { s with done := false, inflight := op })
    (h.of_same rfl rfl rfl rfl rfl rfl rfl) hb
  cases hw : awaitDone { s with done := false, inflight := op } with
  | ok a t => rw [hw] at this; exact this
  | error e t =>
    rw [hw] at this
    cases e with
    | hang => exact this
    | refuse r => trivial

/-- Every primitive leaves the engine at rest with nothing in flight, or hangs with it sound. -/
theorem Quiet.closed : BusClosed Quiet Sound where
  start := by
    intro s h
    unfold busStart
    rw [bind_apply, requireBus_apply]
    cases hb : s.br.isSome
    · trivial
    · exact issued_sound .start State.st h.sound hb
  write := by
    intro b s h
    unfold busWrite
    rw [bind_apply, requireBus_apply]
    cases hb : s.br.isSome
    · trivial
    · simp only [if_true]
      rw [bind_of_ok (look_apply _ _), bind_apply]
      cases s.ph.canWrite
      · trivial
      · exact issued_sound (s := { s with dr := b }) (.write b) State.st
          (h.sound.of_same rfl rfl rfl rfl rfl rfl rfl) hb
  read := by
    intro k s h
    unfold busRead
    rw [bind_apply, requireBus_apply]
    cases hb : s.br.isSome
    · trivial
    · simp only [if_true]
      rw [bind_of_ok (look_apply _ _), bind_apply]
      cases decide (s.ph = .mr)
      · trivial
      · exact issued_sound (.read k) State.dr h.sound hb
  stop := by
    intro s h
    unfold busStop
    rw [bind_apply, requireBus_apply]
    cases hb : s.br.isSome
    · trivial
    · simp only [if_true]
      rw [bind_of_ok (look_apply _ _), bind_apply]
      cases decide (s.ph ≠ .idle)
      · trivial
      · exact ⟨⟨h.sound.config, h.sound.memory, fun e => absurd rfl e, fun _ => rfl,
          fun _ => .inr rfl⟩, h.flight⟩
  point := fun s h => h.others
  draw := fun s h => ⟨h.sound.of_same rfl rfl rfl rfl rfl rfl rfl, h.flight⟩

/-- The sequencer's own writes leave the engine and the devices alone. -/
theorem Quiet.seqClosed : SeqClosed Quiet Sound :=
  { Quiet.closed with
    control := fun _ _ _ _ _ _ _ _ _ h => ⟨h.sound.of_same rfl rfl rfl rfl rfl rfl rfl, h.flight⟩ }

end Sys2Proof.Machine
end

