-- ==== Sys2Proof/Laws/Primitives.lean ====
section
/-! SUPPORT. What each bus primitive does under the default oracles (DevAck ideal, every start succeeds,
BusLive), whatever the other agents do meanwhile: its result and the engine and devices after it. -/

namespace Sys2Proof.Machine

/-- The part of the state that only the engine, the BUS agent and the EEPROM write, with the RTC's pointer
and phase. -/
structure View where
  ph : Phase
  sel : Option DevAddr
  stopping : Bool
  wire : List WireEvent
  ee : Memory
  eeptr : Half
  eeph : EePhase
  eeSent : Bool
  rtcptr : Byte
  rtcph : RtcPhase
  rtcSent : Bool
  deriving DecidableEq, Repr

/-- The view of a state. -/
def State.view (s : State) : View where
  ph := s.ph
  sel := s.sel
  stopping := s.stopping
  wire := s.wire
  ee := s.ee
  eeptr := s.eeptr
  eeph := s.eeph
  eeSent := s.eeSent
  rtcptr := s.rtcptr
  rtcph := s.rtcph
  rtcSent := s.rtcSent

/-- The view once a pending stop is on the wire (40_bus_primitives.md R129). -/
def View.settled (c : Config) (v : View) : View :=
  if v.stopping then
    { v with
      eeph := if v.sel = some c.eeDev then .devIdle else v.eeph
      rtcph := if v.sel = some c.rtcDev then .devIdle else v.rtcph
      eeSent := false
      rtcSent := false
      wire := v.wire ++ [.p]
      sel := none
      stopping := false }
  else v

/-- The view after a start (R125). -/
def View.started (c : Config) (v : View) : View :=
  { v.settled c with ph := .addrPending, wire := (v.settled c).wire ++ [startEvent v.ph] }

/-- The view after the address frame of a device for writing, which the ideal DevAck answers. -/
def View.addressed (c : Config) (a : DevAddr) (read : Bool) (v : View) : View :=
  let k := decide (a = c.eeDev) || decide (a = c.rtcDev)
  { v with
    ph := if read then .mr else .mt
    sel := if k then some a else none
    wire := v.wire ++ [.a a read k]
    eeph := if read = false ∧ a = c.eeDev then .addrHi else v.eeph
    eeSent := if read = false ∧ a = c.eeDev then false else v.eeSent
    rtcph := if read = false ∧ a ≠ c.eeDev ∧ a = c.rtcDev then .reg else v.rtcph
    rtcSent := if read = false ∧ a ≠ c.eeDev ∧ a = c.rtcDev then false else v.rtcSent }

/-- The view after STOP (R128). -/
def View.stopped (v : View) : View := { v with ph := .idle, stopping := true }

@[simp] theorem View.settled_of_not_stopping (c : Config) {v : View} (h : v.stopping = false) :
    v.settled c = v := by simp [View.settled, h]

@[simp] theorem View.settled_stopping (c : Config) (v : View) : (v.settled c).stopping = false := by
  unfold View.settled
  split
  · rfl
  · rename_i h; simpa using h

@[simp] theorem View.settled_ph (c : Config) (v : View) : (v.settled c).ph = v.ph := by
  unfold View.settled; split <;> rfl

@[simp] theorem View.settled_ee (c : Config) (v : View) : (v.settled c).ee = v.ee := by
  unfold View.settled; split <;> rfl

@[simp] theorem View.settled_wire (c : Config) (v : View) :
    (v.settled c).wire = v.wire ++ (if v.stopping then [.p] else []) := by
  unfold View.settled; split <;> simp [*]

/-! ## The other agents and the view -/

theorem others_settled (s : State) : s.others.view.settled s.cfg = s.view.settled s.cfg := by
  have hstop : ∀ t : State, t.cfg = s.cfg → (settleStop t).view.settled s.cfg = t.view.settled s.cfg := by
    intro t ht
    rcases settleStop_cases t with h | ⟨hs, n, h⟩
    · rw [h]
    · have hs' : t.view.stopping = true := hs
      rw [h, View.settled_of_not_stopping _ rfl]
      unfold View.settled
      rw [if_pos hs', ← ht]
      rfl
  have := State.others_preserves (fun t => t.cfg = s.cfg ∧ t.view.settled s.cfg = s.view.settled s.cfg)
    (fun e t ht => by
      cases e with
      | tick => simp only [AgentStep.apply]; split <;> exact ht
      | setInput b => exact ht
      | rtcField _ _ => exact ht
      | oscRun _ => exact ht
      | busStop => exact ⟨(settleStop_cfg t).trans ht.1, (hstop t ht.1).trans ht.2⟩)
    (fun _ _ ht => ht) s ⟨rfl, rfl⟩
  exact this.2

/-- With no stop pending the other agents leave the view alone. -/
theorem others_view {s : State} (h : s.stopping = false) : s.others.view = s.view :=
  (State.others_keeps_settled State.view (fun _ => rfl) (fun _ _ => rfl) (fun _ _ => rfl)
    (fun _ _ => rfl) h).1

theorem others_oracles {s : State} (h : DefaultOracles s) : DefaultOracles s.others :=
  ⟨State.others_live h.live, (State.others_ackScript s).trans h.ideal,
    (State.others_startScript s).trans h.starts⟩

/-! ## The wait -/

/-- The registers that the wait for a pending stop leaves alone. -/
structure Waited (s t : State) : Prop where
  frame : BusFrame s t
  live : BusLive t
  ack : t.ackScript = s.ackScript
  starts : t.startScript = s.startScript
  st : t.st = s.st
  dr : t.dr = s.dr
  inflight : t.inflight = s.inflight
  settled : t.stopping = false
  view : t.view = s.view.settled s.cfg
  rtc : s.agenda = [] → t.rtcreg = s.rtcreg

/-- The default oracles answer for a primitive as long as it waits. -/
theorem Waited.oracles {s t : State} (k : Waited s t) (h : DefaultOracles s) : DefaultOracles t :=
  ⟨k.live, k.ack.trans h.ideal, k.starts.trans h.starts⟩

/-- Before a primitive completes, a pending stop is on the wire (R129). -/
theorem await_settles {s : State} (h : BusLive s) :
    ∃ t, Waited s t ∧ awaitDone s = (do completeInflight; point : Op Unit) t := by
  have ho : BusLive s.others := State.others_live h
  have hf := BusFrame.others s
  have hv := others_settled s
  cases hs : s.others.stopping with
  | false =>
    refine ⟨s.others, ⟨hf, ho, by simp, by simp, by simp, by simp, by simp, hs, ?_, ?_⟩, ?_⟩
    · rw [← hv, View.settled_of_not_stopping _ hs]
    · intro ha; rw [State.others_scripted ha]
    · unfold awaitDone
      rw [bind_of_ok (point_apply s)]
      have hw : awaitStop s.others = .ok () s.others := by
        unfold awaitStop
        rw [bind_of_ok (look_apply _ _), hs]
        rfl
      rw [bind_of_ok hw]
      have hm : busMustStep s.others = .ok () s.others := by
        simp [busMustStep, spendBusStep_live ho]
      rw [bind_of_ok hm]
  | true =>
    have hcl : (completeStop s.others).busLeft = none := ho
    have hcs : (completeStop s.others).stopping = false := rfl
    have hcv : (completeStop s.others).view = s.view.settled s.cfg := by
      rw [← hv]
      have hs' : s.others.view.stopping = true := hs
      unfold View.settled
      rw [if_pos hs', ← State.others_cfg s]
      rfl
    refine ⟨(completeStop s.others).others,
      ⟨(hf.trans (BusFrame.completeStop _)).trans (BusFrame.others _), State.others_live hcl, by simp,
        by simp, by simp, by simp, by simp, State.others_stopping hcs, ?_, ?_⟩, ?_⟩
    · rw [others_view hcs, hcv]
    · intro ha
      have h1 : (completeStop s.others).agenda = [] := by
        rw [completeStop_agenda, State.others_agenda, ha]; rfl
      rw [State.others_scripted h1, completeStop_rtcreg, State.others_scripted ha]
    · unfold awaitDone
      rw [bind_of_ok (point_apply s)]
      have hm : busMustStep s.others = .ok () s.others := by
        simp [busMustStep, spendBusStep_live ho]
      have hw : awaitStop s.others = .ok () (completeStop s.others).others := by
        unfold awaitStop
        rw [bind_of_ok (look_apply _ _), hs]
        simp only [if_true]
        rw [bind_of_ok hm, bind_of_ok (modify_apply _ _)]
        rfl
      rw [bind_of_ok hw]
      have hm' : busMustStep (completeStop s.others).others = .ok () (completeStop s.others).others := by
        simp [busMustStep, spendBusStep_live (State.others_live hcl)]
      rw [bind_of_ok hm']

/-- What a primitive leaves that waited for its completion: the frame, the default oracles, DONE set,
nothing in flight and no stop pending, with the view it says. -/
structure After (s t : State) (v : View) : Prop where
  frame : BusFrame s t
  oracles : DefaultOracles t
  done : t.done = true
  inflight : t.inflight = .none
  view : t.view = v

/-- The wait, once the completion of the primitive in flight is known. -/
theorem await_completes {s : State} {op : Inflight} {v : View} (h : DefaultOracles s)
    (hop : s.inflight = op)
    (hc : ∀ t, Waited s t → ∃ u, completion op t = .ok () u ∧ BusFrame t u ∧ DefaultOracles u ∧
      u.stopping = false ∧ u.view = v) :
    ∃ t u, Waited s t ∧ completion op t = .ok () u ∧ u.stopping = false ∧ u.view = v ∧
      (∃ w, awaitDone s = .ok () w ∧ After s w v ∧ w.st = u.st ∧ w.dr = u.dr ∧
        (s.agenda = [] → w.rtcreg = u.rtcreg)) := by
  obtain ⟨t, ht, hrun⟩ := await_settles h.live
  obtain ⟨u, hu, huf, huo, hus, huv⟩ := hc t ht
  refine ⟨t, u, ht, hu, hus, huv, ?_⟩
  let d : State := { u with inflight := .none, done := true }
  have hd : completeInflight t = .ok () d := by
    unfold completeInflight
    rw [bind_of_ok (look_apply _ _), ht.inflight, hop, bind_of_ok hu]
    rfl
  have hds : d.stopping = false := hus
  have hdf : BusFrame u d := BusFrame.of_update rfl
  refine ⟨d.others, ?_, ⟨?_, ?_, ?_, ?_, ?_⟩, ?_, ?_, ?_⟩
  · rw [hrun, bind_of_ok hd]; rfl
  · exact ((ht.frame.trans huf).trans hdf).trans (BusFrame.others d)
  · exact others_oracles ⟨huo.live, huo.ideal, huo.starts⟩
  · simp [d]
  · simp [d]
  · rw [others_view hds]; exact huv
  · simp [d]
  · simp [d]
  · intro ha
    have : d.agenda = [] := hdf.agenda (huf.agenda (ht.frame.agenda ha))
    rw [State.others_scripted this]

/-! ## START -/

theorem completeStart_default {t : State} (h : DefaultOracles t) :
    completeStart t = .ok ()
      { t with drawn := t.drawn + 1, dr := Config.freeByte t.drawn,
               wire := t.wire ++ [startEvent t.ph], st := startStatus t.ph, ph := .addrPending } := by
  have hb : busOutcome t = .ok none t := by simp [busOutcome, h.starts]
  unfold completeStart
  rw [bind_of_ok hb, bind_of_ok (draw_apply t)]
  rfl

/-- START returns the status of an initial or a repeated start, and the next byte is an address (R125). -/
theorem busStart_spec {s : State} (hb : s.br.isSome) (h : DefaultOracles s) :
    ∃ t, busStart s = .ok (startStatus s.ph) t ∧ After s t (s.view.started s.cfg) ∧
      t.st = startStatus s.ph ∧ (s.agenda = [] → t.rtcreg = s.rtcreg) := by
  let i : State := { s with done := false, inflight := .start }
  have hi : DefaultOracles i := ⟨h.live, h.ideal, h.starts⟩
  have hif : BusFrame s i := BusFrame.of_update rfl
  obtain ⟨t, u, ht, hu, _, _, w, hw, hA, hst, _, hr⟩ :=
    await_completes (v := s.view.started s.cfg) (op := .start) hi rfl (by
      intro t ht
      refine ⟨_, completeStart_default (ht.oracles hi), BusFrame.of_update rfl,
        ⟨ht.live, ht.ack.trans hi.ideal, ht.starts.trans hi.starts⟩, ht.settled, ?_⟩
      have hv : t.view = s.view.settled s.cfg := ht.view
      have hp : t.ph = s.ph := by
        have := congrArg View.ph hv
        rwa [View.settled_ph] at this
      unfold View.started
      rw [← hv]
      simp only [State.view, hp])
  rw [completion, completeStart_default (ht.oracles hi)] at hu
  have hp : t.ph = s.ph := by
    have := congrArg View.ph ht.view
    rwa [View.settled_ph] at this
  cases hu
  refine ⟨w, ?_, ⟨hif.trans hA.frame, hA.oracles, hA.done, hA.inflight, hA.view⟩, ?_, ?_⟩
  · unfold busStart
    have hq : requireBus s = .ok () s := by
      unfold requireBus
      rw [bind_of_ok (look_apply _ _), require_apply, hb]; rfl
    rw [bind_of_ok hq]
    have hi' : issue .start s = .ok ⟨⟩ i := rfl
    rw [bind_of_ok hi', bind_of_ok hw, look_apply, hst, hp]
  · rw [hst, hp]
  · intro ha
    rw [hr ha]
    exact ht.rtc ha

/-! ## WRITE -/

/-- The issue of a write, where the phase allows one. -/
theorem busWrite_waits {s w : State} {b : Byte} (hb : s.br.isSome) (hph : s.ph.canWrite = true)
    (hw : awaitDone { s with dr := b, done := false, inflight := .write b } = .ok () w) :
    busWrite b s = .ok w.st w := by
  unfold busWrite
  have hq : requireBus s = .ok () s := by
    unfold requireBus
    rw [bind_of_ok (look_apply _ _), require_apply, hb]; rfl
  have hr : require s.ph.canWrite Refusal.writeOutOfPhase s = .ok () s := by rw [hph]; rfl
  rw [bind_of_ok hq, bind_of_ok (look_apply _ _), bind_of_ok hr, bind_of_ok (modify_apply _ _)]
  have hi : issue (.write b) { s with dr := b } =
      .ok ⟨⟩ { s with dr := b, done := false, inflight := .write b } := rfl
  rw [bind_of_ok hi, bind_of_ok hw]
  rfl

/-- The address frame under the ideal DevAck. -/
theorem completeAddress_ideal {t : State} (h : IdealDevices t) (b : Byte) :
    ∃ u, completeAddress b t = .ok () u ∧ BusFrame t u ∧
      (DefaultOracles t → DefaultOracles u) ∧ u.stopping = t.stopping ∧
      u.view = t.view.addressed t.cfg (addrOf b) (dirOf b) ∧
      u.st = slaStatus (dirOf b) (decide (addrOf b = t.cfg.eeDev) || decide (addrOf b = t.cfg.rtcDev)) ∧
      u.dr = t.dr ∧ u.rtcreg = t.rtcreg := by
  have hk : ∀ k, devAck k t = .ok k t := by intro k; simp [devAck, show t.ackScript = [] from h]
  have hF := BusFrame.completeAddress b t
  unfold completeAddress at hF ⊢
  rw [bind_of_ok (look_apply _ _), bind_of_ok (hk _), modify_apply] at hF ⊢
  refine ⟨_, rfl, hF, ?_⟩
  clear hF
  by_cases he : addrOf b = t.cfg.eeDev
  · cases hd : dirOf b <;>
      simp [he, View.addressed, State.view, deviceAddressed] <;>
      exact fun h => ⟨h.live, h.ideal, h.starts⟩
  · by_cases hr : addrOf b = t.cfg.rtcDev
    · cases hd : dirOf b
      · have hne : ¬(t.cfg.rtcDev = t.cfg.eeDev) := hr ▸ he
        simp [hr, hne, View.addressed, State.view, deviceAddressed]
        exact fun h => ⟨h.live, h.ideal, h.starts⟩
      · simp [hr, View.addressed, State.view, deviceAddressed]
        exact fun h => ⟨h.live, h.ideal, h.starts⟩
    · cases hd : dirOf b <;>
        simp [he, hr, View.addressed, State.view] <;>
        exact fun h => ⟨h.live, h.ideal, h.starts⟩

/-- WRITE of an address byte (R126, case AddrPending): the device that is there answers, the phase follows
the direction bit. -/
theorem busWrite_address {s : State} (b : Byte) (hb : s.br.isSome) (h : DefaultOracles s)
    (hph : s.ph = .addrPending) (hst : s.stopping = false) :
    ∃ t, busWrite b s =
        .ok (slaStatus (dirOf b)
          (decide (addrOf b = s.cfg.eeDev) || decide (addrOf b = s.cfg.rtcDev))) t ∧
      After s t (s.view.addressed s.cfg (addrOf b) (dirOf b)) ∧
      t.st = slaStatus (dirOf b)
          (decide (addrOf b = s.cfg.eeDev) || decide (addrOf b = s.cfg.rtcDev)) ∧
      t.dr = b ∧ (s.agenda = [] → t.rtcreg = s.rtcreg) := by
  let i : State := { s with dr := b, done := false, inflight := .write b }
  have hi : DefaultOracles i := ⟨h.live, h.ideal, h.starts⟩
  have hif : BusFrame s i := BusFrame.of_update rfl
  have hvs : ∀ t, Waited i t → t.view = s.view ∧ t.cfg = s.cfg ∧ t.ph = .addrPending := by
    intro t ht
    have hv : t.view = s.view := by
      have := ht.view
      rwa [View.settled_of_not_stopping _ (show i.view.stopping = false from hst)] at this
    exact ⟨hv, ht.frame.cfg, (congrArg View.ph hv).trans hph⟩
  obtain ⟨t, u, ht, hu, _, _, w, hw, hA, hwst, hwdr, hr⟩ :=
    await_completes (v := s.view.addressed s.cfg (addrOf b) (dirOf b)) (op := .write b) hi rfl (by
      intro t ht
      obtain ⟨hv, hc, hp⟩ := hvs t ht
      obtain ⟨u, hu, huf, huo, hus, huv, _⟩ := completeAddress_ideal (ht.ack.trans hi.ideal) b
      refine ⟨u, ?_, huf, huo (ht.oracles hi), hus.trans ht.settled, by rw [huv, hv, hc]⟩
      show completeWrite b t = _
      unfold completeWrite
      rw [bind_of_ok (look_apply _ _), hp]
      exact hu)
  obtain ⟨hv, hc, hp⟩ := hvs t ht
  obtain ⟨u', hu', _, _, _, _, hust, hudr, hur⟩ := completeAddress_ideal (ht.ack.trans hi.ideal) b
  have hu2 : completion (.write b) t = .ok () u' := by
    show completeWrite b t = _
    unfold completeWrite
    rw [bind_of_ok (look_apply _ _), hp]
    exact hu'
  rw [hu2] at hu
  cases hu
  rw [hc] at hust
  refine ⟨w, ?_, ⟨hif.trans hA.frame, hA.oracles, hA.done, hA.inflight, hA.view⟩, hwst.trans hust, ?_, ?_⟩
  · rw [busWrite_waits hb (by rw [hph]; rfl) hw, hwst, hust]
  · rw [hwdr, hudr, ht.dr]
  · intro ha
    rw [hr ha, hur]
    exact ht.rtc ha

/-- The general shape of a data frame: what the completion does to a state decides what WRITE does. -/
theorem busWrite_data {s : State} {v : View} {st : Status} {f : Memory → Memory} (b : Byte)
    (hb : s.br.isSome) (h : DefaultOracles s) (hph : s.ph = .mt) (hst : s.stopping = false)
    (hc : ∀ t : State, t.cfg = s.cfg → t.view = s.view → DefaultOracles t →
      ∃ u, completeDataOut b t = .ok () u ∧ DefaultOracles u ∧ u.stopping = false ∧ u.view = v ∧
        u.st = st ∧ u.dr = t.dr ∧ u.rtcreg = f t.rtcreg) :
    ∃ t, busWrite b s = .ok st t ∧ After s t v ∧ t.st = st ∧ t.dr = b ∧
      (s.agenda = [] → t.rtcreg = f s.rtcreg) := by
  let i : State := { s with dr := b, done := false, inflight := .write b }
  have hi : DefaultOracles i := ⟨h.live, h.ideal, h.starts⟩
  have hif : BusFrame s i := BusFrame.of_update rfl
  have hvs : ∀ t, Waited i t → t.view = s.view ∧ t.cfg = s.cfg ∧ t.ph = .mt := by
    intro t ht
    have hv : t.view = s.view := by
      have := ht.view
      rwa [View.settled_of_not_stopping _ (show i.view.stopping = false from hst)] at this
    exact ⟨hv, ht.frame.cfg, (congrArg View.ph hv).trans hph⟩
  have hcw : ∀ t, t.ph = .mt → completion (.write b) t = completeDataOut b t := by
    intro t hp
    show completeWrite b t = _
    unfold completeWrite
    rw [bind_of_ok (look_apply _ _), hp]
  obtain ⟨t, u, ht, hu, _, _, w, hw, hA, hwst, hwdr, hr⟩ :=
    await_completes (v := v) (op := .write b) hi rfl (by
      intro t ht
      obtain ⟨hv, hcf, hp⟩ := hvs t ht
      obtain ⟨u, hu, huo, hus, huv, _⟩ := hc t hcf hv (ht.oracles hi)
      have hF := BusFrame.completeDataOut b t
      rw [hu] at hF
      exact ⟨u, by rw [hcw t hp]; exact hu, hF, huo, hus, huv⟩)
  obtain ⟨hv, hcf, hp⟩ := hvs t ht
  obtain ⟨u', hu', _, _, _, hust, hudr, hur⟩ := hc t hcf hv (ht.oracles hi)
  rw [hcw t hp, hu'] at hu
  cases hu
  refine ⟨w, ?_, ⟨hif.trans hA.frame, hA.oracles, hA.done, hA.inflight, hA.view⟩, hwst.trans hust, ?_, ?_⟩
  · rw [busWrite_waits hb (by rw [hph]; rfl) hw, hwst, hust]
  · rw [hwdr, hudr, ht.dr]
  · intro ha
    rw [hr ha, hur, ht.rtc ha]

/-- A data frame that the selected device takes (R126). -/
theorem completeDataOut_taken {t u : State} {a : DevAddr} {b : Byte} (hsel : t.sel = some a)
    (h : IdealDevices t) (htk : takeIfAcked a b true t = .ok () u) :
    completeDataOut b t =
      .ok () { u with wire := u.wire ++ [.dw b true], st := .mtDataAck } := by
  have hk : devAck true t = .ok true t := by simp [devAck, show t.ackScript = [] from h]
  have hl : look State.sel t = .ok (some a) t := by rw [look_apply, hsel]
  have ha : answerData b (some a) t = .ok true u := by
    show (devAck true >>= fun k => takeIfAcked a b k >>= fun _ => pure k) t = _
    rw [bind_of_ok hk, bind_of_ok htk, pure_apply]
  unfold completeDataOut
  rw [bind_of_ok hl, bind_of_ok ha]
  rfl

/-- A data frame with no device selected (R126). -/
theorem completeDataOut_unanswered {t : State} {b : Byte} (hsel : t.sel = none) :
    completeDataOut b t =
      .ok () { t with wire := t.wire ++ [.dw b false], st := .mtDataNack } := by
  have hl : look State.sel t = .ok none t := by rw [look_apply, hsel]
  unfold completeDataOut
  rw [bind_of_ok hl]
  rfl

/-- What a data byte does to the view, and to the RTC's registers, under the ideal DevAck (10_state.md R51,
R53; R126). -/
def View.take (c : Config) (b : Byte) (v : View) : Except Refusal (View × (Memory → Memory)) :=
  match v.sel with
  | none => .ok ({ v with wire := v.wire ++ [.dw b false] }, id)
  | some a =>
    if a = c.eeDev then
      match v.eeph with
      | .addrHi =>
        .ok ({ v with wire := v.wire ++ [.dw b true], eeptr := joinBytes b (loByte v.eeptr),
                      eeph := .addrLo }, id)
      | .addrLo =>
        .ok ({ v with wire := v.wire ++ [.dw b true], eeptr := joinBytes (hiByte v.eeptr) b,
                      eeph := .data }, id)
      | .data =>
        if v.eeptr.toNat < c.eeSize then
          .ok ({ v with wire := v.wire ++ [.dw b true], ee := v.ee.write v.eeptr.toNat b,
                        eeph := .done }, id)
        else .error .eepromRange
      | .done => .error .deviceUnspecified
      | .devIdle => .error .deviceUnspecified
    else if a = c.rtcDev then
      match v.rtcph with
      | .reg =>
        .ok ({ v with wire := v.wire ++ [.dw b true], rtcptr := b, rtcph := .data }, id)
      | .data =>
        .ok ({ v with wire := v.wire ++ [.dw b true], rtcph := .done },
          fun m => m.write v.rtcptr.toNat b)
      | .done => .error .deviceUnspecified
      | .devIdle => .error .deviceUnspecified
    else .ok ({ v with wire := v.wire ++ [.dw b true] }, id)

/-- A data frame leaves the phase, the selection and the wait for a stop as they are. -/
theorem View.take_same {c : Config} {b : Byte} {v w : View} {f : Memory → Memory}
    (h : v.take c b = .ok (w, f)) : w.ph = v.ph ∧ w.sel = v.sel ∧ w.stopping = v.stopping := by
  unfold View.take at h
  repeat' split at h
  all_goals first | (cases h; exact ⟨rfl, rfl, rfl⟩) | cases h

/-- What the selected device does with a data byte that it takes: what `View.take` says, the wire apart, and
nothing to the oracles. -/
theorem deviceTakes_take {t : State} {a : DevAddr} {b : Byte} {v : View} {f : Memory → Memory}
    (hsel : t.sel = some a) (hv : t.view.take t.cfg b = .ok (v, f)) :
    ∃ u, deviceTakes a b t = .ok () u ∧ u.busLeft = t.busLeft ∧ u.ackScript = t.ackScript ∧
      u.startScript = t.startScript ∧ u.stopping = t.stopping ∧
      ({ u with wire := u.wire ++ [.dw b true] } : State).view = v ∧ u.dr = t.dr ∧
      u.rtcreg = f t.rtcreg := by
  unfold View.take at hv
  rw [show t.view.sel = some a from hsel] at hv
  simp only at hv
  unfold deviceTakes
  rw [bind_of_ok (look_apply _ _)]
  by_cases he : a = t.cfg.eeDev
  · rw [if_pos he] at hv ⊢
    unfold eeTakes
    rw [bind_of_ok (get_apply _)]
    have hph : t.view.eeph = t.eeph := rfl
    rw [hph] at hv
    cases hp : t.eeph <;> rw [hp] at hv <;> simp only at hv ⊢
    · cases hv
    · cases hv
      exact ⟨_, rfl, rfl, rfl, rfl, rfl, by simp [State.view, hsel], rfl, rfl⟩
    · cases hv
      exact ⟨_, rfl, rfl, rfl, rfl, rfl, by simp [State.view, hsel], rfl, rfl⟩
    · by_cases hlt : t.eeptr.toNat < t.cfg.eeSize
      · rw [if_pos (show t.view.eeptr.toNat < t.cfg.eeSize from hlt)] at hv
        cases hv
        rw [bind_of_ok (show require (decide (t.eeptr.toNat < t.cfg.eeSize)) Refusal.eepromRange t =
          .ok () t by rw [require_apply, if_pos (by simpa using hlt)])]
        exact ⟨_, rfl, rfl, rfl, rfl, rfl, by simp [State.view, hsel], rfl, rfl⟩
      · rw [if_neg (show ¬ t.view.eeptr.toNat < t.cfg.eeSize from hlt)] at hv
        cases hv
    · cases hv
  · rw [if_neg he] at hv ⊢
    by_cases hr : a = t.cfg.rtcDev
    · rw [if_pos hr] at hv ⊢
      unfold rtcTakes
      rw [bind_of_ok (get_apply _)]
      have hph : t.view.rtcph = t.rtcph := rfl
      rw [hph] at hv
      cases hp : t.rtcph <;> rw [hp] at hv <;> simp only at hv ⊢
      · cases hv
      · cases hv
        exact ⟨_, rfl, rfl, rfl, rfl, rfl, by simp [State.view, hsel], rfl, rfl⟩
      · cases hv
        exact ⟨_, rfl, rfl, rfl, rfl, rfl, by simp [State.view, hsel], rfl, rfl⟩
      · cases hv
    · rw [if_neg hr] at hv ⊢
      cases hv
      exact ⟨t, rfl, rfl, rfl, rfl, rfl, by simp [State.view, hsel], rfl, rfl⟩

/-- The completion of a data frame under the ideal DevAck. -/
theorem completeDataOut_take {t : State} (h : DefaultOracles t) {b : Byte} {v : View}
    {f : Memory → Memory} (hv : t.view.take t.cfg b = .ok (v, f)) :
    ∃ u, completeDataOut b t = .ok () u ∧ DefaultOracles u ∧ u.stopping = t.stopping ∧ u.view = v ∧
      u.st = dataOutStatus t.sel.isSome ∧ u.dr = t.dr ∧ u.rtcreg = f t.rtcreg := by
  cases hsel : t.sel with
  | none =>
    unfold View.take at hv
    rw [show t.view.sel = none from hsel] at hv
    cases hv
    exact ⟨_, completeDataOut_unanswered hsel, ⟨h.live, h.ideal, h.starts⟩, rfl, by simp [State.view, hsel],
      rfl, rfl, rfl⟩
  | some a =>
    obtain ⟨u, hu, hl, ha, hss, hus, huv, hud, hur⟩ := deviceTakes_take hsel hv
    exact ⟨_, completeDataOut_taken hsel h.ideal (show takeIfAcked a b true t = .ok () u from hu),
      ⟨hl.trans h.live, ha.trans h.ideal, hss.trans h.starts⟩, hus, huv, rfl, hud, hur⟩

/-- WRITE of a data byte that the rules give a meaning (R126, case MT; 10_state.md R51, R53). -/
theorem busWrite_take {s : State} {b : Byte} {v : View} {f : Memory → Memory} (hb : s.br.isSome)
    (h : DefaultOracles s) (hph : s.ph = .mt) (hst : s.stopping = false)
    (hv : s.view.take s.cfg b = .ok (v, f)) :
    ∃ t, busWrite b s = .ok (dataOutStatus s.sel.isSome) t ∧ After s t v ∧
      t.st = dataOutStatus s.sel.isSome ∧ t.dr = b ∧ (s.agenda = [] → t.rtcreg = f s.rtcreg) :=
  busWrite_data b hb h hph hst (fun t hc htv ho => by
    obtain ⟨u, hu, huo, hus, huv, hst', hdr, hr⟩ :=
      completeDataOut_take ho (b := b) (by rw [htv, hc]; exact hv)
    have hsel : t.sel = s.sel := congrArg View.sel htv
    have htst : t.stopping = false := (congrArg View.stopping htv).trans hst
    exact ⟨u, hu, huo, hus.trans htst, huv, by rw [hst', hsel], hdr, hr⟩)

/-- The selected device is not offered what the rules give no meaning (U9, U10). -/
theorem deviceTakes_refused {t : State} {a : DevAddr} {b : Byte} {r : Refusal} (hsel : t.sel = some a)
    (hv : t.view.take t.cfg b = .error r) : ∃ u, deviceTakes a b t = .error (.refuse r) u := by
  unfold View.take at hv
  rw [show t.view.sel = some a from hsel] at hv
  simp only at hv
  unfold deviceTakes
  rw [bind_of_ok (look_apply _ _)]
  by_cases he : a = t.cfg.eeDev
  · rw [if_pos he] at hv ⊢
    unfold eeTakes
    rw [bind_of_ok (get_apply _)]
    rw [show t.view.eeph = t.eeph from rfl] at hv
    cases hp : t.eeph <;> rw [hp] at hv <;> simp only at hv ⊢
    · cases hv; exact ⟨t, rfl⟩
    · cases hv
    · cases hv
    · by_cases hlt : t.eeptr.toNat < t.cfg.eeSize
      · rw [if_pos (show t.view.eeptr.toNat < t.cfg.eeSize from hlt)] at hv
        cases hv
      · rw [if_neg (show ¬ t.view.eeptr.toNat < t.cfg.eeSize from hlt)] at hv
        cases hv
        exact ⟨t, bind_of_error (by rw [require_apply, if_neg (by simpa using hlt)])⟩
    · cases hv; exact ⟨t, rfl⟩
  · rw [if_neg he] at hv ⊢
    by_cases hr : a = t.cfg.rtcDev
    · rw [if_pos hr] at hv ⊢
      unfold rtcTakes
      rw [bind_of_ok (get_apply _)]
      rw [show t.view.rtcph = t.rtcph from rfl] at hv
      cases hp : t.rtcph <;> rw [hp] at hv <;> simp only at hv ⊢
      · cases hv; exact ⟨t, rfl⟩
      · cases hv
      · cases hv
      · cases hv; exact ⟨t, rfl⟩
    · rw [if_neg hr] at hv; cases hv

/-- A data frame that the rules give no meaning is refused (U9, U10). -/
theorem completeDataOut_refused {t : State} (h : DefaultOracles t) {b : Byte} {r : Refusal}
    (hv : t.view.take t.cfg b = .error r) : ∃ u, completeDataOut b t = .error (.refuse r) u := by
  cases hsel : t.sel with
  | none =>
    unfold View.take at hv
    rw [show t.view.sel = none from hsel] at hv
    cases hv
  | some a =>
    obtain ⟨u, hu⟩ := deviceTakes_refused hsel hv
    refine ⟨u, ?_⟩
    have hk : devAck true t = .ok true t := by simp [devAck, show t.ackScript = [] from h.ideal]
    have hl : look State.sel t = .ok (some a) t := by rw [look_apply, hsel]
    have ha : answerData b (some a) t = .error (.refuse r) u := by
      show (devAck true >>= fun k => takeIfAcked a b k >>= fun _ => pure k) t = _
      rw [bind_of_ok hk]
      exact bind_of_error hu
    unfold completeDataOut
    rw [bind_of_ok hl]
    exact bind_of_error ha

/-- WRITE of a data byte whose completion is refused. -/
theorem busWrite_data_refused {s : State} {b : Byte} {r : Refusal} (hb : s.br.isSome) (h : BusLive s)
    (hph : s.ph = .mt) (hst : s.stopping = false)
    (hc : ∀ t, Waited { s with dr := b, done := false, inflight := .write b } t → t.view = s.view →
      ∃ u, completeDataOut b t = .error (.refuse r) u) :
    ∃ t, busWrite b s = .error (.refuse r) t := by
  let i : State := { s with dr := b, done := false, inflight := .write b }
  obtain ⟨t, ht, hrun⟩ := await_settles (s := i) h
  have htv : t.view = s.view := by
    have := ht.view
    rwa [View.settled_of_not_stopping _ (show i.view.stopping = false from hst)] at this
  obtain ⟨u, hu⟩ := hc t ht htv
  refine ⟨u, ?_⟩
  have hc : completeInflight t = .error (.refuse r) u := by
    unfold completeInflight
    rw [bind_of_ok (look_apply _ _), ht.inflight]
    refine bind_of_error ?_
    show completeWrite b t = _
    unfold completeWrite
    rw [bind_of_ok (look_apply _ _), show t.ph = .mt from (congrArg View.ph htv).trans hph]
    exact hu
  unfold busWrite
  have hq : requireBus s = .ok () s := by
    unfold requireBus
    rw [bind_of_ok (look_apply _ _), require_apply, hb]; rfl
  have hr : require s.ph.canWrite Refusal.writeOutOfPhase s = .ok () s := by rw [hph]; rfl
  rw [bind_of_ok hq, bind_of_ok (look_apply _ _), bind_of_ok hr, bind_of_ok (modify_apply _ _)]
  have hi : issue (.write b) { s with dr := b } = .ok ⟨⟩ i := rfl
  rw [bind_of_ok hi]
  refine bind_of_error ?_
  rw [hrun]
  exact bind_of_error hc

/-- WRITE of a data byte that the rules give no meaning. -/
theorem busWrite_refused {s : State} {b : Byte} {r : Refusal} (hb : s.br.isSome) (h : DefaultOracles s)
    (hph : s.ph = .mt) (hst : s.stopping = false) (hv : s.view.take s.cfg b = .error r) :
    ∃ t, busWrite b s = .error (.refuse r) t :=
  busWrite_data_refused hb h.live hph hst (fun t ht htv =>
    completeDataOut_refused (ht.oracles ⟨h.live, h.ideal, h.starts⟩)
      (by rw [htv, show t.cfg = s.cfg from ht.frame.cfg]; exact hv))

/-! ## READ -/

/-- The general shape of READ: what the selected device sends decides what READ does. -/
theorem busRead_data {s : State} {g : View → Byte → View} {P : Memory → Byte → Prop} (k : Bool)
    (hb : s.br.isSome) (h : DefaultOracles s) (hph : s.ph = .mr) (hst : s.stopping = false)
    (hc : ∀ t : State, t.cfg = s.cfg → t.view = s.view → DefaultOracles t →
      ∃ b u, deviceSends t.sel t = .ok b u ∧ DefaultOracles u ∧ u.view = g s.view b ∧
        (g s.view b).stopping = false ∧ u.rtcreg = t.rtcreg ∧ P t.rtcreg b) :
    ∃ b t m, busRead k s = .ok b t ∧
      After s t { g s.view b with wire := (g s.view b).wire ++ [.dr b k] } ∧
      t.st = dataInStatus k ∧ t.dr = b ∧ P m b ∧ (s.agenda = [] → m = s.rtcreg ∧ t.rtcreg = s.rtcreg) := by
  let i : State := { s with done := false, inflight := .read k }
  have hi : DefaultOracles i := ⟨h.live, h.ideal, h.starts⟩
  have hif : BusFrame s i := BusFrame.of_update rfl
  have hvs : ∀ t, Waited i t → t.view = s.view ∧ t.cfg = s.cfg := by
    intro t ht
    have hv : t.view = s.view := by
      have := ht.view
      rwa [View.settled_of_not_stopping _ (show i.view.stopping = false from hst)] at this
    exact ⟨hv, ht.frame.cfg⟩
  obtain ⟨t, hw0, hrun⟩ := await_settles hi.live
  obtain ⟨hv, hcf⟩ := hvs t hw0
  obtain ⟨b, u, hu, huo, huv, hgs, hur, hP⟩ := hc t hcf hv (hw0.oracles hi)
  let r : State := { u with wire := u.wire ++ [.dr b k], dr := b, st := dataInStatus k }
  have hr : completion (.read k) t = .ok () r := by
    show completeRead k t = _
    unfold completeRead
    rw [bind_of_ok (look_apply _ _), bind_of_ok hu]
    rfl
  have hus : u.stopping = false := (congrArg View.stopping huv).trans hgs
  have huf : BusFrame t r := by
    have := BusFrame.completeRead k t
    rw [show completeRead k t = .ok () r from hr] at this
    exact this
  let d : State := { r with inflight := .none, done := true }
  have hd : completeInflight t = .ok () d := by
    unfold completeInflight
    rw [bind_of_ok (look_apply _ _), hw0.inflight, show i.inflight = .read k from rfl, bind_of_ok hr]
    rfl
  have hdf : BusFrame r d := BusFrame.of_update rfl
  have hds : d.stopping = false := hus
  have hw : awaitDone i = .ok () d.others := by rw [hrun, bind_of_ok hd]; rfl
  refine ⟨b, d.others, t.rtcreg, ?_,
    ⟨(((hif.trans hw0.frame).trans huf).trans hdf).trans (BusFrame.others d),
      others_oracles ⟨huo.live, huo.ideal, huo.starts⟩, by simp [d], by simp [d], ?_⟩,
    by simp [d, r], by simp [d, r], hP, ?_⟩
  · unfold busRead
    have hq : requireBus s = .ok () s := by
      unfold requireBus
      rw [bind_of_ok (look_apply _ _), require_apply, hb]; rfl
    have hrq : require (decide (s.ph = .mr)) Refusal.readOutOfPhase s = .ok () s := by rw [hph]; rfl
    have hi' : issue (.read k) s = .ok ⟨⟩ i := rfl
    rw [bind_of_ok hq, bind_of_ok (look_apply _ _), bind_of_ok hrq, bind_of_ok hi', bind_of_ok hw,
      look_apply]
    simp [d, r]
  · rw [others_view hds, ← huv]; rfl
  · intro ha
    have hta : t.agenda = [] := hw0.frame.agenda ha
    have hda : d.agenda = [] := hdf.agenda (huf.agenda hta)
    have := hw0.rtc ha
    refine ⟨this, ?_⟩
    rw [State.others_scripted hda]
    exact hur.trans this

/-- READ from the EEPROM gives the byte under its pointer (10_state.md R51). -/
theorem busRead_ee {s : State} (k : Bool) (hb : s.br.isSome) (h : DefaultOracles s) (hph : s.ph = .mr)
    (hst : s.stopping = false) (hsel : s.sel = some s.cfg.eeDev) (hsent : s.eeSent = false)
    (hin : s.eeptr.toNat < s.cfg.eeSize) :
    ∃ t, busRead k s = .ok (s.ee.read s.eeptr.toNat) t ∧
      After s t { s.view with eeSent := true, wire := s.wire ++ [.dr (s.ee.read s.eeptr.toNat) k] } ∧
      t.st = dataInStatus k ∧ t.dr = s.ee.read s.eeptr.toNat ∧
      (s.agenda = [] → t.rtcreg = s.rtcreg) := by
  obtain ⟨b, t, m, h1, h2, h3, h4, h5, h6⟩ := busRead_data (s := s)
    (g := fun v _ => { v with eeSent := true }) (P := fun _ b => b = s.ee.read s.eeptr.toNat) k hb h hph hst
    (by
      intro t hc hv ho
      have hts : t.sel = some t.cfg.eeDev := by rw [hc]; exact (congrArg View.sel hv).trans hsel
      have hse : t.eeSent = false := (congrArg View.eeSent hv).trans hsent
      have hptr : t.eeptr = s.eeptr := congrArg View.eeptr hv
      have hee : t.ee = s.ee := congrArg View.ee hv
      have hin' : t.eeptr.toNat < t.cfg.eeSize := by rw [hptr, hc]; exact hin
      refine ⟨t.ee.read t.eeptr.toNat, { t with eeSent := true }, ?_, ⟨ho.live, ho.ideal, ho.starts⟩, ?_,
        hst, rfl, by rw [hee, hptr]⟩
      · rw [hts]
        simp [deviceSends, eeSends, bind_apply, hse, hin']
        exact hts
      · rw [← hv]; rfl)
  subst h5
  exact ⟨t, h1, h2, h3, h4, fun ha => (h6 ha).2⟩

/-- READ from the RTC gives a register as it stands when the frame completes (10_state.md R53). -/
theorem busRead_rtc {s : State} (k : Bool) (hb : s.br.isSome) (h : DefaultOracles s) (hph : s.ph = .mr)
    (hst : s.stopping = false) (hne : s.cfg.rtcDev ≠ s.cfg.eeDev) (hsel : s.sel = some s.cfg.rtcDev)
    (hsent : s.rtcSent = false) :
    ∃ b t m, busRead k s = .ok b t ∧
      After s t { s.view with rtcSent := true, wire := s.wire ++ [.dr b k] } ∧
      t.st = dataInStatus k ∧ t.dr = b ∧ b = Memory.read m s.rtcptr.toNat ∧
      (s.agenda = [] → m = s.rtcreg ∧ t.rtcreg = s.rtcreg) :=
  busRead_data (s := s) (g := fun v _ => { v with rtcSent := true })
    (P := fun m b => b = Memory.read m s.rtcptr.toNat) k hb h hph hst
    (by
      intro t hc hv ho
      have hts : t.sel = some t.cfg.rtcDev := by rw [hc]; exact (congrArg View.sel hv).trans hsel
      have hse : t.rtcSent = false := (congrArg View.rtcSent hv).trans hsent
      have hptr : t.rtcptr = s.rtcptr := congrArg View.rtcptr hv
      have hne' : ¬(t.cfg.rtcDev = t.cfg.eeDev) := by rw [hc]; exact hne
      refine ⟨t.rtcreg.read t.rtcptr.toNat, { t with rtcSent := true }, ?_,
        ⟨ho.live, ho.ideal, ho.starts⟩, ?_, hst, rfl, by rw [hptr]⟩
      · rw [hts]
        simp [deviceSends, rtcSends, bind_apply, hse, hne']
        exact hts
      · rw [← hv]; rfl)

/-- READ with neither device selected gives a draw (R127, U5). -/
theorem busRead_undriven {s : State} (k : Bool) (hb : s.br.isSome) (h : DefaultOracles s)
    (hph : s.ph = .mr) (hst : s.stopping = false) (he : s.sel ≠ some s.cfg.eeDev)
    (hr : s.sel ≠ some s.cfg.rtcDev) :
    ∃ b t, busRead k s = .ok b t ∧ After s t { s.view with wire := s.wire ++ [.dr b k] } ∧
      t.st = dataInStatus k ∧ t.dr = b ∧ (s.agenda = [] → t.rtcreg = s.rtcreg) := by
  obtain ⟨b, t, m, h1, h2, h3, h4, _, h6⟩ := busRead_data (s := s)
    (g := fun v _ => v) (P := fun _ _ => True) k hb h hph hst
    (by
      intro t hc hv ho
      have hts : t.sel = s.sel := congrArg View.sel hv
      refine ⟨Config.freeByte t.drawn, { t with drawn := t.drawn + 1 }, ?_,
        ⟨ho.live, ho.ideal, ho.starts⟩, ?_, hst, rfl, trivial⟩
      · cases hs : t.sel with
        | none => simp [deviceSends, bind_apply, hs]
        | some a =>
          have e1 : ¬ a = t.cfg.eeDev := by rintro rfl; exact he (by rw [← hts, hs, hc])
          have e2 : ¬ a = t.cfg.rtcDev := by rintro rfl; exact hr (by rw [← hts, hs, hc])
          simp [deviceSends, bind_apply, e1, e2, hs]
      · rw [← hv]; rfl)
  exact ⟨b, t, h1, h2, h3, h4, fun ha => (h6 ha).2⟩

/-- READ of a byte that the device may not be asked for (U9, U10). -/
theorem busRead_refused {s : State} {r : Refusal} (k : Bool) (hb : s.br.isSome) (h : DefaultOracles s)
    (hph : s.ph = .mr) (hst : s.stopping = false)
    (hc : ∀ t : State, t.cfg = s.cfg → t.view = s.view →
      ∃ u, deviceSends t.sel t = .error (.refuse r) u) :
    ∃ t, busRead k s = .error (.refuse r) t := by
  let i : State := { s with done := false, inflight := .read k }
  obtain ⟨t, ht, hrun⟩ := await_settles (s := i) h.live
  have htv : t.view = s.view := by
    have := ht.view
    rwa [View.settled_of_not_stopping _ (show i.view.stopping = false from hst)] at this
  obtain ⟨u, hu⟩ := hc t ht.frame.cfg htv
  refine ⟨u, ?_⟩
  have hci : completeInflight t = .error (.refuse r) u := by
    unfold completeInflight
    rw [bind_of_ok (look_apply _ _), ht.inflight]
    refine bind_of_error ?_
    show completeRead k t = _
    unfold completeRead
    rw [bind_of_ok (look_apply _ _)]
    exact bind_of_error hu
  unfold busRead
  have hq : requireBus s = .ok () s := by
    unfold requireBus
    rw [bind_of_ok (look_apply _ _), require_apply, hb]; rfl
  have hrq : require (decide (s.ph = .mr)) Refusal.readOutOfPhase s = .ok () s := by rw [hph]; rfl
  have hi : issue (.read k) s = .ok ⟨⟩ i := rfl
  rw [bind_of_ok hq, bind_of_ok (look_apply _ _), bind_of_ok hrq, bind_of_ok hi]
  refine bind_of_error ?_
  rw [hrun]
  exact bind_of_error hci

/-! ## STOP -/

/-- STOP returns at once with the phase Idle and the stop pending (R128). -/
theorem busStop_spec {s : State} (hb : s.br.isSome) (hph : s.ph ≠ .idle) :
    ∃ t, busStop s = .ok () t ∧ BusFrame s t ∧ t.view = s.view.stopped ∧ t.done = s.done ∧
      t.inflight = s.inflight ∧ t.rtcreg = s.rtcreg ∧ (DefaultOracles s → DefaultOracles t) := by
  have hF := BusFrame.busStop s
  unfold busStop at hF ⊢
  have hq : requireBus s = .ok () s := by
    unfold requireBus
    rw [bind_of_ok (look_apply _ _), require_apply, hb]; rfl
  have hrq : require (decide (s.ph ≠ .idle)) Refusal.stopWhileIdle s = .ok () s := by
    rw [require_apply, if_pos (by simpa using hph)]
  rw [bind_of_ok hq, bind_of_ok (look_apply _ _), bind_of_ok hrq, bind_of_ok (draw_apply _),
    bind_of_ok (draw_apply _), modify_apply] at hF ⊢
  exact ⟨_, rfl, hF, rfl, rfl, rfl, rfl, fun h => ⟨h.live, h.ideal, h.starts⟩⟩

end Sys2Proof.Machine
end

