-- ==== Sys2Proof/Laws/Transaction.lean ====
section
/-! SUPPORT. What the transactions of 41_register_protocol.md do under the default oracles, whatever the
other agents do meanwhile: result, engine and devices after them, and where they are refused. -/

namespace Sys2Proof.Machine

/-! ## One primitive with its check -/

/-- Two pieces in a row, each of which waited. -/
theorem After.trans {s t u : State} {v w : View} (h : After s t v) (k : After t u w) : After s u w :=
  ⟨h.frame.trans k.frame, k.oracles, k.done, k.inflight, k.view⟩

/-- `Chk` of a status that is as expected, or unmonitored (R151). -/
theorem chk_spec (ok : Bool) (e : Status) (s : State) :
    chk ok e s = .ok (if s.cfg.monitored then ok && decide (s.st = e) else ok) s := by
  unfold chk
  rw [bind_of_ok (look_apply _ _)]
  cases s.cfg.monitored <;> rfl

/-- START with its check: the status is the expected one (R125, R151). -/
theorem startChk_spec {s : State} (ok : Bool) (hb : s.br.isSome) (h : DefaultOracles s) :
    ∃ t, startChk ok (startStatus s.ph) s = .ok ok t ∧ After s t (s.view.started s.cfg) ∧
      (s.agenda = [] → t.rtcreg = s.rtcreg) := by
  obtain ⟨t, ht, hA, hst, hr⟩ := busStart_spec hb h
  refine ⟨t, ?_, hA, hr⟩
  unfold startChk
  rw [bind_of_ok ht, chk_spec, hst]
  simp

/-- The address frame with its check: as expected exactly if a device answers (R126, R151). -/
theorem writeChk_address {s : State} (ok : Bool) (b : Byte) (hb : s.br.isSome) (h : DefaultOracles s)
    (hph : s.ph = .addrPending) (hst : s.stopping = false) :
    ∃ t, writeChk ok b (slaStatus (dirOf b) true) s =
        .ok (ok && (!s.cfg.monitored ||
          (decide (addrOf b = s.cfg.eeDev) || decide (addrOf b = s.cfg.rtcDev)))) t ∧
      After s t (s.view.addressed s.cfg (addrOf b) (dirOf b)) ∧ (s.agenda = [] → t.rtcreg = s.rtcreg) := by
  obtain ⟨t, ht, hA, hst', _, hr⟩ := busWrite_address b hb h hph hst
  refine ⟨t, ?_, hA, hr⟩
  unfold writeChk
  rw [bind_of_ok ht, chk_spec, hst', hA.frame.cfg]
  cases dirOf b <;> cases s.cfg.monitored <;>
    cases (decide (addrOf b = s.cfg.eeDev) || decide (addrOf b = s.cfg.rtcDev)) <;> simp [slaStatus]

/-- Data bytes one after the other. -/
def View.takeAll (c : Config) : List Byte → View → Except Refusal (View × (Memory → Memory))
  | [], v => .ok (v, id)
  | b :: rest, v =>
    match v.take c b with
    | .ok (w, f) =>
      match View.takeAll c rest w with
      | .ok (x, g) => .ok (x, fun m => g (f m))
      | .error r => .error r
    | .error r => .error r

theorem View.takeAll_same {c : Config} {bytes : List Byte} {v w : View} {f : Memory → Memory}
    (h : v.takeAll c bytes = .ok (w, f)) : w.ph = v.ph ∧ w.sel = v.sel ∧ w.stopping = v.stopping := by
  induction bytes generalizing v w f with
  | nil => cases h; exact ⟨rfl, rfl, rfl⟩
  | cons b rest ih =>
    unfold View.takeAll at h
    cases hv : v.take c b with
    | error r => rw [hv] at h; cases h
    | ok p =>
      obtain ⟨x, g⟩ := p
      rw [hv] at h
      simp only at h
      cases hx : View.takeAll c rest x with
      | error r => rw [hx] at h; cases h
      | ok q =>
        obtain ⟨y, k⟩ := q
        rw [hx] at h
        cases h
        obtain ⟨h1, h2, h3⟩ := ih hx
        obtain ⟨k1, k2, k3⟩ := View.take_same hv
        exact ⟨h1.trans k1, h2.trans k2, h3.trans k3⟩

/-- The data bytes of a transaction (R151, R154): every byte is issued; the check fails if no device is
selected. -/
theorem writeAll_spec {bytes : List Byte} {s : State} {v : View} {f : Memory → Memory} (ok : Bool)
    (hb : s.br.isSome) (h : DefaultOracles s) (hph : s.ph = .mt) (hst : s.stopping = false)
    (hd : s.done = true) (hin : s.inflight = .none)
    (hv : s.view.takeAll s.cfg bytes = .ok (v, f)) :
    ∃ t, writeAll ok bytes s =
        .ok (ok && (!s.cfg.monitored || s.sel.isSome || bytes.isEmpty)) t ∧ After s t v ∧
      (s.agenda = [] → t.rtcreg = f s.rtcreg) := by
  induction bytes generalizing s v f ok with
  | nil =>
    cases hv
    exact ⟨s, by simp [writeAll], ⟨BusFrame.refl s, h, hd, hin, rfl⟩, fun _ => rfl⟩
  | cons b rest ih =>
    unfold View.takeAll at hv
    cases hw : s.view.take s.cfg b with
    | error r => rw [hw] at hv; cases hv
    | ok p =>
      obtain ⟨w, g⟩ := p
      rw [hw] at hv
      simp only at hv
      cases hx : View.takeAll s.cfg rest w with
      | error r => rw [hx] at hv; cases hv
      | ok q =>
        obtain ⟨x, k⟩ := q
        rw [hx] at hv
        cases hv
        obtain ⟨t, ht, hA, hst', _, hr⟩ := busWrite_take hb h hph hst hw
        obtain ⟨k1, k2, k3⟩ := View.take_same hw
        have htv := hA.view
        have htsel : t.sel = s.sel := (congrArg View.sel htv).trans k2
        have htph : t.ph = .mt := ((congrArg View.ph htv).trans k1).trans hph
        have htst : t.stopping = false := ((congrArg View.stopping htv).trans k3).trans hst
        have hw' : writeChk ok b .mtDataAck s =
            .ok (ok && (!s.cfg.monitored || s.sel.isSome)) t := by
          unfold writeChk
          rw [bind_of_ok ht, chk_spec, hst', hA.frame.cfg]
          cases s.cfg.monitored <;> cases s.sel <;> simp [dataOutStatus]
        obtain ⟨u, hu, hB, hr'⟩ := ih (ok && (!s.cfg.monitored || s.sel.isSome))
          (by rw [hA.frame.br]; exact hb) hA.oracles htph htst hA.done hA.inflight
          (by rw [htv, hA.frame.cfg]; exact hx)
        refine ⟨u, ?_, hA.trans hB, ?_⟩
        · unfold writeAll
          rw [bind_of_ok hw', hu, htsel, hA.frame.cfg]
          cases s.cfg.monitored <;> cases s.sel <;> cases ok <;> simp
        · intro ha
          rw [hr' (hA.frame.agenda ha), hr ha]

/-! ## Address bytes -/

@[simp] theorem addrOf_slaW (a : DevAddr) : addrOf (slaW a) = a := by
  unfold addrOf slaW; revert a; decide

@[simp] theorem dirOf_slaW (a : DevAddr) : dirOf (slaW a) = false := by
  unfold dirOf slaW; revert a; decide

@[simp] theorem addrOf_slaR (a : DevAddr) : addrOf (slaR a) = a := by
  unfold addrOf slaR; revert a; decide

@[simp] theorem dirOf_slaR (a : DevAddr) : dirOf (slaR a) = true := by
  unfold dirOf slaR; revert a; decide

/-! ## The transactions -/

/-- The start of every transaction: start, select-device-for-write, data bytes. -/
theorem select_spec {s : State} {v : View} {f : Memory → Memory} (dev : DevAddr) (bytes : List Byte)
    (hr : BusReady s) (h : DefaultOracles s)
    (hv : ((s.view.started s.cfg).addressed s.cfg dev false).takeAll s.cfg bytes = .ok (v, f)) :
    ∃ t, (∀ {α : Type} (k : Bool → Op α),
        (startChk true .start >>= fun ok => writeChk ok (slaW dev) .mtSlaAck >>= fun ok =>
          writeAll ok bytes >>= k : Op α) s = k (!s.cfg.monitored || answers s.cfg dev) t) ∧
      After s t v ∧ (s.agenda = [] → t.rtcreg = f s.rtcreg) ∧ t.ph = .mt ∧ t.stopping = false := by
  obtain ⟨t1, h1, hA1, r1⟩ := startChk_spec true hr.init h
  rw [hr.idle] at h1
  have hc1 := hA1.frame.cfg
  have hst1 : t1.stopping = false :=
    (congrArg View.stopping hA1.view).trans (View.settled_stopping s.cfg s.view)
  obtain ⟨t2, h2, hA2, r2⟩ := writeChk_address true (slaW dev) (by rw [hA1.frame.br]; exact hr.init)
    hA1.oracles (congrArg View.ph hA1.view) hst1
  rw [addrOf_slaW, dirOf_slaW] at h2 hA2
  have hB := hA1.trans hA2
  have hv2 : t2.view = (s.view.started s.cfg).addressed s.cfg dev false := by
    rw [hA2.view, hA1.view, hc1]
  have hph2 : t2.ph = .mt := congrArg View.ph hv2
  have hst2 : t2.stopping = false :=
    (congrArg View.stopping hv2).trans (View.settled_stopping s.cfg s.view)
  have hsel2 : t2.sel.isSome = answers s.cfg dev := by
    have := congrArg View.sel hv2
    rw [show t2.sel = _ from this]
    show Option.isSome (if (decide (dev = s.cfg.eeDev) || decide (dev = s.cfg.rtcDev)) = true then some dev else none) = _
    unfold answers
    cases (decide (dev = s.cfg.eeDev) || decide (dev = s.cfg.rtcDev)) <;> rfl
  obtain ⟨t3, h3, hA3, r3⟩ := writeAll_spec (bytes := bytes) (true && (!t1.cfg.monitored || answers t1.cfg dev))
    (by rw [hB.frame.br]; exact hr.init) hA2.oracles hph2 hst2 hA2.done hA2.inflight
    (by rw [hv2, hB.frame.cfg]; exact hv)
  obtain ⟨k1, k2, k3⟩ := View.takeAll_same hv
  refine ⟨t3, ?_, hB.trans hA3, ?_, ?_, ?_⟩
  · intro α k
    rw [bind_of_ok (show startChk true .start s = .ok true t1 from h1)]
    rw [bind_of_ok (show writeChk true (slaW dev) .mtSlaAck t1 =
      .ok (true && (!t1.cfg.monitored || answers t1.cfg dev)) t2 from h2)]
    rw [bind_of_ok h3, hsel2, hB.frame.cfg, hc1]
    cases s.cfg.monitored <;> cases answers s.cfg dev <;> rfl
  · intro ha
    rw [r3 (hB.frame.agenda ha), r2 (hA1.frame.agenda ha), r1 ha]
  · exact (congrArg View.ph hA3.view).trans (k1.trans rfl)
  · exact (congrArg View.stopping hA3.view).trans (k3.trans (View.settled_stopping s.cfg s.view))

theorem requireIdle_spec {s : State} (h : s.ph = .idle) : requireIdle s = .ok () s := by
  unfold requireIdle
  rw [bind_of_ok (look_apply _ _), require_apply, h]
  rfl

/-- STOP at the end of a transaction. -/
theorem busStop_after {s t : State} {v : View} (h : After s t v) (hb : s.br.isSome)
    (hph : t.ph ≠ .idle) :
    ∃ u, busStop t = .ok () u ∧ After s u v.stopped ∧ u.rtcreg = t.rtcreg := by
  obtain ⟨u, hu, hf, hv, hd, hi, hr, ho⟩ := busStop_spec (s := t) (by rw [h.frame.br]; exact hb) hph
  exact ⟨u, hu, ⟨h.frame.trans hf, ho h.oracles, hd.trans h.done, hi.trans h.inflight,
    by rw [hv, h.view]⟩, hr⟩

/-- The write transaction (R94): the device takes the bytes, then the stop is pending. -/
theorem writeTransaction_spec {s : State} {v : View} {f : Memory → Memory} (dev : DevAddr)
    (bytes : List Byte) (hr : BusReady s) (h : DefaultOracles s)
    (hv : ((s.view.started s.cfg).addressed s.cfg dev false).takeAll s.cfg bytes = .ok (v, f)) :
    ∃ t, writeTransaction dev bytes s = .ok () t ∧ After s t v.stopped ∧
      (s.agenda = [] → t.rtcreg = f s.rtcreg) := by
  obtain ⟨t, ht, hA, hrt, hph, _⟩ := select_spec dev bytes hr h hv
  obtain ⟨u, hu, hB, hru⟩ := busStop_after hA hr.init (by rw [hph]; decide)
  refine ⟨u, ?_, hB, fun ha => hru.trans (hrt ha)⟩
  unfold writeTransaction
  rw [bind_of_ok (requireIdle_spec hr.idle), ht, hu]

/-- The view of the second half of a read transaction, up to the received byte. -/
def View.reselected (c : Config) (dev : DevAddr) (v : View) : View :=
  (v.started c).addressed c dev true

/-- The read transaction (R94), given what the received byte is. -/
theorem readTransaction_spec {s : State} {v w : View} {f : Memory → Memory} {P : Memory → Byte → Prop}
    (dev : DevAddr) (select : List Byte) (hr : BusReady s) (h : DefaultOracles s)
    (hv : ((s.view.started s.cfg).addressed s.cfg dev false).takeAll s.cfg select = .ok (v, f))
    (hread : ∀ t : State, t.cfg = s.cfg → t.br = s.br → t.view = v.reselected s.cfg dev →
      DefaultOracles t → ∃ b u m, busRead false t = .ok b u ∧
        After t u { w with wire := w.wire ++ [WireEvent.dr b false] } ∧ u.st = .mrDataNack ∧ P m b ∧
        (t.agenda = [] → m = t.rtcreg ∧ u.rtcreg = t.rtcreg))
    (hw : w.ph ≠ .idle) :
    ∃ b t m, readTransaction dev select s =
        .ok (if s.cfg.monitored && !answers s.cfg dev then 0x00 else b) t ∧
      After s t (View.stopped { w with wire := w.wire ++ [WireEvent.dr b false] }) ∧ P m b ∧
      (s.agenda = [] → m = f s.rtcreg ∧ t.rtcreg = f s.rtcreg) := by
  obtain ⟨t, ht, hA, hrt, hph, hst⟩ := select_spec dev select hr h hv
  obtain ⟨t1, h1, hA1, r1⟩ := startChk_spec (!s.cfg.monitored || answers s.cfg dev)
    (by rw [hA.frame.br]; exact hr.init) hA.oracles
  rw [hph] at h1
  have hst1 : t1.stopping = false :=
    (congrArg View.stopping hA1.view).trans (View.settled_stopping _ _)
  have hC := hA.trans hA1
  obtain ⟨t2, h2, hA2, r2⟩ := writeChk_address (!s.cfg.monitored || answers s.cfg dev) (slaR dev)
    (by rw [hC.frame.br]; exact hr.init) hA1.oracles (congrArg View.ph hA1.view) hst1
  rw [addrOf_slaR, dirOf_slaR] at h2 hA2
  have hD := hC.trans hA2
  have hv2 : t2.view = v.reselected s.cfg dev := by
    rw [hA2.view, hA1.view, hA.view, hC.frame.cfg, hA.frame.cfg]
    rfl
  obtain ⟨b, t3, m, h3, hA3, hst3, hP, r3⟩ := hread t2 hD.frame.cfg hD.frame.br hv2 hA2.oracles
  have hE := hD.trans hA3
  obtain ⟨u, hu, hF, hru⟩ := busStop_after hE hr.init (by
    rw [show t3.ph = w.ph from congrArg View.ph hA3.view]; exact hw)
  refine ⟨b, u, m, ?_, hF, hP, ?_⟩
  · unfold readTransaction
    rw [bind_of_ok (requireIdle_spec hr.idle), ht]
    rw [bind_of_ok (show startChk (!s.cfg.monitored || answers s.cfg dev) .rstart t = _ from h1)]
    rw [bind_of_ok (show writeChk (!s.cfg.monitored || answers s.cfg dev) (slaR dev) .mrSlaAck t1 = _ from h2)]
    rw [bind_of_ok h3, bind_of_ok (chk_spec _ _ _), bind_of_ok hu, pure_apply, hst3, hE.frame.cfg,
      hC.frame.cfg]
    have : (decide (dev = s.cfg.eeDev) || decide (dev = s.cfg.rtcDev)) = answers s.cfg dev := rfl
    rw [this]
    cases s.cfg.monitored <;> cases answers s.cfg dev <;> rfl
  · intro ha
    have ha2 := hD.frame.agenda ha
    have e : t2.rtcreg = f s.rtcreg := by
      rw [r2 (hC.frame.agenda ha), r1 (hA.frame.agenda ha), hrt ha]
    exact ⟨(r3 ha2).1.trans e, hru.trans ((r3 ha2).2.trans e)⟩

/-! ## Transactions that are refused -/

theorem writeAll_refused {bytes : List Byte} {s : State} {r : Refusal} (ok : Bool)
    (hb : s.br.isSome) (h : DefaultOracles s) (hph : s.ph = .mt) (hst : s.stopping = false)
    (hv : s.view.takeAll s.cfg bytes = .error r) :
    ∃ t, writeAll ok bytes s = .error (.refuse r) t := by
  induction bytes generalizing s ok with
  | nil => cases hv
  | cons b rest ih =>
    unfold View.takeAll at hv
    cases hw : s.view.take s.cfg b with
    | error r' =>
      rw [hw] at hv
      cases hv
      obtain ⟨t, ht⟩ := busWrite_refused hb h hph hst hw
      refine ⟨t, ?_⟩
      unfold writeAll writeChk
      exact bind_of_error (bind_of_error ht)
    | ok p =>
      obtain ⟨w, g⟩ := p
      rw [hw] at hv
      simp only at hv
      cases hx : View.takeAll s.cfg rest w with
      | ok q => rw [hx] at hv; cases hv
      | error r' =>
        rw [hx] at hv
        cases hv
        obtain ⟨t, ht, hA, hst', _, _⟩ := busWrite_take hb h hph hst hw
        obtain ⟨k1, k2, k3⟩ := View.take_same hw
        have htv := hA.view
        have hw' : ∃ k, writeChk ok b .mtDataAck s = .ok k t := by
          unfold writeChk
          rw [bind_of_ok ht, chk_spec]
          exact ⟨_, rfl⟩
        obtain ⟨k, hk⟩ := hw'
        obtain ⟨u, hu⟩ := ih k (by rw [hA.frame.br]; exact hb) hA.oracles
          (((congrArg View.ph htv).trans k1).trans hph)
          (((congrArg View.stopping htv).trans k3).trans hst)
          (by rw [htv, hA.frame.cfg]; exact hx)
        refine ⟨u, ?_⟩
        unfold writeAll
        rw [bind_of_ok hk, hu]

/-- A transaction whose data bytes are refused is refused. -/
theorem select_refused {s : State} {r : Refusal} (dev : DevAddr) (bytes : List Byte)
    (hr : BusReady s) (h : DefaultOracles s)
    (hv : ((s.view.started s.cfg).addressed s.cfg dev false).takeAll s.cfg bytes = .error r)
    {α : Type} (k : Bool → Op α) :
    ∃ t, (startChk true .start >>= fun ok => writeChk ok (slaW dev) .mtSlaAck >>= fun ok =>
      writeAll ok bytes >>= k : Op α) s = .error (.refuse r) t := by
  obtain ⟨t1, h1, hA1, r1⟩ := startChk_spec true hr.init h
  rw [hr.idle] at h1
  have hst1 : t1.stopping = false :=
    (congrArg View.stopping hA1.view).trans (View.settled_stopping s.cfg s.view)
  obtain ⟨t2, h2, hA2, r2⟩ := writeChk_address true (slaW dev) (by rw [hA1.frame.br]; exact hr.init)
    hA1.oracles (congrArg View.ph hA1.view) hst1
  rw [addrOf_slaW, dirOf_slaW] at h2 hA2
  have hB := hA1.trans hA2
  have hv2 : t2.view = (s.view.started s.cfg).addressed s.cfg dev false := by
    rw [hA2.view, hA1.view, hA1.frame.cfg]
  obtain ⟨t3, h3⟩ := writeAll_refused (bytes := bytes) (r := r)
    (true && (!t1.cfg.monitored || answers t1.cfg dev))
    (by rw [hB.frame.br]; exact hr.init) hA2.oracles (congrArg View.ph hv2)
    ((congrArg View.stopping hv2).trans (View.settled_stopping s.cfg s.view))
    (by rw [hv2, hB.frame.cfg]; exact hv)
  refine ⟨t3, ?_⟩
  rw [bind_of_ok (show startChk true .start s = .ok true t1 from h1)]
  rw [bind_of_ok (show writeChk true (slaW dev) .mtSlaAck t1 =
    .ok (true && (!t1.cfg.monitored || answers t1.cfg dev)) t2 from h2)]
  exact bind_of_error h3

theorem writeTransaction_refused {s : State} {r : Refusal} (dev : DevAddr) (bytes : List Byte)
    (hr : BusReady s) (h : DefaultOracles s)
    (hv : ((s.view.started s.cfg).addressed s.cfg dev false).takeAll s.cfg bytes = .error r) :
    ∃ t, writeTransaction dev bytes s = .error (.refuse r) t := by
  obtain ⟨t, ht⟩ := select_refused dev bytes hr h hv (fun _ => busStop)
  refine ⟨t, ?_⟩
  unfold writeTransaction
  rw [bind_of_ok (requireIdle_spec hr.idle)]
  exact ht

/-- A read transaction whose device may not be asked for the byte is refused. -/
theorem readTransaction_refused {s : State} {v : View} {f : Memory → Memory} {r : Refusal}
    (dev : DevAddr) (select : List Byte) (hr : BusReady s) (h : DefaultOracles s)
    (hv : ((s.view.started s.cfg).addressed s.cfg dev false).takeAll s.cfg select = .ok (v, f))
    (hread : ∀ t : State, t.cfg = s.cfg → t.view = v.reselected s.cfg dev →
      ∃ u, deviceSends t.sel t = .error (.refuse r) u) :
    ∃ t, readTransaction dev select s = .error (.refuse r) t := by
  obtain ⟨t, ht, hA, hrt, hph, hst⟩ := select_spec dev select hr h hv
  obtain ⟨t1, h1, hA1, r1⟩ := startChk_spec (!s.cfg.monitored || answers s.cfg dev)
    (by rw [hA.frame.br]; exact hr.init) hA.oracles
  rw [hph] at h1
  have hst1 : t1.stopping = false :=
    (congrArg View.stopping hA1.view).trans (View.settled_stopping _ _)
  have hC := hA.trans hA1
  obtain ⟨t2, h2, hA2, r2⟩ := writeChk_address (!s.cfg.monitored || answers s.cfg dev) (slaR dev)
    (by rw [hC.frame.br]; exact hr.init) hA1.oracles (congrArg View.ph hA1.view) hst1
  rw [addrOf_slaR, dirOf_slaR] at h2 hA2
  have hD := hC.trans hA2
  have hv2 : t2.view = v.reselected s.cfg dev := by
    rw [hA2.view, hA1.view, hA.view, hC.frame.cfg, hA.frame.cfg]
    rfl
  obtain ⟨u, hu⟩ := busRead_refused (r := r) (s := t2) false (by rw [hD.frame.br]; exact hr.init) hA2.oracles
    (congrArg View.ph hv2) ((congrArg View.stopping hv2).trans (View.settled_stopping _ _))
    (fun w hc hw => hread w (hc.trans hD.frame.cfg) (hw.trans hv2))
  refine ⟨u, ?_⟩
  unfold readTransaction
  rw [bind_of_ok (requireIdle_spec hr.idle), ht]
  rw [bind_of_ok (show startChk (!s.cfg.monitored || answers s.cfg dev) .rstart t = _ from h1)]
  rw [bind_of_ok (show writeChk (!s.cfg.monitored || answers s.cfg dev) (slaR dev) .mrSlaAck t1 = _ from h2)]
  exact bind_of_error hu

end Sys2Proof.Machine
end

