-- ==== Sys2Proof/Laws/Devices.lean ====
section
/-! SUPPORT. The transactions with the two devices and with an address where no device is: what each
transfers, where the pointers stand after it, and what is on the wire. -/

namespace Sys2Proof.Machine

theorem BusFrame.outside {s t : State} (h : BusFrame s t) : OutsideBus s t where
  port := ⟨h.cfg, h.stream⟩
  br := h.br
  sequencer := ⟨h.cs, h.bc, h.bi, h.acc, h.cur⟩
  output := ⟨h.out, h.outTrace⟩
  timer := ⟨h.tie, h.tcfg⟩
  pend := h.pend
  lines := fun ha => ⟨(h.lines ha).1, (h.lines ha).2⟩

/-- A transaction that ended, in the terms of the claims. -/
theorem After.closed {s t : State} {v : View} {dev : DevAddr} {k : Bool} {events : List WireEvent}
    (h : After s t v.stopped) (hs : v.sel = if k then some dev else none)
    (hw : v.wire = wireSettled s ++ events) : Closed s t dev k events where
  outside := h.frame.outside
  hung := h.frame.hung
  ph := congrArg View.ph h.view
  done := h.done
  inflight := h.inflight
  stopping := congrArg View.stopping h.view
  sel := (congrArg View.sel h.view).trans hs
  wire := (congrArg View.wire h.view).trans hw

theorem configValid_devices {c : Config} (h : configValid c = true) : c.eeDev ≠ c.rtcDev := by
  simp only [configValid, Bool.and_eq_true, decide_eq_true_eq] at h
  exact h.2

theorem Ready.quiet {s : State} (h : Ready s) : Quiet s where
  sound := ⟨h.config, h.memory, h.engine.open_init, h.engine.stop_idle, h.engine.sel_open⟩
  flight := by
    by_contra e
    have := h.engine.flight_hung e
    rw [h.running] at this
    cases this

/-- A state from which composite operations run, from its parts. -/
theorem Ready.of_quiet {s : State} (h : Quiet s) (hh : s.hung = false) (hb : BusReady s)
    (ho : DefaultOracles s) : Ready s where
  running := hh
  config := h.sound.config
  bus := hb
  engine := ⟨h.sound.open_init, h.sound.stop_idle, h.sound.sel_open, fun e => absurd h.flight e⟩
  oracles := ho
  memory := h.sound.memory

/-- After a transaction another may follow. -/
theorem Ready.after {s t : State} {v : View} (h : Ready s) (k : After s t v.stopped) (q : Quiet t) :
    Ready t :=
  .of_quiet q (by rw [k.frame.hung]; exact h.running)
    ⟨congrArg View.ph k.view, by rw [k.frame.br]; exact h.bus.init⟩ k.oracles

theorem Ready.others {s : State} (h : Ready s) : Ready s.others :=
  .of_quiet h.quiet.others (by rw [State.others_hung]; exact h.running)
    ⟨by rw [State.others_ph]; exact h.bus.idle, by rw [State.others_br]; exact h.bus.init⟩
    (others_oracles h.oracles)

theorem settled_wire (s : State) : (s.view.settled s.cfg).wire = wireSettled s :=
  View.settled_wire s.cfg s.view

/-- The start of the first transaction (R125). -/
theorem Ready.started {s : State} (h : Ready s) : s.view.started s.cfg =
    { s.view.settled s.cfg with ph := .addrPending, wire := wireSettled s ++ [.s] } := by
  unfold View.started
  rw [settled_wire, show s.view.ph = .idle from h.bus.idle]
  rfl

/-- A repeated start (R125). -/
theorem View.started_again (c : Config) {v : View} (h : v.stopping = false) (hp : v.ph = .mt) :
    v.started c = { v with ph := .addrPending, wire := v.wire ++ [.sr] } := by
  unfold View.started
  rw [View.settled_of_not_stopping c h, hp]
  rfl

/-! ## Any device -/

/-- What the ready transactions leave: the state after may begin another. -/
structure Ran (s t : State) (v : View) : Prop where
  after : After s t v.stopped
  ready : Ready t

/-- A write transaction from a ready state (R94). -/
theorem Ready.write {s : State} {v : View} {f : Memory → Memory} (h : Ready s) (dev : DevAddr)
    (bytes : List Byte)
    (hv : ((s.view.started s.cfg).addressed s.cfg dev false).takeAll s.cfg bytes = .ok (v, f)) :
    ∃ t, writeTransaction dev bytes s = .ok () t ∧ Ran s t v ∧
      (s.agenda = [] → t.rtcreg = f s.rtcreg) := by
  obtain ⟨t, ht, hA, hr⟩ := writeTransaction_spec dev bytes h.bus h.oracles hv
  have hq := Quiet.closed.writeTransaction dev bytes s h.quiet
  rw [ht] at hq
  exact ⟨t, ht, ⟨hA, h.after hA hq⟩, hr⟩

/-- A read transaction from a ready state (R94). -/
theorem Ready.read {s : State} {v w : View} {f : Memory → Memory} {P : Memory → Byte → Prop} (h : Ready s)
    (dev : DevAddr) (select : List Byte)
    (hv : ((s.view.started s.cfg).addressed s.cfg dev false).takeAll s.cfg select = .ok (v, f))
    (hread : ∀ t : State, t.cfg = s.cfg → t.br = s.br → t.view = v.reselected s.cfg dev →
      DefaultOracles t → ∃ b u m, busRead false t = .ok b u ∧
        After t u { w with wire := w.wire ++ [WireEvent.dr b false] } ∧ u.st = .mrDataNack ∧ P m b ∧
        (t.agenda = [] → m = t.rtcreg ∧ u.rtcreg = t.rtcreg))
    (hw : w.ph ≠ .idle) :
    ∃ b t m, readTransaction dev select s =
        .ok (if s.cfg.monitored && !answers s.cfg dev then 0x00 else b) t ∧
      Ran s t { w with wire := w.wire ++ [WireEvent.dr b false] } ∧ P m b ∧
      (s.agenda = [] → m = f s.rtcreg ∧ t.rtcreg = f s.rtcreg) := by
  obtain ⟨b, t, m, ht, hA, hP, hr⟩ := readTransaction_spec dev select h.bus h.oracles hv hread hw
  have hq := Quiet.closed.readTransaction dev select s h.quiet
  rw [ht] at hq
  exact ⟨b, t, m, ht, ⟨hA, h.after hA hq⟩, hP, hr⟩

/-! ## An address where no device is -/

theorem View.takeAll_absent (c : Config) (bytes : List Byte) (v : View) (h : v.sel = none) :
    v.takeAll c bytes = .ok ({ v with wire := v.wire ++ bytes.map (fun b => WireEvent.dw b false) }, id) := by
  induction bytes generalizing v with
  | nil => simp [View.takeAll]
  | cons b rest ih => simp [View.takeAll, View.take, h, ih]; rfl

theorem not_answers {c : Config} {dev : DevAddr} (h : answers c dev = false) :
    dev ≠ c.eeDev ∧ dev ≠ c.rtcDev := by
  simpa [answers] using h

/-- The view after selecting an address where no device is. -/
theorem View.addressed_absent {c : Config} {dev : DevAddr} (h : answers c dev = false) (read : Bool)
    (v : View) : v.addressed c dev read =
      { v with ph := if read then .mr else .mt, sel := none, wire := v.wire ++ [.a dev read false] } := by
  obtain ⟨h1, h2⟩ := not_answers h
  simp [View.addressed, h1, h2]

/-- Every byte of a write transaction with no device goes out and is not acknowledged (R126, R154). -/
theorem write_absent {s : State} (h : Ready s) {dev : DevAddr} (hd : answers s.cfg dev = false)
    (bytes : List Byte) :
    ∃ t, writeTransaction dev bytes s = .ok () t ∧
      Ran s t { s.view.settled s.cfg with
        ph := .mt, sel := none, wire := wireSettled s ++ writeEvents dev false bytes } ∧
      (s.agenda = [] → t.rtcreg = s.rtcreg) := by
  have hv := View.takeAll_absent s.cfg bytes ((s.view.started s.cfg).addressed s.cfg dev false)
    (by rw [View.addressed_absent hd])
  obtain ⟨t, ht, hR, hr⟩ := h.write dev bytes hv
  refine ⟨t, ht, ?_, hr⟩
  rw [View.addressed_absent hd, h.started] at hR
  simpa [writeEvents] using hR

/-- A read transaction with no device receives a byte that nothing drives; monitored, the result is 0x00
(R153, R127). -/
theorem read_absent {s : State} (h : Ready s) {dev : DevAddr} (hd : answers s.cfg dev = false)
    (select : List Byte) :
    ∃ b t, readTransaction dev select s = .ok (if s.cfg.monitored then 0x00 else b) t ∧
      Ran s t { s.view.settled s.cfg with
        ph := .mr, sel := none, wire := wireSettled s ++ readEvents dev false select b } ∧
      (s.agenda = [] → t.rtcreg = s.rtcreg) := by
  have hv := View.takeAll_absent s.cfg select ((s.view.started s.cfg).addressed s.cfg dev false)
    (by rw [View.addressed_absent hd])
  obtain ⟨b, t, m, ht, hR, _, hr⟩ := h.read (P := fun _ _ => True) (w := View.reselected s.cfg dev _) dev select hv
    (fun t hc hb htv ho => by
      have hsel : t.sel = none := by
        have := congrArg View.sel htv
        rw [View.reselected, View.addressed_absent hd] at this
        exact this
      have hph : t.ph = .mr := by
        have := congrArg View.ph htv
        rw [View.reselected, View.addressed_absent hd] at this
        exact this
      have hst : t.stopping = false := by
        have := congrArg View.stopping htv
        rw [View.reselected, View.addressed_absent hd] at this
        exact this.trans (View.settled_stopping _ _)
      obtain ⟨b, u, hu, hA, hst', _, hr⟩ := busRead_undriven (s := t) false (by rw [hb]; exact h.bus.init) ho
        hph hst (by rw [hsel]; simp) (by rw [hsel]; simp)
      refine ⟨b, u, t.rtcreg, hu, ?_, hst', trivial, fun ha => ⟨rfl, hr ha⟩⟩
      rw [htv] at hA
      rw [show t.wire = _ from congrArg View.wire htv] at hA
      exact hA)
    (by rw [View.reselected, View.addressed_absent hd]; simp)
  refine ⟨b, t, ?_, ?_, fun ha => (hr ha).2⟩
  · rw [ht, hd]; simp
  · rw [View.reselected, View.addressed_absent hd, View.addressed_absent hd, h.started,
      View.started_again _ (by exact View.settled_stopping _ _) rfl] at hR
    simpa [writeEvents, readEvents] using hR

/-! ## The EEPROM -/

theorem View.addressed_eeW (c : Config) (v : View) : v.addressed c c.eeDev false =
    { v with ph := .mt, sel := some c.eeDev, wire := v.wire ++ [.a c.eeDev false true], eeph := .addrHi,
             eeSent := false } := by
  simp [View.addressed]

theorem View.addressed_eeR (c : Config) (v : View) : v.addressed c c.eeDev true =
    { v with ph := .mr, sel := some c.eeDev, wire := v.wire ++ [.a c.eeDev true true] } := by
  simp [View.addressed]

theorem answers_ee (c : Config) : answers c c.eeDev = true := by simp [answers]

/-- A byte written to the EEPROM (41_register_protocol.md R157, 10_state.md R51). -/
theorem eewr_ee {s : State} (h : Ready s) (addr : Half) (val : Byte) (hin : addr.toNat < s.cfg.eeSize) :
    ∃ t, eewr s.cfg.eeDev addr val s = .ok () t ∧
      Ran s t { s.view.settled s.cfg with
        ph := .mt, sel := some s.cfg.eeDev, ee := s.ee.write addr.toNat val, eeptr := addr, eeph := .done,
        eeSent := false,
        wire := wireSettled s ++
          writeEvents s.cfg.eeDev true [hiByte addr, loByte addr, val] } ∧
      (s.agenda = [] → t.rtcreg = s.rtcreg) := by
  refine h.write (f := id) s.cfg.eeDev [hiByte addr, loByte addr, val] ?_
  rw [h.started, View.addressed_eeW]
  simp [View.takeAll, View.take, hin, writeEvents]
  exact ⟨rfl, rfl⟩

/-- A byte read from the EEPROM (41_register_protocol.md R156, 10_state.md R51). -/
theorem eerd_ee {s : State} (h : Ready s) (addr : Half) (hin : addr.toNat < s.cfg.eeSize) :
    ∃ t, eerd s.cfg.eeDev addr s = .ok (s.ee.read addr.toNat) t ∧
      Ran s t { s.view.settled s.cfg with
        ph := .mr, sel := some s.cfg.eeDev, eeptr := addr, eeph := .data, eeSent := true,
        wire := wireSettled s ++
          readEvents s.cfg.eeDev true [hiByte addr, loByte addr] (s.ee.read addr.toNat) } ∧
      (s.agenda = [] → t.rtcreg = s.rtcreg) := by
  have hee : (s.view.settled s.cfg).ee = s.ee := View.settled_ee _ _
  let v : View := { s.view.settled s.cfg with
    ph := .mt, sel := some s.cfg.eeDev, eeptr := addr, eeph := .data, eeSent := false,
    wire := wireSettled s ++ writeEvents s.cfg.eeDev true [hiByte addr, loByte addr] }
  have hv : ((s.view.started s.cfg).addressed s.cfg s.cfg.eeDev false).takeAll s.cfg
      [hiByte addr, loByte addr] = .ok (v, id) := by
    rw [h.started, View.addressed_eeW]
    simp [View.takeAll, View.take, writeEvents, v]
    rfl
  have hvs : v.stopping = false := View.settled_stopping _ _
  have hre : v.reselected s.cfg s.cfg.eeDev = { v with
      ph := .mr, wire := v.wire ++ [.sr] ++ [.a s.cfg.eeDev true true] } := by
    rw [View.reselected, View.started_again (v := v) _ hvs rfl, View.addressed_eeR]
  obtain ⟨b, t, m, ht, hR, hP, hr⟩ := h.read (P := fun _ b => b = s.ee.read addr.toNat)
    (w := { v with ph := .mr, eeSent := true, wire := v.wire ++ [.sr] ++ [.a s.cfg.eeDev true true] })
    s.cfg.eeDev _ hv
    (fun t hc hb htv ho => by
      rw [hre] at htv
      have hptr : t.eeptr = addr := congrArg View.eeptr htv
      have hte : t.ee = s.ee := (congrArg View.ee htv).trans hee
      obtain ⟨u, hu, hA, hst', _, hr⟩ := busRead_ee (s := t) false (by rw [hb]; exact h.bus.init) ho
        (congrArg View.ph htv) ((congrArg View.stopping htv).trans (View.settled_stopping _ _))
        (by rw [hc]; exact congrArg View.sel htv) (congrArg View.eeSent htv)
        (by rw [hptr, hc]; exact hin)
      rw [hptr, hte] at hu hA
      rw [htv, show t.wire = _ from congrArg View.wire htv] at hA
      exact ⟨_, u, t.rtcreg, hu, hA, hst', rfl, fun ha => ⟨rfl, hr ha⟩⟩)
    (by simp)
  subst hP
  refine ⟨t, ?_, ?_, fun ha => (hr ha).2⟩
  · unfold eerd
    rw [ht, answers_ee]; simp
  · simpa [v, readEvents, writeEvents] using hR

/-! ## The RTC -/

theorem View.addressed_rtcW {c : Config} (hne : c.eeDev ≠ c.rtcDev) (v : View) :
    v.addressed c c.rtcDev false =
    { v with ph := .mt, sel := some c.rtcDev, wire := v.wire ++ [.a c.rtcDev false true], rtcph := .reg,
             rtcSent := false } := by
  simp [View.addressed, hne.symm]

theorem View.addressed_rtcR {c : Config} (v : View) : v.addressed c c.rtcDev true =
    { v with ph := .mr, sel := some c.rtcDev, wire := v.wire ++ [.a c.rtcDev true true] } := by
  simp [View.addressed]

theorem answers_rtc (c : Config) : answers c c.rtcDev = true := by simp [answers]

/-- A register written in the RTC (41_register_protocol.md R152, 10_state.md R53). -/
theorem wrreg_rtc {s : State} (h : Ready s) (reg val : Byte) :
    ∃ t, wrreg s.cfg.rtcDev reg val s = .ok () t ∧
      Ran s t { s.view.settled s.cfg with
        ph := .mt, sel := some s.cfg.rtcDev, rtcptr := reg, rtcph := .done, rtcSent := false,
        wire := wireSettled s ++ writeEvents s.cfg.rtcDev true [reg, val] } ∧
      (s.agenda = [] → t.rtcreg = s.rtcreg.write reg.toNat val) := by
  have hne := configValid_devices h.config
  refine h.write (f := fun m => m.write reg.toNat val) s.cfg.rtcDev [reg, val] ?_
  rw [h.started, View.addressed_rtcW hne]
  simp [View.takeAll, View.take, hne.symm, writeEvents]

/-- A register read from the RTC (41_register_protocol.md R153, 10_state.md R53). -/
theorem rdreg_rtc {s : State} (h : Ready s) (reg : Byte) :
    ∃ b t m, rdreg s.cfg.rtcDev reg s = .ok b t ∧
      Ran s t { s.view.settled s.cfg with
        ph := .mr, sel := some s.cfg.rtcDev, rtcptr := reg, rtcph := .data, rtcSent := true,
        wire := wireSettled s ++ readEvents s.cfg.rtcDev true [reg] b } ∧
      b = Memory.read m reg.toNat ∧ (s.agenda = [] → m = s.rtcreg ∧ t.rtcreg = s.rtcreg) := by
  have hne := configValid_devices h.config
  let v : View := { s.view.settled s.cfg with
    ph := .mt, sel := some s.cfg.rtcDev, rtcptr := reg, rtcph := .data, rtcSent := false,
    wire := wireSettled s ++ writeEvents s.cfg.rtcDev true [reg] }
  have hv : ((s.view.started s.cfg).addressed s.cfg s.cfg.rtcDev false).takeAll s.cfg [reg] =
      .ok (v, id) := by
    rw [h.started, View.addressed_rtcW hne]
    simp [View.takeAll, View.take, hne.symm, writeEvents, v]
    rfl
  have hvs : v.stopping = false := View.settled_stopping _ _
  have hre : v.reselected s.cfg s.cfg.rtcDev = { v with
      ph := .mr, wire := v.wire ++ [.sr] ++ [.a s.cfg.rtcDev true true] } := by
    rw [View.reselected, View.started_again (v := v) _ hvs rfl, View.addressed_rtcR]
  obtain ⟨b, t, m, ht, hR, hP, hr⟩ := h.read (P := fun m b => b = Memory.read m reg.toNat)
    (w := { v with ph := .mr, rtcSent := true, wire := v.wire ++ [.sr] ++ [.a s.cfg.rtcDev true true] })
    s.cfg.rtcDev _ hv
    (fun t hc hb htv ho => by
      rw [hre] at htv
      have hptr : t.rtcptr = reg := congrArg View.rtcptr htv
      obtain ⟨b, u, m, hu, hA, hst', _, hbm, hr⟩ := busRead_rtc (s := t) false
        (by rw [hb]; exact h.bus.init) ho
        (congrArg View.ph htv) ((congrArg View.stopping htv).trans (View.settled_stopping _ _))
        (by rw [hc]; exact hne.symm) (by rw [hc]; exact congrArg View.sel htv) (congrArg View.rtcSent htv)
      rw [hptr] at hbm
      rw [htv, show t.wire = _ from congrArg View.wire htv] at hA
      exact ⟨b, u, m, hu, hA, hst', hbm, hr⟩)
    (by simp)
  refine ⟨b, t, m, ?_, ?_, hP, hr⟩
  · unfold rdreg
    rw [ht, answers_rtc]; simp
  · simpa [v, readEvents, writeEvents] using hR

/-! ## Where a transaction asks a device for what its rules leave unspecified -/

/-- A store at an address the EEPROM does not have (20_memory.md R64, U10). -/
theorem eewr_range {s : State} (h : Ready s) (addr : Half) (val : Byte)
    (hout : s.cfg.eeSize ≤ addr.toNat) :
    ∃ t, eewr s.cfg.eeDev addr val s = .error (.refuse .eepromRange) t := by
  refine writeTransaction_refused s.cfg.eeDev _ h.bus h.oracles ?_
  rw [h.started, View.addressed_eeW]
  simp [View.takeAll, View.take, Nat.not_lt.mpr hout]

/-- A read at an address the EEPROM does not have (20_memory.md R64, U10). -/
theorem eerd_range {s : State} (h : Ready s) (addr : Half) (hout : s.cfg.eeSize ≤ addr.toNat) :
    ∃ t, eerd s.cfg.eeDev addr s = .error (.refuse .eepromRange) t := by
  let v : View := { s.view.settled s.cfg with
    ph := .mt, sel := some s.cfg.eeDev, eeptr := addr, eeph := .data, eeSent := false,
    wire := wireSettled s ++ writeEvents s.cfg.eeDev true [hiByte addr, loByte addr] }
  have hv : ((s.view.started s.cfg).addressed s.cfg s.cfg.eeDev false).takeAll s.cfg
      [hiByte addr, loByte addr] = .ok (v, id) := by
    rw [h.started, View.addressed_eeW]
    simp [View.takeAll, View.take, writeEvents, v]
    rfl
  have hvs : v.stopping = false := View.settled_stopping _ _
  refine readTransaction_refused s.cfg.eeDev _ h.bus h.oracles hv (fun t hc htv => ⟨t, ?_⟩)
  rw [View.reselected, View.started_again (v := v) _ hvs rfl, View.addressed_eeR] at htv
  have hsel : t.sel = some t.cfg.eeDev := by rw [hc]; exact congrArg View.sel htv
  have hptr : t.eeptr = addr := congrArg View.eeptr htv
  have hsent : t.eeSent = false := congrArg View.eeSent htv
  have hout' : ¬ t.eeptr.toNat < t.cfg.eeSize := by rw [hptr, hc]; exact Nat.not_lt.mpr hout
  rw [hsel]
  simp [deviceSends, eeSends, bind_apply, hsent, hout']

/-- A third byte in one write transaction with the RTC (10_state.md R53, U9). -/
theorem eewr_rtc {s : State} (h : Ready s) (addr : Half) (val : Byte) :
    ∃ t, eewr s.cfg.rtcDev addr val s = .error (.refuse .deviceUnspecified) t := by
  have hne := configValid_devices h.config
  refine writeTransaction_refused s.cfg.rtcDev _ h.bus h.oracles ?_
  rw [h.started, View.addressed_rtcW hne]
  simp [View.takeAll, View.take, hne.symm]

/-! ## The operations of one device on the other -/

/-- A register write to the EEPROM sets its pointer and stores nothing (10_state.md R51). -/
theorem wrreg_ee {s : State} (h : Ready s) (reg val : Byte) :
    ∃ t, wrreg s.cfg.eeDev reg val s = .ok () t ∧
      Ran s t { s.view.settled s.cfg with
        ph := .mt, sel := some s.cfg.eeDev, eeptr := joinBytes reg val, eeph := .data, eeSent := false,
        wire := wireSettled s ++ writeEvents s.cfg.eeDev true [reg, val] } ∧
      (s.agenda = [] → t.rtcreg = s.rtcreg) := by
  refine h.write (f := id) s.cfg.eeDev [reg, val] ?_
  rw [h.started, View.addressed_eeW]
  simp [View.takeAll, View.take, writeEvents]
  rfl

/-- A register read from the EEPROM gives one half of its pointer the register number and reads there
(10_state.md R51). -/
theorem rdreg_ee {s : State} (h : Ready s) (reg : Byte)
    (hin : (joinBytes reg (loByte s.eeptr)).toNat < s.cfg.eeSize) :
    ∃ t, rdreg s.cfg.eeDev reg s = .ok (s.ee.read (joinBytes reg (loByte s.eeptr)).toNat) t ∧
      Ran s t { s.view.settled s.cfg with
        ph := .mr, sel := some s.cfg.eeDev, eeptr := joinBytes reg (loByte s.eeptr), eeph := .addrLo,
        eeSent := true,
        wire := wireSettled s ++ readEvents s.cfg.eeDev true [reg]
          (s.ee.read (joinBytes reg (loByte s.eeptr)).toNat) } ∧
      (s.agenda = [] → t.rtcreg = s.rtcreg) := by
  have hee : (s.view.settled s.cfg).ee = s.ee := View.settled_ee _ _
  have hep : (s.view.settled s.cfg).eeptr = s.eeptr := by
    unfold View.settled; split <;> rfl
  let v : View := { s.view.settled s.cfg with
    ph := .mt, sel := some s.cfg.eeDev, eeptr := joinBytes reg (loByte s.eeptr), eeph := .addrLo,
    eeSent := false, wire := wireSettled s ++ writeEvents s.cfg.eeDev true [reg] }
  have hv : ((s.view.started s.cfg).addressed s.cfg s.cfg.eeDev false).takeAll s.cfg [reg] =
      .ok (v, id) := by
    rw [h.started, View.addressed_eeW]
    simp [View.takeAll, View.take, writeEvents, v, hep]
    rfl
  have hvs : v.stopping = false := View.settled_stopping _ _
  have hre : v.reselected s.cfg s.cfg.eeDev = { v with
      ph := .mr, wire := v.wire ++ [.sr] ++ [.a s.cfg.eeDev true true] } := by
    rw [View.reselected, View.started_again (v := v) _ hvs rfl, View.addressed_eeR]
  obtain ⟨b, t, m, ht, hR, hP, hr⟩ := h.read
    (P := fun _ b => b = s.ee.read (joinBytes reg (loByte s.eeptr)).toNat)
    (w := { v with ph := .mr, eeSent := true, wire := v.wire ++ [.sr] ++ [.a s.cfg.eeDev true true] })
    s.cfg.eeDev _ hv
    (fun t hc hb htv ho => by
      rw [hre] at htv
      have hptr : t.eeptr = joinBytes reg (loByte s.eeptr) := congrArg View.eeptr htv
      have hte : t.ee = s.ee := (congrArg View.ee htv).trans hee
      obtain ⟨u, hu, hA, hst', _, hr⟩ := busRead_ee (s := t) false (by rw [hb]; exact h.bus.init) ho
        (congrArg View.ph htv) ((congrArg View.stopping htv).trans (View.settled_stopping _ _))
        (by rw [hc]; exact congrArg View.sel htv) (congrArg View.eeSent htv)
        (by rw [hptr, hc]; exact hin)
      rw [hptr, hte] at hu hA
      rw [htv, show t.wire = _ from congrArg View.wire htv] at hA
      exact ⟨_, u, t.rtcreg, hu, hA, hst', rfl, fun ha => ⟨rfl, hr ha⟩⟩)
    (by simp)
  subst hP
  refine ⟨t, ?_, ?_, fun ha => (hr ha).2⟩
  · unfold rdreg
    rw [ht, answers_ee]; simp
  · simpa [v, readEvents, writeEvents] using hR

/-- An EEPROM read from the RTC writes the address's low byte to the register its high byte numbers, and
reads that register (10_state.md R53). -/
theorem eerd_rtc {s : State} (h : Ready s) (addr : Half) :
    ∃ b t m, eerd s.cfg.rtcDev addr s = .ok b t ∧
      Ran s t { s.view.settled s.cfg with
        ph := .mr, sel := some s.cfg.rtcDev, rtcptr := hiByte addr, rtcph := .done, rtcSent := true,
        wire := wireSettled s ++ readEvents s.cfg.rtcDev true [hiByte addr, loByte addr] b } ∧
      b = Memory.read m (hiByte addr).toNat ∧
      (s.agenda = [] → m = s.rtcreg.write (hiByte addr).toNat (loByte addr) ∧
        t.rtcreg = s.rtcreg.write (hiByte addr).toNat (loByte addr)) := by
  have hne := configValid_devices h.config
  let v : View := { s.view.settled s.cfg with
    ph := .mt, sel := some s.cfg.rtcDev, rtcptr := hiByte addr, rtcph := .done, rtcSent := false,
    wire := wireSettled s ++ writeEvents s.cfg.rtcDev true [hiByte addr, loByte addr] }
  have hv : ((s.view.started s.cfg).addressed s.cfg s.cfg.rtcDev false).takeAll s.cfg
      [hiByte addr, loByte addr] = .ok (v, fun m => m.write (hiByte addr).toNat (loByte addr)) := by
    rw [h.started, View.addressed_rtcW hne]
    simp [View.takeAll, View.take, hne.symm, writeEvents, v]
  have hvs : v.stopping = false := View.settled_stopping _ _
  have hre : v.reselected s.cfg s.cfg.rtcDev = { v with
      ph := .mr, wire := v.wire ++ [.sr] ++ [.a s.cfg.rtcDev true true] } := by
    rw [View.reselected, View.started_again (v := v) _ hvs rfl, View.addressed_rtcR]
  obtain ⟨b, t, m, ht, hR, hP, hr⟩ := h.read (P := fun m b => b = Memory.read m (hiByte addr).toNat)
    (w := { v with ph := .mr, rtcSent := true, wire := v.wire ++ [.sr] ++ [.a s.cfg.rtcDev true true] })
    s.cfg.rtcDev _ hv
    (fun t hc hb htv ho => by
      rw [hre] at htv
      have hptr : t.rtcptr = hiByte addr := congrArg View.rtcptr htv
      obtain ⟨b, u, m, hu, hA, hst', _, hbm, hr⟩ := busRead_rtc (s := t) false
        (by rw [hb]; exact h.bus.init) ho
        (congrArg View.ph htv) ((congrArg View.stopping htv).trans (View.settled_stopping _ _))
        (by rw [hc]; exact hne.symm) (by rw [hc]; exact congrArg View.sel htv) (congrArg View.rtcSent htv)
      rw [hptr] at hbm
      rw [htv, show t.wire = _ from congrArg View.wire htv] at hA
      exact ⟨b, u, m, hu, hA, hst', hbm, hr⟩)
    (by simp)
  refine ⟨b, t, m, ?_, ?_, hP, hr⟩
  · unfold eerd
    rw [ht, answers_rtc]; simp
  · simpa [v, readEvents, writeEvents] using hR

end Sys2Proof.Machine
end

