-- ==== Sys2Proof/Laws/Claims.lean ====
section
/-! SUPPORT. From what the pieces of an operation do to the terms the claims are stated in
(Sys2Proof/Safety.lean). -/

namespace Sys2Proof.Machine

/-! ## Frames do not speak of the results -/

theorem OutsideBus.resp {s t : State} (h : OutsideBus s t) (r : List Byte) :
    OutsideBus s { t with resp := r } where
  port := ⟨h.port.cfg, h.port.stream⟩
  br := h.br
  sequencer := ⟨h.sequencer.cs, h.sequencer.bc, h.sequencer.bi, h.sequencer.acc, h.sequencer.cur⟩
  output := ⟨h.output.out, h.output.outTrace⟩
  timer := ⟨h.timer.tie, h.timer.tcfg⟩
  pend := h.pend
  lines := fun ha => ⟨(h.lines ha).pend, (h.lines ha).inp⟩

theorem Completed.resp {s t : State} {events : List WireEvent} (h : Completed s t events)
    (r : List Byte) : Completed s { t with resp := r } events :=
  ⟨h.outside.resp r, h.hung, h.done, h.inflight, h.stopping, h.wire⟩

theorem Closed.resp {s t : State} {dev : DevAddr} {k : Bool} {events : List WireEvent}
    (h : Closed s t dev k events) (r : List Byte) : Closed s { t with resp := r } dev k events :=
  ⟨h.outside.resp r, h.hung, h.ph, h.done, h.inflight, h.stopping, h.sel, h.wire⟩

/-! ## The view -/

/-- A pending stop performed, seen in the view. -/
theorem settleStop_view {s : State} (h : BusLive s) :
    (settleStop s).view = s.view.settled s.cfg := by
  unfold settleStop
  cases hs : s.stopping with
  | false => simp [View.settled, State.view, hs]
  | true =>
    rw [spendBusStep_live h]
    simp [View.settled, State.view, hs, completeStop, deviceStop]

/-- A primitive that has completed, in the terms of the claims. -/
theorem After.completed {s t : State} {v : View} {events : List WireEvent} (h : After s t v)
    (hs : v.stopping = false) (hw : v.wire = wireSettled s ++ events) : Completed s t events where
  outside := h.frame.outside
  hung := h.frame.hung
  done := h.done
  inflight := h.inflight
  stopping := (congrArg View.stopping h.view).trans hs
  wire := (congrArg View.wire h.view).trans hw

/-- With no stop pending the wire is as it was. -/
theorem wireSettled_of_settled {s : State} (h : s.stopping = false) : wireSettled s = s.wire := by
  simp [wireSettled, h]

/-- With a transaction open no stop is pending. -/
theorem EngineRest.settled {s : State} (h : EngineRest s) (hp : s.ph ≠ .idle) : s.stopping = false := by
  cases hs : s.stopping with
  | false => rfl
  | true => exact absurd (h.stop_idle hs) hp

/-- A status is returned as its number (30_encoding.md R109). -/
theorem finish_status {m : Op Status} {s t : State} {st : Status} (h : m s = .ok st t) :
    finish (byteResult (Status.number <$> m)) s = .next { t with resp := t.resp ++ [st.number] } :=
  finish_byteResult (by rw [map_apply, h])

/-- A refused primitive is a refused operation. -/
theorem finish_status_refused {m : Op Status} {s : State} {r : Refusal}
    (h : ∃ t, m s = .error (.refuse r) t) :
    finish (byteResult (Status.number <$> m)) s = .refused r := by
  obtain ⟨t, ht⟩ := h
  exact finish_of_refuse (bind_of_error (by rw [map_apply, ht]))

end Sys2Proof.Machine
end

