-- ==== Sys2Proof/Laws/AnyDevice.lean ====
section
/-! SUPPORT. The one-byte operations of 41_register_protocol.md with whatever device, and what the next
operation finds. -/

namespace Sys2Proof.Machine

/-- A bus address is the EEPROM's, the RTC's, or one where no device answers (10_state.md R54). -/
theorem dev_cases (c : Config) (dev : DevAddr) :
    dev = c.eeDev ∨ dev = c.rtcDev ∨ answers c dev = false := by
  by_cases h1 : dev = c.eeDev
  · exact .inl h1
  · by_cases h2 : dev = c.rtcDev
    · exact .inr (.inl h2)
    · exact .inr (.inr (by simp [answers, h1, h2]))

theorem settled_ee (s : State) : (s.view.settled s.cfg).ee = s.ee := View.settled_ee _ _

theorem settled_eeptr (s : State) : (s.view.settled s.cfg).eeptr = s.eeptr := by
  unfold View.settled; split <;> rfl

theorem settled_rtcptr (s : State) : (s.view.settled s.cfg).rtcptr = s.rtcptr := by
  unfold View.settled; split <;> rfl

/-- The buffer starts behind the cursor header and ends inside the EEPROM (00_scope.md R10). -/
theorem configValid_buffer {c : Config} (h : configValid c = true) :
    0 < c.count ∧ 2 ≤ c.first.toNat ∧ c.first.toNat + c.count ≤ 0xFFFF ∧
      c.first.toNat + c.count ≤ c.eeSize := by
  simp only [configValid, bufferValid, Bool.and_eq_true, decide_eq_true_eq] at h
  omega

/-- The other agents may put a pending stop on the wire; nothing else there. -/
theorem wireSettled_others (s : State) : wireSettled s.others = wireSettled s := by
  have := congrArg View.wire (others_settled s)
  rwa [← State.others_cfg s, settled_wire, State.others_cfg, settled_wire] at this

/-- A transaction ends with its stop condition pending. -/
theorem wireSettled_ran {s t : State} {v : View} (h : Ran s t v) : wireSettled t = v.wire ++ [.p] := by
  have h1 : t.stopping = true := congrArg View.stopping h.after.view
  have h2 : t.wire = v.wire := congrArg View.wire h.after.view
  simp [wireSettled, h1, h2]

/-- WRREG, with any device. -/
theorem wrreg_any {s : State} (h : Ready s) (dev : DevAddr) (reg val : Byte) :
    ∃ t w, wrreg dev reg val s = .ok () t ∧ Ran s t w ∧
      w.wire = wireSettled s ++ writeEvents dev (answers s.cfg dev) [reg, val] ∧ w.ee = s.ee ∧
      (s.agenda = [] → t.rtcreg =
        if dev = s.cfg.rtcDev then s.rtcreg.write reg.toNat val else s.rtcreg) := by
  have hne := configValid_devices h.config
  rcases dev_cases s.cfg dev with rfl | rfl | hd
  · obtain ⟨t, ht, hR, hr⟩ := wrreg_ee h reg val
    exact ⟨t, _, ht, hR, by simp [answers], settled_ee s, fun ha => by rw [hr ha, if_neg hne]⟩
  · obtain ⟨t, ht, hR, hr⟩ := wrreg_rtc h reg val
    exact ⟨t, _, ht, hR, by simp [answers], settled_ee s, fun ha => by rw [hr ha, if_pos rfl]⟩
  · obtain ⟨t, ht, hR, hr⟩ := write_absent h hd [reg, val]
    exact ⟨t, _, ht, hR, by simp [hd], settled_ee s,
      fun ha => by rw [hr ha, if_neg (not_answers hd).2]⟩

/-- RDREG, with any device; the EEPROM must have the byte. -/
theorem rdreg_any {s : State} (h : Ready s) (dev : DevAddr) (reg : Byte)
    (hin : dev = s.cfg.eeDev → (joinBytes reg (loByte s.eeptr)).toNat < s.cfg.eeSize) :
    ∃ v t w, rdreg dev reg s =
        .ok (if s.cfg.monitored && !answers s.cfg dev then 0x00 else v) t ∧ Ran s t w ∧
      w.wire = wireSettled s ++ readEvents dev (answers s.cfg dev) [reg] v ∧ w.ee = s.ee ∧
      (s.agenda = [] → t.rtcreg = s.rtcreg ∧
        (dev = s.cfg.rtcDev → v = s.rtcreg.read reg.toNat)) := by
  have hne := configValid_devices h.config
  rcases dev_cases s.cfg dev with rfl | rfl | hd
  · obtain ⟨t, ht, hR, hr⟩ := rdreg_ee h reg (hin rfl)
    exact ⟨_, t, _, by simpa [answers] using ht, hR, by simp [answers], settled_ee s,
      fun ha => ⟨hr ha, fun e => absurd e hne⟩⟩
  · obtain ⟨b, t, m, ht, hR, hb, hr⟩ := rdreg_rtc h reg
    exact ⟨b, t, _, by simpa [answers] using ht, hR, by simp [answers], settled_ee s,
      fun ha => ⟨(hr ha).2, fun _ => by rw [hb, (hr ha).1]⟩⟩
  · obtain ⟨b, t, ht, hR, hr⟩ := read_absent h hd [reg]
    exact ⟨b, t, _, by unfold rdreg; simpa [hd] using ht, hR, by simp [hd], settled_ee s,
      fun ha => ⟨hr ha, fun e => absurd e (not_answers hd).2⟩⟩

/-- EERD, with any device; the EEPROM must have the byte. -/
theorem eerd_any {s : State} (h : Ready s) (dev : DevAddr) (addr : Half)
    (hin : dev = s.cfg.eeDev → addr.toNat < s.cfg.eeSize) :
    ∃ v t w, eerd dev addr s =
        .ok (if s.cfg.monitored && !answers s.cfg dev then 0x00 else v) t ∧ Ran s t w ∧
      w.wire = wireSettled s ++
        readEvents dev (answers s.cfg dev) [hiByte addr, loByte addr] v ∧ w.ee = s.ee ∧
      (dev = s.cfg.eeDev → v = s.ee.read addr.toNat) ∧
      (s.agenda = [] → dev ≠ s.cfg.rtcDev → t.rtcreg = s.rtcreg) ∧
      (s.agenda = [] → dev = s.cfg.rtcDev → v = loByte addr ∧
        t.rtcreg = s.rtcreg.write (hiByte addr).toNat (loByte addr)) := by
  have hne := configValid_devices h.config
  rcases dev_cases s.cfg dev with rfl | rfl | hd
  · obtain ⟨t, ht, hR, hr⟩ := eerd_ee h addr (hin rfl)
    exact ⟨_, t, _, by simpa [answers] using ht, hR, by simp [answers], settled_ee s, fun _ => rfl,
      fun ha _ => hr ha, fun _ e => absurd e hne⟩
  · obtain ⟨b, t, m, ht, hR, hb, hr⟩ := eerd_rtc h addr
    exact ⟨_, t, _, by simpa [answers] using ht, hR, by simp [answers], settled_ee s,
      fun e => absurd e hne.symm, fun _ e => absurd rfl e,
      fun ha _ => ⟨by rw [hb, (hr ha).1, Memory.read_write_same _ h.memory.2.2.1], (hr ha).2⟩⟩
  · obtain ⟨b, t, ht, hR, hr⟩ := read_absent h hd [hiByte addr, loByte addr]
    obtain ⟨n1, n2⟩ := not_answers hd
    exact ⟨b, t, _, by unfold eerd; simpa [hd] using ht, hR, by simp [hd], settled_ee s,
      fun e => absurd e n1, fun ha _ => hr ha, fun _ e => absurd e n2⟩

/-- EEWR, with any device but the RTC; the EEPROM must have the byte. -/
theorem eewr_any {s : State} (h : Ready s) (dev : DevAddr) (addr : Half) (val : Byte)
    (hn : dev ≠ s.cfg.rtcDev) (hin : dev = s.cfg.eeDev → addr.toNat < s.cfg.eeSize) :
    ∃ t w, eewr dev addr val s = .ok () t ∧ Ran s t w ∧
      w.wire = wireSettled s ++
        writeEvents dev (answers s.cfg dev) [hiByte addr, loByte addr, val] ∧
      w.ee = (if dev = s.cfg.eeDev then s.ee.write addr.toNat val else s.ee) ∧
      (s.agenda = [] → t.rtcreg = s.rtcreg) := by
  rcases dev_cases s.cfg dev with rfl | rfl | hd
  · obtain ⟨t, ht, hR, hr⟩ := eewr_ee h addr val (hin rfl)
    exact ⟨t, _, ht, hR, by simp [answers], by simp, hr⟩
  · exact absurd rfl hn
  · obtain ⟨t, ht, hR, hr⟩ := write_absent h hd [hiByte addr, loByte addr, val]
    exact ⟨t, _, ht, hR, by simp [hd], by rw [if_neg (not_answers hd).1]; exact settled_ee s, hr⟩

/-! ## One operation after another -/

/-- What the next operation of a composite finds, after `point`. -/
structure Next (s t : State) : Prop where
  ready : Ready t
  frame : BusFrame s t
  ee : t.ee = s.ee

theorem Next.refl {s : State} (h : Ready s) : Next s s := ⟨h, BusFrame.refl s, rfl⟩

/-- After a transaction that stores nothing in the EEPROM. -/
theorem Ran.next {s t u : State} {v : View} (k : Next s t) (h : Ran t u v) (he : v.ee = t.ee) :
    Next s u :=
  ⟨h.ready, k.frame.trans h.after.frame, (congrArg View.ee h.after.view).trans (he.trans k.ee)⟩

theorem Next.others {s t : State} (k : Next s t) : Next s t.others :=
  ⟨k.ready.others, k.frame.trans (BusFrame.others t), (State.others_ee t).trans k.ee⟩

end Sys2Proof.Machine
end

