-- ==== Sys2Proof/Laws/AnyAck.lean ====
section
/-! SUPPORT. What the frames and the transactions do whatever DevAck answers (10_state.md R54,
40_bus_primitives.md R126, 41_register_protocol.md R154), with a live bus and starts that succeed. -/

namespace Sys2Proof.Machine

/-! ## DevAck's answers -/

theorem devAck_apply (ideal : Bool) (s : State) :
    devAck ideal s = .ok (ackAt s 0 ideal) { s with ackScript := s.ackScript.tail } := by
  unfold devAck ackAt
  split <;> rename_i h
  · have e : ({ s with ackScript := s.ackScript.tail } : State) = s := by rw [h, List.tail_nil, ← h]
    rw [e, h]
    rfl
  · rw [h]
    rfl

/-- After `n` answers have been used up, the next ones are the later ones. -/
theorem ackAt_drop {s t : State} {n : Nat} (h : t.ackScript = s.ackScript.drop n) (i : Nat) (b : Bool) :
    ackAt t i b = ackAt s (n + i) b := by simp [ackAt, h, List.getElem?_drop]

theorem ackAt_same {s t : State} (h : t.ackScript = s.ackScript) (i : Nat) (b : Bool) :
    ackAt t i b = ackAt s i b := by simp [ackAt, h]

theorem ackAt_ideal {s : State} (h : IdealDevices s) (i : Nat) (b : Bool) : ackAt s i b = b := by
  simp [ackAt, show s.ackScript = [] from h]

/-! ## One primitive -/

/-- What a primitive leaves that waited for its completion and used up `n` of DevAck's answers: as `After`,
with DevAck free. -/
structure Went (s t : State) (v : View) (n : Nat) : Prop where
  frame : BusFrame s t
  live : BusLive t
  done : t.done = true
  inflight : t.inflight = .none
  view : t.view = v
  acks : t.ackScript = s.ackScript.drop n
  starts : t.startScript = s.startScript

theorem Went.trans {s t u : State} {v w : View} {m n : Nat} (h : Went s t v m) (k : Went t u w n) :
    Went s u w (m + n) :=
  ⟨h.frame.trans k.frame, k.live, k.done, k.inflight, k.view,
    by rw [k.acks, h.acks, List.drop_drop], k.starts.trans h.starts⟩

/-- The wait, where the primitive in flight completes. -/
theorem await_ends {s : State} {op : Inflight} (h : BusLive s) (hop : s.inflight = op) :
    ∃ t, Waited s t ∧ ∀ u, completion op t = .ok () u →
      awaitDone s = .ok () ({ u with inflight := .none, done := true } : State).others := by
  obtain ⟨t, ht, hrun⟩ := await_settles h
  refine ⟨t, ht, fun u hu => ?_⟩
  have hd : completeInflight t = .ok () { u with inflight := .none, done := true } := by
    unfold completeInflight
    rw [bind_of_ok (look_apply _ _), ht.inflight, hop, bind_of_ok hu]
    rfl
  rw [hrun, bind_of_ok hd]
  rfl

/-- What the wait leaves, once the completion is known. -/
theorem Waited.went {i t u : State} {op : Inflight} {v : View} {n : Nat} (ht : Waited i t)
    (hu : completion op t = .ok () u) (hs : u.stopping = false) (hv : u.view = v)
    (ha : u.ackScript = t.ackScript.drop n) (hss : u.startScript = t.startScript) :
    let w := ({ u with inflight := .none, done := true } : State).others
    Went i w v n ∧ w.st = u.st ∧ w.dr = u.dr ∧ (i.agenda = [] → w.rtcreg = u.rtcreg) := by
  intro w
  let d : State := { u with inflight := .none, done := true }
  have huf : BusFrame t u := by
    have := BusFrame.completion op t
    rwa [hu] at this
  have hdf : BusFrame u d := BusFrame.of_update rfl
  have hds : d.stopping = false := hs
  refine ⟨⟨((ht.frame.trans huf).trans hdf).trans (BusFrame.others d), ?_, ?_, ?_, ?_, ?_, ?_⟩, ?_, ?_, ?_⟩
  · exact (State.others_live (huf.live ht.live) : BusLive d.others)
  · simp [w]
  · simp [w]
  · show d.others.view = v
    rw [others_view hds]; exact hv
  · simp [w, ha, ht.ack]
  · simp [w, hss, ht.starts]
  · simp [w]
  · simp [w]
  · intro hg
    have : d.agenda = [] := hdf.agenda (huf.agenda (ht.frame.agenda hg))
    show d.others.rtcreg = _
    rw [State.others_scripted this]

/-- START that succeeds (R125). -/
theorem busStart_went {s : State} (hb : s.br.isSome) (h : BusLive s) (hs : StartsSucceed s) :
    ∃ t, busStart s = .ok (startStatus s.ph) t ∧ Went s t (s.view.started s.cfg) 0 ∧
      t.st = startStatus s.ph ∧ (s.agenda = [] → t.rtcreg = s.rtcreg) := by
  let i : State := { s with done := false, inflight := .start }
  have hif : BusFrame s i := BusFrame.of_update rfl
  obtain ⟨t, ht, hrun⟩ := await_ends (s := i) h rfl
  have hp : t.ph = s.ph := by
    have := congrArg View.ph ht.view
    rwa [View.settled_ph] at this
  have hc : completion .start t = .ok ()
      { t with drawn := t.drawn + 1, dr := Config.freeByte t.drawn,
               wire := t.wire ++ [startEvent t.ph], st := startStatus t.ph, ph := .addrPending } := by
    have hbo : busOutcome t = .ok none t := by
      simp [busOutcome, show t.startScript = [] from ht.starts.trans hs]
    show completeStart t = _
    unfold completeStart
    rw [bind_of_ok hbo, bind_of_ok (draw_apply t)]
    rfl
  obtain ⟨hW, h1, _, h3⟩ := ht.went (v := s.view.started s.cfg) (n := 0) hc ht.settled
    (by
      have hv : t.view = s.view.settled s.cfg := ht.view
      unfold View.started
      rw [← hv]
      simp only [State.view, hp]) rfl rfl
  refine ⟨_, ?_, ⟨hif.trans hW.frame, hW.live, hW.done, hW.inflight, hW.view, hW.acks, hW.starts⟩,
    by rw [h1, hp], fun ha => (h3 ha).trans (ht.rtc ha)⟩
  unfold busStart
  have hq : requireBus s = .ok () s := by
    unfold requireBus
    rw [bind_of_ok (look_apply _ _), require_apply, hb]; rfl
  have hi' : issue .start s = .ok ⟨⟩ i := rfl
  rw [bind_of_ok hq, bind_of_ok hi', bind_of_ok (hrun _ hc), look_apply, h1, hp]

/-- The general shape of WRITE: what the completion does to a state decides what WRITE does. -/
theorem busWrite_went {s : State} {v : View} {st : Status} {f : Memory → Memory} {n : Nat} (b : Byte)
    (hb : s.br.isSome) (h : BusLive s) (hph : s.ph.canWrite = true) (hst : s.stopping = false)
    (hc : ∀ t : State, t.cfg = s.cfg → t.view = s.view → t.ackScript = s.ackScript →
      ∃ u, completeWrite b t = .ok () u ∧ u.stopping = false ∧ u.view = v ∧
        u.ackScript = t.ackScript.drop n ∧ u.startScript = t.startScript ∧ u.st = st ∧ u.dr = t.dr ∧
        u.rtcreg = f t.rtcreg) :
    ∃ t, busWrite b s = .ok st t ∧ Went s t v n ∧ t.st = st ∧ t.dr = b ∧
      (s.agenda = [] → t.rtcreg = f s.rtcreg) := by
  let i : State := { s with dr := b, done := false, inflight := .write b }
  have hif : BusFrame s i := BusFrame.of_update rfl
  obtain ⟨t, ht, hrun⟩ := await_ends (s := i) h rfl
  have htv : t.view = s.view := by
    have := ht.view
    rwa [View.settled_of_not_stopping _ (show i.view.stopping = false from hst)] at this
  obtain ⟨u, hu, hus, huv, hua, huss, hust, hudr, hur⟩ := hc t ht.frame.cfg htv ht.ack
  obtain ⟨hW, h1, h2, h3⟩ := ht.went (op := .write b) hu hus huv hua huss
  refine ⟨_, ?_, ⟨hif.trans hW.frame, hW.live, hW.done, hW.inflight, hW.view, hW.acks, hW.starts⟩,
    h1.trans hust, ?_, fun ha => ?_⟩
  · rw [busWrite_waits hb hph (hrun u hu), h1, hust]
  · rw [h2, hudr, ht.dr]
  · rw [h3 ha, hur, ht.rtc ha]

/-- The view after an address frame that is acknowledged or not (R126). -/
def View.answered (c : Config) (a : DevAddr) (read k : Bool) (v : View) : View :=
  { v with
    ph := if read then .mr else .mt
    sel := if k then some a else none
    wire := v.wire ++ [.a a read k]
    eeph := if k ∧ read = false ∧ a = c.eeDev then .addrHi else v.eeph
    eeSent := if k ∧ read = false ∧ a = c.eeDev then false else v.eeSent
    rtcph := if k ∧ read = false ∧ a = c.rtcDev ∧ a ≠ c.eeDev then .reg else v.rtcph
    rtcSent := if k ∧ read = false ∧ a = c.rtcDev ∧ a ≠ c.eeDev then false else v.rtcSent }

/-- WRITE of an address byte (R126, case AddrPending). -/
theorem busWrite_answered {s : State} (b : Byte) (hb : s.br.isSome) (h : BusLive s)
    (hph : s.ph = .addrPending) (hst : s.stopping = false) :
    let k := ackAt s 0 (answers s.cfg (addrOf b))
    ∃ t, busWrite b s = .ok (slaStatus (dirOf b) k) t ∧
      Went s t (s.view.answered s.cfg (addrOf b) (dirOf b) k) 1 ∧
      t.st = slaStatus (dirOf b) k ∧ t.dr = b ∧ (s.agenda = [] → t.rtcreg = s.rtcreg) := by
  intro k
  refine busWrite_went (f := id) b hb h (by rw [hph]; rfl) hst (fun t hc hv ha => ?_)
  have hp : t.ph = .addrPending := (congrArg View.ph hv).trans hph
  have hk : ackAt t 0 (answers t.cfg (addrOf b)) = k := by rw [ackAt_same ha, hc]
  have e1 : completeWrite b t = completeAddress b t := by
    unfold completeWrite
    rw [bind_of_ok (look_apply _ _), hp]
  have hts : t.stopping = false := (congrArg View.stopping hv).trans hst
  rw [e1, ← hv, ← hc]
  unfold completeAddress
  rw [bind_of_ok (look_apply _ _)]
  have hd : devAck (decide (addrOf b = t.cfg.eeDev) || decide (addrOf b = t.cfg.rtcDev)) t =
      .ok k { t with ackScript := t.ackScript.tail } := by
    rw [devAck_apply]
    exact congrArg (fun k => EStateM.Result.ok k { t with ackScript := t.ackScript.tail }) hk
  rw [bind_of_ok hd, modify_apply]
  refine ⟨_, rfl, ?_⟩
  clear hk hd
  cases k
  · simp [View.answered, State.view, hts, List.drop_one]
  · cases dirOf b
    · by_cases he : addrOf b = t.cfg.eeDev
      · simp [View.answered, State.view, deviceAddressed, hts, he, List.drop_one]
      · by_cases hr : addrOf b = t.cfg.rtcDev
        · have hne : ¬ t.cfg.rtcDev = t.cfg.eeDev := hr ▸ he
          simp [View.answered, State.view, deviceAddressed, hts, hne, hr, List.drop_one]
        · simp [View.answered, State.view, deviceAddressed, hts, he, hr, List.drop_one]
    · simp [View.answered, State.view, deviceAddressed, hts, List.drop_one]

/-- What a data byte does to the view where its frame is acknowledged or not: it is taken, or it is on the
wire and nothing else (R126, case MT). -/
def View.offer (c : Config) (b : Byte) (k : Bool) (v : View) : Except Refusal (View × (Memory → Memory)) :=
  if v.sel.isSome && k then v.take c b else .ok ({ v with wire := v.wire ++ [.dw b false] }, id)

theorem View.offer_same {c : Config} {b : Byte} {k : Bool} {v w : View} {f : Memory → Memory}
    (h : v.offer c b k = .ok (w, f)) : w.ph = v.ph ∧ w.sel = v.sel ∧ w.stopping = v.stopping := by
  unfold View.offer at h
  split at h
  · exact View.take_same h
  · cases h; exact ⟨rfl, rfl, rfl⟩

/-- WRITE of a data byte (R126, case MT). -/
theorem busWrite_offer {s : State} {b : Byte} {v : View} {f : Memory → Memory} (hb : s.br.isSome)
    (h : BusLive s) (hph : s.ph = .mt) (hst : s.stopping = false)
    (hv : s.view.offer s.cfg b (ackAt s 0 true) = .ok (v, f)) :
    ∃ t, busWrite b s = .ok (dataOutStatus (s.sel.isSome && ackAt s 0 true)) t ∧
      Went s t v (if s.sel.isSome then 1 else 0) ∧
      t.st = dataOutStatus (s.sel.isSome && ackAt s 0 true) ∧ t.dr = b ∧
      (s.agenda = [] → t.rtcreg = f s.rtcreg) := by
  refine busWrite_went b hb h (by rw [hph]; rfl) hst (fun t hc htv ha => ?_)
  have hp : t.ph = .mt := (congrArg View.ph htv).trans hph
  have hts : t.stopping = false := (congrArg View.stopping htv).trans hst
  have hsel : t.sel = s.sel := congrArg View.sel htv
  have e1 : completeWrite b t = completeDataOut b t := by
    unfold completeWrite
    rw [bind_of_ok (look_apply _ _), hp]
  rw [← htv, ← hc, ← ackAt_same ha] at hv
  rw [e1, ← hsel, ← ackAt_same ha]
  cases hs : t.sel with
  | none =>
    simp only [View.offer, show t.view.sel = none from hs, Option.isSome_none, Bool.false_and] at hv
    cases hv
    exact ⟨_, completeDataOut_unanswered hs, hts, by simp [State.view, hs], by simp, rfl, rfl, rfl, rfl⟩
  | some a =>
    have hl : look State.sel t = .ok (some a) t := by rw [look_apply, hs]
    cases hk : ackAt t 0 true with
    | false =>
      simp only [View.offer, hk, Bool.and_false] at hv
      cases hv
      have hda : answerData b (some a) t = .ok false { t with ackScript := t.ackScript.tail } := by
        show (devAck true >>= fun k => takeIfAcked a b k >>= fun _ => Pure.pure k) t = _
        rw [bind_of_ok (devAck_apply true t), hk]
        rfl
      unfold completeDataOut
      rw [bind_of_ok hl, bind_of_ok hda]
      exact ⟨_, rfl, hts, by simp [State.view, hs], by simp [List.drop_one], rfl, rfl, rfl, rfl⟩
    | true =>
      simp only [View.offer, hk, show t.view.sel = some a from hs, Option.isSome_some, Bool.and_self,
        if_true] at hv
      obtain ⟨u, hu, _, hua, huss, hus, huv, hud, hur⟩ :=
        deviceTakes_take (t := { t with ackScript := t.ackScript.tail }) (a := a) hs hv
      have hda : answerData b (some a) t = .ok true u := by
        show (devAck true >>= fun k => takeIfAcked a b k >>= fun _ => Pure.pure k) t = _
        rw [bind_of_ok (devAck_apply true t), hk]
        exact bind_of_ok hu
      unfold completeDataOut
      rw [bind_of_ok hl, bind_of_ok hda]
      exact ⟨_, rfl, hus.trans hts, huv, by simp [hua, List.drop_one], huss, rfl, hud, hur⟩

/-- WRITE of a data byte that the selected device acknowledges and that the rules give no meaning. -/
theorem busWrite_acked_refused {s : State} {b : Byte} {r : Refusal} (hb : s.br.isSome) (h : BusLive s)
    (hph : s.ph = .mt) (hst : s.stopping = false) (hk : ackAt s 0 true = true)
    (hv : s.view.take s.cfg b = .error r) : ∃ t, busWrite b s = .error (.refuse r) t := by
  refine busWrite_data_refused hb h hph hst (fun t ht htv => ?_)
  rw [← htv, ← show t.cfg = s.cfg from ht.frame.cfg] at hv
  cases hs : t.sel with
  | none =>
    unfold View.take at hv
    rw [show t.view.sel = none from hs] at hv
    cases hv
  | some a =>
    obtain ⟨u, hu⟩ := deviceTakes_refused (t := { t with ackScript := t.ackScript.tail }) hs hv
    refine ⟨u, ?_⟩
    have hl : look State.sel t = .ok (some a) t := by rw [look_apply, hs]
    have ha : answerData b (some a) t = .error (.refuse r) u := by
      show (devAck true >>= fun k => takeIfAcked a b k >>= fun _ => Pure.pure k) t = _
      rw [bind_of_ok (devAck_apply true t), show ackAt t 0 true = true from (ackAt_same ht.ack 0 true).trans hk]
      exact bind_of_error hu
    unfold completeDataOut
    rw [bind_of_ok hl]
    exact bind_of_error ha

/-- What the selected device sends, where its rules let it: its own byte, or a draw where no device that the
spec describes is selected (R127, U5, U9). -/
theorem deviceSends_went {t : State} (sel : Option DevAddr) (hne : t.cfg.eeDev ≠ t.cfg.rtcDev)
    (hee : sel = some t.cfg.eeDev → t.eeSent = false ∧ t.eeptr.toNat < t.cfg.eeSize)
    (hrtc : sel = some t.cfg.rtcDev → t.rtcSent = false) :
    ∃ b u, deviceSends sel t = .ok b u ∧
      u = { t with eeSent := u.eeSent, rtcSent := u.rtcSent, drawn := u.drawn } ∧
      (sel = some t.cfg.eeDev → b = t.ee.read t.eeptr.toNat) ∧
      (sel = some t.cfg.rtcDev → b = t.rtcreg.read t.rtcptr.toNat) := by
  unfold deviceSends
  rw [bind_of_ok (look_apply _ _)]
  cases sel with
  | none => exact ⟨_, _, draw_apply t, rfl, nofun, nofun⟩
  | some a =>
    by_cases he : a = t.cfg.eeDev
    · obtain ⟨h1, h2⟩ := hee (by rw [he])
      refine ⟨t.ee.read t.eeptr.toNat, { t with eeSent := true }, ?_, rfl, fun _ => rfl, fun e => ?_⟩
      · simp [he, eeSends, bind_apply, h1, h2]
      · rw [he] at e
        exact absurd (Option.some.inj e) hne
    · by_cases hr : a = t.cfg.rtcDev
      · have h1 := hrtc (by rw [hr])
        refine ⟨t.rtcreg.read t.rtcptr.toNat, { t with rtcSent := true }, ?_, rfl, fun e => ?_, fun _ => rfl⟩
        · simp [hr, hne.symm, rtcSends, bind_apply, h1]
        · exact absurd (Option.some.inj e) he
      · refine ⟨Config.freeByte t.drawn, { t with drawn := t.drawn + 1 }, ?_, rfl, fun e => ?_, fun e => ?_⟩
        · simp [he, hr]
        · exact absurd (Option.some.inj e) he
        · exact absurd (Option.some.inj e) hr

/-- READ, where the selected device may be asked for its byte (R127). -/
theorem busRead_went {s : State} (k : Bool) (hb : s.br.isSome) (h : BusLive s) (hph : s.ph = .mr)
    (hst : s.stopping = false) (hne : s.cfg.eeDev ≠ s.cfg.rtcDev)
    (hee : s.sel = some s.cfg.eeDev → s.eeSent = false ∧ s.eeptr.toNat < s.cfg.eeSize)
    (hrtc : s.sel = some s.cfg.rtcDev → s.rtcSent = false) :
    ∃ b t x y, busRead k s = .ok b t ∧
      Went s t { s.view with eeSent := x, rtcSent := y, wire := s.wire ++ [.dr b k] } 0 ∧
      t.st = dataInStatus k ∧ t.dr = b ∧ (s.sel = some s.cfg.eeDev → b = s.ee.read s.eeptr.toNat) ∧
      (s.agenda = [] → t.rtcreg = s.rtcreg ∧
        (s.sel = some s.cfg.rtcDev → b = s.rtcreg.read s.rtcptr.toNat)) := by
  let i : State := { s with done := false, inflight := .read k }
  have hif : BusFrame s i := BusFrame.of_update rfl
  obtain ⟨t, ht, hrun⟩ := await_ends (s := i) h rfl
  have hc : t.cfg = s.cfg := ht.frame.cfg
  have htv : t.view = s.view := by
    have := ht.view
    rwa [View.settled_of_not_stopping _ (show i.view.stopping = false from hst)] at this
  have hsel : t.sel = s.sel := congrArg View.sel htv
  obtain ⟨b, u, hu, hue, h1, h2⟩ := deviceSends_went (t := t) t.sel (by rw [hc]; exact hne)
    (fun e => by
      rw [hc, show t.eeSent = s.eeSent from congrArg View.eeSent htv,
        show t.eeptr = s.eeptr from congrArg View.eeptr htv]
      exact hee (by rw [← hsel, ← hc]; exact e))
    (fun e => by
      rw [show t.rtcSent = s.rtcSent from congrArg View.rtcSent htv]
      exact hrtc (by rw [← hsel, ← hc]; exact e))
  have hcr : completion (.read k) t = .ok ()
      { u with wire := u.wire ++ [.dr b k], dr := b, st := dataInStatus k } := by
    show completeRead k t = _
    unfold completeRead
    rw [bind_of_ok (look_apply _ _), bind_of_ok hu]
    rfl
  obtain ⟨hW, h3, h4, h5⟩ := ht.went
    (v := { s.view with eeSent := u.eeSent, rtcSent := u.rtcSent, wire := s.wire ++ [.dr b k] }) (n := 0)
    hcr
    (by rw [hue]; exact (congrArg View.stopping htv).trans hst)
    (by
      rw [← htv, show s.wire = t.wire from (congrArg View.wire htv).symm, hue]
      rfl)
    (by rw [hue]; rfl) (by rw [hue])
  refine ⟨b, _, u.eeSent, u.rtcSent, ?_,
    ⟨hif.trans hW.frame, hW.live, hW.done, hW.inflight, hW.view, hW.acks, hW.starts⟩, h3, h4, fun e => ?_,
    fun ha => ?_⟩
  · unfold busRead
    have hq : requireBus s = .ok () s := by
      unfold requireBus
      rw [bind_of_ok (look_apply _ _), require_apply, hb]; rfl
    have hrq : require (decide (s.ph = .mr)) Refusal.readOutOfPhase s = .ok () s := by rw [hph]; rfl
    have hi' : issue (.read k) s = .ok ⟨⟩ i := rfl
    rw [bind_of_ok hq, bind_of_ok (look_apply _ _), bind_of_ok hrq, bind_of_ok hi', bind_of_ok (hrun _ hcr),
      look_apply, h4]
  · rw [h1 (by rw [hsel, hc]; exact e), show t.ee = s.ee from congrArg View.ee htv,
      show t.eeptr = s.eeptr from congrArg View.eeptr htv]
  · have hur : u.rtcreg = t.rtcreg := by rw [hue]
    have htr : t.rtcreg = s.rtcreg := ht.rtc ha
    exact ⟨(h5 ha).trans (hur.trans htr), fun e => by
      rw [h2 (by rw [hsel, hc]; exact e), htr, show t.rtcptr = s.rtcptr from congrArg View.rtcptr htv]⟩

/-! ## The data bytes of a transaction -/

/-- Data bytes offered one after the other, the `i`-th frame answered by `k i`. -/
def View.offerAll (c : Config) :
    List Byte → (Nat → Bool) → View → Except Refusal (View × (Memory → Memory))
  | [], _, v => .ok (v, id)
  | b :: rest, k, v =>
    match v.offer c b (k 0) with
    | .ok (w, f) =>
      match View.offerAll c rest (fun i => k (i + 1)) w with
      | .ok (x, g) => .ok (x, fun m => g (f m))
      | .error r => .error r
    | .error r => .error r

/-- The offer of a first byte that goes through. -/
theorem View.offerAll_cons {c : Config} {b : Byte} {rest : List Byte} {k : Nat → Bool} {v x : View}
    {f : Memory → Memory} (h : v.offerAll c (b :: rest) k = .ok (x, f)) :
    ∃ w g g', v.offer c b (k 0) = .ok (w, g) ∧
      w.offerAll c rest (fun i => k (i + 1)) = .ok (x, g') ∧ f = fun m => g' (g m) := by
  unfold View.offerAll at h
  cases hv : v.offer c b (k 0) with
  | error r => rw [hv] at h; cases h
  | ok p =>
    obtain ⟨w, g⟩ := p
    rw [hv] at h
    simp only at h
    cases hx : View.offerAll c rest (fun i => k (i + 1)) w with
    | error r => rw [hx] at h; cases h
    | ok q =>
      obtain ⟨y, g'⟩ := q
      rw [hx] at h
      cases h
      exact ⟨w, g, g', rfl, hx, rfl⟩

/-- With no device selected nobody answers. -/
theorem View.offerAll_absent (c : Config) (bytes : List Byte) (k : Nat → Bool) (v : View)
    (h : v.sel = none) : v.offerAll c bytes k =
      .ok ({ v with wire := v.wire ++ bytes.map (fun b => WireEvent.dw b false) }, id) := by
  induction bytes generalizing v k with
  | nil => simp [View.offerAll]
  | cons b rest ih => simp [View.offerAll, View.offer, h, ih]; rfl

/-- The data bytes of a transaction (R151, R154): every byte is issued; the check fails at the first frame
that is not acknowledged. -/
theorem writeAll_offer {bytes : List Byte} {s : State} {v : View} {f : Memory → Memory} (ok : Bool)
    (hb : s.br.isSome) (h : BusLive s) (hph : s.ph = .mt) (hst : s.stopping = false)
    (hd : s.done = true) (hin : s.inflight = .none)
    (hv : s.view.offerAll s.cfg bytes (fun i => ackAt s i true) = .ok (v, f)) :
    ∃ t, writeAll ok bytes s = .ok (ok && (!s.cfg.monitored ||
          (List.range bytes.length).all (fun i => s.sel.isSome && ackAt s i true))) t ∧
      Went s t v (if s.sel.isSome then bytes.length else 0) ∧ (s.agenda = [] → t.rtcreg = f s.rtcreg) := by
  induction bytes generalizing s v f ok with
  | nil =>
    cases hv
    exact ⟨s, by simp [writeAll], ⟨BusFrame.refl s, h, hd, hin, rfl, by simp, rfl⟩, fun _ => rfl⟩
  | cons b rest ih =>
    obtain ⟨w, g, g', hw, hx, rfl⟩ := View.offerAll_cons hv
    obtain ⟨t, ht, hA, hst', _, hr⟩ := busWrite_offer hb h hph hst hw
    obtain ⟨k1, k2, k3⟩ := View.offer_same hw
    have htsel : t.sel = s.sel := (congrArg View.sel hA.view).trans k2
    have hx' : t.view.offerAll t.cfg rest (fun i => ackAt t i true) = .ok (v, g') := by
      rw [hA.view, hA.frame.cfg]
      cases hs : s.sel with
      | none =>
        rw [View.offerAll_absent _ _ _ _ (k2.trans hs)] at hx ⊢
        exact hx
      | some a =>
        rw [← hx]
        congr 1
        funext i
        rw [ackAt_drop hA.acks, hs]
        simp [Nat.add_comm]
    obtain ⟨u, hu, hB, hr'⟩ := ih (ok && (!s.cfg.monitored || (s.sel.isSome && ackAt s 0 true)))
      (by rw [hA.frame.br]; exact hb) hA.live (((congrArg View.ph hA.view).trans k1).trans hph)
      (((congrArg View.stopping hA.view).trans k3).trans hst) hA.done hA.inflight hx'
    have hw' : writeChk ok b .mtDataAck s =
        .ok (ok && (!s.cfg.monitored || (s.sel.isSome && ackAt s 0 true))) t := by
      unfold writeChk
      rw [bind_of_ok ht, chk_spec, hst', hA.frame.cfg]
      cases s.cfg.monitored <;> cases s.sel.isSome <;> cases ackAt s 0 true <;> simp [dataOutStatus]
    refine ⟨u, ?_, ?_, fun ha => by rw [hr' (hA.frame.agenda ha), hr ha]⟩
    · unfold writeAll
      rw [bind_of_ok hw', hu, htsel, hA.frame.cfg, List.length_cons, List.range_succ_eq_map, List.all_cons,
        List.all_map]
      congr 1
      cases hs : s.sel with
      | none => cases ok <;> cases s.cfg.monitored <;> simp
      | some a =>
        have e : ∀ i, ackAt t i true = ackAt s (i + 1) true := fun i => by
          rw [ackAt_drop hA.acks, hs]
          simp [Nat.add_comm]
        simp only [Option.isSome_some, Bool.true_and, e]
        cases ok <;> cases s.cfg.monitored <;> cases ackAt s 0 true <;> simp [Function.comp_def]
    · have := hA.trans hB
      rw [htsel] at this
      cases hs : s.sel <;> simp only [hs, Option.isSome] at this ⊢
      · exact this
      · rw [List.length_cons, Nat.add_comm]
        exact this

/-! ## What the device takes -/

/-- The acknowledged bytes, one after the other. -/
def takenOf : List Byte → (Nat → Bool) → List Byte
  | [], _ => []
  | b :: rest, k => (if k 0 then [b] else []) ++ takenOf rest (fun i => k (i + 1))

/-- The data frames, one after the other. -/
def framesOf : List Byte → (Nat → Bool) → List WireEvent
  | [], _ => []
  | b :: rest, k => .dw b (k 0) :: framesOf rest (fun i => k (i + 1))

theorem takenOf_eq (bytes : List Byte) (k : Nat → Bool) :
    ((bytes.zip ((List.range bytes.length).map k)).filter (fun p => p.2)).map (fun p => p.1) =
      takenOf bytes k := by
  induction bytes generalizing k with
  | nil => rfl
  | cons b rest ih =>
    rw [List.length_cons, List.range_succ_eq_map, List.map_cons, List.map_map, List.zip_cons_cons, takenOf,
      ← ih]
    cases k 0 <;> simp [Function.comp_def]

theorem framesOf_eq (bytes : List Byte) (k : Nat → Bool) :
    (bytes.zip ((List.range bytes.length).map k)).map (fun p => WireEvent.dw p.1 p.2) = framesOf bytes k := by
  induction bytes generalizing k with
  | nil => rfl
  | cons b rest ih =>
    rw [List.length_cons, List.range_succ_eq_map, List.map_cons, List.map_map, List.zip_cons_cons, framesOf,
      ← ih]
    simp [Function.comp_def]

theorem takenOf_length (bytes : List Byte) (k : Nat → Bool) : (takenOf bytes k).length ≤ bytes.length := by
  induction bytes generalizing k with
  | nil => simp [takenOf]
  | cons b rest ih =>
    have := ih (fun i => k (i + 1))
    unfold takenOf
    cases k 0 <;> simp <;> omega

theorem takenOf_none (bytes : List Byte) : takenOf bytes (fun _ => false) = [] := by
  induction bytes with
  | nil => rfl
  | cons b rest ih => simpa [takenOf] using ih

theorem framesOf_none (bytes : List Byte) :
    framesOf bytes (fun _ => false) = bytes.map (fun b => WireEvent.dw b false) := by
  induction bytes with
  | nil => rfl
  | cons b rest ih => simpa [framesOf] using ih

/-- What a device takes does not depend on the wire. -/
theorem View.take_wire {c : Config} {b : Byte} {v w : View} {f : Memory → Memory} (x : List WireEvent)
    (hs : v.sel.isSome) (h : ({ v with wire := x } : View).take c b = .ok (w, f)) :
    v.take c b = .ok ({ w with wire := v.wire ++ [.dw b true] }, f) := by
  obtain ⟨a, ha⟩ := Option.isSome_iff_exists.mp hs
  unfold View.take at h ⊢
  simp only [ha] at h ⊢
  repeat' split at h
  all_goals first | (cases h; simp_all) | cases h

/-- A device that is selected takes the acknowledged bytes; the others are on the wire and nowhere else. -/
theorem View.offerAll_take {c : Config} {bytes : List Byte} {k : Nat → Bool} {v w : View}
    {f : Memory → Memory} (x : List WireEvent) (hs : v.sel.isSome)
    (h : ({ v with wire := x } : View).takeAll c (takenOf bytes k) = .ok (w, f)) :
    v.offerAll c bytes k = .ok ({ w with wire := v.wire ++ framesOf bytes k }, f) := by
  induction bytes generalizing v w f k x with
  | nil =>
    cases h
    simp [View.offerAll, framesOf]
  | cons b rest ih =>
    unfold View.offerAll View.offer
    unfold takenOf at h
    cases hk : k 0 with
    | false =>
      rw [hk] at h
      have := ih (v := { v with wire := v.wire ++ [.dw b false] }) x hs h
      simp [this, framesOf, hk]
    | true =>
      rw [hk] at h
      simp only [if_true, List.singleton_append] at h
      unfold View.takeAll at h
      cases hv : ({ v with wire := x } : View).take c b with
      | error r => rw [hv] at h; cases h
      | ok p =>
        obtain ⟨w1, f1⟩ := p
        rw [hv] at h
        simp only at h
        cases hx : View.takeAll c (takenOf rest fun i => k (i + 1)) w1 with
        | error r => rw [hx] at h; cases h
        | ok q =>
          obtain ⟨w2, f2⟩ := q
          rw [hx] at h
          cases h
          have h1 := View.take_wire x hs hv
          obtain ⟨_, k2, _⟩ := View.take_same hv
          have := ih (v := { w1 with wire := v.wire ++ [.dw b true] }) w1.wire
            (by rw [show (_ : View).sel = w1.sel from rfl, k2]; exact hs) hx
          simp [hs, h1, this, framesOf, hk]

theorem View.offerAll_selected {c : Config} {bytes : List Byte} {k : Nat → Bool} {v w : View}
    {f : Memory → Memory} (hs : v.sel.isSome) (h : v.takeAll c (takenOf bytes k) = .ok (w, f)) :
    v.offerAll c bytes k = .ok ({ w with wire := v.wire ++ framesOf bytes k }, f) :=
  View.offerAll_take v.wire hs h

/-- Up to three bytes to the EEPROM (10_state.md R51). -/
theorem View.takeAll_ee {c : Config} {v : View} {tk : List Byte} (hs : v.sel = some c.eeDev)
    (hp : v.eeph = .addrHi) (hl : tk.length ≤ 3)
    (hin : ∀ h l x, tk = [h, l, x] → (joinBytes h l).toNat < c.eeSize) :
    ∃ w ph, v.takeAll c tk = .ok ({ v with
      wire := w, eeptr := eePointerAfter v.eeptr tk, ee := eeAfter v.ee tk, eeph := ph }, id) := by
  match tk, hl with
  | [], _ => exact ⟨v.wire, v.eeph, rfl⟩
  | [a], _ => exact ⟨_, .addrLo, by simp [View.takeAll, View.take, hs, hp, eePointerAfter, eeAfter]; exact ⟨rfl, rfl⟩⟩
  | [a, b], _ =>
    exact ⟨_, .data, by simp [View.takeAll, View.take, hs, hp, eePointerAfter, eeAfter]; exact ⟨rfl, rfl⟩⟩
  | [a, b, x], _ =>
    have := hin a b x rfl
    exact ⟨_, .done, by
      simp [View.takeAll, View.take, hs, hp, eePointerAfter, eeAfter, this]; exact ⟨rfl, rfl⟩⟩

/-- Up to two bytes to the RTC (10_state.md R53). -/
theorem View.takeAll_rtc {c : Config} {v : View} {tk : List Byte} (hne : c.eeDev ≠ c.rtcDev)
    (hs : v.sel = some c.rtcDev) (hp : v.rtcph = .reg) (hl : tk.length ≤ 2) :
    ∃ w ph f, v.takeAll c tk = .ok ({ v with
      wire := w, rtcptr := rtcPointerAfter v.rtcptr tk, rtcph := ph }, f) ∧ ∀ m, f m = rtcAfter m tk := by
  match tk, hl with
  | [], _ => exact ⟨v.wire, v.rtcph, id, rfl, fun _ => rfl⟩
  | [a], _ =>
    exact ⟨_, .data, _, by simp [View.takeAll, View.take, hs, hp, hne.symm, rtcPointerAfter]; exact ⟨rfl, rfl⟩,
      fun _ => rfl⟩
  | [a, b], _ =>
    exact ⟨_, .done, _, by
      simp [View.takeAll, View.take, hs, hp, hne.symm, rtcPointerAfter]; exact ⟨rfl, rfl⟩, fun _ => rfl⟩

/-- Bytes to a device that the spec does not describe (log 17). -/
theorem View.takeAll_other {c : Config} {v : View} {a : DevAddr} (tk : List Byte) (hs : v.sel = some a)
    (he : a ≠ c.eeDev) (hr : a ≠ c.rtcDev) :
    ∃ w, v.takeAll c tk = .ok ({ v with wire := w }, id) := by
  induction tk generalizing v with
  | nil => exact ⟨v.wire, rfl⟩
  | cons b rest ih =>
    obtain ⟨w, hw⟩ := ih (v := { v with wire := v.wire ++ [.dw b true] }) hs
    rw [hs] at hw
    exact ⟨w, by simp [View.takeAll, View.take, hs, he, hr, hw]; rfl⟩

/-! ## The transactions -/

/-- An address is the EEPROM's, the RTC's, or neither. -/
theorem dev_cases_any (c : Config) (dev : DevAddr) :
    dev = c.eeDev ∨ dev = c.rtcDev ∨ (dev ≠ c.eeDev ∧ dev ≠ c.rtcDev) := by
  by_cases h1 : dev = c.eeDev
  · exact .inl h1
  · by_cases h2 : dev = c.rtcDev
    · exact .inr (.inl h2)
    · exact .inr (.inr ⟨h1, h2⟩)

/-- The bytes that a transaction's device takes, as the recursion has them. -/
theorem takenBytes_eq (s : State) (dev : DevAddr) (bytes : List Byte) :
    takenBytes s dev bytes = takenOf bytes (fun i => selectAck s dev && ackAt s (i + 1) true) :=
  takenOf_eq bytes _

theorem frameEvents_eq (s : State) (dev : DevAddr) (bytes : List Byte) :
    frameEvents s dev bytes = .s :: .a dev false (selectAck s dev) ::
      framesOf bytes (fun i => selectAck s dev && ackAt s (i + 1) true) := by
  rw [← framesOf_eq]
  rfl

theorem takenBytes_length (s : State) (dev : DevAddr) (bytes : List Byte) :
    (takenBytes s dev bytes).length ≤ bytes.length := by
  rw [takenBytes_eq]
  exact takenOf_length _ _

/-- What is left of the claims' premises once DevAck is free. -/
theorem ReadyAnyAck.quiet {s : State} (h : ReadyAnyAck s) : Quiet s where
  sound := ⟨h.config, h.memory, h.engine.open_init, h.engine.stop_idle, h.engine.sel_open⟩
  flight := by
    by_contra e
    have := h.engine.flight_hung e
    rw [h.running] at this
    cases this

theorem ReadyAnyAck.of_quiet {s : State} (h : Quiet s) (hh : s.hung = false) (hb : BusReady s)
    (hl : BusLive s) (hs : StartsSucceed s) : ReadyAnyAck s where
  running := hh
  config := h.sound.config
  bus := hb
  engine := ⟨h.sound.open_init, h.sound.stop_idle, h.sound.sel_open, fun e => absurd h.flight e⟩
  live := hl
  starts := hs
  memory := h.sound.memory

theorem ReadyAnyAck.others {s : State} (h : ReadyAnyAck s) : ReadyAnyAck s.others :=
  .of_quiet h.quiet.others (by rw [State.others_hung]; exact h.running)
    ⟨by rw [State.others_ph]; exact h.bus.idle, by rw [State.others_br]; exact h.bus.init⟩
    (State.others_live h.live) ((State.others_startScript s).trans h.starts)

/-- The default DevAck is one of them. -/
theorem Ready.anyAck {s : State} (h : Ready s) : ReadyAnyAck s :=
  ⟨h.running, h.config, h.bus, h.engine, h.oracles.live, h.oracles.starts, h.memory⟩

/-- After a transaction another may follow. -/
theorem ReadyAnyAck.after {s t : State} {v : View} {n : Nat} (h : ReadyAnyAck s) (k : Went s t v.stopped n)
    (q : Quiet t) : ReadyAnyAck t :=
  .of_quiet q (by rw [k.frame.hung]; exact h.running)
    ⟨congrArg View.ph k.view, by rw [k.frame.br]; exact h.bus.init⟩ k.live (k.starts.trans h.starts)

/-- The view once a transaction's device has been selected for writing and offered its bytes. -/
structure Selected (s : State) (dev : DevAddr) (bytes : List Byte) (v : View) (f : Memory → Memory) : Prop where
  offers : ((s.view.started s.cfg).answered s.cfg dev false (selectAck s dev)).offerAll s.cfg bytes
    (fun i => ackAt s (i + 1) true) = .ok (v, f)
  wire : v.wire = wireSettled s ++ frameEvents s dev bytes
  ee : v.ee = if dev = s.cfg.eeDev then eeAfter s.ee (takenBytes s dev bytes) else s.ee
  eeptr : v.eeptr = if dev = s.cfg.eeDev then eePointerAfter s.eeptr (takenBytes s dev bytes) else s.eeptr
  rtcptr : v.rtcptr =
    if dev = s.cfg.rtcDev then rtcPointerAfter s.rtcptr (takenBytes s dev bytes) else s.rtcptr
  rtc : f s.rtcreg =
    if dev = s.cfg.rtcDev then rtcAfter s.rtcreg (takenBytes s dev bytes) else s.rtcreg
  ph : v.ph = .mt
  stopping : v.stopping = false
  sel : v.sel = if selectAck s dev then some dev else none
  sent : SentOpen s → v.eeSent = false ∧ v.rtcSent = false

/-- With a transaction not yet begun no byte is marked as sent, once a pending stop is on the wire. -/
theorem settled_sent {s : State} (hi : s.ph = .idle) (h : SentOpen s) :
    (s.view.settled s.cfg).eeSent = false ∧ (s.view.settled s.cfg).rtcSent = false := by
  unfold View.settled
  cases hs : s.stopping with
  | true =>
    rw [if_pos (show s.view.stopping = true from hs)]
    exact ⟨rfl, rfl⟩
  | false =>
    rw [if_neg (by rw [show s.view.stopping = false from hs]; decide)]
    have : ¬ (s.eeSent = true ∨ s.rtcSent = true) := fun e => by
      rcases h e with k | k
      · exact k hi
      · rw [hs] at k; cases k
    simpa [State.view] using this

/-- Selecting a device and offering it bytes goes through, unless an acknowledged byte asks the device for
what its rules leave unspecified (10_state.md R51, R53). -/
theorem select_view {s : State} (h : ReadyAnyAck s) (dev : DevAddr) (bytes : List Byte)
    (he : dev = s.cfg.eeDev → (takenBytes s dev bytes).length ≤ 3 ∧
      ∀ h l x, takenBytes s dev bytes = [h, l, x] → (joinBytes h l).toNat < s.cfg.eeSize)
    (hr : dev = s.cfg.rtcDev → (takenBytes s dev bytes).length ≤ 2) :
    ∃ v f, Selected s dev bytes v f := by
  have hne := configValid_devices h.config
  have hst : s.view.started s.cfg =
      { s.view.settled s.cfg with ph := .addrPending, wire := wireSettled s ++ [.s] } := by
    unfold View.started
    rw [settled_wire, show s.view.ph = .idle from h.bus.idle]
    rfl
  have hsent := settled_sent h.bus.idle
  have hstop : (s.view.settled s.cfg).stopping = false := View.settled_stopping _ _
  have hse := settled_ee s
  have hsp := settled_eeptr s
  have hsr := settled_rtcptr s
  cases hk : selectAck s dev with
  | false =>
    have htk : takenBytes s dev bytes = [] := by rw [takenBytes_eq, hk]; exact takenOf_none bytes
    have hfr : frameEvents s dev bytes =
        .s :: .a dev false false :: bytes.map (fun b => WireEvent.dw b false) := by
      rw [frameEvents_eq, hk]
      simp only [Bool.false_and]
      rw [framesOf_none]
    have hv := View.offerAll_absent s.cfg bytes (fun i => ackAt s (i + 1) true)
      ((s.view.started s.cfg).answered s.cfg dev false false) rfl
    refine ⟨_, id, ⟨by rw [hk]; exact hv, ?_, ?_, ?_, ?_, ?_, ?_, ?_, ?_, ?_⟩⟩
    · rw [hfr, hst]; simp [View.answered]
    · rw [hst, htk]; simp [View.answered, eeAfter]; rfl
    · rw [hst, htk]; simp [View.answered, hsp, eePointerAfter]
    · rw [hst, htk]; simp [View.answered, hsr, rtcPointerAfter]
    · rw [htk]; simp [rtcAfter]
    · rfl
    · rw [hst]; exact hstop
    · rw [hk]; rfl
    · intro e; rw [hst]; simpa [View.answered] using hsent e
  | true =>
    have htk : takenBytes s dev bytes = takenOf bytes (fun i => ackAt s (i + 1) true) := by
      rw [takenBytes_eq, hk]; simp
    have hfr : frameEvents s dev bytes =
        .s :: .a dev false true :: framesOf bytes (fun i => ackAt s (i + 1) true) := by
      rw [frameEvents_eq, hk]; simp
    let v0 := (s.view.started s.cfg).answered s.cfg dev false true
    have hsel : v0.sel = some dev := rfl
    have hw0 : v0.wire = wireSettled s ++ [.s, .a dev false true] := by
      simp [v0, View.answered, hst]
    have hstop0 : v0.stopping = false := by simp only [v0, View.answered, hst]; exact hstop
    have hee0 : v0.ee = s.ee := by simp only [v0, View.answered, hst]; exact hse
    have hsp0 : v0.eeptr = s.eeptr := by simp only [v0, View.answered, hst]; exact hsp
    have hsr0 : v0.rtcptr = s.rtcptr := by simp only [v0, View.answered, hst]; exact hsr
    have hsent0 : SentOpen s → v0.eeSent = false ∧ v0.rtcSent = false := fun e => by
      have := hsent e
      simp [v0, View.answered, hst, this]
    rcases dev_cases_any s.cfg dev with rfl | rfl | ⟨n1, n2⟩
    · obtain ⟨w, ph, hw⟩ := View.takeAll_ee (v := v0) (tk := takenBytes s s.cfg.eeDev bytes) hsel
        (by simp [v0, View.answered]) (he rfl).1 (he rfl).2
      rw [htk] at hw
      have hv := View.offerAll_selected (k := fun i => ackAt s (i + 1) true) (v := v0) rfl hw
      refine ⟨_, id, ⟨by rw [hk]; exact hv, ?_, ?_, ?_, ?_, ?_, ?_, ?_, ?_, ?_⟩⟩
      · rw [hfr, hw0]; simp
      · rw [if_pos rfl, htk, ← hee0]
      · rw [if_pos rfl, htk, ← hsp0]
      · rw [if_neg hne]; exact hsr0
      · rw [if_neg hne]; rfl
      · rfl
      · exact hstop0
      · rw [hk]; rfl
      · exact hsent0
    · obtain ⟨w, ph, f, hw, hf⟩ := View.takeAll_rtc (v := v0) (tk := takenBytes s s.cfg.rtcDev bytes) hne hsel
        (by simp [v0, View.answered, hne.symm]) (hr rfl)
      rw [htk] at hw
      have hv := View.offerAll_selected (k := fun i => ackAt s (i + 1) true) (v := v0) rfl hw
      refine ⟨_, f, ⟨by rw [hk]; exact hv, ?_, ?_, ?_, ?_, ?_, ?_, ?_, ?_, ?_⟩⟩
      · rw [hfr, hw0]; simp
      · rw [if_neg hne.symm]; exact hee0
      · rw [if_neg hne.symm]; exact hsp0
      · rw [if_pos rfl, htk, ← hsr0]
      · rw [if_pos rfl, hf]
      · rfl
      · exact hstop0
      · rw [hk]; rfl
      · exact hsent0
    · obtain ⟨w, hw⟩ := View.takeAll_other (c := s.cfg) (v := v0) (takenBytes s dev bytes) hsel n1 n2
      rw [htk] at hw
      have hv := View.offerAll_selected (k := fun i => ackAt s (i + 1) true) (v := v0) rfl hw
      refine ⟨_, id, ⟨by rw [hk]; exact hv, ?_, ?_, ?_, ?_, ?_, ?_, ?_, ?_, ?_⟩⟩
      · rw [hfr, hw0]; simp
      · rw [if_neg n1]; exact hee0
      · rw [if_neg n1]; exact hsp0
      · rw [if_neg n2]; exact hsr0
      · rw [if_neg n2]; rfl
      · rfl
      · exact hstop0
      · rw [hk]; rfl
      · exact hsent0

/-- START with its check, where it succeeds (R125, R151). -/
theorem startChk_went {s : State} (ok : Bool) (hb : s.br.isSome) (h : BusLive s) (hs : StartsSucceed s) :
    ∃ t, startChk ok (startStatus s.ph) s = .ok ok t ∧ Went s t (s.view.started s.cfg) 0 ∧
      (s.agenda = [] → t.rtcreg = s.rtcreg) := by
  obtain ⟨t, ht, hA, hst, hr⟩ := busStart_went hb h hs
  refine ⟨t, ?_, hA, hr⟩
  unfold startChk
  rw [bind_of_ok ht, chk_spec, hst]
  simp

/-- The address frame with its check (R126, R151). -/
theorem writeChk_answered {s : State} (ok : Bool) (b : Byte) (hb : s.br.isSome) (h : BusLive s)
    (hph : s.ph = .addrPending) (hst : s.stopping = false) :
    let k := ackAt s 0 (answers s.cfg (addrOf b))
    ∃ t, writeChk ok b (slaStatus (dirOf b) true) s = .ok (ok && (!s.cfg.monitored || k)) t ∧
      Went s t (s.view.answered s.cfg (addrOf b) (dirOf b) k) 1 ∧ (s.agenda = [] → t.rtcreg = s.rtcreg) := by
  intro k
  obtain ⟨t, ht, hA, hst', _, hr⟩ := busWrite_answered b hb h hph hst
  refine ⟨t, ?_, hA, hr⟩
  unfold writeChk
  rw [bind_of_ok ht, chk_spec, hst', hA.frame.cfg]
  cases dirOf b <;> cases s.cfg.monitored <;> cases h : k <;> simp [slaStatus, show ackAt s 0 (answers s.cfg (addrOf b)) = k from rfl, h]

/-- The start of every transaction (R94): start, select-device-for-write, data bytes. -/
theorem select_went {s : State} {v : View} {f : Memory → Memory} {dev : DevAddr} {bytes : List Byte}
    (h : ReadyAnyAck s) (hv : Selected s dev bytes v f) :
    ∃ t, (∀ {α : Type} (g : Bool → Op α),
        (startChk true .start >>= fun ok => writeChk ok (slaW dev) .mtSlaAck >>= fun ok =>
          writeAll ok bytes >>= g : Op α) s =
          g (!s.cfg.monitored || (selectAck s dev && (dataAcks s dev bytes.length).all id)) t) ∧
      Went s t v (framesAnswered s dev bytes.length) ∧ (s.agenda = [] → t.rtcreg = f s.rtcreg) := by
  obtain ⟨t1, h1, hA1, r1⟩ := startChk_went true h.bus.init h.live h.starts
  rw [h.bus.idle] at h1
  have hst1 : t1.stopping = false :=
    (congrArg View.stopping hA1.view).trans (View.settled_stopping s.cfg s.view)
  obtain ⟨t2, h2, hA2, r2⟩ := writeChk_answered true (slaW dev) (by rw [hA1.frame.br]; exact h.bus.init)
    hA1.live (congrArg View.ph hA1.view) hst1
  rw [addrOf_slaW, dirOf_slaW] at h2 hA2
  have hk1 : ackAt t1 0 (answers t1.cfg dev) = selectAck s dev := by
    rw [hA1.frame.cfg]
    exact ackAt_drop hA1.acks 0 _
  rw [hk1, hA1.frame.cfg] at h2
  rw [hk1, hA1.frame.cfg, hA1.view] at hA2
  have hB := hA1.trans hA2
  have hsel2 : t2.sel = if selectAck s dev then some dev else none := congrArg View.sel hA2.view
  have hack2 : ∀ i, ackAt t2 i true = ackAt s (i + 1) true := fun i => by
    rw [ackAt_drop hB.acks, Nat.zero_add, Nat.add_comm]
  obtain ⟨t3, h3, hA3, r3⟩ := writeAll_offer (bytes := bytes) (true && (!s.cfg.monitored || selectAck s dev))
    (by rw [hB.frame.br]; exact h.bus.init) hB.live (congrArg View.ph hA2.view)
    ((congrArg View.stopping hA2.view).trans (View.settled_stopping s.cfg s.view)) hB.done hB.inflight
    (by rw [hA2.view, hB.frame.cfg]; simp only [hack2]; exact hv.offers)
  refine ⟨t3, ?_, ?_, fun ha => ?_⟩
  · intro α g
    rw [bind_of_ok (show startChk true .start s = .ok true t1 from h1)]
    rw [bind_of_ok (show writeChk true (slaW dev) .mtSlaAck t1 = _ from h2)]
    rw [bind_of_ok h3, hsel2, hB.frame.cfg]
    congr 1
    unfold dataAcks
    simp only [hack2, List.all_map, Function.comp_def, id]
    cases s.cfg.monitored <;> cases selectAck s dev <;> simp
  · have := hB.trans hA3
    rw [hsel2] at this
    unfold framesAnswered
    cases hk : selectAck s dev <;> simp only [hk, if_true, Option.isSome] at this ⊢
    · exact this
    · rw [Nat.add_comm]
      rw [Nat.zero_add] at this
      exact this
  · rw [r3 (hB.frame.agenda ha), r2 (hA1.frame.agenda ha), r1 ha]

/-- STOP at the end of a transaction (R128). -/
theorem busStop_went {s t : State} {v : View} {n : Nat} (h : Went s t v n) (hb : s.br.isSome)
    (hph : t.ph ≠ .idle) :
    ∃ u, busStop t = .ok () u ∧ Went s u v.stopped n ∧ u.rtcreg = t.rtcreg := by
  have hF := BusFrame.busStop t
  have hq : requireBus t = .ok () t := by
    unfold requireBus
    rw [bind_of_ok (look_apply _ _), require_apply, h.frame.br, hb]; rfl
  have hrq : require (decide (t.ph ≠ .idle)) Refusal.stopWhileIdle t = .ok () t := by
    rw [require_apply, if_pos (by simpa using hph)]
  unfold busStop at hF ⊢
  rw [bind_of_ok hq, bind_of_ok (look_apply _ _), bind_of_ok hrq, bind_of_ok (draw_apply _),
    bind_of_ok (draw_apply _), modify_apply] at hF ⊢
  exact ⟨_, rfl, ⟨h.frame.trans hF, h.live, h.done, h.inflight, by rw [← h.view]; rfl, h.acks, h.starts⟩, rfl⟩

/-- A transaction that ended, in the terms of the claims. -/
theorem Went.closed {s t : State} {v : View} {n : Nat} {dev : DevAddr} {k : Bool} {events : List WireEvent}
    (h : Went s t v.stopped n) (hs : v.sel = if k then some dev else none)
    (hw : v.wire = wireSettled s ++ events) : Closed s t dev k events where
  outside := h.frame.outside
  hung := h.frame.hung
  ph := congrArg View.ph h.view
  done := h.done
  inflight := h.inflight
  stopping := congrArg View.stopping h.view
  sel := (congrArg View.sel h.view).trans hs
  wire := (congrArg View.wire h.view).trans hw

/-- What the devices took, in the terms of the claims. -/
theorem Selected.took {s t : State} {v w : View} {f : Memory → Memory} {dev : DevAddr} {bytes : List Byte}
    {n : Nat} (h : Selected s dev bytes v f) (k : Went s t w n) (he : w.ee = v.ee) (hp : w.eeptr = v.eeptr)
    (hr : w.rtcptr = v.rtcptr) (hm : s.agenda = [] → t.rtcreg = f s.rtcreg) : Took s t dev bytes where
  ee := fun a => by rw [show t.ee = w.ee from congrArg View.ee k.view, he, h.ee]
  rtc := fun ha r => by rw [hm ha, h.rtc]
  eeptr := by rw [show t.eeptr = w.eeptr from congrArg View.eeptr k.view, hp, h.eeptr]
  rtcptr := by rw [show t.rtcptr = w.rtcptr from congrArg View.rtcptr k.view, hr, h.rtcptr]

/-- The write transaction, whatever DevAck answers (R94, R154). -/
theorem writeTransaction_went {s : State} {v : View} {f : Memory → Memory} {dev : DevAddr} {bytes : List Byte}
    (h : ReadyAnyAck s) (hv : Selected s dev bytes v f) :
    ∃ t, writeTransaction dev bytes s = .ok () t ∧ WroteFrames s t dev bytes ∧ ReadyAnyAck t ∧
      BusFrame s t ∧ (SentOpen s → SentOpen t) := by
  obtain ⟨t, ht, hA, hrt⟩ := select_went h hv
  have hph : t.ph ≠ .idle := by rw [show t.ph = v.ph from congrArg View.ph hA.view, hv.ph]; decide
  obtain ⟨u, hu, hB, hru⟩ := busStop_went hA h.bus.init hph
  have hrun : writeTransaction dev bytes s = .ok () u := by
    unfold writeTransaction
    rw [bind_of_ok (requireIdle_spec h.bus.idle), ht, hu]
  have hq := Quiet.closed.writeTransaction dev bytes s h.quiet
  rw [hrun] at hq
  exact ⟨u, hrun,
    ⟨hB.closed hv.sel hv.wire, hv.took hB rfl rfl rfl (fun ha => hru.trans (hrt ha)), hB.acks⟩,
    h.after hB hq, hB.frame, fun _ _ => .inr (congrArg View.stopping hB.view)⟩

/-- The read transaction, whatever DevAck answers (R94, R153, R154). -/
theorem readTransaction_went {s : State} {v : View} {f : Memory → Memory} {dev : DevAddr} {select : List Byte}
    (h : ReadyAnyAck s) (hs : SentOpen s) (hv : Selected s dev select v f)
    (hin : dev = s.cfg.eeDev → readAck s dev select.length = true → v.eeptr.toNat < s.cfg.eeSize) :
    ∃ b t, readTransaction dev select s = .ok (readResult s dev select.length b) t ∧
      ReadFrames s t dev select b ∧ ReadyAnyAck t ∧ BusFrame s t ∧ SentOpen t := by
  have hne := configValid_devices h.config
  obtain ⟨t, ht, hA, hrt⟩ := select_went h hv
  obtain ⟨t1, h1, hA1, r1⟩ := startChk_went (!s.cfg.monitored ||
      (selectAck s dev && (dataAcks s dev select.length).all id))
    (by rw [hA.frame.br]; exact h.bus.init) hA.live (hA.starts.trans h.starts)
  have htp : t.ph = .mt := (congrArg View.ph hA.view).trans hv.ph
  rw [htp] at h1
  have hvs : t.view.started t.cfg = { v with ph := .addrPending, wire := v.wire ++ [.sr] } := by
    rw [hA.view, View.started_again _ hv.stopping hv.ph]
  rw [hvs] at hA1
  have hC := hA.trans hA1
  obtain ⟨t2, h2, hA2, r2⟩ := writeChk_answered (!s.cfg.monitored ||
      (selectAck s dev && (dataAcks s dev select.length).all id)) (slaR dev)
    (by rw [hC.frame.br]; exact h.bus.init) hA1.live (congrArg View.ph hA1.view)
    ((congrArg View.stopping hA1.view).trans hv.stopping)
  rw [addrOf_slaR, dirOf_slaR] at h2 hA2
  have hk2 : ackAt t1 0 (answers t1.cfg dev) = readAck s dev select.length := by
    rw [hC.frame.cfg]
    exact ackAt_drop hC.acks 0 _
  rw [hk2, hC.frame.cfg] at h2
  rw [hk2, hC.frame.cfg, hA1.view] at hA2
  have hD := hC.trans hA2
  have hv2 : t2.view = { v with
      ph := .mr, sel := if readAck s dev select.length then some dev else none
      wire := v.wire ++ [.sr, .a dev true (readAck s dev select.length)] } := by
    rw [hA2.view]
    simp [View.answered]
  have hc2 := hD.frame.cfg
  have hsel2 : t2.sel = if readAck s dev select.length then some dev else none := congrArg View.sel hv2
  have hse2 : t2.eeSent = false := (congrArg View.eeSent hv2).trans (hv.sent hs).1
  have hsr2 : t2.rtcSent = false := (congrArg View.rtcSent hv2).trans (hv.sent hs).2
  obtain ⟨b, t3, x, y, h3, hA3, hst3, _, hb3, r3⟩ := busRead_went (s := t2) false
    (by rw [hD.frame.br]; exact h.bus.init) hD.live (congrArg View.ph hv2)
    ((congrArg View.stopping hv2).trans hv.stopping) (by rw [hc2]; exact hne)
    (fun e => by
      refine ⟨hse2, ?_⟩
      rw [hsel2, hc2] at e
      rw [hc2, show t2.eeptr = v.eeptr from congrArg View.eeptr hv2]
      cases hk : readAck s dev select.length with
      | false => rw [hk] at e; cases e
      | true =>
        rw [hk, if_pos rfl] at e
        exact hin (Option.some.inj e) hk)
    (fun _ => hsr2)
  have hE := hD.trans hA3
  obtain ⟨u, hu, hF, hru⟩ := busStop_went (s := s)
    (v := { v with
      ph := .mr, sel := if readAck s dev select.length then some dev else none, eeSent := x, rtcSent := y
      wire := v.wire ++ [.sr, .a dev true (readAck s dev select.length), .dr b false] })
    ⟨hE.frame, hE.live, hE.done, hE.inflight, by
      rw [hE.view, hv2, show t2.wire = _ from congrArg View.wire hv2]
      simp, hE.acks, hE.starts⟩ h.bus.init (by
      rw [show t3.ph = .mr from (congrArg View.ph hA3.view).trans (congrArg View.ph hv2)]
      decide)
  have hrun : readTransaction dev select s = .ok (readResult s dev select.length b) u := by
    unfold readTransaction
    rw [bind_of_ok (requireIdle_spec h.bus.idle), ht,
      bind_of_ok (show startChk _ .rstart t = _ from h1),
      bind_of_ok (show writeChk _ (slaR dev) .mrSlaAck t1 = _ from h2), bind_of_ok h3,
      bind_of_ok (chk_spec _ _ _), bind_of_ok hu, hst3, hE.frame.cfg, pure_apply]
    congr 1
    unfold readResult allAcked
    cases s.cfg.monitored <;> cases selectAck s dev <;> cases (dataAcks s dev select.length).all id <;>
      cases readAck s dev select.length <;> simp [dataInStatus]
  have hq := Quiet.closed.readTransaction dev select s h.quiet
  rw [hrun] at hq
  have hrtc : s.agenda = [] → t2.rtcreg = f s.rtcreg ∧ u.rtcreg = f s.rtcreg := fun ha => by
    have e2 : t2.rtcreg = f s.rtcreg := by
      rw [r2 (hC.frame.agenda ha), r1 (hA.frame.agenda ha), hrt ha]
    exact ⟨e2, hru.trans (((r3 (hD.frame.agenda ha)).1).trans e2)⟩
  have huee : u.ee = t2.ee := (congrArg View.ee hF.view).trans (congrArg View.ee hv2).symm
  have huep : u.eeptr = t2.eeptr := (congrArg View.eeptr hF.view).trans (congrArg View.eeptr hv2).symm
  have hurp : u.rtcptr = t2.rtcptr := (congrArg View.rtcptr hF.view).trans (congrArg View.rtcptr hv2).symm
  refine ⟨b, u, hrun, ⟨hF.closed rfl ?_, hv.took hF rfl rfl rfl (fun ha => (hrtc ha).2), ?_, ?_, ?_⟩,
    h.after hF hq, hF.frame, fun _ => .inr (congrArg View.stopping hF.view)⟩
  · rw [hv.wire, List.append_assoc]
  · intro hk hd
    rw [huee, huep]
    exact hb3 (by rw [hsel2, hk, hc2, hd]; rfl)
  · intro hk ha hd
    rw [(hrtc ha).2, ← (hrtc ha).1, hurp]
    exact (r3 (hD.frame.agenda ha)).2 (by rw [hsel2, hk, hc2, hd]; rfl)
  · rw [hF.acks]

end Sys2Proof.Machine
end

