-- ==== Sys2Proof/Laws/Sequencer.lean ====
section
/-! SUPPORT. What the pieces of the sequencer do (43_sequencer.md R191 to R202), once each: the control
registers they leave, and that nothing else moves but through the other agents. -/

namespace Sys2Proof.Machine

/-- What answers came from which. -/
theorem bind_ok_inv {α β : Type} {m : Op α} {f : α → Op β} {s u : State} {b : β}
    (h : (m >>= f) s = .ok b u) : ∃ a t, m s = .ok a t ∧ f a t = .ok b u := by
  rw [bind_apply] at h
  cases hm : m s with
  | ok a t => rw [hm] at h; exact ⟨a, t, rfl, h⟩
  | error e t => rw [hm] at h; cases h

theorem Op.Keeps.ok {R : State → State → Prop} {α : Type} {m : Op α} (h : Op.Keeps R m) {s t : State} {a : α}
    (hm : m s = .ok a t) : R s t := by
  have := h s
  rwa [hm] at this

/-! ## Control registers -/

/-- The sequencer's registers, the output with its history, and the mask: what SEQINIT, SEQREINIT and
SEQSTEP write besides the bus (10_state.md R42). -/
structure Control where
  out : Bool
  outTrace : List Bool
  tie : Bool
  cs : Ctl
  bc : Half
  bi : BitVec 4
  acc : Byte
  cur : Byte

def State.control (s : State) : Control where
  out := s.out
  outTrace := s.outTrace
  tie := s.tie
  cs := s.cs
  bc := s.bc
  bi := s.bi
  acc := s.acc
  cur := s.cur

theorem BusFrame.control {s t : State} (h : BusFrame s t) : t.control = s.control := by
  simp only [State.control, h.out, h.outTrace, h.tie, h.cs, h.bc, h.bi, h.acc, h.cur]

/-- What no operation of the sequencer writes. -/
structure Kept (s t : State) : Prop where
  cfg : t.cfg = s.cfg
  br : t.br = s.br
  tcfg : t.tcfg = s.tcfg
  stream : t.stream = s.stream
  resp : t.resp = s.resp
  hung : t.hung = s.hung
  live : s.busLeft = none → t.busLeft = none
  pend : s.pend = true → t.pend = true
  agenda : s.agenda = [] → t.agenda = []
  lines : s.agenda = [] → t.pend = s.pend ∧ t.inp = s.inp

theorem Kept.refl (s : State) : Kept s s := by
  constructor <;> first | rfl | exact id | exact fun _ => ⟨rfl, rfl⟩

theorem Kept.trans {s t u : State} (h : Kept s t) (k : Kept t u) : Kept s u where
  cfg := k.cfg.trans h.cfg
  br := k.br.trans h.br
  tcfg := k.tcfg.trans h.tcfg
  stream := k.stream.trans h.stream
  resp := k.resp.trans h.resp
  hung := k.hung.trans h.hung
  live := fun e => k.live (h.live e)
  pend := fun e => k.pend (h.pend e)
  agenda := fun e => k.agenda (h.agenda e)
  lines := fun e =>
    ⟨(k.lines (h.agenda e)).1.trans (h.lines e).1, (k.lines (h.agenda e)).2.trans (h.lines e).2⟩

theorem BusFrame.kept {s t : State} (h : BusFrame s t) : Kept s t :=
  ⟨h.cfg, h.br, h.tcfg, h.stream, h.resp, h.hung, h.live, h.pend, h.agenda, h.lines⟩

theorem Kept.port {s t : State} (h : Kept s t) : SamePort s t := ⟨h.cfg, h.stream⟩

theorem Kept.sameLines {s t : State} (h : Kept s t) (ha : s.agenda = []) : SameLines s t :=
  ⟨(h.lines ha).1, (h.lines ha).2⟩

/-! ## Steps that touch no bus -/

/-- Control registers were written and the other agents may have moved; the HOST's bus registers, the
EEPROM's array and the wire with its pending stop are as they were. -/
structure Calm (s t : State) : Prop where
  kept : Kept s t
  ph : t.ph = s.ph
  done : t.done = s.done
  inflight : t.inflight = s.inflight
  ee : t.ee = s.ee
  wire : wireSettled t = wireSettled s
  ready : Ready s → Ready t
  scripted : s.agenda = [] → SameEngine s t ∧ SameDevices s t ∧ t.rtcreg = s.rtcreg

theorem SameEngine.trans {s t u : State} (h : SameEngine s t) (k : SameEngine t u) : SameEngine s u :=
  ⟨k.ph.trans h.ph, k.st.trans h.st, k.dr.trans h.dr, k.done.trans h.done, k.inflight.trans h.inflight,
    k.stopping.trans h.stopping, k.sel.trans h.sel, k.wire.trans h.wire⟩

theorem SameDevices.trans {s t u : State} (h : SameDevices s t) (k : SameDevices t u) : SameDevices s u :=
  ⟨fun a => (k.ee a).trans (h.ee a), fun a => (k.rtc a).trans (h.rtc a),
    ⟨k.eePointer.eeptr.trans h.eePointer.eeptr, k.eePointer.eeph.trans h.eePointer.eeph,
      k.eePointer.eeSent.trans h.eePointer.eeSent⟩,
    ⟨k.rtcPointer.rtcptr.trans h.rtcPointer.rtcptr, k.rtcPointer.rtcph.trans h.rtcPointer.rtcph,
      k.rtcPointer.rtcSent.trans h.rtcPointer.rtcSent⟩⟩

theorem Calm.trans {s t u : State} (h : Calm s t) (k : Calm t u) : Calm s u where
  kept := h.kept.trans k.kept
  ph := k.ph.trans h.ph
  done := k.done.trans h.done
  inflight := k.inflight.trans h.inflight
  ee := k.ee.trans h.ee
  wire := k.wire.trans h.wire
  ready := fun r => k.ready (h.ready r)
  scripted := fun ha =>
    let a := h.scripted ha
    let b := k.scripted (h.kept.agenda ha)
    ⟨a.1.trans b.1, a.2.1.trans b.2.1, b.2.2.trans a.2.2⟩

/-- A write of control registers alone. -/
theorem Calm.of_control {s t : State} (h : t = s.withControl t.out t.outTrace t.tie t.cs t.bc t.bi t.acc t.cur) :
    Calm s t := by
  rw [h]
  constructor
  · constructor <;> first | rfl | exact id | exact fun _ => ⟨rfl, rfl⟩
  any_goals rfl
  · intro r
    exact .of_quiet ⟨r.quiet.sound.of_same rfl rfl rfl rfl rfl rfl rfl, r.quiet.flight⟩ r.running
      ⟨r.bus.idle, r.bus.init⟩ ⟨r.oracles.live, r.oracles.ideal, r.oracles.starts⟩
  · exact fun _ => ⟨⟨rfl, rfl, rfl, rfl, rfl, rfl, rfl, rfl⟩,
      ⟨fun _ => rfl, fun _ => rfl, ⟨rfl, rfl, rfl⟩, ⟨rfl, rfl, rfl⟩⟩, rfl⟩

theorem Calm.refl (s : State) : Calm s s := .of_control rfl

/-- An interleaving point. -/
theorem Calm.others (s : State) : Calm s s.others where
  kept := (BusFrame.others s).kept
  ph := s.others_ph
  done := s.others_done
  inflight := s.others_inflight
  ee := s.others_ee
  wire := wireSettled_others s
  ready := Ready.others
  scripted := fun ha => by
    rw [State.others_scripted ha]
    exact ⟨⟨rfl, rfl, rfl, rfl, rfl, rfl, rfl, rfl⟩,
      ⟨fun _ => rfl, fun _ => rfl, ⟨rfl, rfl, rfl⟩, ⟨rfl, rfl, rfl⟩⟩, rfl⟩

@[simp] theorem State.others_control (s : State) : s.others.control = s.control :=
  (BusFrame.others s).control

/-- A piece that only writes control registers: it always returns, and leaves in them what `f` says of the
configuration and of what they held. -/
def Steers (m : Op Unit) (f : Config → Control → Control) : Prop :=
  ∀ s, ∃ t, m s = .ok () t ∧ Calm s t ∧ t.control = f s.cfg s.control

theorem Steers.point : Steers point (fun _ x => x) := fun s =>
  ⟨_, rfl, Calm.others s, State.others_control s⟩

theorem Steers.delay (ms : Nat) : Steers (delay ms) (fun _ x => x) := Steers.point

theorem Steers.pure : Steers (Pure.pure ()) (fun _ x => x) := fun s => ⟨s, rfl, .refl s, rfl⟩

/-- One piece after another. -/
theorem Steers.bind {m n : Op Unit} {f g : Config → Control → Control} (hm : Steers m f)
    (hn : Steers n g) : Steers (m >>= fun _ => n) (fun c x => g c (f c x)) := by
  intro s
  obtain ⟨t, h1, k1, c1⟩ := hm s
  obtain ⟨u, h2, k2, c2⟩ := hn t
  exact ⟨u, by rw [bind_of_ok h1, h2], k1.trans k2, by rw [c2, c1, k1.kept.cfg]⟩

/-- A piece that looks at the configuration first. -/
theorem Steers.look {n : Config → Op Unit} {g : Config → Control → Control}
    (hn : ∀ c, Steers (n c) g) : Steers (look State.cfg >>= n) g := by
  intro s
  rw [bind_of_ok (look_apply _ s)]
  exact hn s.cfg s

theorem Steers.setOut (v : Bool) :
    Steers (setOut v) (fun _ x => { x with out := v, outTrace := x.outTrace ++ [v] }) :=
  fun _ => ⟨_, rfl, .of_control rfl, rfl⟩

theorem Steers.setTie (v : Bool) : Steers (setTie v) (fun _ x => { x with tie := v }) :=
  fun _ => ⟨_, rfl, .of_control rfl, rfl⟩

theorem Steers.setCs (cs : Ctl) : Steers (setCs cs) (fun _ x => { x with cs := cs }) :=
  fun _ => ⟨_, rfl, .of_control rfl, rfl⟩

theorem Steers.rewind (i : BitVec 4) :
    Steers (rewind i) (fun c x => { x with bc := c.first, bi := i }) :=
  fun _ => ⟨_, rfl, .of_control rfl, rfl⟩

/-- `Flash(n)` (R192): it drives its `n` pulses and ends low. -/
theorem Steers.flash (n : Nat) :
    Steers (flash n) (fun _ x =>
      { x with out := if n = 0 then x.out else false, outTrace := x.outTrace ++ flashTrace n }) := by
  induction n with
  | zero =>
    refine Eq.mp (congrArg (Steers (Machine.flash 0)) ?_) Steers.pure
    funext _ x
    simp [flashTrace]
  | succ n ih =>
    refine Eq.mp (congrArg (Steers (Machine.flash (n + 1))) ?_) (Steers.look (fun c => (Steers.setOut true).bind ((Steers.delay c.flashOnMs).bind
      ((Steers.setOut false).bind ((Steers.delay c.flashOffMs).bind ih)))))
    funext _ x
    simp [flashTrace, List.replicate_succ]

/-- BeginAction (R201). -/
theorem Steers.beginAction :
    Steers beginAction (fun c x =>
      { x with out := false, outTrace := x.outTrace ++ flashTrace 3, tie := true, cs := .recording,
               bc := c.first, bi := 0 }) :=
  (Steers.setTie false).bind (Steers.point.bind ((Steers.flash 3).bind ((Steers.rewind 0).bind
    (Steers.point.bind ((Steers.setTie true).bind (Steers.point.bind (Steers.setCs .recording)))))))

/-- EndAction (R202). -/
theorem Steers.endAction :
    Steers endAction (fun c x =>
      { x with out := false, outTrace := x.outTrace ++ flashTrace 5, tie := true, cs := .replay,
               bc := c.first, bi := 8 }) :=
  (Steers.setTie false).bind (Steers.point.bind ((Steers.flash 5).bind ((Steers.rewind 8).bind
    (Steers.point.bind ((Steers.setTie true).bind (Steers.point.bind (Steers.setCs .replay)))))))

/-- SEQINIT (R193). -/
theorem Steers.seqInit :
    Steers seqInit (fun c x => { x with cs := .replay, bc := c.first, bi := 8 }) :=
  (Steers.setCs .replay).bind (Steers.rewind 8)

/-- ReplayBit after its refill (R198): the bit under the cursor is driven, and the cursors advance. -/
def driveBit : Op Unit := do
  point
  let s ← get
  setOut (s.cur.getLsbD s.bi.toNat)
  point
  modify fun t => { t with bi := t.bi + 1 }
  point
  modify advanceReplay

theorem replayBit_eq : replayBit = (do refill; driveBit) := rfl

/-- Where the byte cursor goes when the last bit of a byte has been driven (R198). -/
def nextReplay (c : Config) (bc : Half) : Half :=
  if lastAddr c < (bc + 1).toNat then c.first else bc + 1

theorem Steers.driveBit :
    Steers driveBit (fun c x =>
      { x with out := x.cur.getLsbD x.bi.toNat, outTrace := x.outTrace ++ [x.cur.getLsbD x.bi.toNat],
               bi := x.bi + 1, bc := if x.bi + 1 = 8 then nextReplay c x.bc else x.bc }) := by
  have adv : Steers (update advanceReplay) (fun c x =>
      { x with bc := if x.bi = 8 then nextReplay c x.bc else x.bc }) := by
    intro s
    refine ⟨_, rfl, .of_control ?_, ?_⟩
    · unfold advanceReplay; split <;> rfl
    · unfold advanceReplay
      split <;> rename_i h
      · simp [State.control, h, nextReplay]
      · exact congrArg (fun b => { s.control with bc := b })
          (if_neg (show ¬ s.control.bi = 8 from h)).symm
  have inc : Steers (update fun t => { t with bi := t.bi + 1 }) (fun _ x => { x with bi := x.bi + 1 }) :=
    fun _ => ⟨_, rfl, .of_control rfl, rfl⟩
  have drive (b : Bool) := (Steers.setOut b).bind (Steers.point.bind (inc.bind (Steers.point.bind adv)))
  intro s
  obtain ⟨t, ht, k, hc⟩ := drive (s.cur.getLsbD s.bi.toNat) s.others
  refine ⟨t, ?_, (Calm.others s).trans k, by rw [hc, State.others_control, State.others_cfg]; rfl⟩
  unfold Machine.driveBit
  rw [bind_of_ok (point_apply s), bind_of_ok (get_apply _), State.others_cur, State.others_bi]
  exact ht

/-- RecordBit's sample and its advance of the bit cursor (R200), before a byte is stored. -/
def takeSample : Op Unit := do
  let asserted ← sample
  point
  modify fun s => { s with acc := accumulate s asserted }
  point
  modify fun s => { s with bi := s.bi + 1 }
  point

/-- RecordBit's store (R200). -/
def storeByte : Op Unit := do
  let s ← get
  if s.bi = 8 then
    eewr s.cfg.eeDev s.bc s.acc
    point
    modify advanceRecord

theorem recordBit_eq : recordBit = (do takeSample; storeByte) := rfl

/-- RecordBit's sample (R200): the accumulator, zeroed at bit 0, takes the sample. -/
theorem takeSample_spec (s : State) :
    ∃ t, takeSample s = .ok () t ∧ Calm s t ∧
      t.control = { s.control with acc := accumulate s (!s.inp), bi := s.bi + 1 } := by
  have acc (a : Bool) : Steers (update fun s => { s with acc := accumulate s a }) (fun _ x =>
      { x with acc := if a then withBit (if x.bi = 0 then 0x00 else x.acc) x.bi.toNat true
                      else if x.bi = 0 then 0x00 else x.acc }) :=
    fun s => ⟨_, rfl, .of_control rfl, rfl⟩
  have inc : Steers (update fun t => { t with bi := t.bi + 1 }) (fun _ x => { x with bi := x.bi + 1 }) :=
    fun _ => ⟨_, rfl, .of_control rfl, rfl⟩
  exact Steers.point.bind ((acc (!s.inp)).bind (Steers.point.bind (inc.bind Steers.point))) s

/-! ## Steps with a transaction -/

/-- Control registers were written and transactions with the EEPROM have run to their ends: the EEPROM holds
`ee`, and the wire, with a pending stop on it, is `w`. -/
structure Moved (s t : State) (ee : Memory) (w : List WireEvent) : Prop where
  kept : Kept s t
  ready : Ready t
  ee : t.ee = ee
  wire : wireSettled t = w
  rtc : s.agenda = [] → t.rtcreg = s.rtcreg

theorem Calm.moved {s t : State} (h : Calm s t) (r : Ready s) : Moved s t s.ee (wireSettled s) :=
  ⟨h.kept, h.ready r, h.ee, h.wire, fun ha => (h.scripted ha).2.2⟩

theorem Moved.calm {s t u : State} {ee : Memory} {w : List WireEvent} (h : Moved s t ee w)
    (k : Calm t u) : Moved s u ee w :=
  ⟨h.kept.trans k.kept, k.ready h.ready, k.ee.trans h.ee, k.wire.trans h.wire,
    fun ha => (k.scripted (h.kept.agenda ha)).2.2.trans (h.rtc ha)⟩

theorem Moved.trans {s t u : State} {ee ee' : Memory} {w w' : List WireEvent} (h : Moved s t ee w)
    (k : Moved t u ee' w') : Moved s u ee' w' :=
  ⟨h.kept.trans k.kept, k.ready, k.ee, k.wire, fun ha => (k.rtc (h.kept.agenda ha)).trans (h.rtc ha)⟩

/-- EERD from the EEPROM, for the sequencer (R198). -/
theorem eerd_moved {s : State} (h : Ready s) (addr : Half) (hin : addr.toNat < s.cfg.eeSize) :
    ∃ t, eerd s.cfg.eeDev addr s = .ok (s.ee.read addr.toNat) t ∧
      Moved s t s.ee (wireSettled s ++
        readEvents s.cfg.eeDev true [hiByte addr, loByte addr] (s.ee.read addr.toNat) ++ [.p]) ∧
      t.control = s.control ∧ t.done = true := by
  obtain ⟨t, ht, hR, hr⟩ := eerd_ee h addr hin
  exact ⟨t, ht, ⟨hR.after.frame.kept, hR.ready, (congrArg View.ee hR.after.view).trans (settled_ee s),
    wireSettled_ran hR, hr⟩, hR.after.frame.control, hR.after.done⟩

/-- EEWR to the EEPROM, for the sequencer (R200, R204). -/
theorem eewr_moved {s : State} (h : Ready s) (addr : Half) (val : Byte) (hin : addr.toNat < s.cfg.eeSize) :
    ∃ t, eewr s.cfg.eeDev addr val s = .ok () t ∧
      Moved s t (s.ee.write addr.toNat val) (wireSettled s ++
        writeEvents s.cfg.eeDev true [hiByte addr, loByte addr, val] ++ [.p]) ∧
      t.control = s.control ∧ t.done = true := by
  obtain ⟨t, ht, hR, hr⟩ := eewr_ee h addr val hin
  exact ⟨t, ht, ⟨hR.after.frame.kept, hR.ready, congrArg View.ee hR.after.view,
    wireSettled_ran hR, hr⟩, hR.after.frame.control, hR.after.done⟩

/-- ReplayBit's refill (R198): with the bit cursor out of range the byte under the byte cursor is read. -/
theorem refill_moved {s : State} (h : Ready s) (hbi : s.bi = 8) (hin : s.bc.toNat < s.cfg.eeSize) :
    ∃ t, refill s = .ok () t ∧
      Moved s t s.ee (wireSettled s ++
        readEvents s.cfg.eeDev true [hiByte s.bc, loByte s.bc] (s.ee.read s.bc.toNat) ++ [.p]) ∧
      t.control = { s.control with cur := s.ee.read s.bc.toNat, bi := 0 } := by
  obtain ⟨t, ht, hM, hc, _⟩ := eerd_moved h s.bc hin
  refine ⟨{ t with cur := s.ee.read s.bc.toNat, bi := 0 }, ?_, hM.calm (.of_control rfl), ?_⟩
  · unfold refill
    rw [bind_of_ok (get_apply s), if_pos hbi, bind_of_ok ht]
    rfl
  · rw [← hc]
    rfl

/-- With a bit left in the current byte nothing is read (R198). -/
theorem refill_none {s : State} (hbi : s.bi ≠ 8) : refill s = .ok () s := by
  unfold refill
  rw [bind_of_ok (get_apply s), if_neg hbi]
  rfl

/-- RecordBit's store (R200): a completed byte is stored under the byte cursor, which advances. -/
theorem storeByte_moved {s : State} (h : Ready s) (hbi : s.bi = 8) (hin : s.bc.toNat < s.cfg.eeSize) :
    ∃ t, storeByte s = .ok () t ∧
      Moved s t (s.ee.write s.bc.toNat s.acc) (wireSettled s ++
        writeEvents s.cfg.eeDev true [hiByte s.bc, loByte s.bc, s.acc] ++ [.p]) ∧
      t.control = { s.control with
        bc := s.bc + 1, bi := 0,
        cs := if lastAddr s.cfg < (s.bc + 1).toNat then .endRecording else s.cs } := by
  obtain ⟨t, ht, hM, hc, _⟩ := eewr_moved h s.bc s.acc hin
  have hp := hM.calm (Calm.others t)
  have hcp : t.others.control = s.control := (State.others_control t).trans hc
  refine ⟨advanceRecord t.others, ?_, hp.calm (.of_control rfl), ?_⟩
  · unfold storeByte
    rw [bind_of_ok (get_apply s), if_pos hbi, bind_of_ok ht, bind_of_ok (point_apply t)]
    rfl
  · have e1 : t.bc = s.bc := congrArg Control.bc hc
    have e2 : t.cs = s.cs := congrArg Control.cs hc
    rw [← hcp]
    simp [advanceRecord, State.control, e1, e2, hM.kept.cfg]

/-- With bits left in the byte nothing is stored (R200). -/
theorem storeByte_none {s : State} (hbi : s.bi ≠ 8) : storeByte s = .ok () s := by
  unfold storeByte
  rw [bind_of_ok (get_apply s), if_neg hbi]
  rfl

/-- The bits of the accumulator after a sample (R200, 20_memory.md R63). -/
theorem accumulate_getLsbD (s : State) (asserted : Bool) {j : Nat} (hj : j < 8) :
    (accumulate s asserted).getLsbD j =
      if j = s.bi.toNat ∧ asserted = true then true
      else if s.bi = 0 then false else s.acc.getLsbD j := by
  unfold accumulate
  by_cases e : s.bi = 0
  · by_cases ej : j = 0 <;> cases asserted <;> simp [e, ej, withBit]
  · cases asserted
    · simp only [if_neg e, Bool.false_eq_true, and_false, if_false]
    · by_cases ej : j = s.bi.toNat
      · subst ej
        simp [withBit, hj]
      · have hne : decide (j < s.bi.toNat) = false → j - s.bi.toNat ≠ 0 := by
          intro h
          have := of_decide_eq_false h
          omega
        simp only [e, if_false, withBit, if_true, ej, false_and, BitVec.getLsbD_or, BitVec.getLsbD_shiftLeft,
          BitVec.getLsbD_one]
        cases hlt : decide (j < s.bi.toNat)
        · simp [hne hlt]
        · simp

/-- The byte cursor's next value in replay (R198): one on, or back to the start past the end. -/
theorem nextReplay_toNat {c : Config} (h : configValid c = true) {bc : Half} (hb : bc.toNat ≤ lastAddr c) :
    (nextReplay c bc).toNat = if bc.toNat = lastAddr c then c.first.toNat else bc.toNat + 1 := by
  obtain ⟨h1, h2, h3, h4⟩ := configValid_buffer h
  have hl : lastAddr c = c.first.toNat + c.count - 1 := rfl
  have e : (bc + 1).toNat = bc.toNat + 1 := by
    rw [BitVec.toNat_add]
    simp
    omega
  unfold nextReplay
  rw [e]
  split <;> split <;> omega

/-- The transactions of `n` of SEQREINIT's writes, from offset `i` on (R204). -/
def reinitWrites (c : Config) (i n : Nat) : List WireEvent :=
  (List.range' i n).flatMap (fun j =>
    let a := c.first + BitVec.ofNat 16 j
    writeEvents c.eeDev true [hiByte a, loByte a, pattern c j] ++ [.p])

theorem reinitEvents_eq (c : Config) : reinitEvents c = reinitWrites c 0 c.count := by
  rw [reinitEvents, List.range_eq_range']
  rfl

/-- SEQREINIT's writes (R204): `n` bytes from offset `i` on hold the pattern, and no other byte changes; each is
one EEWR on the wire. -/
theorem reinitBuffer_moved (n i : Nat) {s : State} (h : Ready s) (hin : i + n ≤ s.cfg.count) :
    ∃ t ee, reinitBuffer n i s = .ok () t ∧ Moved s t ee (wireSettled s ++ reinitWrites s.cfg i n) ∧
      t.control = s.control ∧ (0 < n → t.done = true) ∧
      ∀ a, ee.read a = if s.cfg.first.toNat + i ≤ a ∧ a < s.cfg.first.toNat + i + n then
        pattern s.cfg (a - s.cfg.first.toNat) else s.ee.read a := by
  induction n generalizing i s with
  | zero =>
    refine ⟨s, s.ee, rfl, ?_, rfl, fun e => absurd e (by omega), fun a => ?_⟩
    · rw [show reinitWrites s.cfg i 0 = [] from rfl, List.append_nil]
      exact (Calm.refl s).moved h
    · rw [if_neg (by omega)]
  | succ n ih =>
    obtain ⟨h1, h2, h3, h4⟩ := configValid_buffer h.config
    have ha : (s.cfg.first + BitVec.ofNat 16 i).toNat = s.cfg.first.toNat + i := by
      rw [BitVec.toNat_add, BitVec.toNat_ofNat]
      omega
    obtain ⟨u, hu, M, cu, hd⟩ := eewr_moved h (s.cfg.first + BitVec.ofNat 16 i) (pattern s.cfg i)
      (by rw [ha]; omega)
    have M1 := M.calm (Calm.others u)
    obtain ⟨t, ee, ht, M2, ct, hdone, hr⟩ := ih (i + 1) M1.ready (by rw [M1.kept.cfg]; omega)
    rw [M1.wire, M1.kept.cfg] at M2
    refine ⟨t, ee, ?_, ?_, ct.trans ((State.others_control u).trans cu), fun _ => ?_, fun a => ?_⟩
    · unfold reinitBuffer
      rw [bind_of_ok (look_apply _ s), bind_of_ok hu, bind_of_ok (point_apply u)]
      exact ht
    · have M3 := M1.trans M2
      simpa only [reinitWrites, List.range'_succ, List.flatMap_cons, List.append_assoc] using M3
    · cases n with
      | zero =>
        have : t = u.others := by cases ht; rfl
        rw [this, State.others_done, hd]
      | succ n => exact hdone (by omega)
    · rw [hr, M1.ee, M1.kept.cfg, Memory.read_write _ h.memory.1, ha]
      by_cases e : a = s.cfg.first.toNat + i
      · rw [if_neg (by omega), if_pos e, if_pos (by omega), e]
        congr 1
        omega
      · rw [if_neg e]
        split <;> split <;> first | rfl | omega

/-! ## The tick-processing step -/

/-- Replay with no press and a bit left in the current byte (R198). -/
theorem stepReplay_bit {s : State} (hi : s.inp = true) (hbi : s.bi ≠ 8) :
    ∃ t, stepReplay s = .ok () t ∧ Calm s t ∧ t.control =
      { s.control with
        out := s.cur.getLsbD s.bi.toNat, outTrace := s.outTrace ++ [s.cur.getLsbD s.bi.toNat],
        bi := s.bi + 1, bc := if s.bi + 1 = 8 then nextReplay s.cfg s.bc else s.bc } := by
  obtain ⟨t, ht, k, c⟩ := Steers.driveBit s
  refine ⟨t, ?_, k, c⟩
  unfold stepReplay
  rw [bind_of_ok (show sample s = .ok false s by simp [sample, hi])]
  simp only [Bool.false_eq_true, if_false]
  rw [replayBit_eq, bind_of_ok (refill_none hbi)]
  exact ht

/-- Replay with no press and the bit cursor out of range (R198). -/
theorem stepReplay_refill {s : State} (h : Ready s) (hi : s.inp = true) (hbi : s.bi = 8)
    (hin : s.bc.toNat < s.cfg.eeSize) :
    ∃ t, stepReplay s = .ok () t ∧
      Moved s t s.ee (wireSettled s ++
        readEvents s.cfg.eeDev true [hiByte s.bc, loByte s.bc] (s.ee.read s.bc.toNat) ++ [.p]) ∧
      t.control = { s.control with
        cur := s.ee.read s.bc.toNat, out := (s.ee.read s.bc.toNat).getLsbD 0,
        outTrace := s.outTrace ++ [(s.ee.read s.bc.toNat).getLsbD 0], bi := 1 } := by
  obtain ⟨u, hu, M, cu⟩ := refill_moved h hbi hin
  obtain ⟨t, ht, k, c⟩ := Steers.driveBit u
  refine ⟨t, ?_, M.calm k, ?_⟩
  · unfold stepReplay
    rw [bind_of_ok (show sample s = .ok false s by simp [sample, hi])]
    simp only [Bool.false_eq_true, if_false]
    rw [replayBit_eq, bind_of_ok hu]
    exact ht
  · rw [c, cu]
    simp [State.control]

/-- Replay with a press (R197, R201). -/
theorem stepReplay_press {s : State} (hi : s.inp = false) :
    ∃ t, stepReplay s = .ok () t ∧ Calm s t ∧ t.control =
      { s.control with
        out := false, outTrace := s.outTrace ++ flashTrace 3, tie := true, cs := .recording,
        bc := s.cfg.first, bi := 0 } := by
  obtain ⟨t, ht, k, c⟩ := ((Steers.setCs .beginRecording).bind (Steers.point.bind Steers.beginAction)) s
  refine ⟨t, ?_, k, c⟩
  unfold stepReplay
  rw [bind_of_ok (show sample s = .ok true s by simp [sample, hi])]
  exact ht

/-- Recording, the byte not complete (R200). -/
theorem stepRecording_bit {s : State} (hc : s.cs = .recording) (hbi : s.bi ≠ 7) :
    ∃ t, stepRecording s = .ok () t ∧ Calm s t ∧
      t.control = { s.control with acc := accumulate s (!s.inp), bi := s.bi + 1 } := by
  obtain ⟨t, ht, k, c⟩ := takeSample_spec s
  have h8 : t.bi ≠ 8 := by
    have : t.bi = s.bi + 1 := congrArg Control.bi c
    rw [this]
    intro e
    apply hbi
    bv_omega
  have hcs : t.others.cs = .recording := by
    rw [State.others_cs, ← hc]
    exact congrArg Control.cs c
  refine ⟨t.others, ?_, k.trans (Calm.others t), (State.others_control t).trans c⟩
  unfold stepRecording
  rw [recordBit_eq, bind_of_ok (show (takeSample >>= fun _ => storeByte) s = .ok () t by
    rw [bind_of_ok ht]; exact storeByte_none h8), bind_of_ok (point_apply t), bind_of_ok (look_apply _ _),
    hcs]
  rfl

/-- Recording, the byte complete (R200, R202): it is stored, and past the end the end action follows. -/
theorem stepRecording_byte {s : State} (h : Ready s) (hc : s.cs = .recording) (hbi : s.bi = 7)
    (hin : s.bc.toNat < s.cfg.eeSize) :
    ∃ t, stepRecording s = .ok () t ∧
      Moved s t (s.ee.write s.bc.toNat (accumulate s (!s.inp))) (wireSettled s ++
        writeEvents s.cfg.eeDev true [hiByte s.bc, loByte s.bc, accumulate s (!s.inp)] ++ [.p]) ∧
      t.control =
        if lastAddr s.cfg < (s.bc + 1).toNat then
          { s.control with
            acc := accumulate s (!s.inp), out := false, outTrace := s.outTrace ++ flashTrace 5, tie := true,
            cs := .replay, bc := s.cfg.first, bi := 8 }
        else { s.control with acc := accumulate s (!s.inp), bc := s.bc + 1, bi := 0 } := by
  obtain ⟨u, hu, k, cu⟩ := takeSample_spec s
  have e1 : u.bi = 8 := by
    have : u.bi = s.bi + 1 := congrArg Control.bi cu
    rw [this, hbi]
    rfl
  have e2 : u.bc = s.bc := congrArg Control.bc cu
  have e3 : u.acc = accumulate s (!s.inp) := congrArg Control.acc cu
  have e4 : u.cs = .recording := (congrArg Control.cs cu).trans hc
  obtain ⟨v, hv, M, cv⟩ := storeByte_moved (k.ready h) e1 (by rw [e2, k.kept.cfg]; exact hin)
  rw [e2, e4, k.kept.cfg, cu] at cv
  have M2 := ((k.moved h).trans M).calm (Calm.others v)
  rw [k.wire, e2, e3, k.ee, k.kept.cfg] at M2
  have cv2 := (State.others_control v).trans cv
  have run : ∀ t, (if v.others.cs = .endRecording then endAction else pure ()) v.others = .ok () t →
      stepRecording s = .ok () t := by
    intro t ht
    unfold stepRecording
    rw [recordBit_eq, bind_of_ok (show (takeSample >>= fun _ => storeByte) s = .ok () v by
      rw [bind_of_ok hu]; exact hv), bind_of_ok (point_apply v), bind_of_ok (look_apply _ _)]
    exact ht
  by_cases hl : lastAddr s.cfg < (s.bc + 1).toNat
  · rw [if_pos hl] at cv2
    have hcs : v.others.cs = .endRecording := congrArg Control.cs cv2
    obtain ⟨t, ht, kt, ct⟩ := Steers.endAction v.others
    refine ⟨t, run t (by rw [if_pos hcs]; exact ht), M2.calm kt, ?_⟩
    rw [if_pos hl, ct, cv2, M2.kept.cfg]
    rfl
  · rw [if_neg hl] at cv2
    have hcs : v.others.cs = .recording := congrArg Control.cs cv2
    refine ⟨v.others, run _ (by rw [if_neg (by rw [hcs]; decide)]; rfl), M2, ?_⟩
    rw [if_neg hl, cv2]
    simp only [State.control, hc]

/-- SEQSTEP runs the step of the Controller State (R195). -/
theorem seqStep_of {s : State} (hp : s.ph = .idle) {m : Op Unit}
    (hm : m = match s.cs with
      | .replay => stepReplay
      | .recording => stepRecording
      | .beginRecording => beginAction
      | .endRecording => endAction) : seqStep s = m s := by
  have hr : requireIdle s = .ok () s := by simp [requireIdle, bind_apply, hp]
  unfold seqStep
  rw [bind_of_ok hr, bind_of_ok (look_apply _ s)]
  subst hm
  cases s.cs <;> rfl

theorem seqStep_replay {s : State} (hp : s.ph = .idle) (hc : s.cs = .replay) :
    seqStep s = stepReplay s := seqStep_of hp (by rw [hc])

theorem seqStep_recording {s : State} (hp : s.ph = .idle) (hc : s.cs = .recording) :
    seqStep s = stepRecording s := seqStep_of hp (by rw [hc])

theorem seqStep_beginRecording {s : State} (hp : s.ph = .idle) (hc : s.cs = .beginRecording) :
    seqStep s = beginAction s := seqStep_of hp (by rw [hc])

theorem seqStep_endRecording {s : State} (hp : s.ph = .idle) (hc : s.cs = .endRecording) :
    seqStep s = endAction s := seqStep_of hp (by rw [hc])

end Sys2Proof.Machine
end

