-- ==== Sys2Proof/Laws/Exec.lean ====
section
/-! SUPPORT. Every operation as one run of HOST lines, and what all of them keep. -/

namespace Sys2Proof.Machine

/-- The run of HOST lines of an operation; its result bytes are its answer. -/
def runOf : Instr → Op (List Byte)
  | .twinit khz => noResult (busInit khz)
  | .start => byteResult (Status.number <$> busStart)
  | .write b => byteResult (Status.number <$> busWrite b)
  | .read sendAck => byteResult (busRead sendAck)
  | .stop => noResult busStop
  | .wrreg dev reg val => noResult (wrreg dev reg val)
  | .rdreg dev reg => byteResult (rdreg dev reg)
  | .eerd dev addr => byteResult (eerd dev addr)
  | .eewr dev addr val => noResult (eewr dev addr val)
  | .eegetcur dev => cursorResult (eegetcur dev)
  | .eesetcur dev cursor => noResult (eesetcur dev cursor)
  | .rtcinit dev batt => byteResult (boolByte <$> rtcinit dev batt)
  | .rtcget dev => recordBytes <$> rtcget dev
  | .rtcset dev record => noResult (rtcset dev record)
  | .tobcd v => byteResult (tobcd v)
  | .frombcd b => byteResult (frombcd b)
  | .seqinit => noResult seqInit
  | .seqreinit => noResult seqReinit
  | .seqstep => noResult seqStep
  | .poll => noResult poll
  | .tmrcfg ms => noResult (timerConfig ms)
  | .tmrieon => noResult (timerMask true)
  | .tmrieoff => noResult (timerMask false)
  | .tick => noResult timerTick
  | .setin level => noResult (inputLevel level)

/-- An operation is its run of HOST lines. -/
theorem exec_eq (i : Instr) (s : State) : exec i s = finish (runOf i) s := by
  cases i <;> rfl

/-- The sequencer's operations (43_sequencer.md R190). -/
def sequencerOp (i : Instr) : Prop := i = .seqinit ∨ i = .seqreinit ∨ i = .seqstep ∨ i = .poll

open Op.Maintains in
/-- TICK is refused, or it sets PEND where it is enabled. -/
theorem timerTick_maintains {Q H : State → Prop}
    (h : ∀ s, tickEnabled s = true → Q s → Q { s with pend := true }) : Op.Maintains Q H timerTick := by
  intro s hs
  cases ht : tickEnabled s
  · have : timerTick s = .error (.refuse .tickNotEnabled) s := by simp [timerTick, bind_apply, ht]
    rw [this]
    trivial
  · have : timerTick s = .ok ⟨⟩ (tickInterrupt s) := by simp [timerTick, bind_apply, ht]
    rw [this]
    exact h s ht hs

open Op.Maintains in
/-- What the bus primitives keep, and an operation's own writes besides, every operation outside the
sequencer keeps. -/
theorem runOf_bus_maintains {Q H : State → Prop} (B : BusClosed Q H) (i : Instr) (hi : ¬ sequencerOp i)
    (hbr : ∀ khz, i = .twinit khz → ∀ s d, Q s → Q { s with br := some d })
    (hcfg : ∀ ms, i = .tmrcfg ms → ∀ s, Q s → Q { s with tcfg := some ms, tie := true })
    (htie : i = .tmrieon ∨ i = .tmrieoff → ∀ s v, Q s → Q { s with tie := v })
    (htick : i = .tick → ∀ s, tickEnabled s = true → Q s → Q { s with pend := true })
    (hset : ∀ level, i = .setin level → ∀ s, Q s → Q { s with inp := level }) :
    Op.Maintains Q H (runOf i) := by
  cases i with
  | twinit khz =>
    refine .noResult (of_bind (of_look _) (fun _ => of_bind (of_require _ _) (fun _ => of_bind (of_look _)
      (fun c => ?_))))
    cases divFor c khz with
    | none => exact of_refuse _
    | some d => exact of_modify _ (fun s h => hbr khz rfl s d h)
  | start => exact .byteResult (of_map _ B.start)
  | write b => exact .byteResult (of_map _ (B.write b))
  | read sendAck => exact .byteResult (B.read sendAck)
  | stop => exact .noResult B.stop
  | wrreg dev reg val => exact .noResult (B.writeTransaction dev _)
  | rdreg dev reg => exact .byteResult (B.readTransaction dev _)
  | eerd dev addr => exact .byteResult (B.readTransaction dev _)
  | eewr dev addr val => exact .noResult (B.writeTransaction dev _)
  | eegetcur dev => exact of_bind (B.eegetcur dev) (fun _ => of_pure _)
  | eesetcur dev cursor => exact .noResult (B.eesetcur dev cursor)
  | rtcinit dev batt => exact .byteResult (of_map _ (B.rtcinit dev batt))
  | rtcget dev => exact of_map _ (B.rtcget dev)
  | rtcset dev record => exact .noResult (B.rtcset dev record)
  | tobcd v => exact .byteResult (of_bind (of_require _ _) (fun _ => of_pure _))
  | frombcd b => exact .byteResult (of_pure _)
  | seqinit => exact absurd (.inl rfl) hi
  | seqreinit => exact absurd (.inr (.inl rfl)) hi
  | seqstep => exact absurd (.inr (.inr (.inl rfl))) hi
  | poll => exact absurd (.inr (.inr (.inr rfl))) hi
  | tmrcfg ms => exact .noResult (of_bind (of_require _ _) (fun _ => of_modify _ (fun s h => hcfg ms rfl s h)))
  | tmrieon => exact .noResult (of_modify _ (fun s h => htie (.inl rfl) s true h))
  | tmrieoff => exact .noResult (of_modify _ (fun s h => htie (.inr rfl) s false h))
  | tick => exact .noResult (timerTick_maintains (htick rfl))
  | setin level => exact .noResult (of_modify _ (fun s h => hset level rfl s h))

open Op.Maintains in
/-- What the bus primitives and the writes of the output and the cursors keep, SEQREINIT keeps. -/
theorem seqReinit_maintains {Q H : State → Prop} (B : BusClosed Q H)
    (hout : ∀ s v trace, Q s → Q { s with out := v, outTrace := trace })
    (hcur : ∀ s cs bc bi, Q s → Q { s with cs := cs, bc := bc, bi := bi }) :
    Op.Maintains Q H (runOf .seqreinit) := by
  have flash : ∀ n, Op.Maintains Q H (Machine.flash n) := by
    intro n
    induction n with
    | zero => exact of_pure _
    | succ n ih =>
      exact of_bind (of_look _) (fun _ => of_bind (of_modify _ (fun s h => hout s _ _ h)) (fun _ =>
        of_bind B.point (fun _ => of_bind (of_modify _ (fun s h => hout s _ _ h)) (fun _ =>
          of_bind B.point (fun _ => ih)))))
  have buffer : ∀ n i, Op.Maintains Q H (reinitBuffer n i) := by
    intro n
    induction n with
    | zero => exact fun _ => of_pure _
    | succ n ih =>
      exact fun i => of_bind (of_look _) (fun _ => of_bind (B.writeTransaction _ _) (fun _ =>
        of_bind B.point (fun _ => ih _)))
  exact .noResult (of_bind BusClosed.requireIdle (fun _ => of_bind (flash _) (fun _ => of_bind (of_look _)
    (fun _ => of_bind (buffer _ _) (fun _ => of_bind (flash _) (fun _ =>
      of_bind (of_modify _ (fun s h => hcur s _ s.bc s.bi h)) (fun _ =>
        of_modify _ (fun s h => hcur s s.cs _ _ h))))))))

open Op.Maintains in
/-- What the bus primitives and the sequencer's own writes keep, and each operation's own writes besides,
every operation keeps. -/
theorem runOf_maintains {Q H : State → Prop} (C : SeqClosed Q H) (i : Instr)
    (hbr : ∀ khz, i = .twinit khz → ∀ s d, Q s → Q { s with br := some d })
    (hcfg : ∀ ms, i = .tmrcfg ms → ∀ s, Q s → Q { s with tcfg := some ms, tie := true })
    (hpoll : i = .poll → ∀ s, Q s → Q { s with pend := false })
    (htick : i = .tick → ∀ s, tickEnabled s = true → Q s → Q { s with pend := true })
    (hset : ∀ level, i = .setin level → ∀ s, Q s → Q { s with inp := level }) :
    Op.Maintains Q H (runOf i) := by
  by_cases hi : sequencerOp i
  · rcases hi with rfl | rfl | rfl | rfl
    · exact .noResult C.seqInit
    · exact .noResult C.seqReinit
    · exact .noResult C.seqStep
    · exact .noResult (of_bind (of_look _) (fun _ => of_ite (fun _ => of_bind C.point (fun _ =>
        of_bind (of_modify _ (fun s h => hpoll rfl s h)) (fun _ => of_bind C.point (fun _ => C.seqStep))))
        (fun _ => of_pure _)))
  · exact runOf_bus_maintains C.toBusClosed i hi hbr hcfg
      (fun _ s v h => C.control s s.out s.outTrace v s.cs s.bc s.bi s.acc s.cur h) htick hset

/-- A relation that holds from each state to itself, that goes through in steps and that an operation keeps
from every state, holds from the state before the operation to the state after it. -/
theorem exec_relates {R : State → State → Prop} (hR : Chain R) (i : Instr)
    (hm : ∀ s₀, Op.Maintains (R s₀) (R s₀) (runOf i)) (hresp : ∀ s t r, R s t → R s { t with resp := r })
    (hhung : ∀ s t, R s t → R s { t with hung := true }) {s t : State} (h : exec i s = .next t) : R s t := by
  rw [exec_eq] at h
  exact finish_keeps (Op.Maintains.keeps hR hm) hresp hhung h

/-- Every operation leaves the engine at rest with nothing in flight, or hangs with it sound. -/
theorem runOf_quiet (i : Instr) : Op.Maintains Quiet Sound (runOf i) :=
  runOf_maintains Quiet.seqClosed i
    (fun _ _ _ _ h => ⟨⟨h.sound.config, h.sound.memory, fun _ => rfl, h.sound.stop_idle, h.sound.sel_open⟩,
      h.flight⟩)
    (fun _ _ _ h => ⟨h.sound.of_same rfl rfl rfl rfl rfl rfl rfl, h.flight⟩)
    (fun _ _ h => ⟨h.sound.of_same rfl rfl rfl rfl rfl rfl rfl, h.flight⟩)
    (fun _ _ _ h => ⟨h.sound.of_same rfl rfl rfl rfl rfl rfl rfl, h.flight⟩)
    (fun _ _ _ h => ⟨h.sound.of_same rfl rfl rfl rfl rfl rfl rfl, h.flight⟩)

/-- A relation that the primitives' frame implies. -/
theorem busClosed_of_frame {R : State → State → Prop} (hR : Chain R) (hf : ∀ s t, BusFrame s t → R s t)
    (s₀ : State) : BusClosed (R s₀) (R s₀) where
  start := .of_keeps hR (BusFrame.busStart.mono hf) s₀
  write b := .of_keeps hR ((BusFrame.busWrite b).mono hf) s₀
  read k := .of_keeps hR ((BusFrame.busRead k).mono hf) s₀
  stop := .of_keeps hR (BusFrame.busStop.mono hf) s₀
  point := .of_keeps hR (BusFrame.point.mono hf) s₀
  draw := .of_keeps hR (BusFrame.draw.mono hf) s₀

/-- A relation that the primitives' frame implies and the sequencer's own writes keep. -/
theorem seqClosed_of_frame {R : State → State → Prop} (hR : Chain R) (hf : ∀ s t, BusFrame s t → R s t)
    (hc : ∀ s out trace tie cs bc bi acc cur, R s (s.withControl out trace tie cs bc bi acc cur))
    (s₀ : State) : SeqClosed (R s₀) (R s₀) where
  toBusClosed := busClosed_of_frame hR hf s₀
  control := fun s _ _ _ _ _ _ _ _ h => hR.trans _ _ _ h (hc s _ _ _ _ _ _ _ _)

end Sys2Proof.Machine
end

