-- ==== Sys2Proof/Laws/Boot.lean ====
section
/-! SUPPORT. The boot order (70_reset_and_hazards.md R280) under a script's schedule is its operations one
after the other, the gate having sampled the input; and the gate by itself. -/

namespace Sys2Proof.Machine

/-- A piece that returns nothing, as an operation among others. -/
theorem execAll_cons_of_ok {i : Instr} {m : Op Unit} {s t : State} (rest : List Instr)
    (hi : runOf i = noResult m) (h : m s = .ok () t) : execAll (i :: rest) s = execAll rest t := by
  have : exec i s = .next t := by rw [exec_eq, hi]; exact finish_noResult h
  simp only [execAll, this]

/-- SEQREINIT keeps a script's schedule. -/
theorem seqReinit_scripted {s t : State} (hs : Scripted s) (h : seqReinit s = .ok () t) : Scripted t := by
  have hR : Chain (fun s t : State => Scripted s → Scripted t) :=
    ⟨fun _ => id, fun _ _ _ h k e => k (h e)⟩
  have := (seqClosed_of_frame hR (fun _ _ h => h.agenda) (fun _ _ _ _ _ _ _ _ _ => id) s).seqReinit s id
  rw [h] at this
  exact this hs

/-- With the input released the gate does nothing. -/
theorem bootGate_released {s : State} (h : s.inp = true) : bootGate s = .ok () s := by
  unfold bootGate sample
  rw [bind_of_ok (look_apply _ _), h]
  rfl

/-- With the input asserted the gate is SEQREINIT. -/
theorem bootGate_asserted {s : State} (h : s.inp = false) : bootGate s = seqReinit s.others := by
  unfold bootGate sample
  rw [bind_of_ok (look_apply _ _), h]
  rfl

/-- What the gate does is what its operations do. -/
theorem bootGate_ops {s t : State} (hs : Scripted s) (h : bootGate s = .ok () t) (rest : List Instr) :
    execAll ((if !s.inp then [.seqreinit] else []) ++ rest) s = execAll rest t ∧ Scripted t := by
  cases hi : s.inp
  · rw [bootGate_asserted hi, State.others_scripted hs] at h
    exact ⟨execAll_cons_of_ok rest rfl h, seqReinit_scripted hs h⟩
  · rw [bootGate_released hi] at h
    cases h
    exact ⟨rfl, hs⟩

/-- The boot order, where it runs to its end. -/
theorem boot_ops {s t : State} (hs : Scripted s) (h : boot s = .ok () t) :
    execAll (bootOps s.cfg (!s.inp)) s = .next t := by
  unfold boot at h
  rw [bind_of_ok (look_apply _ _), bind_of_ok (point_apply _), State.others_scripted hs] at h
  obtain ⟨_, u, hu, h⟩ := bind_ok_inv h
  have : Scripted u ∧ u.inp = s.inp := by
    unfold busInit at hu
    obtain ⟨_, v, hv, hu⟩ := bind_ok_inv hu
    cases hv
    obtain ⟨_, v, hv, hu⟩ := bind_ok_inv hu
    rw [require_apply] at hv
    split at hv <;> cases hv
    rw [bind_of_ok (look_apply _ _)] at hu
    cases hd : divFor s.cfg s.cfg.busKhz with
    | none =>
      simp only [hd] at hu
      cases hu
    | some d =>
      simp only [hd] at hu
      cases hu
      exact ⟨hs, rfl⟩
  rw [bind_of_ok (point_apply _), State.others_scripted this.1] at h
  obtain ⟨v, hv, hvs, hvi⟩ : ∃ v, seqInit u = .ok () v ∧ Scripted v ∧ v.inp = s.inp :=
    ⟨_, rfl, this.1, this.2⟩
  rw [bind_of_ok hv, bind_of_ok (point_apply _), State.others_scripted hvs] at h
  obtain ⟨_, w, hw, h⟩ := bind_ok_inv h
  obtain ⟨hg, hws⟩ := bootGate_ops hvs hw [.tmrcfg s.cfg.tickPeriodMs]
  rw [bind_of_ok (point_apply _), State.others_scripted hws] at h
  rw [hvi] at hg
  rw [bootOps, List.append_assoc, List.cons_append, List.cons_append, List.nil_append,
    execAll_cons_of_ok _ rfl hu, execAll_cons_of_ok _ rfl hv, hg, execAll_cons_of_ok _ rfl h]
  rfl

end Sys2Proof.Machine
end

