-- ==== Sys2Proof/Laws/Buffer.lean ====
section
/-! SUPPORT. Where a transaction with the EEPROM may store, whatever DevAck, BusOutcome, the BUS agent and the
schedule do: at the address it sent and nowhere else (41_register_protocol.md R156, R157; 10_state.md R51,
R54). From there, what the sequencer's operations may store (20_memory.md R61). -/

namespace Sys2Proof.Machine

/-! ## From one condition to another -/

/-- From a state with `P` the operation returns with `Q`, hangs with `H`, or is refused. -/
def Op.Leads {α : Type} (P Q H : State → Prop) (m : Op α) : Prop :=
  ∀ s, P s → match m s with
    | .ok _ t => Q t
    | .error .hang t => H t
    | .error (.refuse _) _ => True

theorem Op.Maintains.leads {α : Type} {Q H : State → Prop} {m : Op α} (h : Op.Maintains Q H m) :
    Op.Leads Q Q H m := h

theorem Op.Leads.maintains {α : Type} {Q H : State → Prop} {m : Op α} (h : Op.Leads Q Q H m) :
    Op.Maintains Q H m := h

theorem Op.Leads.bind {α β : Type} {P Q R H : State → Prop} {m : Op α} {f : α → Op β} (hm : Op.Leads P Q H m)
    (hf : ∀ a, Op.Leads Q R H (f a)) : Op.Leads P R H (m >>= f) := by
  intro s hs
  have h1 := hm s hs
  rw [bind_apply]
  cases h : m s with
  | ok a t =>
    rw [h] at h1
    exact hf a t h1
  | error e t =>
    rw [h] at h1
    cases e with
    | hang => exact h1
    | refuse r => trivial

theorem Op.Leads.mono {α : Type} {P P' Q Q' H H' : State → Prop} {m : Op α} (hm : Op.Leads P Q H m)
    (hp : ∀ s, P' s → P s) (hq : ∀ s, Q s → Q' s) (hh : ∀ s, H s → H' s) : Op.Leads P' Q' H' m := by
  intro s hs
  have h1 := hm s (hp s hs)
  revert h1
  cases m s with
  | ok a t => exact hq t
  | error e t =>
    cases e with
    | hang => exact hh t
    | refuse r => exact id

/-! ## The EEPROM's side of a transaction -/

/-- What decides where the EEPROM stores. -/
structure Spot where
  cfg : Config
  ee : Memory
  ph : Phase
  sel : Option DevAddr
  eeph : EePhase
  eeptr : Half

def State.spot (s : State) : Spot :=
  { cfg := s.cfg, ee := s.ee, ph := s.ph, sel := s.sel, eeph := s.eeph, eeptr := s.eeptr }

/-- A condition that the stop of an earlier transaction cannot end. -/
def Lasting (P : Spot → Prop) : Prop := ∀ k x, P k → P { k with sel := none, eeph := x }

theorem Lasting.settleStop {P : Spot → Prop} (hP : Lasting P) {s : State} (h : P s.spot) :
    P (settleStop s).spot := by
  rcases settleStop_cases s with e | ⟨_, n, e⟩
  · rw [e]; exact h
  · rw [e]; exact hP _ _ h

theorem Lasting.others {P : Spot → Prop} (hP : Lasting P) {s : State} (h : P s.spot) : P s.others.spot :=
  State.others_preserves (fun s => P s.spot)
    (fun e s h => by
      cases e with
      | tick => simp only [AgentStep.apply]; split <;> exact h
      | setInput b => exact h
      | rtcField f v => exact h
      | oscRun b => exact h
      | busStop => exact hP.settleStop h)
    (fun _ _ h => h) s h

/-- The wait: where the completion leads from `P` to `Q`, so does the whole wait. -/
theorem Lasting.awaitDone {P Q : Spot → Prop} {H : State → Prop} (hP : Lasting P) (hQ : Lasting Q)
    (hH : ∀ s, P s.spot → H s) (op : Inflight)
    (hc : Op.Leads (fun s => P s.spot) (fun s => Q s.spot) H (completion op)) :
    Op.Leads (fun s => P s.spot ∧ s.inflight = op) (fun s => Q s.spot) H awaitDone := by
  have hpoint : Op.Leads (fun s => P s.spot ∧ s.inflight = op) (fun s => P s.spot ∧ s.inflight = op) H point :=
    fun s h => ⟨hP.others h.1, by simpa using h.2⟩
  have hmust : Op.Leads (fun s => P s.spot ∧ s.inflight = op) (fun s => P s.spot ∧ s.inflight = op) H
      busMustStep := by
    intro s h
    unfold busMustStep
    cases hs : spendBusStep s with
    | none => exact hH s h.1
    | some t =>
      rw [spendBusStep_some hs]
      exact ⟨h.1, h.2⟩
  have hstop : Op.Leads (fun s => P s.spot ∧ s.inflight = op) (fun s => P s.spot ∧ s.inflight = op) H
      awaitStop :=
    Op.Maintains.leads (.of_bind (.of_look _) (fun _ => .of_ite
      (fun _ => .of_bind hmust.maintains (fun _ => .of_bind
        (.of_modify _ (fun s h => ⟨hP _ _ h.1, h.2⟩)) (fun _ => hpoint.maintains)))
      (fun _ => .of_pure _)))
  have hend : Op.Leads (fun s => P s.spot ∧ s.inflight = op) (fun s => Q s.spot) H completeInflight := by
    intro s h
    unfold completeInflight
    rw [bind_of_ok (look_apply _ _), h.2, bind_apply]
    have := hc s h.1
    revert this
    cases completion op s with
    | ok a t => exact id
    | error e t => cases e <;> exact id
  exact hpoint.bind (fun _ => hstop.bind (fun _ => hmust.bind (fun _ => hend.bind (fun _ =>
    fun s h => hQ.others h))))

/-- Issue, wait, read a register: the common shape of START, WRITE and READ. -/
theorem Lasting.issued {α : Type} {P Q : Spot → Prop} {H : State → Prop} (hP : Lasting P) (hQ : Lasting Q)
    (hH : ∀ s, P s.spot → H s) (op : Inflight) (f : State → α)
    (hc : Op.Leads (fun s => P s.spot) (fun s => Q s.spot) H (completion op)) :
    Op.Leads (fun s => P s.spot) (fun s => Q s.spot) H (do issue op; Machine.awaitDone; look f) :=
  Op.Leads.bind (Q := fun s => P s.spot ∧ s.inflight = op) (fun _ h => ⟨h, rfl⟩) (fun _ =>
    Op.Leads.bind (hP.awaitDone hQ hH op hc) (fun _ => fun _ h => h))

/-! ## The primitives -/

/-- START: a start that fails leaves the phase, one that succeeds awaits an address (R125, R130). -/
theorem Lasting.busStart {P : Spot → Prop} {H : State → Prop} (hP : Lasting P) (hH : ∀ s, P s.spot → H s)
    (hx : ∀ k, P k → P { k with ph := .addrPending }) :
    Op.Leads (fun s => P s.spot) (fun s => P s.spot) H busStart := by
  refine Op.Leads.bind (Op.Maintains.leads (.of_bind (.of_look _) (fun _ => .of_require _ _))) (fun _ =>
    hP.issued hP hH .start State.st ?_)
  have : Op.Maintains (fun s => P s.spot) H completeStart := by
    refine .of_bind ?_ (fun o => .of_bind (fun _ h => h) (fun d => ?_))
    · intro s h
      unfold busOutcome
      cases s.startScript <;> exact h
    · cases o with
      | some c => exact .of_modify _ (fun _ h => h)
      | none => exact .of_modify _ (fun _ h => hx _ h)
  exact this

/-- What the EEPROM's side of a transaction becomes by a data byte (10_state.md R51). -/
def Spot.takes (b : Byte) (k : Spot) : Spot :=
  match k.eeph with
  | .addrHi => { k with eeptr := joinBytes b (loByte k.eeptr), eeph := .addrLo }
  | .addrLo => { k with eeptr := joinBytes (hiByte k.eeptr) b, eeph := .data }
  | .data => { k with ee := k.ee.write k.eeptr.toNat b, eeph := .done }
  | .done => k
  | .devIdle => k

theorem eeTakes_spot (b : Byte) (s : State) :
    match eeTakes b s with
    | .ok _ t => t.spot = s.spot.takes b
    | .error .hang _ => False
    | .error (.refuse _) _ => True := by
  unfold eeTakes
  rw [bind_of_ok (get_apply s)]
  cases h : s.eeph with
  | addrHi => simp [Spot.takes, State.spot, h]
  | addrLo => simp [Spot.takes, State.spot, h]
  | data =>
    simp only [bind_apply, require_apply]
    cases decide (s.eeptr.toNat < s.cfg.eeSize)
    · trivial
    · simp [Spot.takes, State.spot, h]
  | done => trivial
  | devIdle => trivial

theorem rtcTakes_spot (b : Byte) (s : State) :
    match rtcTakes b s with
    | .ok _ t => t.spot = s.spot
    | .error .hang _ => False
    | .error (.refuse _) _ => True := by
  unfold rtcTakes
  rw [bind_of_ok (get_apply s)]
  cases s.rtcph <;> first | rfl | trivial

/-- A data byte: nothing moves, or the selected EEPROM takes it (R126, case MT). -/
theorem completeDataOut_spot {P Q : Spot → Prop} {H : State → Prop} (b : Byte) (hkeep : ∀ k, P k → Q k)
    (htake : ∀ k, P k → k.sel = some k.cfg.eeDev → Q (k.takes b)) :
    Op.Leads (fun s => P s.spot) (fun s => Q s.spot) H (completeDataOut b) := by
  intro s h
  unfold completeDataOut
  rw [bind_of_ok (look_apply _ _), bind_apply]
  cases hs : s.sel with
  | none => exact hkeep _ h
  | some a =>
    simp only [answerData]
    rw [bind_of_ok (devAck_apply true s)]
    have hk : ∀ t : State, t.spot = s.spot → Q t.spot := fun t e => by rw [e]; exact hkeep _ h
    cases ackAt s 0 true with
    | false => exact hkeep _ h
    | true =>
      simp only [takeIfAcked, if_true, deviceTakes, bind_apply, look_apply]
      by_cases he : a = s.cfg.eeDev
      · have e := eeTakes_spot b { s with ackScript := s.ackScript.tail }
        simp only [if_pos he]
        revert e
        cases eeTakes b { s with ackScript := s.ackScript.tail } with
        | ok u t =>
          intro e
          have : Q t.spot := by
            rw [e]
            exact htake _ h (hs.trans (congrArg some he))
          exact this
        | error x t =>
          cases x with
          | hang => exact False.elim
          | refuse r => exact id
      · simp only [if_neg he]
        by_cases hr : a = s.cfg.rtcDev
        · have e := rtcTakes_spot b { s with ackScript := s.ackScript.tail }
          simp only [if_pos hr]
          revert e
          cases rtcTakes b { s with ackScript := s.ackScript.tail } with
          | ok u t => exact fun e => hk t e
          | error x t =>
            cases x with
            | hang => exact False.elim
            | refuse r => exact id
        · simp only [if_neg hr]
          exact hkeep _ h

/-- An address byte (R126, case AddrPending). -/
theorem completeAddress_spot {P Q : Spot → Prop} {H : State → Prop} (b : Byte)
    (hq : ∀ k sel, P k →
      Q { k with ph := if dirOf b then .mr else .mt, sel := sel,
                 eeph := if dirOf b = false ∧ sel = some k.cfg.eeDev then .addrHi else k.eeph }) :
    Op.Leads (fun s => P s.spot) (fun s => Q s.spot) H (completeAddress b) := by
  intro s h
  obtain ⟨k, t, hk, ht⟩ : ∃ k t, devAck (decide (addrOf b = s.cfg.eeDev) || decide (addrOf b = s.cfg.rtcDev)) s =
      .ok k t ∧ t.spot = s.spot := ⟨_, _, devAck_apply _ s, rfl⟩
  unfold completeAddress
  rw [bind_of_ok (look_apply _ _), bind_of_ok hk, modify_apply]
  have := hq s.spot (if k then some (addrOf b) else none) h
  rw [← ht] at this
  refine Eq.mp (congrArg Q ?_) this
  cases k
  · simp [State.spot]
  · cases hd : dirOf b
    · by_cases he : addrOf b = t.cfg.eeDev
      · simp [State.spot, deviceAddressed, he]
      · by_cases hr : addrOf b = t.cfg.rtcDev
        · have hne : ¬ t.cfg.rtcDev = t.cfg.eeDev := hr ▸ he
          simp [State.spot, deviceAddressed, hr, hne]
        · simp [State.spot, deviceAddressed, he, hr]
    · simp [State.spot, deviceAddressed]

/-- WRITE: what its completion does in the phase it is issued in (R126). -/
theorem Lasting.busWrite {P Q : Spot → Prop} {H : State → Prop} (hP : Lasting P) (hQ : Lasting Q)
    (hH : ∀ s, P s.spot → H s) (b : Byte)
    (haddr : ∀ k sel, P k → k.ph = .addrPending →
      Q { k with ph := if dirOf b then .mr else .mt, sel := sel,
                 eeph := if dirOf b = false ∧ sel = some k.cfg.eeDev then .addrHi else k.eeph })
    (hkeep : ∀ k, P k → k.ph = .mt → Q k)
    (htake : ∀ k, P k → k.ph = .mt → k.sel = some k.cfg.eeDev → Q (k.takes b)) :
    Op.Leads (fun s => P s.spot) (fun s => Q s.spot) H (busWrite b) := by
  refine Op.Leads.bind (Op.Maintains.leads (.of_bind (.of_look _) (fun _ => .of_require _ _))) (fun _ =>
    Op.Leads.bind (Op.Maintains.leads (.of_look _)) (fun _ =>
      Op.Leads.bind (Op.Maintains.leads (.of_require _ _)) (fun _ =>
        Op.Leads.bind (Op.Maintains.leads (.of_modify _ (fun _ h => h))) (fun _ =>
          hP.issued hQ hH (.write b) State.st ?_))))
  intro s h
  simp only [completion, completeWrite]
  rw [bind_of_ok (look_apply _ _)]
  cases hp : s.ph with
  | idle => trivial
  | mr => trivial
  | addrPending =>
    exact completeAddress_spot (P := fun k => P k ∧ k.ph = .addrPending) b
      (fun k sel hk => haddr k sel hk.1 hk.2) s ⟨h, hp⟩
  | mt =>
    exact completeDataOut_spot (P := fun k => P k ∧ k.ph = .mt) b (fun k hk => hkeep k hk.1 hk.2)
      (fun k hk hs => htake k hk.1 hk.2 hs) s ⟨h, hp⟩

/-- READ moves nothing of it (R127). -/
theorem Lasting.busRead {P : Spot → Prop} {H : State → Prop} (hP : Lasting P) (hH : ∀ s, P s.spot → H s)
    (k : Bool) : Op.Leads (fun s => P s.spot) (fun s => P s.spot) H (busRead k) := by
  refine Op.Leads.bind (Op.Maintains.leads (.of_bind (.of_look _) (fun _ => .of_require _ _))) (fun _ =>
    Op.Leads.bind (Op.Maintains.leads (.of_look _)) (fun _ =>
      Op.Leads.bind (Op.Maintains.leads (.of_require _ _)) (fun _ =>
        hP.issued hP hH (.read k) State.dr ?_)))
  have : Op.Maintains (fun s => P s.spot) H (completeRead k) := by
    refine .of_bind (.of_look _) (fun sel => .of_bind (.of_bind (.of_look _) (fun c => ?_)) (fun _ =>
      .of_modify _ (fun _ h => h)))
    cases sel with
    | none => exact fun _ h => h
    | some a =>
      refine .of_ite (fun _ => ?_) (fun _ => .of_ite (fun _ => ?_) (fun _ _ h => h))
      · intro s h
        unfold eeSends
        simp only [bind_apply, get_apply, require_apply]
        cases s.eeSent
        · cases decide (s.eeptr.toNat < s.cfg.eeSize)
          · trivial
          · exact h
        · trivial
      · intro s h
        unfold rtcSends
        simp only [bind_apply, get_apply, require_apply]
        cases s.rtcSent
        · exact h
        · trivial
  exact this

/-- STOP (R128). -/
theorem busStop_spot {P : Spot → Prop} {H : State → Prop} (hx : ∀ k, P k → P { k with ph := .idle }) :
    Op.Leads (fun s => P s.spot) (fun s => P s.spot) H busStop :=
  Op.Maintains.leads (.of_bind (.of_bind (.of_look _) (fun _ => .of_require _ _)) (fun _ =>
    .of_bind (.of_look _) (fun _ => .of_bind (.of_require _ _) (fun _ => .of_bind (fun _ h => h) (fun _ =>
      .of_bind (fun _ h => h) (fun _ => .of_modify _ (fun _ h => hx _ h)))))))

/-! ## A transaction with the EEPROM -/

/-- The configuration is `c`, and every byte outside `B` is as in `m`. -/
structure Outside (c : Config) (B : Nat → Prop) (m : Memory) (k : Spot) : Prop where
  cfg : k.cfg = c
  wf : k.ee.wf = true
  ee : ∀ a, ¬ B a → k.ee.read a = m.read a

section Transaction

variable {c : Config} {B : Nat → Prop} {m : Memory}

/-- It speaks of the configuration and the array only. -/
theorem Outside.of_same {k l : Spot} (h : Outside c B m k) (hc : l.cfg = k.cfg) (he : l.ee = k.ee) :
    Outside c B m l := ⟨hc.trans h.cfg, he ▸ h.wf, he ▸ h.ee⟩

theorem Outside.lasting : Lasting (Outside c B m) := fun _ _ h => h.of_same rfl rfl

/-- Before the address byte of a transaction. -/
structure AtStart (c : Config) (B : Nat → Prop) (m : Memory) (k : Spot) : Prop where
  out : Outside c B m k
  ph : k.ph = .idle ∨ k.ph = .addrPending

/-- After it. -/
structure AtSelect (c : Config) (B : Nat → Prop) (m : Memory) (k : Spot) : Prop where
  out : Outside c B m k
  ph : k.ph = .mt
  at_ : k.sel = some k.cfg.eeDev → k.eeph = .addrHi

/-- After the high byte of the address, taken or not. -/
structure AtHigh (c : Config) (B : Nat → Prop) (m : Memory) (hi : Byte) (k : Spot) : Prop where
  out : Outside c B m k
  ph : k.ph = .mt
  at_ : k.sel = some k.cfg.eeDev → k.eeph = .addrHi ∨ (k.eeph = .addrLo ∧ hiByte k.eeptr = hi)

/-- After the low byte, taken or not: data may follow only if both were taken. -/
structure AtLow (c : Config) (B : Nat → Prop) (m : Memory) (addr : Half) (k : Spot) : Prop where
  out : Outside c B m k
  ph : k.ph = .mt
  at_ : k.sel = some k.cfg.eeDev → k.eeph = .addrHi ∨ k.eeph = .addrLo ∨ (k.eeph = .data ∧ k.eeptr = addr)

/-- Before the address byte that a repeated start was to make way for: awaited, or the repeated start failed. -/
structure AtRestart (c : Config) (B : Nat → Prop) (m : Memory) (addr : Half) (k : Spot) : Prop where
  out : Outside c B m k
  at_ : k.ph = .mt → k.sel = some k.cfg.eeDev →
    k.eeph = .addrHi ∨ k.eeph = .addrLo ∨ (k.eeph = .data ∧ k.eeptr = addr)

theorem AtStart.lasting : Lasting (AtStart c B m) := fun _ _ h => ⟨h.out.of_same rfl rfl, h.ph⟩
theorem AtSelect.lasting : Lasting (AtSelect c B m) := fun _ _ h => ⟨h.out.of_same rfl rfl, h.ph, nofun⟩
theorem AtHigh.lasting {hi : Byte} : Lasting (AtHigh c B m hi) := fun _ _ h =>
  ⟨h.out.of_same rfl rfl, h.ph, nofun⟩
theorem AtLow.lasting {addr : Half} : Lasting (AtLow c B m addr) := fun _ _ h =>
  ⟨h.out.of_same rfl rfl, h.ph, nofun⟩
theorem AtRestart.lasting {addr : Half} : Lasting (AtRestart c B m addr) := fun _ _ h =>
  ⟨h.out.of_same rfl rfl, nofun⟩

/-- The byte after the address is the only one that is stored, and at that address. -/
theorem takes_outside {addr : Half} (hB : B addr.toNat) (b : Byte) {k : Spot} (h : Outside c B m k)
    (hat : k.eeph = .addrHi ∨ k.eeph = .addrLo ∨ (k.eeph = .data ∧ k.eeptr = addr)) :
    Outside c B m (k.takes b) := by
  unfold Spot.takes
  rcases hat with e | e | ⟨e, e'⟩
  · rw [e]; exact h.of_same rfl rfl
  · rw [e]; exact h.of_same rfl rfl
  · rw [e, e']
    refine ⟨h.cfg, Memory.wf_write _ h.wf _ _, fun a ha => ?_⟩
    show (k.ee.write addr.toNat b).read a = _
    rw [Memory.read_write_other _ h.wf _ _ _ (fun e => ha (by rw [e]; exact hB)), h.ee a ha]

theorem takes_low {addr : Half} {k : Spot} (h : AtHigh c B m (hiByte addr) k)
    (hs : k.sel = some k.cfg.eeDev) : AtLow c B m addr (k.takes (loByte addr)) := by
  unfold Spot.takes
  rcases h.at_ hs with e | ⟨e, e'⟩
  · rw [e]
    exact ⟨h.out.of_same rfl rfl, h.ph, fun _ => .inr (.inl rfl)⟩
  · rw [e, e']
    exact ⟨h.out.of_same rfl rfl, h.ph, fun _ => .inr (.inr ⟨rfl, by simp⟩)⟩

theorem takes_high (hi : Byte) {k : Spot} (h : AtSelect c B m k) (hs : k.sel = some k.cfg.eeDev) :
    AtHigh c B m hi (k.takes hi) := by
  unfold Spot.takes
  rw [h.at_ hs]
  exact ⟨h.out.of_same rfl rfl, h.ph, fun _ => .inr ⟨rfl, by simp⟩⟩

/-- The bytes outside `B` are those of `m`. -/
abbrev OutsideKept (c : Config) (B : Nat → Prop) (m : Memory) (s : State) : Prop := Outside c B m s.spot

/-- A check reads only. -/
theorem chk_leads {P : State → Prop} {H : State → Prop} (ok : Bool) (e : Status) :
    Op.Leads P P H (chk ok e) :=
  Op.Maintains.leads (.of_bind (.of_look _) (fun _ => .of_ite (fun _ => .of_bind (.of_look _) (fun _ =>
    .of_pure _)) (fun _ => .of_pure _)))

theorem writeChk_leads {P Q : State → Prop} {H : State → Prop} {b : Byte} (h : Op.Leads P Q H (busWrite b))
    (ok : Bool) (e : Status) : Op.Leads P Q H (writeChk ok b e) := h.bind (fun _ => chk_leads ok e)

/-- Up to the select bytes: start, address for writing, the two bytes of the address. -/
theorem select_leads (dev : DevAddr) (addr : Half) (ok : Bool) :
    Op.Leads (fun s => AtStart c B m s.spot) (fun s => AtLow c B m addr s.spot) (OutsideKept c B m)
      (do
        let ok ← startChk ok .start
        let ok ← writeChk ok (slaW dev) .mtSlaAck
        let ok ← writeChk ok (hiByte addr) .mtDataAck
        writeChk ok (loByte addr) .mtDataAck) := by
  have hd : dirOf (slaW dev) = false := by simp
  refine Op.Leads.bind (Op.Leads.bind (AtStart.lasting.busStart (fun s h => h.out)
    (fun k h => ⟨h.out.of_same rfl rfl, .inr rfl⟩)) (fun _ => chk_leads ok .start)) (fun ok => ?_)
  refine Op.Leads.bind (writeChk_leads (AtStart.lasting.busWrite (Q := AtSelect c B m) AtSelect.lasting
    (fun s h => h.out) (slaW dev) ?_ ?_ ?_) ok .mtSlaAck) (fun ok => ?_)
  · intro k sel h _
    refine ⟨h.out.of_same rfl rfl, by simp [hd], fun e => ?_⟩
    exact if_pos ⟨hd, e⟩
  · intro k h hp
    rcases h.ph with e | e <;> rw [e] at hp <;> cases hp
  · intro k h hp
    rcases h.ph with e | e <;> rw [e] at hp <;> cases hp
  refine Op.Leads.bind (writeChk_leads (AtSelect.lasting.busWrite (Q := AtHigh c B m (hiByte addr))
    AtHigh.lasting (fun s h => h.out) (hiByte addr) ?_ ?_ ?_) ok .mtDataAck) (fun ok => ?_)
  · intro k sel h hp
    rw [h.ph] at hp; cases hp
  · exact fun k h _ => ⟨h.out, h.ph, fun e => .inl (h.at_ e)⟩
  · exact fun k h _ hs => takes_high _ h hs
  refine writeChk_leads (AtHigh.lasting.busWrite (Q := AtLow c B m addr) AtLow.lasting (fun s h => h.out)
    (loByte addr) ?_ ?_ ?_) ok .mtDataAck
  · intro k sel h hp
    rw [h.ph] at hp; cases hp
  · exact fun k h _ => ⟨h.out, h.ph, fun e => (h.at_ e).imp_right (fun p => .inl p.1)⟩
  · exact fun k h _ hs => takes_low h hs

/-- A transaction starts with the engine idle. -/
theorem start_leads {α : Type} {f : Op α} {Q : State → Prop}
    (h : Op.Leads (fun s => AtStart c B m s.spot) Q (OutsideKept c B m) f) :
    Op.Leads (OutsideKept c B m) Q (OutsideKept c B m) (do requireIdle; f) := by
  intro s hs
  unfold requireIdle
  rw [bind_apply, bind_of_ok (look_apply _ _), require_apply]
  by_cases hp : s.ph = .idle
  · rw [if_pos (by simpa using hp)]
    exact h s ⟨hs, .inl hp⟩
  · rw [if_neg (by simpa using hp)]
    trivial

/-- EEWR at an address of `B` changes no byte outside `B`, whatever happens meanwhile (R157). -/
theorem eewr_outside (dev : DevAddr) {addr : Half} (hB : B addr.toNat) (val : Byte) :
    Op.Maintains (OutsideKept c B m) (OutsideKept c B m) (eewr dev addr val) := by
  have hx : ∀ k : Spot, Outside c B m k → Outside c B m { k with ph := .idle } := fun k h => h.of_same rfl rfl
  have hlast (ok : Bool) : Op.Leads (fun s => AtLow c B m addr s.spot) (OutsideKept c B m) (OutsideKept c B m)
      (do let _ ← writeChk ok val .mtDataAck; busStop) := by
    refine Op.Leads.bind (writeChk_leads (AtLow.lasting.busWrite (Q := Outside c B m) Outside.lasting
      (fun s h => h.out) val ?_ ?_ ?_) ok .mtDataAck) (fun _ => busStop_spot hx)
    · intro k sel h hp
      rw [h.ph] at hp; cases hp
    · exact fun k h _ => h.out
    · exact fun k h _ hs => takes_outside hB val h.out (h.at_ hs)
  refine Op.Leads.maintains (start_leads ?_)
  have := Op.Leads.bind (select_leads (c := c) (B := B) (m := m) dev addr true) hlast
  intro s hs
  have k := this s hs
  simpa only [writeAll, bind_assoc, pure_bind] using k

/-- EERD at an address of `B` likewise: where its repeated start fails, the byte meant as an address is data
(R130, R156). -/
theorem eerd_outside (dev : DevAddr) {addr : Half} (hB : B addr.toNat) :
    Op.Maintains (OutsideKept c B m) (OutsideKept c B m) (eerd dev addr) := by
  have hx : ∀ k : Spot, Outside c B m k → Outside c B m { k with ph := .idle } := fun k h => h.of_same rfl rfl
  have hlast (ok : Bool) : Op.Leads (fun s => AtLow c B m addr s.spot) (OutsideKept c B m) (OutsideKept c B m)
      (do
        let ok ← startChk ok .rstart
        let ok ← writeChk ok (slaR dev) .mrSlaAck
        let v ← busRead false
        let ok ← chk ok .mrDataNack
        busStop
        pure (if ok then v else 0x00)) := by
    refine Op.Leads.bind (Q := fun s => AtRestart c B m addr s.spot) (Op.Leads.bind
      ((AtRestart.lasting.busStart (fun s h => h.out) (fun k h => ⟨h.out.of_same rfl rfl, nofun⟩)).mono
        (fun s h => ⟨h.out, fun _ => h.at_⟩) (fun _ h => h) (fun _ h => h)) (fun _ => chk_leads ok .rstart))
      (fun ok => ?_)
    refine Op.Leads.bind (writeChk_leads (AtRestart.lasting.busWrite (Q := Outside c B m) Outside.lasting
      (fun s h => h.out) (slaR dev) ?_ ?_ ?_) ok .mrSlaAck) (fun ok => ?_)
    · exact fun k sel h _ => h.out.of_same rfl rfl
    · exact fun k h _ => h.out
    · exact fun k h hp hs => takes_outside hB _ h.out (h.at_ hp hs)
    exact Op.Leads.bind (Outside.lasting.busRead (fun s h => h) false) (fun v =>
      Op.Leads.bind (chk_leads ok .mrDataNack) (fun ok => Op.Leads.bind (busStop_spot hx) (fun _ =>
        fun _ h => h)))
  refine Op.Leads.maintains (start_leads ?_)
  have := Op.Leads.bind (select_leads (c := c) (B := B) (m := m) dev addr true) hlast
  intro s hs
  have k := this s hs
  simpa only [writeAll, bind_assoc, pure_bind] using k

/-! ## The sequencer -/

/-- A piece that touches no bus touches no byte. -/
theorem Outside.calm {s t : State} (h : Outside c B m s.spot) (k : Calm s t) : Outside c B m t.spot :=
  h.of_same k.kept.cfg k.ee

theorem Steers.leads {n : Op Unit} {f : Config → Control → Control} (h : Steers n f) :
    Op.Leads (OutsideKept c B m) (OutsideKept c B m) (OutsideKept c B m) n := by
  intro s hs
  obtain ⟨t, ht, k, _⟩ := h s
  rw [ht]
  exact Outside.calm hs k

/-- The tick-processing step stores in `B` if the byte cursor is there. -/
theorem seqStep_outside : Op.Leads (fun s => OutsideKept c B m s ∧ B s.bc.toNat) (OutsideKept c B m)
    (OutsideKept c B m) seqStep := by
  rintro s ⟨hs, hB⟩
  have hcalm : ∀ {n : Op Unit} {t : State}, n s = .ok () t → Calm s t →
      Op.Leads (fun x => x = s) (OutsideKept c B m) (OutsideKept c B m) n := by
    rintro n t ht k _ rfl
    rw [ht]
    exact Outside.calm hs k
  by_cases hp : s.ph = .idle
  · cases hc : s.cs with
    | beginRecording =>
      rw [seqStep_beginRecording hp hc]
      exact Steers.beginAction.leads s hs
    | endRecording =>
      rw [seqStep_endRecording hp hc]
      exact Steers.endAction.leads s hs
    | replay =>
      rw [seqStep_replay hp hc]
      cases hi : s.inp with
      | false =>
        obtain ⟨t, ht, k, _⟩ := stepReplay_press hi
        exact hcalm ht k s rfl
      | true =>
        by_cases h8 : s.bi = 8
        · have hr : Op.Leads (fun t => t = s) (OutsideKept c B m) (OutsideKept c B m) replayBit := by
            rw [replayBit_eq]
            refine Op.Leads.bind ?_ (fun _ => Steers.driveBit.leads)
            rintro _ rfl
            unfold refill
            rw [bind_of_ok (get_apply _), if_pos h8]
            exact Op.Maintains.of_bind (eerd_outside _ hB)
              (fun v => .of_modify (fun t => { t with cur := v, bi := 0 }) (fun _ h => h)) _ hs
          have := hr s rfl
          unfold stepReplay
          rw [bind_of_ok (show sample s = .ok false s by simp [sample, hi])]
          exact this
        · obtain ⟨t, ht, k, _⟩ := stepReplay_bit hi h8
          exact hcalm ht k s rfl
    | recording =>
      rw [seqStep_recording hp hc]
      by_cases h7 : s.bi = 7
      · obtain ⟨t, ht, k, kc⟩ := takeSample_spec s
        have h8 : t.bi = 8 := by
          have : t.bi = s.bi + 1 := congrArg Control.bi kc
          rw [this, h7]
          rfl
        have hbc : t.bc = s.bc := congrArg Control.bc kc
        have ht' : OutsideKept c B m t := Outside.calm hs k
        have hr : Op.Leads (fun u => u = t) (OutsideKept c B m) (OutsideKept c B m) storeByte := by
          rintro _ rfl
          unfold storeByte
          rw [bind_of_ok (get_apply _), if_pos h8]
          exact Op.Maintains.of_bind (eewr_outside _ (hbc.symm ▸ hB) _) (fun _ =>
            .of_bind Steers.point.leads.maintains (fun _ => .of_modify advanceRecord (fun _ h => h))) _ ht'
        unfold stepRecording
        have : recordBit s = storeByte t := by rw [recordBit_eq, bind_of_ok ht]
        rw [bind_apply, this]
        have hst := hr t rfl
        revert hst
        cases storeByte t with
        | ok _ u =>
          exact fun hu => Op.Maintains.of_bind Steers.point.leads.maintains (fun _ => .of_bind (.of_look _)
            (fun _ => .of_ite (fun _ => Steers.endAction.leads.maintains) (fun _ => .of_pure _))) u hu
        | error e u => cases e <;> exact id
      · obtain ⟨t, ht, k, _⟩ := stepRecording_bit hc h7
        exact hcalm ht k s rfl
  · unfold seqStep requireIdle
    simp [bind_apply, hp]

/-- SEQREINIT's writes store at the addresses it goes through. -/
theorem reinitBuffer_outside (n i : Nat) (hB : ∀ j, i ≤ j → j < i + n → B (c.first + BitVec.ofNat 16 j).toNat) :
    Op.Maintains (OutsideKept c B m) (OutsideKept c B m) (reinitBuffer n i) := by
  induction n generalizing i with
  | zero => exact .of_pure _
  | succ n ih =>
    intro s hs
    unfold reinitBuffer
    rw [bind_of_ok (look_apply _ _)]
    refine Op.Maintains.of_bind (eewr_outside _ ?_ _) (fun _ => .of_bind Steers.point.leads.maintains (fun _ =>
      ih (i + 1) (fun j h1 h2 => hB j (by omega) (by omega)))) s hs
    rw [show s.cfg = c from hs.cfg]
    exact hB i (Nat.le_refl i) (by omega)

theorem seqReinit_outside (hB : ∀ j, j < c.count → B (c.first + BitVec.ofNat 16 j).toNat) :
    Op.Maintains (OutsideKept c B m) (OutsideKept c B m) seqReinit := by
  refine .of_bind BusClosed.requireIdle (fun _ => .of_bind (Steers.flash _).leads.maintains (fun _ => ?_))
  intro s hs
  rw [bind_of_ok (look_apply _ _)]
  refine Op.Maintains.of_bind ?_ (fun _ => .of_bind (Steers.flash _).leads.maintains (fun _ =>
    Steers.seqInit.leads.maintains)) s hs
  rw [show s.cfg = c from hs.cfg]
  exact reinitBuffer_outside _ _ (fun j _ h => hB j (by omega))

end Transaction

end Sys2Proof.Machine
end

