-- ==== Sys2Proof/Laws/Encoding.lean ====
section
/-! SUPPORT. The operand bytes of the command stream (30_encoding.md R101, R102): reading back what was
written, and, per format, what bytes a decoded operation came from and which are refused. -/

namespace Sys2Proof

/-! ## Operand bytes -/

@[simp] theorem decodeDev_encodeDev : ∀ d : DevAddr, decodeDev (encodeDev d) = some d := by decide

@[simp] theorem decodeFlag_encodeFlag : ∀ k : Bool, decodeFlag (encodeFlag k) = some k := by decide

@[simp] theorem decodeHflags_encodeHflags :
    ∀ m p : Bool, decodeHflags (encodeHflags m p) = some (m, p) := by decide

theorem encodeDev_decodeDev {b : Byte} {d : DevAddr} (h : decodeDev b = some d) : encodeDev d = b := by
  have key : ∀ b : Byte, (decodeDev b).all (fun d => encodeDev d = b) = true := by decide
  have := key b
  rw [h] at this
  simpa using this

theorem encodeFlag_decodeFlag {b : Byte} {k : Bool} (h : decodeFlag b = some k) : encodeFlag k = b := by
  have key : ∀ b : Byte, (decodeFlag b).all (fun k => encodeFlag k = b) = true := by decide
  have := key b
  rw [h] at this
  simpa using this

theorem encodeHflags_decodeHflags {b : Byte} {p : Bool × Bool} (h : decodeHflags b = some p) :
    encodeHflags p.1 p.2 = b := by
  have key : ∀ b : Byte, (decodeHflags b).all (fun p => encodeHflags p.1 p.2 = b) = true := by decide
  have := key b
  rw [h] at this
  simpa using this

theorem decodeDev_none : ∀ b : Byte, decodeDev b = none ↔ b &&& 0x80 ≠ 0#8 := by decide

theorem decodeFlag_none : ∀ b : Byte, decodeFlag b = none ↔ b &&& 0xFE ≠ 0#8 := by decide

theorem decodeHflags_none : ∀ b : Byte, decodeHflags b = none ↔ b &&& 0xFC ≠ 0#8 := by decide

@[simp] theorem hiByte_append (h l : Byte) : hiByte (h ++ l) = h := Machine.hiByte_joinBytes h l

@[simp] theorem loByte_append (h l : Byte) : loByte (h ++ l) = l := Machine.loByte_joinBytes h l

@[simp] theorem append_hiByte_loByte (x : Half) : (hiByte x ++ loByte x : Half) = x :=
  Machine.joinBytes_hiByte_loByte x

/-! ## What a decoded operation came from -/

variable {i : Instr} {bs rest : List Byte}

theorem reservedUnless_ok {α : Type} {o : Option α} {f : α → Instr} {r : List Byte}
    (h : reservedUnless o f r = .ok (i, rest)) : ∃ a, o = some a ∧ i = f a ∧ rest = r := by
  cases o with
  | none => cases h
  | some a => cases h; exact ⟨a, rfl, rfl, rfl⟩

theorem operandsB_ok {f : Byte → Instr} (h : operandsB f bs = .ok (i, rest)) :
    ∃ b, bs = b :: rest ∧ i = f b := by
  unfold operandsB at h
  split at h
  · cases h; exact ⟨_, rfl, rfl⟩
  · cases h

theorem operandsK_ok {f : Bool → Instr} (h : operandsK f bs = .ok (i, rest)) :
    ∃ k, bs = encodeFlag k :: rest ∧ i = f k := by
  unfold operandsK at h
  split at h
  · obtain ⟨k, hk, rfl, rfl⟩ := reservedUnless_ok h
    exact ⟨k, by rw [encodeFlag_decodeFlag hk], rfl⟩
  · cases h

theorem operandsH_ok {f : Half → Instr} (h : operandsH f bs = .ok (i, rest)) :
    ∃ x, bs = hiByte x :: loByte x :: rest ∧ i = f x := by
  unfold operandsH at h
  split at h
  · cases h; exact ⟨_, by rw [hiByte_append, loByte_append], rfl⟩
  · cases h

theorem operandsD_ok {f : DevAddr → Instr} (h : operandsD f bs = .ok (i, rest)) :
    ∃ d, bs = encodeDev d :: rest ∧ i = f d := by
  unfold operandsD at h
  split at h
  · obtain ⟨d, hd, rfl, rfl⟩ := reservedUnless_ok h
    exact ⟨d, by rw [encodeDev_decodeDev hd], rfl⟩
  · cases h

theorem operandsDK_ok {f : DevAddr → Bool → Instr} (h : operandsDK f bs = .ok (i, rest)) :
    ∃ d k, bs = encodeDev d :: encodeFlag k :: rest ∧ i = f d k := by
  unfold operandsDK at h
  split at h
  · split at h
    · rename_i hd
      obtain ⟨k, hk, rfl, rfl⟩ := reservedUnless_ok h
      exact ⟨_, k, by rw [encodeDev_decodeDev hd, encodeFlag_decodeFlag hk], rfl⟩
    · cases h
  · cases h

theorem operandsDR_ok {f : DevAddr → Byte → Instr} (h : operandsDR f bs = .ok (i, rest)) :
    ∃ d r, bs = encodeDev d :: r :: rest ∧ i = f d r := by
  unfold operandsDR at h
  split at h
  · obtain ⟨d, hd, rfl, rfl⟩ := reservedUnless_ok h
    exact ⟨d, _, by rw [encodeDev_decodeDev hd], rfl⟩
  · cases h

theorem operandsDRV_ok {f : DevAddr → Byte → Byte → Instr} (h : operandsDRV f bs = .ok (i, rest)) :
    ∃ d r v, bs = encodeDev d :: r :: v :: rest ∧ i = f d r v := by
  unfold operandsDRV at h
  split at h
  · obtain ⟨d, hd, rfl, rfl⟩ := reservedUnless_ok h
    exact ⟨d, _, _, by rw [encodeDev_decodeDev hd], rfl⟩
  · cases h

theorem operandsDA_ok {f : DevAddr → Half → Instr} (h : operandsDA f bs = .ok (i, rest)) :
    ∃ d a, bs = encodeDev d :: hiByte a :: loByte a :: rest ∧ i = f d a := by
  unfold operandsDA at h
  split at h
  · obtain ⟨d, hd, rfl, rfl⟩ := reservedUnless_ok h
    exact ⟨d, _, by rw [encodeDev_decodeDev hd, hiByte_append, loByte_append], rfl⟩
  · cases h

theorem operandsDAV_ok {f : DevAddr → Half → Byte → Instr} (h : operandsDAV f bs = .ok (i, rest)) :
    ∃ d a v, bs = encodeDev d :: hiByte a :: loByte a :: v :: rest ∧ i = f d a v := by
  unfold operandsDAV at h
  split at h
  · obtain ⟨d, hd, rfl, rfl⟩ := reservedUnless_ok h
    exact ⟨d, _, _, by rw [encodeDev_decodeDev hd, hiByte_append, loByte_append], rfl⟩
  · cases h

theorem operandsDT_ok {f : DevAddr → TimeRecord → Instr} (h : operandsDT f bs = .ok (i, rest)) :
    ∃ d r, bs = encodeDev d :: (encodeRecord r ++ rest) ∧ i = f d r ∧ r.fits = true := by
  unfold operandsDT at h
  split at h
  · split at h
    · rename_i hd
      obtain ⟨p, hp, rfl, rfl⟩ := reservedUnless_ok h
      have lt : ∀ b : Byte, b.toNat < 256 := fun b => b.isLt
      refine ⟨_, _, ?_, rfl, by simp only [TimeRecord.fits, lt, decide_true, Bool.and_true]⟩
      simp [encodeRecord, encodeDev_decodeDev hd, encodeHflags_decodeHflags hp]
    · cases h
  · cases h

/-! ## What is written is read back -/

theorem decodeRecord_encodeRecord {f : DevAddr → TimeRecord → Instr} (d : DevAddr) {r : TimeRecord}
    (h : r.fits = true) (rest : List Byte) :
    operandsDT f (encodeDev d :: (encodeRecord r ++ rest)) = .ok (f d r, rest) := by
  cases r
  simp only [TimeRecord.fits, Bool.and_eq_true, decide_eq_true_eq] at h
  obtain ⟨⟨⟨⟨⟨⟨h1, h2⟩, h3⟩, h4⟩, h5⟩, h6⟩, h7⟩ := h
  simp [operandsDT, encodeRecord, reservedUnless, Nat.mod_eq_of_lt, h1, h2, h3, h4, h5, h6, h7]

end Sys2Proof
end

