-- ==== Sys2Proof/Laws/Hang.lean ====
section
/-! SUPPORT. Where an operation hangs: in AwaitDone only, with a primitive in flight (40_bus_primitives.md R121,
R122), whatever the state it started from. -/

namespace Sys2Proof.Machine

open Op.Maintains

/-- A primitive is in flight. -/
abbrev InFlight (s : State) : Prop := s.inflight ≠ .none

/-- An operation may hang only with a primitive in flight. -/
abbrev HangsInFlight {α : Type} (m : Op α) : Prop := Op.Maintains (fun _ => True) InFlight m

/-- A piece that never hangs. -/
abbrev NeverHangs {α : Type} (m : Op α) : Prop := Op.Maintains (fun _ => True) (fun _ => False) m

theorem NeverHangs.draw : NeverHangs draw := fun _ _ => trivial

theorem NeverHangs.devAck (b : Bool) : NeverHangs (devAck b) := fun s _ => by
  unfold Sys2Proof.Machine.devAck
  cases s.ackScript <;> trivial

theorem NeverHangs.busOutcome : NeverHangs busOutcome := fun s _ => by
  unfold Sys2Proof.Machine.busOutcome
  cases s.startScript <;> trivial

theorem NeverHangs.eeTakes (b : Byte) : NeverHangs (eeTakes b) := fun s _ => by
  unfold Sys2Proof.Machine.eeTakes
  rw [bind_of_ok (get_apply s)]
  cases s.eeph with
  | data =>
    simp only [bind_apply, require_apply]
    cases decide (s.eeptr.toNat < s.cfg.eeSize) <;> trivial
  | _ => trivial

theorem NeverHangs.rtcTakes (b : Byte) : NeverHangs (rtcTakes b) := fun s _ => by
  unfold Sys2Proof.Machine.rtcTakes
  rw [bind_of_ok (get_apply s)]
  cases s.rtcph <;> trivial

theorem NeverHangs.completeStart : NeverHangs completeStart := by
  refine of_bind busOutcome (fun o => of_bind draw (fun d => ?_))
  cases o <;> exact of_modify _ (fun _ _ => trivial)

theorem NeverHangs.answerData (b : Byte) (sel : Option DevAddr) : NeverHangs (answerData b sel) := by
  cases sel with
  | none => exact of_pure _
  | some a =>
    exact of_bind (devAck _) (fun k => of_bind (of_ite
      (fun _ => of_bind (of_look _) (fun _ => of_ite (fun _ => eeTakes b)
        (fun _ => of_ite (fun _ => rtcTakes b) (fun _ => of_pure _))))
      (fun _ => of_pure _)) (fun _ => of_pure _))

theorem NeverHangs.completeWrite (b : Byte) : NeverHangs (completeWrite b) := by
  refine of_bind (of_look _) (fun ph => ?_)
  cases ph with
  | idle => exact of_refuse _
  | addrPending =>
    exact of_bind (of_look _) (fun _ => of_bind (devAck _) (fun _ => of_modify _ (fun _ _ => trivial)))
  | mt =>
    exact of_bind (of_look _) (fun sel => of_bind (answerData b sel) (fun _ =>
      of_modify _ (fun _ _ => trivial)))
  | mr => exact of_refuse _

theorem NeverHangs.deviceSends (sel : Option DevAddr) : NeverHangs (deviceSends sel) := by
  refine of_bind (of_look _) (fun c => ?_)
  cases sel with
  | none => exact draw
  | some a =>
    refine of_ite (fun _ => fun s _ => ?_) (fun _ => of_ite (fun _ => fun s _ => ?_) (fun _ => draw))
    · unfold eeSends
      simp only [bind_apply, get_apply, require_apply]
      cases s.eeSent <;> cases decide (s.eeptr.toNat < s.cfg.eeSize) <;> trivial
    · unfold rtcSends
      simp only [bind_apply, get_apply, require_apply]
      cases s.rtcSent <;> trivial

/-- The BUS agent's completion never hangs. -/
theorem NeverHangs.completeInflight : NeverHangs completeInflight := by
  refine of_bind (of_look _) (fun op => of_bind ?_ (fun _ => of_modify _ (fun _ _ => trivial)))
  cases op with
  | none => exact of_pure _
  | start => exact completeStart
  | write b => exact completeWrite b
  | read k => exact of_bind (of_look _) (fun sel => of_bind (deviceSends sel) (fun _ =>
      of_modify _ (fun _ _ => trivial)))

/-- The wait hangs only with the primitive still in flight. -/
theorem awaitDone_hangs (s u : State) (hs : InFlight s) (h : awaitDone s = .error .hang u) : InFlight u := by
  have hpoint : ∀ t, InFlight t → InFlight t.others := fun t ht => by
    rw [InFlight, State.others_inflight]; exact ht
  have hmust : ∀ t, InFlight t → match busMustStep t with
      | .ok _ v => InFlight v
      | .error _ v => InFlight v := fun t ht => by
    unfold busMustStep
    cases hq : spendBusStep t with
    | none => exact ht
    | some v => rw [spendBusStep_some hq]; exact ht
  have hstop : Op.Maintains InFlight InFlight awaitStop := by
    refine of_bind (of_look _) (fun _ => of_ite (fun _ => of_bind (fun t ht => ?_) (fun _ =>
      of_bind (of_modify _ (fun _ ht => ht)) (fun _ => hpoint))) (fun _ => of_pure _))
    have := hmust t ht
    revert this
    cases busMustStep t with
    | ok a v => exact id
    | error e v => cases e with
      | hang => exact id
      | refuse r => exact fun _ => trivial
  unfold awaitDone at h
  rw [bind_of_ok (point_apply s), bind_apply] at h
  have h1 := hstop s.others (hpoint s hs)
  cases hw : awaitStop s.others with
  | error e v =>
    rw [hw] at h h1
    cases h
    exact h1
  | ok a v =>
    rw [hw] at h h1
    simp only [bind_apply] at h
    have h2 := hmust v h1
    cases hb : busMustStep v with
    | error e x =>
      rw [hb] at h h2
      cases h
      exact h2
    | ok a x =>
      rw [hb] at h
      have h3 := NeverHangs.completeInflight x trivial
      cases hc : Sys2Proof.Machine.completeInflight x with
      | ok a y => simp only [hc] at h; cases h
      | error e y =>
        rw [hc] at h3
        simp only [hc] at h
        cases h
        exact h3.elim

/-- Issue, wait, read a register: the common shape of START, WRITE and READ. -/
theorem HangsInFlight.issued {α : Type} (op : Inflight) (ho : op ≠ .none) (f : State → α) :
    HangsInFlight (do issue op; awaitDone; look f : Op α) := fun s _ => by
  rw [bind_of_ok (show issue op s = .ok ⟨⟩ { s with done := false, inflight := op } from rfl), bind_apply]
  cases hw : awaitDone { s with done := false, inflight := op } with
  | ok a t => trivial
  | error e t =>
    cases e with
    | hang => exact awaitDone_hangs _ t ho hw
    | refuse r => trivial

theorem HangsInFlight.requireBus : HangsInFlight requireBus := of_bind (of_look _) (fun _ => of_require _ _)

/-- Of every operation. -/
theorem HangsInFlight.seqClosed : SeqClosed (fun _ => True) InFlight where
  start := of_bind requireBus (fun _ => issued .start nofun State.st)
  write b := of_bind requireBus (fun _ => of_bind (of_look _) (fun _ => of_bind (of_require _ _) (fun _ =>
    of_bind (of_modify _ (fun _ _ => trivial)) (fun _ => issued (.write b) nofun State.st))))
  read k := of_bind requireBus (fun _ => of_bind (of_look _) (fun _ => of_bind (of_require _ _) (fun _ =>
    issued (.read k) nofun State.dr)))
  stop := of_bind requireBus (fun _ => of_bind (of_look _) (fun _ => of_bind (of_require _ _) (fun _ =>
    of_bind (fun _ _ => trivial) (fun _ => of_bind (fun _ _ => trivial) (fun _ =>
      of_modify _ (fun _ _ => trivial))))))
  point := fun _ _ => trivial
  draw := fun _ _ => trivial
  control := fun _ _ _ _ _ _ _ _ _ _ => trivial

/-- Only the hang itself sets the mark of a stuck HOST. -/
theorem runOf_hung (i : Instr) (s : State) : Op.Maintains (fun t => t.hung = s.hung) (fun t => t.hung = s.hung)
    (runOf i) :=
  runOf_maintains (seqClosed_of_frame (R := fun s t => t.hung = s.hung) ⟨fun _ => rfl, fun _ _ _ h k => k.trans h⟩
    (fun _ _ h => h.hung) (fun _ _ _ _ _ _ _ _ _ => rfl) s) i
    (fun _ _ _ _ h => h) (fun _ _ _ h => h) (fun _ _ h => h) (fun _ _ _ h => h) (fun _ _ _ h => h)

/-- An operation that leaves the HOST stuck leaves a primitive in flight. -/
theorem exec_hangs_inFlight {i : Instr} {s t : State} (h : exec i s = .next t) (hs : s.hung = false)
    (ht : t.hung = true) : InFlight t := by
  rw [exec_eq] at h
  have h1 := runOf_maintains HangsInFlight.seqClosed i (fun _ _ _ _ _ => trivial) (fun _ _ _ _ => trivial)
    (fun _ _ _ => trivial) (fun _ _ _ _ => trivial) (fun _ _ _ _ => trivial) s trivial
  have h2 := runOf_hung i s s rfl
  rcases finish_next h with ⟨bytes, u, hu, rfl⟩ | ⟨u, hu, rfl⟩
  · rw [hu] at h2
    exact absurd (h2.symm.trans ht) (by rw [hs]; decide)
  · rw [hu] at h1
    exact h1

end Sys2Proof.Machine
end

