-- ==== Sys2Proof/Laws/PerInstr.lean ====
section
/-! SUPPORT. Statements made once per instruction. -/

/-- 30_encoding.md R101, R103, R106: the encoding starts with an opcode byte of the map and has the length of
that row's format. -/
def Sys2Proof.Laws.EncodedLength.Statement (i : Sys2Proof.Instr) : Prop :=
  ∃ f, Sys2Proof.formatOf ((Sys2Proof.encode i).headD 0xFF) = some f ∧
    (Sys2Proof.encode i).length = f.length

namespace Sys2Proof.Laws.EncodedLength

open Sys2Proof

theorem twinit (khz : Half) : Statement (.twinit khz) := ⟨_, rfl, rfl⟩
theorem start : Statement .start := ⟨_, rfl, rfl⟩
theorem write (b : Byte) : Statement (.write b) := ⟨_, rfl, rfl⟩
theorem read (sendAck : Bool) : Statement (.read sendAck) := ⟨_, rfl, rfl⟩
theorem stop : Statement .stop := ⟨_, rfl, rfl⟩
theorem wrreg (dev : DevAddr) (reg : Byte) (val : Byte) : Statement (.wrreg dev reg val) := ⟨_, rfl, rfl⟩
theorem rdreg (dev : DevAddr) (reg : Byte) : Statement (.rdreg dev reg) := ⟨_, rfl, rfl⟩
theorem eerd (dev : DevAddr) (addr : Half) : Statement (.eerd dev addr) := ⟨_, rfl, rfl⟩
theorem eewr (dev : DevAddr) (addr : Half) (val : Byte) : Statement (.eewr dev addr val) := ⟨_, rfl, rfl⟩
theorem eegetcur (dev : DevAddr) : Statement (.eegetcur dev) := ⟨_, rfl, rfl⟩
theorem eesetcur (dev : DevAddr) (cursor : Half) : Statement (.eesetcur dev cursor) := ⟨_, rfl, rfl⟩
theorem rtcinit (dev : DevAddr) (batt : Bool) : Statement (.rtcinit dev batt) := ⟨_, rfl, rfl⟩
theorem rtcget (dev : DevAddr) : Statement (.rtcget dev) := ⟨_, rfl, rfl⟩
theorem rtcset (dev : DevAddr) (record : TimeRecord) : Statement (.rtcset dev record) := ⟨_, rfl, rfl⟩
theorem tobcd (v : Byte) : Statement (.tobcd v) := ⟨_, rfl, rfl⟩
theorem frombcd (b : Byte) : Statement (.frombcd b) := ⟨_, rfl, rfl⟩
theorem seqinit : Statement .seqinit := ⟨_, rfl, rfl⟩
theorem seqreinit : Statement .seqreinit := ⟨_, rfl, rfl⟩
theorem seqstep : Statement .seqstep := ⟨_, rfl, rfl⟩
theorem poll : Statement .poll := ⟨_, rfl, rfl⟩
theorem tmrcfg (ms : Half) : Statement (.tmrcfg ms) := ⟨_, rfl, rfl⟩
theorem tmrieon : Statement .tmrieon := ⟨_, rfl, rfl⟩
theorem tmrieoff : Statement .tmrieoff := ⟨_, rfl, rfl⟩
theorem tick : Statement .tick := ⟨_, rfl, rfl⟩
theorem setin (level : Bool) : Statement (.setin level) := ⟨_, rfl, rfl⟩

end Sys2Proof.Laws.EncodedLength
end

