-- ==== Sys2Proof/Laws/Rtc.lean ====
section
/-! SUPPORT. The RTC operations as chains of single-register transactions (42_rtc_protocol.md R174, R176,
R178), with whatever device. -/

namespace Sys2Proof.Machine

/-- Between two transactions of a chain that began in `s`: the state is ready for the next, the wire with a
pending stop on it is `w`, and under a script's schedule the RTC's registers hold `m`. -/
structure Link (s t : State) (w : List WireEvent) (m : Memory) : Prop where
  next : Next s t
  wire : wireSettled t = w
  rtc : s.agenda = [] → t.rtcreg = m

theorem Link.start {s : State} (h : Ready s) : Link s s (wireSettled s) s.rtcreg :=
  ⟨Next.refl h, rfl, fun _ => rfl⟩

theorem Link.agenda {s t : State} {w : List WireEvent} {m : Memory} (k : Link s t w m)
    (h : s.agenda = []) : t.agenda = [] := k.next.frame.agenda h

theorem Link.cfg {s t : State} {w : List WireEvent} {m : Memory} (k : Link s t w m) : t.cfg = s.cfg :=
  k.next.frame.cfg

/-- An interleaving point of the chain. -/
theorem Link.point {s t : State} {w : List WireEvent} {m : Memory} (k : Link s t w m) :
    Link s t.others w m :=
  ⟨k.next.others, (wireSettled_others t).trans k.wire,
    fun h => by rw [State.others_scripted (k.agenda h)]; exact k.rtc h⟩

/-- A transaction of the chain has just ended: its stop is pending. -/
structure Ended (u : State) (w : List WireEvent) : Prop where
  ph : u.ph = .idle
  inflight : u.inflight = .none
  wire : u.wire = w

/-- WRREG in a chain. -/
theorem Link.wrreg {s t : State} {w : List WireEvent} {m : Memory} (k : Link s t w m) (dev : DevAddr)
    (reg val : Byte) :
    ∃ u, Machine.wrreg dev reg val t = .ok () u ∧
      Ended u (w ++ writeEvents dev (answers s.cfg dev) [reg, val]) ∧
      Link s u (w ++ writeEvents dev (answers s.cfg dev) [reg, val] ++ [.p])
        (if dev = s.cfg.rtcDev then m.write reg.toNat val else m) := by
  obtain ⟨u, x, h1, h2, h3, h4, h5⟩ := wrreg_any k.next.ready dev reg val
  rw [k.wire, k.cfg] at h3
  refine ⟨u, h1, ⟨congrArg View.ph h2.after.view, h2.after.inflight,
    (congrArg View.wire h2.after.view).trans h3⟩, h2.next k.next h4, by rw [wireSettled_ran h2, h3],
    fun ha => ?_⟩
  rw [h5 (k.agenda ha), k.cfg, k.rtc ha]

/-- RDREG in a chain; the EEPROM must have the byte. -/
theorem Link.rdreg {s t : State} {w : List WireEvent} {m : Memory} (k : Link s t w m) (dev : DevAddr)
    (reg : Byte) (hin : dev = s.cfg.eeDev → s.cfg.eeSize = 65536) :
    ∃ v u, Machine.rdreg dev reg t =
        .ok (if s.cfg.monitored && !answers s.cfg dev then 0x00 else v) u ∧
      Ended u (w ++ readEvents dev (answers s.cfg dev) [reg] v) ∧
      Link s u (w ++ readEvents dev (answers s.cfg dev) [reg] v ++ [.p]) m ∧
      (s.agenda = [] → dev = s.cfg.rtcDev → v = m.read reg.toNat) := by
  obtain ⟨v, u, x, h1, h2, h3, h4, h5⟩ := rdreg_any k.next.ready dev reg
    (fun e => by rw [k.cfg] at e ⊢; rw [hin e]; exact (joinBytes reg (loByte t.eeptr)).isLt)
  rw [k.wire, k.cfg] at h3
  rw [k.cfg] at h1
  refine ⟨v, u, h1, ⟨congrArg View.ph h2.after.view, h2.after.inflight,
    (congrArg View.wire h2.after.view).trans h3⟩,
    ⟨h2.next k.next h4, by rw [wireSettled_ran h2, h3], fun ha => ?_⟩, fun ha e => ?_⟩
  · rw [(h5 (k.agenda ha)).1, k.rtc ha]
  · rw [(h5 (k.agenda ha)).2 (by rw [k.cfg]; exact e), k.rtc ha]

/-- From the RTC itself RDREG returns the register. -/
theorem Link.rdreg_rtc {s t : State} {w : List WireEvent} {m : Memory} (k : Link s t w m) (ha : s.agenda = [])
    (reg : Byte) :
    ∃ u, Machine.rdreg s.cfg.rtcDev reg t = .ok (m.read reg.toNat) u ∧
      Ended u (w ++ readEvents s.cfg.rtcDev true [reg] (m.read reg.toNat)) ∧
      Link s u (w ++ readEvents s.cfg.rtcDev true [reg] (m.read reg.toNat) ++ [.p]) m := by
  have hne := configValid_devices k.next.ready.config
  rw [k.cfg] at hne
  obtain ⟨v, u, h1, h2, h3, h4⟩ := k.rdreg s.cfg.rtcDev reg (fun e => absurd e.symm hne)
  rw [answers_rtc] at h1 h2 h3
  rw [← h4 ha rfl]
  exact ⟨u, by simpa using h1, h2, h3⟩

/-- To the RTC itself WRREG writes the register. -/
theorem Link.wrreg_rtc {s t : State} {w : List WireEvent} {m : Memory} (k : Link s t w m) (reg val : Byte) :
    ∃ u, Machine.wrreg s.cfg.rtcDev reg val t = .ok () u ∧
      Ended u (w ++ writeEvents s.cfg.rtcDev true [reg, val]) ∧
      Link s u (w ++ writeEvents s.cfg.rtcDev true [reg, val] ++ [.p]) (m.write reg.toNat val) := by
  obtain ⟨u, h1, h2, h3⟩ := k.wrreg s.cfg.rtcDev reg val
  rw [answers_rtc] at h2 h3
  rw [if_pos rfl] at h3
  exact ⟨u, h1, h2, h3⟩

end Sys2Proof.Machine
end

