-- ==== Sys2Proof/Laws/Sent.lean ====
section
/-! SUPPORT. A device is marked as having sent its byte only inside a transaction, or until its stop is on the
wire: every operation keeps this, whatever the devices, the schedule and the oracles do (10_state.md R51, R53;
log 15). -/

namespace Sys2Proof.Machine

/-- The mark speaks of these registers only. -/
theorem SentOpen.of_same {s t : State} (h : SentOpen s) (he : t.eeSent = s.eeSent) (hr : t.rtcSent = s.rtcSent)
    (hp : t.ph = s.ph) (hs : t.stopping = s.stopping) : SentOpen t := by
  unfold SentOpen at h ⊢
  rw [he, hr, hp, hs]
  exact h

/-- Inside a transaction nothing is asked of the mark. -/
theorem SentOpen.of_open {s : State} (h : s.ph ≠ .idle) : SentOpen s := fun _ => .inl h

theorem SentOpen.completeStop (s : State) : SentOpen (completeStop s) := fun e => by
  rcases e with e | e <;> cases e

theorem SentOpen.settleStop {s : State} (h : SentOpen s) : SentOpen (settleStop s) := by
  rcases settleStop_cases s with e | ⟨_, n, e⟩
  · rw [e]; exact h
  · rw [e]; exact SentOpen.completeStop _

theorem SentOpen.others {s : State} (h : SentOpen s) : SentOpen s.others :=
  State.others_preserves SentOpen
    (fun e s h => by
      cases e with
      | tick =>
        simp only [AgentStep.apply]
        split
        · exact h.of_same rfl rfl rfl rfl
        · exact h
      | setInput b => exact h.of_same rfl rfl rfl rfl
      | rtcField f v => exact h.of_same rfl rfl rfl rfl
      | oscRun b => exact h.of_same rfl rfl rfl rfl
      | busStop => exact h.settleStop)
    (fun _ _ h => h.of_same rfl rfl rfl rfl) s h

/-- While a primitive is in flight: as `SentOpen`, and a byte is read only inside a transaction. -/
structure SentFlight (s : State) : Prop where
  sent : SentOpen s
  reading : ∀ k, s.inflight = .read k → s.ph ≠ .idle

/-- Between primitives: as `SentOpen`, with nothing in flight. -/
structure SentQuiet (s : State) : Prop where
  sent : SentOpen s
  flight : s.inflight = .none

theorem SentFlight.others {s : State} (h : SentFlight s) : SentFlight s.others :=
  ⟨h.sent.others, by simpa using h.reading⟩

theorem SentQuiet.others {s : State} (h : SentQuiet s) : SentQuiet s.others :=
  ⟨h.sent.others, by simpa using h.flight⟩

open Op.Maintains

theorem SentOpen.devAck (b : Bool) : Op.Maintains SentOpen SentOpen (devAck b) := by
  intro s h
  unfold Sys2Proof.Machine.devAck
  cases s.ackScript with
  | nil => exact h
  | cons a l => exact h.of_same rfl rfl rfl rfl

theorem SentOpen.busOutcome : Op.Maintains SentOpen SentOpen busOutcome := by
  intro s h
  unfold Sys2Proof.Machine.busOutcome
  cases s.startScript with
  | nil => exact h
  | cons a l => exact h.of_same rfl rfl rfl rfl

theorem SentOpen.draw : Op.Maintains SentOpen SentOpen draw := fun _ h => h.of_same rfl rfl rfl rfl

theorem SentOpen.completeStart : Op.Maintains SentOpen SentOpen completeStart := by
  refine of_bind busOutcome (fun o => of_bind draw (fun d => ?_))
  cases o with
  | some c => exact of_modify _ (fun _ h => h.of_same rfl rfl rfl rfl)
  | none => exact of_modify _ (fun _ _ => .of_open (by simp))

theorem SentOpen.completeAddress (b : Byte) : Op.Maintains SentOpen SentOpen (completeAddress b) :=
  of_bind (of_look _) (fun c => of_bind (devAck _) (fun k => of_modify _ (fun s _ =>
    .of_open (show (if dirOf b then Phase.mr else Phase.mt) ≠ .idle by split <;> decide))))

theorem SentOpen.eeTakes (b : Byte) : Op.Maintains SentOpen SentOpen (eeTakes b) := by
  intro s h
  unfold Sys2Proof.Machine.eeTakes
  rw [bind_of_ok (get_apply s)]
  cases s.eeph with
  | addrHi => exact h.of_same rfl rfl rfl rfl
  | addrLo => exact h.of_same rfl rfl rfl rfl
  | data =>
    simp only [bind_apply, require_apply]
    cases decide (s.eeptr.toNat < s.cfg.eeSize)
    · trivial
    · exact h.of_same rfl rfl rfl rfl
  | done => trivial
  | devIdle => trivial

theorem SentOpen.rtcTakes (b : Byte) : Op.Maintains SentOpen SentOpen (rtcTakes b) := by
  intro s h
  unfold Sys2Proof.Machine.rtcTakes
  rw [bind_of_ok (get_apply s)]
  cases s.rtcph with
  | reg => exact h.of_same rfl rfl rfl rfl
  | data => exact h.of_same rfl rfl rfl rfl
  | done => trivial
  | devIdle => trivial

theorem SentOpen.answerData (b : Byte) (sel : Option DevAddr) :
    Op.Maintains SentOpen SentOpen (answerData b sel) := by
  cases sel with
  | none => exact of_pure _
  | some a =>
    exact of_bind (devAck _) (fun k => of_bind (of_ite
      (fun _ => of_bind (of_look _) (fun _ => of_ite (fun _ => eeTakes b)
        (fun _ => of_ite (fun _ => rtcTakes b) (fun _ => of_pure _))))
      (fun _ => of_pure _)) (fun _ => of_pure _))

theorem SentOpen.completeWrite (b : Byte) : Op.Maintains SentOpen SentOpen (completeWrite b) := by
  refine of_bind (of_look _) (fun ph => ?_)
  cases ph with
  | idle => exact of_refuse _
  | addrPending => exact completeAddress b
  | mt =>
    exact of_bind (of_look _) (fun sel => of_bind (answerData b sel) (fun _ =>
      of_modify _ (fun _ h => h.of_same rfl rfl rfl rfl)))
  | mr => exact of_refuse _

/-- A phase that is not Idle. -/
abbrev InTransaction (s : State) : Prop := s.ph ≠ .idle

/-- READ leaves the phase as it is. -/
theorem completeRead_inTransaction (k : Bool) :
    Op.Maintains InTransaction InTransaction (completeRead k) := by
  refine of_bind (of_look _) (fun sel => of_bind (of_bind (of_look _) (fun c => ?_)) (fun _ =>
    of_modify _ (fun _ h => h)))
  cases sel with
  | none => exact fun _ h => h
  | some a =>
    refine of_ite (fun _ => ?_) (fun _ => of_ite (fun _ => ?_) (fun _ _ h => h))
    · intro s h
      unfold eeSends
      simp only [bind_apply, get_apply, require_apply]
      cases s.eeSent
      · cases decide (s.eeptr.toNat < s.cfg.eeSize)
        · trivial
        · exact h
      · trivial
    · intro s h
      unfold rtcSends
      simp only [bind_apply, get_apply, require_apply]
      cases s.rtcSent
      · exact h
      · trivial

/-- The completion of whatever is in flight. -/
theorem SentFlight.completeInflight : Op.Maintains SentFlight SentOpen completeInflight := by
  intro s h
  unfold Sys2Proof.Machine.completeInflight
  rw [bind_of_ok (look_apply _ _), bind_apply]
  have done : ∀ t, SentOpen t → SentFlight { t with inflight := .none, done := true } := fun t ht =>
    ⟨ht.of_same rfl rfl rfl rfl, nofun⟩
  cases hf : s.inflight with
  | none => exact done _ h.sent
  | start =>
    have := SentOpen.completeStart s h.sent
    simp only [completion]
    revert this
    cases completeStart s with
    | ok a t => exact fun k => done _ k
    | error e t => cases e <;> exact id
  | write b =>
    have := SentOpen.completeWrite b s h.sent
    simp only [completion]
    revert this
    cases completeWrite b s with
    | ok a t => exact fun k => done _ k
    | error e t => cases e <;> exact id
  | read k =>
    have := completeRead_inTransaction k s (h.reading k hf)
    simp only [completion]
    revert this
    cases completeRead k s with
    | ok a t => exact fun k => done _ (.of_open k)
    | error e t =>
      cases e with
      | hang => exact fun k => .of_open k
      | refuse r => exact id

/-- The wait. -/
theorem SentFlight.awaitDone : Op.Maintains SentFlight SentOpen awaitDone := by
  have hpoint : Op.Maintains SentFlight SentOpen point := fun _ h => h.others
  have hmust : Op.Maintains SentFlight SentOpen busMustStep := by
    intro s h
    unfold busMustStep
    cases hs : spendBusStep s with
    | none => exact h.sent
    | some t =>
      rw [spendBusStep_some hs]
      exact ⟨h.sent.of_same rfl rfl rfl rfl, h.reading⟩
  refine of_bind hpoint (fun _ => of_bind (of_bind (of_look _) (fun _ => of_ite (fun _ => ?_)
    (fun _ => of_pure _))) (fun _ => of_bind hmust (fun _ => of_bind completeInflight (fun _ => hpoint))))
  exact of_bind hmust (fun _ => of_bind (of_modify _ (fun s h => ⟨SentOpen.completeStop s, h.reading⟩))
    (fun _ => hpoint))

/-- A wait that ends leaves nothing in flight. -/
theorem awaitDone_flight (s u : State) (h : awaitDone s = .ok () u) : u.inflight = .none := by
  unfold awaitDone at h
  obtain ⟨_, t, _, h⟩ := bind_ok_inv h
  obtain ⟨_, t, _, h⟩ := bind_ok_inv h
  obtain ⟨_, t, _, h⟩ := bind_ok_inv h
  obtain ⟨_, w, hw, h⟩ := bind_ok_inv h
  unfold completeInflight at hw
  obtain ⟨_, x, _, hw⟩ := bind_ok_inv hw
  obtain ⟨_, y, _, hw⟩ := bind_ok_inv hw
  cases hw
  cases h
  simp

/-- Issue, wait, read a register: the common shape of START, WRITE and READ. -/
theorem issued_sent {α : Type} {s : State} (op : Inflight) (f : State → α) (h : SentOpen s)
    (hr : ∀ k, op = .read k → s.ph ≠ .idle) :
    match (do issue op; awaitDone; look f : Op α) s with
    | .ok _ t => SentQuiet t
    | .error .hang t => SentOpen t
    | .error (.refuse _) _ => True := by
  rw [bind_of_ok (show issue op s = .ok ⟨⟩ { s with done := false, inflight := op } from rfl), bind_apply]
  have h1 := SentFlight.awaitDone { s with done := false, inflight := op }
    ⟨h.of_same rfl rfl rfl rfl, fun k e => hr k e⟩
  have h2 : ∀ u, Sys2Proof.Machine.awaitDone { s with done := false, inflight := op } = .ok () u →
      u.inflight = .none := awaitDone_flight _
  cases hw : Sys2Proof.Machine.awaitDone { s with done := false, inflight := op } with
  | ok a t =>
    rw [hw] at h1
    exact ⟨h1.sent, h2 t hw⟩
  | error e t =>
    rw [hw] at h1
    cases e with
    | hang => exact h1
    | refuse r => trivial

/-- Every primitive keeps it. -/
theorem SentQuiet.closed : BusClosed SentQuiet SentOpen where
  start := by
    intro s h
    unfold busStart
    rw [bind_apply, requireBus_apply]
    cases s.br.isSome
    · trivial
    · exact issued_sent .start State.st h.sent nofun
  write := by
    intro b s h
    unfold busWrite
    rw [bind_apply, requireBus_apply]
    cases s.br.isSome
    · trivial
    · simp only [if_true]
      rw [bind_of_ok (look_apply _ _), bind_apply]
      cases s.ph.canWrite
      · trivial
      · exact issued_sent (s := { s with dr := b }) (.write b) State.st (h.sent.of_same rfl rfl rfl rfl) nofun
  read := by
    intro k s h
    unfold busRead
    rw [bind_apply, requireBus_apply]
    cases s.br.isSome
    · trivial
    · simp only [if_true]
      rw [bind_of_ok (look_apply _ _), bind_apply, require_apply]
      by_cases hp : s.ph = .mr
      · rw [if_pos (by simpa using hp)]
        exact issued_sent (.read k) State.dr h.sent (fun _ _ => by rw [hp]; decide)
      · rw [if_neg (by simpa using hp)]
        trivial
  stop := by
    intro s h
    unfold busStop
    rw [bind_apply, requireBus_apply]
    cases s.br.isSome
    · trivial
    · simp only [if_true]
      rw [bind_of_ok (look_apply _ _), bind_apply]
      cases decide (s.ph ≠ .idle)
      · trivial
      · exact ⟨fun _ => .inr rfl, h.flight⟩
  point := fun _ h => h.others
  draw := fun _ h => ⟨h.sent.of_same rfl rfl rfl rfl, h.flight⟩

/-- The sequencer's own writes leave the mark alone. -/
theorem SentQuiet.seqClosed : SeqClosed SentQuiet SentOpen :=
  { SentQuiet.closed with
    control := fun _ _ _ _ _ _ _ _ _ h => ⟨h.sent.of_same rfl rfl rfl rfl, h.flight⟩ }

end Sys2Proof.Machine
end

