-- ==== Sys2Proof/Tests/Slice0.lean ====
section
/-! SUPPORT. Our own tests. Expected values come from spec/95_test_vectors.md (V numbers) or are worked out
by hand from the rule named. The last part shows, for each obligation with hypotheses, a state and operands
that meet them. -/

-- Each theorem is checked before the next is read, so that few checks are under way at once.
set_option Elab.async false

namespace Sys2Proof.Tests

open Sys2Proof Sys2Proof.Machine

/-! ## Small states -/

/-- A field of the state after an operation, if it completes. -/
def after {α : Type} (i : Instr) (s : State) (f : State → α) : Option α :=
  match exec i s with
  | .next t => some (f t)
  | .fault _ => none
  | .refused _ => none

/-- Why an operation is refused, if it is. -/
def refusal (i : Instr) (s : State) : Option Refusal :=
  match exec i s with
  | .next _ => none
  | .fault _ => none
  | .refused r => some r

/-- The state after one step of the machine, if there is one. -/
def stepped (s : State) : Option State :=
  match step s with
  | .next t => some t
  | .fault _ => none
  | .refused _ => none

/-- After TWINIT 100, with these device contents. -/
def up (ee rtcreg : Memory) : State :=
  { State.powerUp Config.reference ee rtcreg true with br := some 72 }

/-- After TWINIT 100. -/
def bus : State := up [] []

/-- The reference configuration with an EEPROM that ends behind the sample buffer. -/
def small : Config := { Config.reference with eeSize := 22 }

/-- After TWINIT 100, with that EEPROM. -/
def smallBus : State := { State.powerUp small [] [] true with br := some 72 }

/-- A write transaction with the EEPROM is open, its phase as given. -/
def eeOpen (ph : EePhase) (ptr : Half) : State :=
  { bus with ph := .mt, sel := some 0x50, eeph := ph, eeptr := ptr }

/-- A write transaction with the RTC is open, its phase as given. -/
def rtcOpen (ph : RtcPhase) : State := { bus with ph := .mt, sel := some 0x6F, rtcph := ph }

/-- The sequencer at the given place. -/
def at_ (cs : Ctl) (bc : Half) (bi : BitVec 4) : State := { bus with cs := cs, bc := bc, bi := bi }

/-! ## Ill-formed operations are refused by the check (30_encoding.md R101) -/

def record : TimeRecord := ⟨15, 12, 31, 5, 23, false, true, 59, 15⟩

theorem test_wf_record : (Instr.rtcset 0x6F record).wf = true := by decide +kernel
theorem test_wf_top : (Instr.rtcset 0x7F ⟨255, 255, 255, 255, 255, true, true, 255, 255⟩).wf = true :=
  by decide +kernel
theorem test_ill_year : (Instr.rtcset 0x6F { record with year := 256 }).wf = false := by decide +kernel
theorem test_ill_month : (Instr.rtcset 0x6F { record with month := 256 }).wf = false := by decide +kernel
theorem test_ill_day : (Instr.rtcset 0x6F { record with day := 256 }).wf = false := by decide +kernel
theorem test_ill_weekday : (Instr.rtcset 0x6F { record with weekday := 256 }).wf = false :=
  by decide +kernel
theorem test_ill_hour : (Instr.rtcset 0x6F { record with hour := 256 }).wf = false := by decide +kernel
theorem test_ill_minute : (Instr.rtcset 0x6F { record with minute := 256 }).wf = false :=
  by decide +kernel
theorem test_ill_second : (Instr.rtcset 0x6F { record with second := 256 }).wf = false :=
  by decide +kernel

/-! ## Words written out from R101 and R103, one for each operation -/

theorem test_decode_twinit : decode [0x00, 0x01, 0x90] = .ok (.twinit 400, []) := by decide +kernel
theorem test_decode_start : decode [0x01] = .ok (.start, []) := by decide +kernel
theorem test_decode_write : decode [0x02, 0xA0] = .ok (.write 0xA0, []) := by decide +kernel
theorem test_decode_read : decode [0x03, 0x00] = .ok (.read false, []) := by decide +kernel
theorem test_decode_stop : decode [0x04] = .ok (.stop, []) := by decide +kernel
theorem test_decode_wrreg : decode [0x10, 0x6F, 0x06, 0x15] = .ok (.wrreg 0x6F 0x06 0x15, []) :=
  by decide +kernel
theorem test_decode_rdreg : decode [0x11, 0x6F, 0x03] = .ok (.rdreg 0x6F 0x03, []) := by decide +kernel
theorem test_decode_eerd : decode [0x20, 0x50, 0x12, 0x34] = .ok (.eerd 0x50 0x1234, []) :=
  by decide +kernel
theorem test_decode_eewr :
    decode [0x21, 0x50, 0x12, 0x34, 0x7E] = .ok (.eewr 0x50 0x1234 0x7E, []) := by decide +kernel
theorem test_decode_eegetcur : decode [0x22, 0x50] = .ok (.eegetcur 0x50, []) := by decide +kernel
theorem test_decode_eesetcur : decode [0x23, 0x50, 0x12, 0x34] = .ok (.eesetcur 0x50 0x1234, []) :=
  by decide +kernel
theorem test_decode_rtcinit : decode [0x30, 0x6F, 0x01] = .ok (.rtcinit 0x6F true, []) :=
  by decide +kernel
theorem test_decode_rtcget : decode [0x31, 0x6F] = .ok (.rtcget 0x6F, []) := by decide +kernel
/-- V34. -/
theorem test_decode_rtcset : decode [0x32, 0x6F, 0x0F, 0x0C, 0x1F, 0x05, 0x17, 0x01, 0x3B, 0x0F] =
    .ok (.rtcset 0x6F ⟨15, 12, 31, 5, 23, false, true, 59, 15⟩, []) := by decide +kernel
theorem test_decode_tobcd : decode [0x38, 0x3B] = .ok (.tobcd 59, []) := by decide +kernel
theorem test_decode_frombcd : decode [0x39, 0x59] = .ok (.frombcd 0x59, []) := by decide +kernel
theorem test_decode_seqinit : decode [0x40] = .ok (.seqinit, []) := by decide +kernel
theorem test_decode_seqreinit : decode [0x41] = .ok (.seqreinit, []) := by decide +kernel
theorem test_decode_seqstep : decode [0x42] = .ok (.seqstep, []) := by decide +kernel
theorem test_decode_poll : decode [0x43] = .ok (.poll, []) := by decide +kernel
theorem test_decode_tmrcfg : decode [0x50, 0x01, 0x00] = .ok (.tmrcfg 256, []) := by decide +kernel
theorem test_decode_tmrieon : decode [0x51] = .ok (.tmrieon, []) := by decide +kernel
theorem test_decode_tmrieoff : decode [0x52] = .ok (.tmrieoff, []) := by decide +kernel
theorem test_decode_tick : decode [0xF0] = .ok (.tick, []) := by decide +kernel
theorem test_decode_setin : decode [0xF1, 0x01] = .ok (.setin true, []) := by decide +kernel

/-- V54. -/
theorem test_decode_refused :
    [[0x05], [0x12], [0x33], [0x44], [0xFF], [0x03, 0x02], [0x22, 0xD0],
      [0x32, 0x6F, 0x0F, 0x0C, 0x1F, 0x05, 0x17, 0x04, 0x3B, 0x0F], [0x21, 0x50, 0x00]].map
        (fun bs => (decode bs).toOption) = List.replicate 9 none := by decide +kernel

/-- V53, the lengths by opcode byte. -/
theorem test_lengths : opcodeMap.map (fun r => r.format.length) =
    [3, 1, 2, 2, 1, 4, 3, 4, 5, 2, 4, 3, 2, 10, 2, 2, 1, 1, 1, 1, 3, 1, 1, 1, 2] := by decide +kernel

/-! ## One step of each operation -/

/-- V23 with 93_implementation_defined.md G3. -/
theorem test_twinit : after (.twinit 100) State.reset State.br = some (some 72) := by decide +kernel
/-- V23b. -/
theorem test_twinit_refused : refusal (.twinit 0) State.reset = some .busSpeed := by decide +kernel

/-- V13. -/
theorem test_start : after .start bus (fun t => (t.resp, t.wire, t.ph)) =
    some ([0x08], [.s], .addrPending) := by decide +kernel
/-- V14. -/
theorem test_start_again : after .start (eeOpen .data 100) (fun t => (t.resp, t.wire, t.sel)) =
    some ([0x10], [.sr], some 0x50) := by decide +kernel

/-- V15. -/
theorem test_write_address : after (.write 0xA0) { bus with ph := .addrPending }
    (fun t => (t.resp, t.wire, t.ph, t.sel, t.eeph)) =
      some ([0x18], [.a 0x50 false true], .mt, some 0x50, .addrHi) := by decide +kernel
/-- V16a. -/
theorem test_write_absent : after (.write 0xA2) { bus with ph := .addrPending }
    (fun t => (t.resp, t.wire, t.sel)) = some ([0x20], [.a 0x51 false false], none) := by decide +kernel

/-- V18. -/
theorem test_read : after (.read false)
    { up [(100, 0xA5)] [] with ph := .mr, sel := some 0x50, eeptr := 100 }
    (fun t => (t.resp, t.wire, t.st)) = some ([0xA5], [.dr 0xA5 false], .mrDataNack) := by decide +kernel
/-- V22b. -/
theorem test_read_refused : refusal (.read false) (eeOpen .data 0) = some .readOutOfPhase :=
  by decide +kernel

/-- V20. -/
theorem test_stop : after .stop (eeOpen .done 0) (fun t => (t.ph, t.stopping, t.wire)) =
    some (.idle, true, []) := by decide +kernel
/-- V22c. -/
theorem test_stop_refused : refusal .stop bus = some .stopWhileIdle := by decide +kernel

/-- V25. -/
theorem test_wrreg : after (.wrreg 0x6F 0x06 0x15) bus (fun t => (t.rtcreg, t.wire)) =
    some ([(6, 0x15)], [.s, .a 0x6F false true, .dw 0x06 true, .dw 0x15 true]) := by decide +kernel
/-- V22d, through a composite. -/
theorem test_wrreg_refused : refusal (.wrreg 0x6F 0x06 0x15) State.reset = some .busNotInitialised := by
  decide +kernel

/-- V25b. -/
theorem test_rdreg : after (.rdreg 0x6F 0x03) (up [] [(3, 0x2D)]) (fun t => (t.resp, t.wire)) =
    some ([0x2D], [.s, .a 0x6F false true, .dw 0x03 true, .sr, .a 0x6F true true, .dr 0x2D false]) := by
  decide +kernel

/-- V27. -/
theorem test_eerd : after (.eerd 0x50 100) (up [(100, 0xA5)] []) (fun t => (t.resp, t.wire)) =
    some ([0xA5], [.s, .a 0x50 false true, .dw 0x00 true, .dw 0x64 true, .sr, .a 0x50 true true,
      .dr 0xA5 false]) := by decide +kernel
/-- V31, monitored. -/
theorem test_eerd_absent : after (.eerd 0x50 100)
    { State.powerUp { Config.reference with monitored := true } [(100, 7)] [] true with
      br := some 72, ackScript := List.replicate 5 (some false) } State.resp = some [0x00] :=
  by decide +kernel

/-- V30. -/
theorem test_eewr : after (.eewr 0x50 0x1234 0x7E) bus (fun t => (t.ee, t.eeptr)) =
    some ([(0x1234, 0x7E)], 0x1234) := by decide +kernel
/-- 93_implementation_defined.md U10. -/
theorem test_eewr_range : refusal (.eewr 0x50 22 0x7E) smallBus = some .eepromRange := by decide +kernel

/-- V28. -/
theorem test_eegetcur : after (.eegetcur 0x50) (up [(1, 0x1B)] []) State.resp = some [0x00, 0x1B] := by
  decide +kernel

/-- V29. -/
theorem test_eesetcur : after (.eesetcur 0x50 0x1234) bus State.ee = some [(0, 0x12), (1, 0x34)] := by
  decide +kernel

/-- V37 (b). -/
theorem test_rtcinit : after (.rtcinit 0x6F false) (up [] [(3, 0x2D)]) (fun t => (t.resp, t.rtcreg)) =
    some ([0x01], [(3, 0x25)]) := by decide +kernel
/-- V37 (d), the ENV leaving the bit clear. -/
theorem test_rtcinit_stopped : after (.rtcinit 0x6F true) bus (fun t => (t.resp, t.rtcreg)) =
    some ([0x00], [(0, 0x90), (3, 0x08)]) := by decide +kernel

/-- V34, the get; the weekday is not read. -/
theorem test_rtcget : after (.rtcget 0x6F)
    (up [] [(0, 0x95), (1, 0x59), (2, 0x23), (4, 0x31), (5, 0x12), (6, 0x15)])
    (fun t => (t.resp.take 3, t.resp.drop 4)) =
      some ([0x0F, 0x0C, 0x1F], [0x17, 0x00, 0x3B, 0x0F]) := by decide +kernel
/-- V38: the ENV rolls the seconds register before the sixth read. -/
theorem test_rtcget_torn : after (.rtcget 0x6F)
    { up [] [(0, 0xD9), (1, 0x59), (2, 0x23), (4, 0x31), (5, 0x12), (6, 0x15)] with
      agenda := List.replicate 80 [] ++ [[.rtcField .second 0x00]] }
    (fun t => (t.resp.take 3, t.resp.drop 4)) =
      some ([0x0F, 0x0C, 0x1F], [0x17, 0x00, 0x3B, 0x00]) := by decide +kernel

/-- V34, the set. -/
theorem test_rtcset : after (.rtcset 0x6F record) bus State.rtcreg =
    some [(0, 0x95), (1, 0x59), (2, 0x23), (4, 0x31), (5, 0x12), (6, 0x15)] := by decide +kernel
/-- V35. -/
theorem test_rtcset_refused : refusal (.rtcset 0x6F { record with mode12 := true }) bus = some .bcdDomain := by
  decide +kernel
/-- V36. -/
theorem test_hour : hourEncode Config.reference 11 true true = 0x71 ∧
    hourDecode Config.reference 0x71 = (11, true, true) ∧
    hourEncode Config.reference 12 true false = 0x52 ∧
    hourDecode Config.reference 0x23 = (23, false, false) := by decide +kernel

/-- V33. -/
theorem test_tobcd : after (.tobcd 99) State.reset State.resp = some [0x99] := by decide +kernel
theorem test_tobcd_refused : refusal (.tobcd 100) State.reset = some .bcdDomain := by decide +kernel
theorem test_frombcd : after (.frombcd 0x1F) State.reset State.resp = some [25] := by decide +kernel
theorem test_frombcd_top : after (.frombcd 0xFF) State.reset State.resp = some [165] := by decide +kernel

/-- V39. -/
theorem test_seqinit : after .seqinit (at_ .recording 21 3) (fun t => (t.cs, t.bc, t.bi)) =
    some (.replay, 20, 8) := by decide +kernel

/-- V43, COUNT = 2. -/
theorem test_seqreinit : after .seqreinit (up [(0, 0x12), (1, 0x34), (21, 0x55)] [])
    (fun t => (t.ee, t.cs, t.bc, t.bi, t.outTrace.length)) =
      some ([(0, 0x12), (1, 0x34), (20, 0xFF)], .replay, 20, 8, 16) := by decide +kernel
/-- V43, COUNT = 5, both readings. -/
theorem test_pattern :
    (List.range 5).map (pattern { Config.reference with count := 5 }) = [0xFF, 0x00, 0xFF, 0x00, 0xFF] ∧
    (List.range 5).map (pattern { Config.reference with count := 5, reinitPattern := .halves }) =
      [0xFF, 0xFF, 0xFF, 0x00, 0x00] := by decide +kernel

/-- V40, step 9: the byte at 21 is fetched. -/
theorem test_seqstep_refill : after .seqstep { up [(20, 0xB2), (21, 0x0F)] [] with bc := 21 }
    (fun t => (t.out, t.cur, t.bc, t.bi)) = some (true, 0x0F, 21, 1) := by decide +kernel
/-- V44. -/
theorem test_seqstep_last : after .seqstep { at_ .recording 21 7 with acc := 0x70, inp := false }
    (fun t => (t.acc, t.ee, t.cs, t.bi, t.outTrace.length)) =
      some (0xF0, [(21, 0xF0)], .replay, 8, 10) := by decide +kernel

/-- V49. -/
theorem test_poll_nothing : after .poll bus (fun t => (t.cs, t.bi, t.wire)) = some (.replay, 8, []) := by
  decide +kernel
/-- V42 through POLL (V47). -/
theorem test_poll_press : after .poll
    { at_ .replay 21 3 with cur := 0x0F, out := true, tie := true, inp := false, pend := true }
    (fun t => (t.pend, t.cs, t.bi, t.tie, t.outTrace)) =
      some (false, .recording, 0, true, [true, false, true, false, true, false]) := by decide +kernel

/-- V46. -/
theorem test_tmrcfg : after (.tmrcfg 100) State.reset (fun t => (t.tcfg, t.tie, t.pend)) =
    some (some 100, true, false) := by decide +kernel
theorem test_tmrcfg_refused : refusal (.tmrcfg 0) State.reset = some .timerPeriod := by decide +kernel
theorem test_tmrieon : after .tmrieon State.reset State.tie = some true := by decide +kernel
/-- V52. -/
theorem test_tmrieoff : after .tmrieoff { bus with tie := true, pend := true } (fun t => (t.tie, t.pend)) =
    some (false, true) := by decide +kernel
/-- V47. -/
theorem test_tick : after .tick { bus with tie := true, tcfg := some 100 } State.pend = some true :=
  by decide +kernel
/-- V48. -/
theorem test_tick_refused : refusal .tick State.reset = some .tickNotEnabled := by decide +kernel
/-- 44_tick_timer.md R230. -/
theorem test_setin : after (.setin false) State.reset State.inp = some false := by decide +kernel

/-- V24. -/
theorem test_hang : after .start { bus with busLeft := some 0 } (fun t => (t.hung, t.done, t.inflight)) =
    some (true, false, .start) := by decide +kernel
/-- V51: a tick in the step that POLL runs is still pending after it. -/
theorem test_tick_during_step : after .poll
    { bus with tie := true, tcfg := some 100, pend := true, agenda := [[], [], [.tick]] } State.pend =
      some true := by decide +kernel

/-! ## The boot order (R280) -/

/-- The state after the boot order, if it runs to its end. -/
def booted (s : State) : Option State :=
  match boot s with
  | .ok _ t => some t
  | .error _ _ => none

/-- The input released: the buffer is left alone. -/
theorem test_boot : (booted State.reset).map State.br = some (some 72) ∧
    (booted State.reset).map (fun t => (t.tcfg, t.tie, t.ee, t.outTrace.length)) =
      some (some 100, true, [], 0) := by decide +kernel
/-- The input asserted: SEQREINIT first, with `TIE = 0`, so that a tick meanwhile is lost. -/
theorem test_boot_pressed :
    (booted { State.reset with inp := false, agenda := List.replicate 9 [.tick] }).map
      (fun t => (t.pend, t.tie, t.ee, t.outTrace.length)) = some (false, true, [(20, 0xFF)], 16) := by
  decide +kernel

/-! ## The host's fetch -/

theorem test_table_word : decodeTableWord 40 0xA564005021 = some (.eewr 0x50 100 0xA5) :=
  by decide +kernel
theorem test_fetch_word : (stepped (State.reset.withFetchWord 24 0x640000)).map State.br = some (some 72) :=
  by decide +kernel

/-! ## The obligations' hypotheses can be met

For each obligation with hypotheses, and for each clause of one that has several, a state and operands that
meet them together: `witness_<obligation>_<clause>`. -/

/-- The engine is at rest, as a check. -/
def atRest (s : State) : Bool :=
  decide (s.ph ≠ .idle → s.br.isSome) && decide (s.stopping = true → s.ph = .idle) &&
  decide (s.sel ≠ none → s.ph ≠ .idle ∨ s.stopping = true) && decide (s.inflight ≠ .none → s.hung = true)

theorem engineRest_of {s : State} (h : atRest s = true) : EngineRest s := by
  simp only [atRest, Bool.and_eq_true, decide_eq_true_eq] at h
  exact ⟨h.1.1.1, h.1.1.2, h.1.2, h.2⟩

/-- A primitive may be issued, as a check. -/
def canIssue (s : State) : Bool :=
  s.br.isSome && decide (s.busLeft = none) && decide (s.ackScript = []) && decide (s.startScript = []) &&
  atRest s

theorem primitiveReady_of {s : State} (h : canIssue s = true) : PrimitiveReady s := by
  simp only [canIssue, Bool.and_eq_true, decide_eq_true_eq] at h
  exact ⟨h.1.1.1.1, ⟨h.1.1.1.2, h.1.1.2, h.1.2⟩, engineRest_of h.2⟩

/-- A primitive may be issued, DevAck free, as a check. -/
def canIssueAnyAck (s : State) : Bool := s.br.isSome && decide (s.busLeft = none) && atRest s

theorem primitiveLive_of {s : State} (h : canIssueAnyAck s = true) : PrimitiveLive s := by
  simp only [canIssueAnyAck, Bool.and_eq_true, decide_eq_true_eq] at h
  exact ⟨h.1.1, h.1.2, engineRest_of h.2⟩

/-- The device memories are canonical and inside the devices, as a check. -/
def memoryOk (s : State) : Bool :=
  s.ee.wf && s.ee.below s.cfg.eeSize && s.rtcreg.wf && s.rtcreg.below 256

theorem deviceMemory_of {s : State} (h : memoryOk s = true) : DeviceMemory s := by
  simp only [memoryOk, Bool.and_eq_true] at h
  exact ⟨h.1.1.1, h.1.1.2, h.1.2, h.2⟩

/-- A composite operation runs to its end, as a check. -/
def canRun (s : State) : Bool :=
  !s.hung && configValid s.cfg && decide (s.ph = .idle) && canIssue s && memoryOk s

theorem ready_of {s : State} (h : canRun s = true) : Ready s := by
  simp only [canRun, Bool.and_eq_true, decide_eq_true_eq, Bool.not_eq_true'] at h
  have p := primitiveReady_of h.1.2
  exact ⟨h.1.1.1.1, h.1.1.1.2, ⟨h.1.1.2, p.init⟩, p.engine, p.oracles, deviceMemory_of h.2⟩

/-- A transaction runs to its end, DevAck free, as a check. -/
def canRunAnyAck (s : State) : Bool :=
  !s.hung && configValid s.cfg && decide (s.ph = .idle) && canIssueAnyAck s && decide (s.startScript = []) &&
  memoryOk s

theorem readyAnyAck_of {s : State} (h : canRunAnyAck s = true) : ReadyAnyAck s := by
  simp only [canRunAnyAck, Bool.and_eq_true, decide_eq_true_eq, Bool.not_eq_true'] at h
  have p := primitiveLive_of h.1.1.2
  exact ⟨h.1.1.1.1.1, h.1.1.1.1.2, ⟨h.1.1.1.2, p.init⟩, p.engine, p.live, h.1.2, deviceMemory_of h.2⟩

/-- No device is marked as having sent its byte, so the mark is well placed. -/
theorem sentOpen_of {s : State} (h : (s.eeSent || s.rtcSent) = false) : SentOpen s := fun e => by
  simp only [Bool.or_eq_false_iff] at h
  rcases e with e | e
  · rw [h.1] at e; cases e
  · rw [h.2] at e; cases e

/-- The sequencer is at rest, as a check. -/
def cursorsOk (s : State) : Bool :=
  decide (s.cfg.first.toNat ≤ s.bc.toNat) && decide (s.bc.toNat ≤ lastAddr s.cfg) &&
  (decide (s.cs = .replay ∧ 1 ≤ s.bi.toNat ∧ s.bi.toNat ≤ 8) || decide (s.cs = .recording ∧ s.bi.toNat ≤ 7))

theorem sequencerRest_of {s : State} (h : cursorsOk s = true) : SequencerRest s := by
  simp only [cursorsOk, Bool.and_eq_true, Bool.or_eq_true, decide_eq_true_eq] at h
  exact ⟨h.1.1, h.1.2, h.2⟩

/-- The invariant, as a check. -/
def invOk (s : State) : Bool := configValid s.cfg && memoryOk s && atRest s && (s.hung || cursorsOk s)

theorem inv_of {s : State} (h : invOk s = true) : Inv s := by
  simp only [invOk, Bool.and_eq_true, Bool.or_eq_true] at h
  refine ⟨h.1.1.1, deviceMemory_of h.1.1.2, engineRest_of h.1.2, fun g => ?_⟩
  rcases h.2 with k | k
  · rw [g] at k; cases k
  · exact sequencerRest_of k

/-- An operation completes, as a check. -/
def completes (i : Instr) (s : State) : Bool := (after i s (fun _ => ())).isSome

theorem next_of {i : Instr} {s : State} (h : completes i s = true) : ∃ t, exec i s = .next t := by
  unfold completes after at h
  split at h
  · exact ⟨_, by assumption⟩
  · cases h
  · cases h

theorem step_of {s : State} (h : (stepped s).isSome = true) : ∃ t, step s = .next t := by
  unfold stepped at h
  split at h
  · exact ⟨_, by assumption⟩
  · cases h
  · cases h

theorem steps_to {s t : State} (h : stepped s = some t) : step s = .next t := by
  unfold stepped at h
  split at h
  · rename_i u hu
    rw [hu, Option.some.inj h]
  · cases h
  · cases h

/-- A stop is pending after a transaction with the EEPROM. -/
def stopPending : State := { bus with stopping := true, sel := some 0x50, eeph := .done }

/-- A read transaction is open. -/
def reading (sel : Option DevAddr) : State := { bus with ph := .mr, sel := sel }

/-- An address is awaited. -/
def addressing : State := { bus with ph := .addrPending }

/-- The two devices hold something. -/
def stocked : State := up [(0, 0x12), (1, 0x34), (20, 0xB2), (21, 0x0F)] [(0, 0x95), (3, 0x2D)]

/-! ### The command stream and steps -/

theorem witness_DecodeEncodeAgree :
    (Instr.rtcset 0x6F record).wf = true :=
  by decide +kernel

theorem witness_EncodeDecodeAgree :
    decode [0x22, 0x50, 0x43] = .ok (.eegetcur 0x50, [0x43]) :=
  by decide +kernel

/-- One byte short, and exactly long enough. -/
theorem witness_OpcodeDecidesLength :
    formatOf 0x32 = some .dt ∧ [0x6F, 0, 0, 0, 0, 0, 0, 0].length + 1 < Format.dt.length ∧
    decode [0x32, 0x6F, 0, 0, 0, 0, 0, 0, 0, 0] = .ok (.rtcset 0x6F ⟨0, 0, 0, 0, 0, false, false, 0, 0⟩, []) :=
  by decide +kernel

/-- One of the reserved bits set, and none of them. -/
theorem witness_ReservedEncodingsRefused :
    formatOf 0x44 = none ∧ decode [0x44] = .error .unassignedOpcode ∧ formatOf 0x32 = some .dt ∧
    Format.dt.length ≤ [0x6F, 0, 0, 0, 0, 0, 0x04, 0, 0].length + 1 ∧ (6, 0xFC) ∈ reservedBits .dt ∧
    [0x6F, 0, 0, 0, 0, 0, 0x04, 0, (0 : Byte)][6]? = some 0x04 ∧ (0x04 : Byte) &&& 0xFC ≠ 0#8 ∧
    (∀ p ∈ reservedBits .dt, ∀ b ∈ [0x6F, 0, 0, 0, 0, 0, 0x03, 0, (0 : Byte), 0x43][p.1]?, b &&& p.2 = 0#8) ∧
    ([0x6F, 0, 0, 0, 0, 0, 0x03, 0, (0 : Byte), 0x43]).drop (Format.dt.length - 1) = [0x43] :=
  by decide +kernel

theorem witness_StepRunsDecoded :
    configValid bus.cfg = true ∧ { bus with stream := [0xF0, 0x43] }.hung = false ∧
    decode [0xF0, 0x43] = .ok (.tick, [0x43]) ∧ Scripted bus :=
  by decide +kernel

theorem witness_StepRefuses_configuration :
    configValid { Config.reference with count := 0 } = false :=
  by decide +kernel

theorem witness_StepRefuses_encoding :
    configValid bus.cfg = true ∧ bus.hung = false ∧ [(0x05 : Byte)] ≠ [] ∧
    decode [0x05] = .error .unassignedOpcode :=
  by decide +kernel

theorem witness_IdleStepEndsTheRun :
    configValid stopPending.cfg = true ∧ stopPending.hung = false ∧ stopPending.stream = [] ∧
    EngineRest stopPending ∧ BusLive stopPending :=
  ⟨by decide +kernel, rfl, rfl, engineRest_of (by decide +kernel), rfl⟩

theorem witness_StalledHostStaysStalled :
    configValid { bus with hung := true, inflight := .start, pend := true }.cfg = true ∧
    { bus with hung := true, inflight := .start, pend := true }.hung = true :=
  by decide +kernel

/-- A HOST stuck in AwaitDone, TICK enabled. -/
def stuck : State := { bus with hung := true, inflight := .start, tie := true, tcfg := some 100 }

/-- At each step the TIMER fires once, and no byte comes. -/
def ticking : Arrivals := { bytes := fun _ => [], schedule := fun _ => [[.tick]] }

/-- The run of the stuck HOST: the tick is pending from the first step on. -/
def stuckRun : Nat → State
  | 0 => stuck
  | _ + 1 => { stuck with pend := true }

/-- A run without end that is fair to the TIMER. -/
theorem witness_StalledHostStaysStalled_fair :
    Run ticking stuckRun ∧ TimerLive ticking stuckRun ∧ (stuckRun 0).hung = true ∧
    tickEnabled (stuckRun 0) = true := by
  refine ⟨fun n => ?_, fun n _ => ⟨n, Nat.le_refl n, .inl ⟨[[.tick]], ?_, _, List.mem_singleton.mpr rfl,
    List.mem_singleton.mpr rfl⟩⟩, rfl, rfl⟩
  · cases n with
    | zero => rfl
    | succ n =>
      exact (rfl : step { stuck with pend := true, agenda := [[.tick]] } = .next { stuck with pend := true })
  · cases n <;> rfl

/-- A POLL comes before each step, and the schedule is the given one. -/
def polling (steps : List AgentStep) : Arrivals := { bytes := fun _ => [0x43], schedule := fun _ => [steps] }

/-- No byte comes, and no other agent is scheduled. -/
def silent : Arrivals := { bytes := fun _ => [], schedule := fun _ => [] }

/-- The run of a HOST with a stop condition pending, which the BUS agent puts on the wire in the first step. -/
def stopRun : Nat → State
  | 0 => stopPending
  | _ + 1 => completeStop stopPending

/-- What the two runs do at each step: a POLL, or nothing, in a state where nothing is pending for it. -/
theorem stopRun_steps :
    step { stopPending with stream := [0x43], agenda := [[.busStop]] } = .next (completeStop stopPending) ∧
    step { completeStop stopPending with stream := [0x43], agenda := [[.busStop]] } =
      .next (completeStop stopPending) ∧
    step { stopPending with stream := [0x43], agenda := [[]] } = .next stopPending ∧
    step stopPending = .next (completeStop stopPending) ∧
    step (completeStop stopPending) = .next (completeStop stopPending) :=
  ⟨steps_to (by decide +kernel), steps_to (by decide +kernel), steps_to (by decide +kernel),
    steps_to (by decide +kernel), steps_to (by decide +kernel)⟩

theorem stopRun_busLive : BusLiveRun stopRun where
  stop n h := by
    cases n with
    | zero => exact ⟨1, by decide, ⟨[], rfl⟩⟩
    | succ n => cases h
  primitive n h := absurd (by cases n <;> rfl) h

/-- A run of POLLs without end that is fair to the BUS agent: the HOST waits for no stop, and the agent takes
its step at an interleaving point. -/
theorem witness_StalledHostStaysStalled_bus :
    Run (polling [.busStop]) stopRun ∧ BusLiveRun stopRun ∧ (stopRun 0).hung = false :=
  ⟨fun n => by
    cases n
    · exact stopRun_steps.1
    · exact stopRun_steps.2.1, stopRun_busLive, rfl⟩

/-- The same run of POLLs where the agent never takes that step is not fair to it, though every state has
BusLive. -/
theorem test_polls_without_bus :
    Run (polling []) (fun _ => stopPending) ∧ BusLive stopPending ∧ ¬ BusLiveRun (fun _ => stopPending) :=
  ⟨fun _ => stopRun_steps.2.2.1, rfl, fun h => by
    obtain ⟨_, _, k⟩ := h.stop 0 rfl
    exact absurd k.length_le (by decide)⟩

/-- The finite program is over, and the BUS agent finishes the stop. -/
theorem witness_IdleStepEndsTheRun_bus :
    Run silent stopRun ∧ BusLiveRun stopRun ∧ (∀ n, silent.bytes n = []) ∧ (stopRun 0).hung = false ∧
    (stopRun 0).stream = [] ∧ EngineRest (stopRun 0) :=
  ⟨fun n => by
    cases n
    · exact stopRun_steps.2.2.2.1
    · exact stopRun_steps.2.2.2.2, stopRun_busLive, fun _ => rfl, rfl, rfl, engineRest_of (by decide +kernel)⟩

theorem witness_ResetInv :
    configValid small = true ∧ Memory.wf [(21, 0x01)] = true ∧
    Memory.below [(21, 0x01)] small.eeSize = true ∧ Memory.wf [(255, 0x01)] = true ∧
    Memory.below [(255, 0x01)] 256 = true :=
  by decide +kernel

theorem witness_StepKeepsInv :
    let s := { stocked with stream := [0x21, 0x50, 0x00, 0x64, 0xA5] }
    Inv s ∧ ∃ t, step s = .next t :=
  ⟨inv_of (by decide +kernel), step_of (by decide +kernel)⟩

/-- The EEPROM has sent its byte, and a STOP follows. -/
theorem witness_StepKeepsInv_sent :
    let s := { bus with ph := .mr, sel := some 0x50, eeSent := true, stream := [0x04] }
    Inv s ∧ SentOpen s ∧ ∃ t, step s = .next t :=
  ⟨inv_of (by decide +kernel), fun _ => .inl (by decide), step_of (by decide +kernel)⟩

/-- A HOST that is stuck. -/
theorem witness_StepKeepsInv_hung :
    let s := { bus with ph := .mt, hung := true, inflight := .write 0x00, bi := 9 }
    Inv s ∧ ∃ t, step s = .next t :=
  ⟨inv_of (by decide +kernel), step_of (by decide +kernel)⟩

theorem witness_PendIsClearedByPollOnly :
    (∃ t, exec .seqstep { stocked with pend := true } = .next t) ∧ Instr.seqstep ≠ .poll ∧
    Instr.seqstep ≠ .tick ∧ Scripted stocked ∧ stocked.pend = false :=
  ⟨next_of (by decide +kernel), by decide, by decide, rfl, rfl⟩

theorem witness_RegisterWriters :
    (∃ t, exec (.eewr 0x50 0 0x01) stocked = .next t) ∧ Scripted stocked :=
  ⟨next_of (by decide +kernel), rfl⟩

/-- The step that stores the last byte. -/
theorem witness_SequencerStaysInItsBuffer :
    let s := { stocked with cs := .recording, bc := 21, bi := 7 }
    Inv s ∧ s.hung = false ∧ ∃ t, exec .seqstep s = .next t :=
  ⟨inv_of (by decide +kernel), rfl, next_of (by decide +kernel)⟩

/-- The EEPROM misses the low byte of the address, and the last byte's value would be taken for it; a tick and
a press come meanwhile. -/
theorem witness_SequencerStaysInItsBuffer_missed :
    let s := { stocked with
      cs := .recording, bc := 21, bi := 7, ackScript := [none, some true, some false, some true],
      agenda := [[.tick], [.setInput false]] }
    Inv s ∧ s.hung = false ∧ ∃ t, exec .seqstep s = .next t :=
  ⟨inv_of (by decide +kernel), rfl, next_of (by decide +kernel)⟩

/-- The bus dies in the middle of the store. -/
theorem witness_SequencerStaysInItsBuffer_hangs :
    let s := { stocked with cs := .recording, bc := 21, bi := 7, busLeft := some 3 }
    Inv s ∧ s.hung = false ∧ ∃ t, exec .seqstep s = .next t :=
  ⟨inv_of (by decide +kernel), rfl, next_of (by decide +kernel)⟩

/-! ### The bus primitives -/

theorem witness_TwinitSetsBr :
    State.reset.ph = .idle ∧ divFor State.reset.cfg 100 = some 72 ∧ divFor State.reset.cfg 1 = none ∧
    addressing.ph ≠ .idle :=
  by decide +kernel

theorem witness_StartCompletes :
    PrimitiveReady stopPending ∧ PrimitiveReady (eeOpen .data 100) ∧ Scripted stopPending :=
  ⟨primitiveReady_of (by decide +kernel), primitiveReady_of (by decide +kernel), rfl⟩

/-- A failing start, with the sequencer in Replay before a byte. -/
theorem witness_StartFails :
    let s := { bus with startScript := [some 0x38] }
    s.br.isSome ∧ BusLive s ∧ s.startScript = some 0x38 :: [] ∧ (Status.fail 0x38).wf = true ∧
    Scripted s ∧ s.ph = .idle ∧ TimeRecord.settable record = true ∧ 0 < s.cfg.count ∧
    s.cs = .replay ∧ s.inp = true ∧ s.bi = 8 :=
  by decide +kernel

/-- The same in Recording, a byte being complete with the next sample. -/
theorem witness_StartFails_recording :
    let s := { at_ .recording 20 7 with startScript := [some 0x38] }
    s.br.isSome ∧ BusLive s ∧ s.startScript = some 0x38 :: [] ∧ s.ph = .idle ∧ s.cs = .recording ∧ s.bi = 7 :=
  by decide +kernel

theorem witness_DeadBusHangsThePrimitives :
    let dead := fun s : State => { s with busLeft := some 0 }
    (dead addressing).br.isSome ∧ (dead addressing).busLeft = some 0 ∧
    (dead addressing).ph = .addrPending ∧ (dead (eeOpen .data 0)).br.isSome ∧
    (dead (eeOpen .data 0)).ph = .mt ∧ (dead (reading none)).br.isSome ∧
    (dead (reading none)).ph = .mr := by decide +kernel

/-- Under IdealDevices, and with a device that is there and does not answer. -/
theorem witness_WriteAddressCompletes :
    let busy := { addressing with ackScript := [some false] }
    PrimitiveLive addressing ∧ addressing.ph = .addrPending ∧ Scripted addressing ∧ IdealDevices addressing ∧
    PrimitiveLive busy ∧ busy.ph = .addrPending ∧ ackAt busy 0 (answers busy.cfg 0x50) = false :=
  ⟨primitiveLive_of (by decide +kernel), rfl, rfl, rfl, primitiveLive_of (by decide +kernel), rfl, rfl⟩

theorem witness_WriteToEeprom_addrHi :
    let s := eeOpen .addrHi 0x1234
    PrimitiveLive s ∧ IdealDevices s ∧ DeviceMemory s ∧ s.ph = .mt ∧ s.sel = some s.cfg.eeDev ∧ s.eeph = .addrHi ∧
    Scripted s :=
  ⟨primitiveLive_of (by decide +kernel), rfl, deviceMemory_of (by decide +kernel), rfl, rfl, rfl, rfl⟩

theorem witness_WriteToEeprom_addrLo :
    let s := eeOpen .addrLo 0x1234
    PrimitiveLive s ∧ IdealDevices s ∧ DeviceMemory s ∧ s.ph = .mt ∧ s.sel = some s.cfg.eeDev ∧ s.eeph = .addrLo ∧
    Scripted s :=
  ⟨primitiveLive_of (by decide +kernel), rfl, deviceMemory_of (by decide +kernel), rfl, rfl, rfl, rfl⟩

/-- The last byte of the device. -/
theorem witness_WriteToEeprom_data :
    let s := { smallBus with ph := .mt, sel := some 0x50, eeph := .data, eeptr := 21 }
    PrimitiveLive s ∧ IdealDevices s ∧ DeviceMemory s ∧ s.ph = .mt ∧ s.sel = some s.cfg.eeDev ∧ s.eeph = .data ∧
      s.eeptr.toNat < s.cfg.eeSize :=
  ⟨primitiveLive_of (by decide +kernel), rfl, deviceMemory_of (by decide +kernel), rfl, rfl, rfl,
    by decide +kernel⟩

/-- The first byte behind it. -/
theorem witness_WriteToEeprom_outside :
    let s := { smallBus with ph := .mt, sel := some 0x50, eeph := .data, eeptr := 22 }
    PrimitiveLive s ∧ IdealDevices s ∧ DeviceMemory s ∧ s.ph = .mt ∧ s.sel = some s.cfg.eeDev ∧ s.eeph = .data ∧
      s.cfg.eeSize ≤ s.eeptr.toNat :=
  ⟨primitiveLive_of (by decide +kernel), rfl, deviceMemory_of (by decide +kernel), rfl, rfl, rfl,
    by decide +kernel⟩

theorem witness_WriteToEeprom_done :
    let s := eeOpen .done 0x1234
    PrimitiveLive s ∧ IdealDevices s ∧ DeviceMemory s ∧ s.ph = .mt ∧ s.sel = some s.cfg.eeDev ∧ s.eeph = .done :=
  ⟨primitiveLive_of (by decide +kernel), rfl, deviceMemory_of (by decide +kernel), rfl, rfl, rfl⟩

theorem witness_WriteToRtc_reg :
    let s := rtcOpen .reg
    PrimitiveLive s ∧ IdealDevices s ∧ configValid s.cfg = true ∧ DeviceMemory s ∧ s.ph = .mt ∧ s.sel = some s.cfg.rtcDev ∧
      s.rtcph = .reg ∧ Scripted s :=
  ⟨primitiveLive_of (by decide +kernel), rfl, by decide +kernel, deviceMemory_of (by decide +kernel), rfl, rfl,
    rfl, rfl⟩

theorem witness_WriteToRtc_data :
    let s := rtcOpen .data
    PrimitiveLive s ∧ IdealDevices s ∧ configValid s.cfg = true ∧ DeviceMemory s ∧ s.ph = .mt ∧ s.sel = some s.cfg.rtcDev ∧
      s.rtcph = .data ∧ Scripted s :=
  ⟨primitiveLive_of (by decide +kernel), rfl, by decide +kernel, deviceMemory_of (by decide +kernel), rfl, rfl,
    rfl, rfl⟩

theorem witness_WriteToRtc_done :
    let s := rtcOpen .done
    PrimitiveLive s ∧ IdealDevices s ∧ configValid s.cfg = true ∧ DeviceMemory s ∧ s.ph = .mt ∧ s.sel = some s.cfg.rtcDev ∧
      s.rtcph = .done ∧ Scripted s :=
  ⟨primitiveLive_of (by decide +kernel), rfl, by decide +kernel, deviceMemory_of (by decide +kernel), rfl, rfl,
    rfl, rfl⟩

/-- Data that the EEPROM does not acknowledge, even where the rules would refuse to store it. -/
theorem witness_WriteToEeprom_notTaken :
    let s := { eeOpen .done 0x1234 with ackScript := [some false] }
    PrimitiveLive s ∧ DeviceMemory s ∧ s.ph = .mt ∧ s.sel = some s.cfg.eeDev ∧ ackAt s 0 true = false ∧
    Scripted s :=
  ⟨primitiveLive_of (by decide +kernel), deviceMemory_of (by decide +kernel), rfl, rfl, rfl, rfl⟩

/-- Data that the RTC does not acknowledge. -/
theorem witness_WriteToRtc_notTaken :
    let s := { rtcOpen .data with ackScript := [some false] }
    PrimitiveLive s ∧ configValid s.cfg = true ∧ DeviceMemory s ∧ s.ph = .mt ∧ s.sel = some s.cfg.rtcDev ∧
    ackAt s 0 true = false ∧ Scripted s :=
  ⟨primitiveLive_of (by decide +kernel), by decide +kernel, deviceMemory_of (by decide +kernel), rfl, rfl, rfl,
    rfl⟩

theorem witness_WriteElsewhere_none :
    let s := { bus with ph := .mt, sel := none }
    PrimitiveLive s ∧ IdealDevices s ∧ s.ph = .mt ∧ s.sel ≠ some s.cfg.eeDev ∧ s.sel ≠ some s.cfg.rtcDev ∧ Scripted s :=
  ⟨primitiveLive_of (by decide +kernel), rfl, rfl, by decide +kernel, by decide +kernel, rfl⟩

theorem witness_WriteElsewhere_other :
    let s := { bus with ph := .mt, sel := some 0x51 }
    PrimitiveLive s ∧ IdealDevices s ∧ s.ph = .mt ∧ s.sel ≠ some s.cfg.eeDev ∧ s.sel ≠ some s.cfg.rtcDev ∧ Scripted s :=
  ⟨primitiveLive_of (by decide +kernel), rfl, rfl, by decide +kernel, by decide +kernel, rfl⟩

theorem witness_ReadCompletes_none :
    let s := reading none
    PrimitiveReady s ∧ configValid s.cfg = true ∧ s.ph = .mr ∧ s.sel ≠ some s.cfg.eeDev ∧
    s.sel ≠ some s.cfg.rtcDev :=
  ⟨primitiveReady_of (by decide +kernel), by decide +kernel, rfl, by decide +kernel, by decide +kernel⟩

theorem witness_ReadCompletes_eeprom :
    let s := { smallBus with ph := .mr, sel := some 0x50, eeptr := 21 }
    PrimitiveReady s ∧ configValid s.cfg = true ∧ s.ph = .mr ∧ s.sel = some s.cfg.eeDev ∧ s.eeSent = false ∧
      s.eeptr.toNat < s.cfg.eeSize :=
  ⟨primitiveReady_of (by decide +kernel), by decide +kernel, rfl, rfl, rfl, by decide +kernel⟩

theorem witness_ReadCompletes_outside :
    let s := { smallBus with ph := .mr, sel := some 0x50, eeptr := 22 }
    PrimitiveReady s ∧ configValid s.cfg = true ∧ s.ph = .mr ∧ s.sel = some s.cfg.eeDev ∧ s.eeSent = false ∧
      s.cfg.eeSize ≤ s.eeptr.toNat :=
  ⟨primitiveReady_of (by decide +kernel), by decide +kernel, rfl, rfl, rfl, by decide +kernel⟩

theorem witness_ReadCompletes_eeSent :
    let s := { reading (some 0x50) with eeSent := true }
    PrimitiveReady s ∧ configValid s.cfg = true ∧ s.ph = .mr ∧ s.sel = some s.cfg.eeDev ∧
    s.eeSent = true :=
  ⟨primitiveReady_of (by decide +kernel), by decide +kernel, rfl, rfl, rfl⟩

theorem witness_ReadCompletes_rtc :
    let s := { reading (some 0x6F) with rtcSent := false }
    PrimitiveReady s ∧ configValid s.cfg = true ∧ s.ph = .mr ∧ s.sel = some s.cfg.rtcDev ∧
    s.rtcSent = false ∧ Scripted s :=
  ⟨primitiveReady_of (by decide +kernel), by decide +kernel, rfl, rfl, rfl, rfl⟩

theorem witness_ReadCompletes_rtcSent :
    let s := { reading (some 0x6F) with rtcSent := true }
    PrimitiveReady s ∧ configValid s.cfg = true ∧ s.ph = .mr ∧ s.sel = some s.cfg.rtcDev ∧
    s.rtcSent = true ∧ Scripted s :=
  ⟨primitiveReady_of (by decide +kernel), by decide +kernel, rfl, rfl, rfl, rfl⟩

theorem witness_StopCompletes :
    (eeOpen .done 0).br.isSome ∧ (eeOpen .done 0).ph ≠ .idle ∧ BusLive (eeOpen .done 0) ∧
    (eeOpen .done 0).sel = some 0x50 ∧ (rtcOpen .done).sel = some 0x6F :=
  by decide +kernel

theorem witness_PhaseTable_idle :
    PrimitiveReady stopPending ∧ configValid stopPending.cfg = true ∧ stopPending.ph = .idle :=
  ⟨primitiveReady_of (by decide +kernel), by decide +kernel, rfl⟩

theorem witness_PhaseTable_addrPending :
    PrimitiveReady addressing ∧ configValid addressing.cfg = true ∧ addressing.ph = .addrPending :=
  ⟨primitiveReady_of (by decide +kernel), by decide +kernel, rfl⟩

theorem witness_PhaseTable_mt :
    let s := eeOpen .data 100
    PrimitiveReady s ∧ configValid s.cfg = true ∧ s.ph = .mt ∧ ∃ t, exec (.write 0x7E) s = .next t :=
  ⟨primitiveReady_of (by decide +kernel), by decide +kernel, rfl, next_of (by decide +kernel)⟩

theorem witness_PhaseTable_mr :
    let s := reading (some 0x6F)
    PrimitiveReady s ∧ configValid s.cfg = true ∧ s.ph = .mr ∧ ∃ t, exec (.read true) s = .next t :=
  ⟨primitiveReady_of (by decide +kernel), by decide +kernel, rfl, next_of (by decide +kernel)⟩

theorem witness_OperationsOutOfPlaceAreRefused :
    State.reset.br = none ∧ addressing.ph ≠ .idle ∧ composite (.eegetcur 0x50) = true ∧
    { addressing with pend := true }.pend = true :=
  by decide +kernel

/-! ### The register protocol -/

/-- Also with a stop condition pending. -/
theorem witness_WrregCompletes : Ready stocked ∧ Scripted stocked ∧ Ready stopPending :=
  ⟨ready_of (by decide +kernel), rfl, ready_of (by decide +kernel)⟩

/-- With the EEPROM in the RTC's place, and its pointer at the last byte. -/
theorem witness_RdregCompletes :
    let s := { smallBus with eeptr := 0x1215 }
    Ready s ∧ (joinBytes 0x00 (loByte s.eeptr)).toNat < s.cfg.eeSize ∧ Scripted s :=
  ⟨ready_of (by decide +kernel), by decide +kernel, rfl⟩

/-- The last address of the device. -/
theorem witness_EerdCompletes : Ready smallBus ∧ (21 : Half).toNat < smallBus.cfg.eeSize ∧ Scripted smallBus :=
  ⟨ready_of (by decide +kernel), by decide +kernel, rfl⟩

/-- The first address behind it. -/
theorem witness_EepromRangeRefused : Ready smallBus ∧ smallBus.cfg.eeSize ≤ (22 : Half).toNat :=
  ⟨ready_of (by decide +kernel), by decide +kernel⟩

/-- The EEPROM, an absent device, the RTC. -/
theorem witness_EewrCompletes :
    Ready smallBus ∧ smallBus.cfg.eeDev = 0x50 ∧ (0x50 : DevAddr) ≠ smallBus.cfg.rtcDev ∧
    (21 : Half).toNat < smallBus.cfg.eeSize ∧ (0x51 : DevAddr) ≠ smallBus.cfg.rtcDev ∧
    (0x51 : DevAddr) ≠ smallBus.cfg.eeDev ∧ smallBus.cfg.rtcDev = 0x6F :=
  ⟨ready_of (by decide +kernel), rfl, by decide +kernel, by decide +kernel, by decide +kernel,
    by decide +kernel, rfl⟩

/-- The EEPROM misses a byte; the RTC, which would be offered a byte too many, misses one. -/
theorem witness_TransactionsUnderAnyDevAck :
    let s := { smallBus with ackScript := [none, some true, some false] }
    ReadyAnyAck s ∧ Scripted s ∧ s.cfg.eeDev = 0x50 ∧ (21 : Half).toNat < s.cfg.eeSize ∧
    dataAcks s 0x50 3 = [true, false, true] ∧ s.cfg.rtcDev = 0x6F ∧ dataAcks s 0x6F 3 ≠ [true, true, true] ∧
    SentOpen s ∧ readAck s 0x50 2 = true ∧ MaySend s 0x50 [hiByte 0x0015, loByte 0x0015] ∧
    MaySend s 0x6F [0x03] :=
  ⟨readyAnyAck_of (by decide +kernel), rfl, rfl, by decide +kernel, by decide +kernel, rfl, by decide +kernel,
    sentOpen_of rfl, by decide +kernel, fun _ _ => by decide +kernel, fun e => by cases e⟩

/-- Something of the state in which the second of two transactions begins. -/
def midway {α β : Type} (m : Op α) (s : State) (f : State → β) : Option β :=
  match m s with
  | .ok _ u => some (f u.others)
  | .error _ _ => none

/-- EESETCUR: the EEPROM misses the first transaction and takes the second; an absent device answers. -/
theorem witness_TransactionsUnderAnyDevAck_cursor :
    let s := { stocked with ackScript := [some false] }
    ReadyAnyAck s ∧ Scripted s ∧ (0x50 : DevAddr) ≠ s.cfg.rtcDev ∧ selectAck s 0x50 = false ∧
    midway (eewr 0x50 0 0x56) s (fun u => (selectAck u 0x50, u.agenda)) = some (true, []) ∧
    after (.eesetcur 0x50 0x5678) s (fun t => (t.ee.read 0, t.ee.read 1)) = some (0x12, 0x78) ∧
    selectAck { s with ackScript := [some true] } 0x51 = true ∧ (0x51 : DevAddr) ≠ s.cfg.rtcDev ∧
    (0x51 : DevAddr) ≠ s.cfg.eeDev :=
  ⟨readyAnyAck_of (by decide +kernel), rfl, by decide +kernel, by decide +kernel, by decide +kernel,
    by decide +kernel, by decide +kernel, by decide +kernel, by decide +kernel⟩

/-- EEGETCUR: an EEPROM below 65536 bytes misses its address and sends from its last byte, then answers; and the
RTC, which is no EEPROM. -/
theorem witness_TransactionsUnderAnyDevAck_getcur :
    let s := { smallBus with ackScript := [some false], eeptr := 21 }
    ReadyAnyAck s ∧ SentOpen s ∧ Scripted s ∧ readAck s 0x50 2 = true ∧ MaySend s 0x50 [0x00, 0x00] ∧
    (∀ v u, eerd 0x50 0 s = .ok v u → MaySend u.others 0x50 [0x00, 0x01]) ∧
    MaySend s 0x6F [0x00, 0x00] := by
  intro s
  refine ⟨readyAnyAck_of (by decide +kernel), sentOpen_of rfl, rfl, by decide +kernel,
    fun _ _ => by decide +kernel, fun v u h _ _ => ?_, fun e => by cases e⟩
  have k : midway (eerd 0x50 0) s (fun u => decide
      ((eePointerAfter u.eeptr (takenBytes u 0x50 [0x00, 0x01])).toNat < u.cfg.eeSize)) = some true := by
    decide +kernel
  simpa only [midway, h, Option.some.injEq, decide_eq_true_eq] using k

/-- The EEPROM, an absent device, the RTC. -/
theorem witness_EegetcurCompletes :
    Ready stocked ∧ Scripted stocked ∧ stocked.cfg.eeDev = 0x50 ∧ (0x51 : DevAddr) ≠ stocked.cfg.rtcDev ∧
    stocked.cfg.rtcDev = 0x6F :=
  ⟨ready_of (by decide +kernel), rfl, rfl, by decide +kernel, rfl⟩

/-- The EEPROM, an absent device, the RTC. -/
theorem witness_EesetcurCompletes :
    Ready stocked ∧ Scripted stocked ∧ stocked.cfg.eeDev = 0x50 ∧ (0x51 : DevAddr) ≠ stocked.cfg.rtcDev ∧
    (0x50 : DevAddr) ≠ stocked.cfg.rtcDev ∧ stocked.cfg.rtcDev = 0x6F :=
  ⟨ready_of (by decide +kernel), rfl, rfl, by decide +kernel, by decide +kernel, rfl⟩

theorem witness_EepromRoundTrip :
    Ready smallBus ∧ (21 : Half).toNat < smallBus.cfg.eeSize ∧
    ∃ t, exec (.eewr 0x50 21 0x7E) smallBus = .next t ∧ Ready t ∧ t.cfg = smallBus.cfg := by
  obtain ⟨t, h⟩ : ∃ t, exec (.eewr 0x50 21 0x7E) smallBus = .next t := next_of (by decide +kernel)
  have k : after (.eewr 0x50 21 0x7E) smallBus (fun t => (canRun t, t.cfg)) = some (true, smallBus.cfg) := by
    decide +kernel
  simp only [after, h, Option.some.injEq, Prod.mk.injEq] at k
  exact ⟨ready_of (by decide +kernel), by decide +kernel, t, h, ready_of k.1, k.2⟩

/-! ### BCD and the RTC -/

theorem witness_BcdOperations : (99 : Byte).toNat ≤ 99 ∧ 99 < (100 : Byte).toNat := by decide +kernel

theorem witness_BcdRoundTrip :
    (99 : Byte).toNat ≤ 99 ∧ (0x99 : Byte).toNat / 16 ≤ 9 ∧ (0x99 : Byte).toNat % 16 ≤ 9 := by decide +kernel

/-- A running oscillator, and a stopped one. -/
theorem witness_RtcinitCompletes :
    Ready stocked ∧ Scripted stocked ∧ oscillatorRuns stocked.cfg stocked.rtcreg = true ∧ Ready bus ∧
    Scripted bus ∧ oscillatorRuns bus.cfg bus.rtcreg = false :=
  ⟨ready_of (by decide +kernel), rfl, by decide +kernel, ready_of (by decide +kernel), rfl,
    by decide +kernel⟩

/-- The state in which RTCINIT's start command has gone out. -/
def startedOf (batt : Bool) (s : State) : Option State :=
  match rtcBeforeStart s.cfg.rtcDev batt s with
  | .error _ _ => none
  | .ok _ u =>
    match wrreg s.cfg.rtcDev s.cfg.rtcSec (startCommand s.cfg) u with
    | .error _ _ => none
    | .ok _ t => some t

/-- V37 (c): the ENV sets the oscillator-running bit during the settle delay, and RTCINIT succeeds. -/
theorem witness_RtcinitCompletes_settling :
    let s := { bus with agenda := List.replicate 32 [] ++ [[.oscRun true]] }
    Ready s ∧ (startedOf true s).map State.agenda = some [[.oscRun true]] ∧
    after (.rtcinit 0x6F true) s State.resp = some [0x01] :=
  ⟨ready_of (by decide +kernel), by decide +kernel, by decide +kernel⟩

theorem witness_RtcgetCompletes : Ready stocked ∧ Scripted stocked :=
  ⟨ready_of (by decide +kernel), rfl⟩

/-- Year 99 and 100; hour 23 in the 24-hour mode and in the 12-hour mode. -/
theorem witness_RtcsetCompletes :
    Ready bus ∧ Scripted bus ∧ TimeRecord.settable { record with year := 99 } = true ∧
    TimeRecord.settable { record with year := 100 } = false ∧ TimeRecord.settable record = true ∧
    TimeRecord.settable { record with mode12 := true } = false :=
  ⟨ready_of (by decide +kernel), rfl, by decide +kernel, by decide +kernel, by decide +kernel,
    by decide +kernel⟩

/-- The EEPROM and an absent device in the RTC's place. -/
theorem witness_RtcOperationsAlwaysReturn :
    Ready bus ∧ bus.cfg.eeDev = 0x50 ∧ bus.cfg.eeSize = 65536 ∧ (0x51 : DevAddr) ≠ bus.cfg.eeDev ∧
    (0x51 : DevAddr) ≠ bus.cfg.rtcDev ∧ TimeRecord.settable record = true ∧ Scripted bus :=
  ⟨ready_of (by decide +kernel), rfl, rfl, by decide +kernel, by decide +kernel, by decide +kernel, rfl⟩

theorem witness_RtcRoundTrip :
    let c := bus.cfg
    Ready bus ∧ Scripted bus ∧ timeRegistersDistinct c ∧ TimeRecord.settable record = true ∧
    toBcdByte record.year &&& c.mYear = toBcdByte record.year ∧
    toBcdByte record.month &&& c.mMonth = toBcdByte record.month ∧
    toBcdByte record.day &&& c.mDate = toBcdByte record.day ∧
    toBcdByte record.minute &&& c.mMin = toBcdByte record.minute ∧
    toBcdByte record.second &&& c.mSec = toBcdByte record.second :=
  ⟨ready_of (by decide +kernel), rfl, by unfold timeRegistersDistinct; decide +kernel, by decide +kernel,
    by decide +kernel, by decide +kernel, by decide +kernel, by decide +kernel, by decide +kernel⟩

/-! ### The sequencer and the timer -/

theorem witness_PatternHalves :
    Config.reference.reinitPattern = .byteAlternating ∧ Config.reference.count ≤ 2 ∧ 1 < Config.reference.count ∧
    { Config.reference with reinitPattern := .halves }.reinitPattern = .halves :=
  by decide +kernel

/-- The input released and asserted. -/
theorem witness_SeqreinitCompletes :
    Ready stocked ∧ Scripted stocked ∧ stocked.inp = true ∧ Ready { stocked with inp := false } :=
  ⟨ready_of (by decide +kernel), rfl, rfl, ready_of (by decide +kernel)⟩

/-- A press in Replay, and the two action states. -/
theorem witness_SeqstepActions :
    let press := { at_ .replay 20 8 with inp := false }
    press.ph = .idle ∧ press.cs = .replay ∧ press.inp = false ∧
    (at_ .beginRecording 20 8).ph = .idle ∧ (at_ .beginRecording 20 8).cs = .beginRecording ∧
    (at_ .endRecording 20 8).ph = .idle ∧ (at_ .endRecording 20 8).cs = .endRecording ∧
    Scripted press := by decide +kernel

/-- V48: a tick at every point while the action masks TICK is lost; one after it stays pending. -/
theorem witness_SeqstepActions_masked :
    let press := fun n : Nat => { at_ .replay 20 8 with
      inp := false, tie := true, tcfg := some 100, agenda := [] :: List.replicate n [.tick] }
    after .seqstep (press 8) State.pend = some false ∧ after .seqstep (press 9) State.pend = some true := by
  decide +kernel

theorem witness_SeqstepReplaysABit_1 :
    let s := at_ .replay 21 1
    configValid s.cfg = true ∧ SequencerRest s ∧ s.ph = .idle ∧ s.cs = .replay ∧ s.inp = true ∧
    s.bi ≠ 8 ∧ Scripted s :=
  ⟨by decide +kernel, sequencerRest_of (by decide +kernel), rfl, rfl, rfl, by decide, rfl⟩

theorem witness_SeqstepReplaysABit_7 :
    let s := at_ .replay 21 7
    configValid s.cfg = true ∧ SequencerRest s ∧ s.ph = .idle ∧ s.cs = .replay ∧ s.inp = true ∧
    s.bi ≠ 8 ∧ Scripted s :=
  ⟨by decide +kernel, sequencerRest_of (by decide +kernel), rfl, rfl, rfl, by decide, rfl⟩

theorem witness_SeqstepRefills :
    Ready stocked ∧ SequencerRest stocked ∧ stocked.cs = .replay ∧ stocked.inp = true ∧ stocked.bi = 8 ∧
    Scripted stocked :=
  ⟨ready_of (by decide +kernel), sequencerRest_of (by decide +kernel), rfl, rfl, rfl, rfl⟩

theorem witness_SeqstepRecordsABit :
    let s := at_ .recording 20 6
    s.ph = .idle ∧ s.cs = .recording ∧ s.bi.toNat < 7 ∧ Scripted s := by decide +kernel

theorem witness_SeqstepStoresAByte_next :
    let s := at_ .recording 20 7
    Ready s ∧ SequencerRest s ∧ s.cs = .recording ∧ s.bi = 7 ∧ s.bc.toNat < lastAddr s.cfg ∧
    Scripted s :=
  ⟨ready_of (by decide +kernel), sequencerRest_of (by decide +kernel), rfl, rfl, by decide +kernel, rfl⟩

theorem witness_SeqstepStoresAByte_last :
    let s := at_ .recording 21 7
    Ready s ∧ SequencerRest s ∧ s.cs = .recording ∧ s.bi = 7 ∧ s.bc.toNat = lastAddr s.cfg ∧
    Scripted s :=
  ⟨ready_of (by decide +kernel), sequencerRest_of (by decide +kernel), rfl, rfl, by decide +kernel, rfl⟩

theorem witness_ReplayPass :
    Ready stocked ∧ Scripted stocked ∧ stocked.cs = .replay ∧ stocked.bc = stocked.cfg.first ∧ stocked.bi = 8 ∧
    16 % (8 * stocked.cfg.count) = 0 :=
  ⟨ready_of (by decide +kernel), rfl, rfl, rfl, rfl, rfl⟩

theorem witness_RecordingStoresTheSamples :
    let s := at_ .recording 20 0
    Ready s ∧ Scripted s ∧ s.cs = .recording ∧ s.bc = s.cfg.first ∧ s.bi = 0 ∧
    (List.replicate 15 true).length < 8 * s.cfg.count ∧
    (List.replicate 16 false).length = 8 * s.cfg.count :=
  ⟨ready_of (by decide +kernel), rfl, rfl, rfl, rfl, by decide +kernel, by decide +kernel⟩

theorem witness_PollDrainsOneTick :
    let s := { at_ .replay 20 8 with pend := true, inp := false }
    s.pend = true ∧ Scripted s ∧ s.ph = .idle ∧ s.cs = .replay ∧ s.inp = false ∧ bus.pend = false :=
  by decide +kernel

theorem witness_TicksCoalesce :
    tickEnabled { bus with tcfg := some 100, tie := true } = true ∧ Scripted bus :=
  by decide +kernel

theorem witness_TmrcfgConfigures : (1 : Half) ≠ 0 ∧ (0 : Half) = 0 := by decide +kernel

theorem witness_MaskOperations : State.reset.tcfg = none := by decide +kernel

theorem witness_TickSetsPend :
    let s := { bus with tcfg := some 100, tie := true }
    s.tcfg ≠ none ∧ s.tie = true ∧ bus.tcfg = none ∧ { s with tie := false }.tie = false :=
  by decide +kernel

end Sys2Proof.Tests
end

section
/-! What a step refuses, and why (00_scope.md R10, 30_encoding.md R105, R106, 60_exceptions.md R245). -/

namespace Sys2Proof.Machine

/-- The configuration is looked at before anything else of the state (00_scope.md R10). -/
theorem step_of_configInvalid {s : State} (hc : configValid s.cfg = false) :
    step s = .refused .badConfiguration := by
  unfold step
  rw [hc]
  rfl

/-- A HOST that is not stuck takes nothing off a stream whose head is no operation. -/
theorem State.fetch_of_decode_error {s : State} {why : BadEncoding} (hrun : s.hung = false)
    (hne : s.stream ≠ []) (hd : decode s.stream = .error why) : s.fetch = .malformed why := by
  obtain ⟨b, bs, hs⟩ := List.exists_cons_of_ne_nil hne
  rw [hs] at hd
  simp [State.fetch, hrun, hs, hd]

/-- A valid configuration's step refuses what the fetch, after the other agents' steps, finds malformed. -/
theorem step_of_fetch_malformed {s : State} {why : BadEncoding} (hc : configValid s.cfg = true)
    (hf : s.others.fetch = .malformed why) : step s = .refused (.badEncoding why) := by
  unfold step
  rw [if_pos hc, hf]

/-- Settles O7: the other agents step before the fetch but touch neither the command stream nor the mark of a
stuck HOST, so the fetch sees the bytes that the statement decodes. -/
theorem stepRefusesWhatHasNoMeaning : Obligations.StepRefusesWhatHasNoMeaning := by
  refine ⟨fun s => step_of_configInvalid, fun s why hc hrun hne hd => step_of_fetch_malformed hc ?_⟩
  have hstream : s.others.stream = s.stream := s.others_stream
  have hothers : s.others.hung = false := s.others_hung.trans hrun
  exact State.fetch_of_decode_error hothers (by rwa [hstream]) (by rwa [hstream])

end Sys2Proof.Machine
end

section
/-! What a step keeps (10_state.md R26 to R32, 20_memory.md R64, 40_bus_primitives.md R129): the engine and the
devices' memories by `Quiet`, the mark of a byte sent by `SentQuiet`, and the sequencer's cursors, which are
followed here through each piece of the tick-processing step. -/

namespace Sys2Proof.Machine

/-! ## Conditions on the control registers -/

/-- A condition on the configuration and the control registers, of a state. -/
def Steered (P : Config → Control → Prop) (s : State) : Prop := P s.cfg s.control

/-- A predicate that an operation carries along, the operation maintains; of a hang it asks nothing. -/
theorem Op.Keeps.maintains {Q : State → Prop} {α : Type} {m : Op α}
    (h : Op.Keeps (fun s t => Q s → Q t) m) : Op.Maintains Q (fun _ => True) m := by
  intro s hs
  have h1 := h s
  revert h1
  cases m s with
  | ok a t => exact fun h1 => h1 hs
  | error e t => cases e <;> exact fun _ => trivial

/-- The primitives write no control register. -/
theorem Steered.closed (P : Config → Control → Prop) : BusClosed (Steered P) (fun _ => True) := by
  have hf : ∀ s t, BusFrame s t → Steered P s → Steered P t := fun s t h hs => by
    unfold Steered
    rw [h.cfg, h.control]
    exact hs
  exact
    { start := (BusFrame.busStart.mono hf).maintains
      write := fun b => ((BusFrame.busWrite b).mono hf).maintains
      read := fun k => ((BusFrame.busRead k).mono hf).maintains
      stop := (BusFrame.busStop.mono hf).maintains
      point := (BusFrame.point.mono hf).maintains
      draw := (BusFrame.draw.mono hf).maintains }

/-- A piece that writes control registers leads to what `f` makes of them. -/
theorem Steers.leadsTo {m : Op Unit} {f : Config → Control → Control} (h : Steers m f)
    {P Q : Config → Control → Prop} (hf : ∀ c x, P c x → Q c (f c x)) :
    Op.Leads (Steered P) (Steered Q) (fun _ => True) m := by
  intro s hs
  obtain ⟨t, ht, k, hc⟩ := h s
  rw [ht]
  show Q t.cfg t.control
  rw [k.kept.cfg, hc]
  exact hf _ _ hs

theorem Op.Leads.of_modify {P Q H : State → Prop} (f : State → State) (h : ∀ s, P s → Q (f s)) :
    Op.Leads P Q H (update f) := fun s hs => h s hs

/-! ## The cursors of the sequencer (10_state.md R31, R32, 43_sequencer.md R196) -/

/-- The configuration is valid, the byte cursor lies in the buffer, and CS and the bit cursor are as `R` has
them. -/
structure CursorsAt (R : Ctl → Nat → Prop) (c : Config) (x : Control) : Prop where
  config : configValid c = true
  low : c.first.toNat ≤ x.bc.toNat
  high : x.bc.toNat ≤ lastAddr c
  bit : R x.cs x.bi.toNat

/-- Replay between steps: the bits left begin at the bit cursor, none at 8. -/
abbrev AtReplay (cs : Ctl) (bi : Nat) : Prop := cs = .replay ∧ 1 ≤ bi ∧ bi ≤ 8

/-- Replay with a bit to drive, a fresh byte's bit 0 among them. -/
abbrev AtDrive (cs : Ctl) (bi : Nat) : Prop := cs = .replay ∧ bi ≤ 7

/-- Recording between steps. -/
abbrev AtRecord (cs : Ctl) (bi : Nat) : Prop := cs = .recording ∧ bi ≤ 7

/-- Recording with a sample just taken. -/
abbrev AtSampled (cs : Ctl) (bi : Nat) : Prop := cs = .recording ∧ 1 ≤ bi ∧ bi ≤ 8

/-- Between steps. -/
abbrev AtRest (cs : Ctl) (bi : Nat) : Prop := AtReplay cs bi ∨ AtRecord cs bi

/-- Recording after the store: on at the next bit, or past the buffer with the end action to come. -/
abbrev AfterStore (c : Config) (x : Control) : Prop :=
  CursorsAt AtRecord c x ∨ configValid c = true ∧ x.cs = .endRecording

/-- The sequencer between steps, in a valid configuration. -/
abbrev Resting : State → Prop := Steered (CursorsAt AtRest)

theorem resting_iff (s : State) : Resting s ↔ configValid s.cfg = true ∧ SequencerRest s :=
  ⟨fun h => ⟨h.config, h.low, h.high, h.bit⟩, fun ⟨hc, hl, hh, hb⟩ => ⟨hc, hl, hh, hb⟩⟩

theorem CursorsAt.mono {R R' : Ctl → Nat → Prop} {c : Config} {x : Control} (h : CursorsAt R c x)
    (hR : ∀ cs bi, R cs bi → R' cs bi) : CursorsAt R' c x := ⟨h.config, h.low, h.high, hR _ _ h.bit⟩

/-- The byte cursor rewound to FIRST lies in the buffer of a valid configuration. -/
theorem CursorsAt.of_first {R : Ctl → Nat → Prop} {c : Config} {x : Control} (hc : configValid c = true)
    (hbc : x.bc = c.first) (hR : R x.cs x.bi.toNat) : CursorsAt R c x := by
  obtain ⟨hcount, _⟩ := configValid_buffer hc
  refine ⟨hc, by rw [hbc], ?_, hR⟩
  rw [hbc]
  unfold lastAddr
  omega

/-- Replay's next byte cursor lies in the buffer (R198). -/
theorem nextReplay_in_buffer {c : Config} (hc : configValid c = true) {bc : Half}
    (hl : c.first.toNat ≤ bc.toNat) (hh : bc.toNat ≤ lastAddr c) :
    c.first.toNat ≤ (nextReplay c bc).toNat ∧ (nextReplay c bc).toNat ≤ lastAddr c := by
  rw [nextReplay_toNat hc hh]
  split <;> omega

/-- The bit cursor one on, below 8. -/
theorem bi_succ_toNat {b : BitVec 4} (h : b.toNat ≤ 7) : (b + 1).toNat = b.toNat + 1 := by
  bv_omega

/-- The bit cursor that SEQINIT and EndAction leave is in Replay's range. -/
theorem bi_eight_in_range : 1 ≤ (8#4).toNat ∧ (8#4).toNat ≤ 8 := by decide

/-- A bit cursor in range that is not 8 is below it. -/
theorem bi_le_seven {b : BitVec 4} (hle : b.toNat ≤ 8) (h8 : b ≠ 8) : b.toNat ≤ 7 := by
  bv_omega

/-! ## The pieces of the tick-processing step (R195 to R202) -/

/-- BeginAction and EndAction end with the cursors rewound. -/
theorem beginAction_rests :
    Op.Leads (Steered fun c _ => configValid c = true) Resting (fun _ => True) beginAction :=
  Steers.beginAction.leadsTo fun _ _ hc => .of_first hc rfl (.inr ⟨rfl, show (0#4).toNat ≤ 7 by decide⟩)

theorem endAction_rests :
    Op.Leads (Steered fun c _ => configValid c = true) Resting (fun _ => True) endAction :=
  Steers.endAction.leadsTo fun _ _ hc => .of_first hc rfl (.inl ⟨rfl, bi_eight_in_range⟩)

theorem seqInit_rests :
    Op.Leads (Steered fun c _ => configValid c = true) Resting (fun _ => True) seqInit :=
  Steers.seqInit.leadsTo fun _ _ hc => .of_first hc rfl (.inl ⟨rfl, bi_eight_in_range⟩)

/-- Whatever the device sends, a refill leaves a bit to drive. -/
theorem refill_leads : Op.Leads (Steered (CursorsAt AtReplay)) (Steered (CursorsAt AtDrive)) (fun _ => True)
    refill := by
  intro s hs
  unfold refill
  rw [bind_of_ok (get_apply s)]
  by_cases h8 : s.bi = 8
  · rw [if_pos h8]
    have hread := ((Steered.closed (CursorsAt AtReplay)).readTransaction s.cfg.eeDev
      [hiByte s.bc, loByte s.bc]).leads
    exact Op.Leads.bind hread (fun v => .of_modify _ (fun t (ht : CursorsAt AtReplay t.cfg t.control) =>
      ⟨ht.config, ht.low, ht.high, ht.bit.1, show (0#4).toNat ≤ 7 by decide⟩)) s hs
  · rw [if_neg h8]
    obtain ⟨hcs, _, hle⟩ := hs.bit
    exact ⟨hs.config, hs.low, hs.high, hcs, bi_le_seven hle h8⟩

/-- Driving a bit advances the bit cursor, and the byte cursor with the last bit. -/
theorem driveBit_leads : Op.Leads (Steered (CursorsAt AtDrive)) (Steered (CursorsAt AtReplay)) (fun _ => True)
    driveBit := by
  refine Steers.driveBit.leadsTo fun c x h => ?_
  obtain ⟨hcs, hle⟩ := h.bit
  have hbit : AtReplay x.cs (x.bi + 1).toNat := by
    rw [bi_succ_toNat hle]
    exact ⟨hcs, by omega, by omega⟩
  have hbc : c.first.toNat ≤ (if x.bi + 1 = 8 then nextReplay c x.bc else x.bc).toNat ∧
      (if x.bi + 1 = 8 then nextReplay c x.bc else x.bc).toNat ≤ lastAddr c := by
    split
    · exact nextReplay_in_buffer h.config h.low h.high
    · exact ⟨h.low, h.high⟩
  exact ⟨h.config, hbc.1, hbc.2, hbit⟩

/-- SEQSTEP in Replay: a press leads into Recording, otherwise one bit is replayed. -/
theorem stepReplay_rests : Op.Leads (Steered (CursorsAt AtReplay)) Resting (fun _ => True) stepReplay := by
  refine Op.Leads.bind (Op.Maintains.of_look _).leads (fun asserted => ?_)
  cases asserted with
  | true =>
    exact ((Steers.setCs .beginRecording).bind Steers.point).leadsTo (Q := fun c _ => configValid c = true)
      (fun _ _ h => h.config) |>.bind (fun _ => beginAction_rests)
  | false =>
    exact refill_leads.bind (fun _ => driveBit_leads.mono (fun _ h => h)
      (fun _ h => h.mono fun _ _ => .inl) (fun _ h => h))

/-- Taking a sample advances the bit cursor. -/
theorem takeSample_leads : Op.Leads (Steered (CursorsAt AtRecord)) (Steered (CursorsAt AtSampled))
    (fun _ => True) takeSample := by
  intro s hs
  obtain ⟨t, ht, k, hc⟩ := takeSample_spec s
  obtain ⟨hcs, hle⟩ := hs.bit
  rw [ht]
  show CursorsAt AtSampled t.cfg t.control
  rw [k.kept.cfg, hc]
  refine ⟨hs.config, hs.low, hs.high, hcs, ?_⟩
  show 1 ≤ (s.control.bi + 1).toNat ∧ (s.control.bi + 1).toNat ≤ 8
  rw [bi_succ_toNat hle]
  omega

/-- The byte cursor's advance past a store: inside the buffer, or with the recording at its end (R200). -/
theorem advanceRecord_afterStore {s : State} (h : CursorsAt AtSampled s.cfg s.control) :
    AfterStore (advanceRecord s).cfg (advanceRecord s).control := by
  by_cases hend : lastAddr s.cfg < (s.bc + 1).toNat
  · exact .inr ⟨h.config, if_pos hend⟩
  · obtain ⟨_, _, hroom, _⟩ := configValid_buffer h.config
    have hlow : s.cfg.first.toNat ≤ s.bc.toNat := h.low
    have hhigh : s.bc.toNat ≤ lastAddr s.cfg := h.high
    have hcs : (advanceRecord s).cs = .recording := (if_neg hend).trans h.bit.1
    have hbc : (s.bc + 1).toNat = s.bc.toNat + 1 := by
      unfold lastAddr at hhigh
      bv_omega
    exact .inl ⟨h.config, show s.cfg.first.toNat ≤ (s.bc + 1).toNat by omega, Nat.not_lt.mp hend, hcs,
      show (0#4).toNat ≤ 7 by decide⟩

/-- Whatever the device answers, a store moves on or ends the recording. -/
theorem storeByte_leads : Op.Leads (Steered (CursorsAt AtSampled)) (Steered AfterStore) (fun _ => True)
    storeByte := by
  intro s hs
  unfold storeByte
  rw [bind_of_ok (get_apply s)]
  by_cases h8 : s.bi = 8
  · rw [if_pos h8]
    have B := Steered.closed (CursorsAt AtSampled)
    have hwrite := (B.writeTransaction s.cfg.eeDev [hiByte s.bc, loByte s.bc, s.acc]).leads
    exact Op.Leads.bind hwrite (fun _ => Op.Leads.bind B.point.leads (fun _ =>
      .of_modify _ (fun _ ht => advanceRecord_afterStore ht))) s hs
  · rw [if_neg h8]
    obtain ⟨hcs, _, hle⟩ := hs.bit
    exact .inl ⟨hs.config, hs.low, hs.high, hcs, bi_le_seven hle h8⟩

/-- SEQSTEP in Recording: one bit is recorded, and the end of the buffer ends the recording. -/
theorem stepRecording_rests : Op.Leads (Steered (CursorsAt AtRecord)) Resting (fun _ => True)
    stepRecording := by
  refine Op.Leads.bind (takeSample_leads.bind fun _ => storeByte_leads) (fun _ =>
    Op.Leads.bind (Steered.closed AfterStore).point.leads (fun _ => fun s hs => ?_))
  rw [bind_of_ok (look_apply _ s)]
  rcases hs with hon | ⟨hc, hend⟩
  · rw [if_neg (by rw [show s.cs = .recording from hon.bit.1]; decide)]
    exact hon.mono fun _ _ => .inr
  · rw [if_pos (show s.cs = .endRecording from hend)]
    exact endAction_rests s hc

/-- The tick-processing step leaves the sequencer at rest (R195, R196). -/
theorem seqStep_rests : Op.Maintains Resting (fun _ => True) seqStep := by
  refine Op.Maintains.of_bind BusClosed.requireIdle (fun _ => fun s hs => ?_)
  rw [bind_of_ok (look_apply _ s)]
  rcases hs.bit with hreplay | hrecord
  · rw [show s.cs = .replay from hreplay.1]
    exact stepReplay_rests s ⟨hs.config, hs.low, hs.high, hreplay⟩
  · rw [show s.cs = .recording from hrecord.1]
    exact stepRecording_rests s ⟨hs.config, hs.low, hs.high, hrecord⟩

/-- SEQREINIT leaves the sequencer at rest (R204). -/
theorem seqReinit_rests : Op.Maintains Resting (fun _ => True) seqReinit := by
  have C : SeqClosed (Steered fun c _ => configValid c = true) (fun _ => True) :=
    { Steered.closed (fun c _ => configValid c = true) with control := fun _ _ _ _ _ _ _ _ _ h => h }
  have hrun : Op.Leads (Steered fun c _ => configValid c = true) Resting (fun _ => True) seqReinit :=
    Op.Leads.bind BusClosed.requireIdle.leads (fun _ => Op.Leads.bind (C.flash _).leads (fun _ =>
      Op.Leads.bind (Op.Maintains.of_look _).leads (fun c => Op.Leads.bind (C.reinitBuffer _ _).leads (fun _ =>
        Op.Leads.bind (C.flash _).leads (fun _ => seqInit_rests)))))
  exact (hrun.mono (fun _ h => h.config) (fun _ h => h) (fun _ h => h)).maintains

open Op.Maintains in
/-- Every operation leaves the sequencer at rest, unless it hangs. -/
theorem runOf_rests (i : Instr) : Op.Maintains Resting (fun _ => True) (runOf i) := by
  have B := Steered.closed (CursorsAt AtRest)
  by_cases hi : sequencerOp i
  · rcases hi with rfl | rfl | rfl | rfl
    · exact .noResult (seqInit_rests.mono (fun _ h => h.config) (fun _ h => h) (fun _ h => h)).maintains
    · exact .noResult seqReinit_rests
    · exact .noResult seqStep_rests
    · exact .noResult (of_bind (of_look _) (fun _ => of_ite (fun _ => of_bind B.point (fun _ =>
        of_bind (of_modify _ (fun _ h => h)) (fun _ => of_bind B.point (fun _ => seqStep_rests))))
        (fun _ => of_pure _)))
  · exact runOf_bus_maintains B i hi (fun _ _ _ _ h => h) (fun _ _ _ h => ⟨h.config, h.low, h.high, h.bit⟩)
      (fun _ _ _ h => ⟨h.config, h.low, h.high, h.bit⟩) (fun _ _ _ h => h) (fun _ _ _ h => h)

/-! ## Operations and steps -/

/-- Every operation keeps the mark of a byte sent in its place (log 15). -/
theorem runOf_sentQuiet (i : Instr) : Op.Maintains SentQuiet SentOpen (runOf i) :=
  runOf_maintains SentQuiet.seqClosed i
    (fun _ _ _ _ h => ⟨h.sent.of_same rfl rfl rfl rfl, h.flight⟩)
    (fun _ _ _ h => ⟨h.sent.of_same rfl rfl rfl rfl, h.flight⟩)
    (fun _ _ h => ⟨h.sent.of_same rfl rfl rfl rfl, h.flight⟩)
    (fun _ _ _ h => ⟨h.sent.of_same rfl rfl rfl rfl, h.flight⟩)
    (fun _ _ _ h => ⟨h.sent.of_same rfl rfl rfl rfl, h.flight⟩)

theorem Op.Maintains.and {Q Q' H H' : State → Prop} {α : Type} {m : Op α} (h : Op.Maintains Q H m)
    (h' : Op.Maintains Q' H' m) : Op.Maintains (fun s => Q s ∧ Q' s) (fun s => H s ∧ H' s) m := by
  intro s hs
  have h1 := h s hs.1
  have h2 := h' s hs.2
  revert h1 h2
  cases m s with
  | ok a t => exact And.intro
  | error e t =>
    cases e with
    | hang => exact And.intro
    | refuse r => exact fun _ => id

theorem Inv.sound {s : State} (h : Inv s) : Sound s :=
  ⟨h.config, h.memory, h.engine.open_init, h.engine.stop_idle, h.engine.sel_open⟩

/-- With a HOST that is not stuck nothing is in flight. -/
theorem Inv.flight {s : State} (h : Inv s) (hrun : s.hung = false) : s.inflight = .none := by
  by_contra hne
  exact absurd (h.engine.flight_hung hne) (by rw [hrun]; decide)

theorem Inv.quiet {s : State} (h : Inv s) (hrun : s.hung = false) : Quiet s := ⟨h.sound, h.flight hrun⟩

theorem Inv.resting {s : State} (h : Inv s) (hrun : s.hung = false) : Resting s :=
  (resting_iff s).mpr ⟨h.config, h.sequencer hrun⟩

/-- A sound engine, and what is asked further of a HOST that is stuck or not. -/
theorem Sound.inv {s : State} (h : Sound s) (hf : s.inflight ≠ .none → s.hung = true)
    (hr : s.hung = false → SequencerRest s) : Inv s :=
  ⟨h.config, h.memory, ⟨h.open_init, h.stop_idle, h.sel_open, hf⟩, hr⟩

/-- An operation that a HOST not stuck issues keeps the invariant. -/
theorem exec_keeps_inv {i : Instr} {s t : State} (h : Inv s) (hrun : s.hung = false)
    (hx : exec i s = .next t) : Inv t := by
  rw [exec_eq] at hx
  rcases ((runOf_quiet i).and (runOf_rests i)).finish ⟨h.quiet hrun, h.resting hrun⟩ hx with
    ⟨bytes, u, ⟨hq, hr⟩, rfl⟩ | ⟨u, ⟨hsound, _⟩, rfl⟩
  · exact Sound.inv (hq.sound.of_same rfl rfl rfl rfl rfl rfl rfl) (fun hne => absurd hq.flight hne)
      (fun _ => ((resting_iff u).mp hr).2)
  · exact Sound.inv (hsound.of_same rfl rfl rfl rfl rfl rfl rfl) (fun _ => rfl) nofun

/-- And it keeps the mark of a byte sent in its place. -/
theorem exec_keeps_sentOpen {i : Instr} {s t : State} (hf : s.inflight = .none) (h : SentOpen s)
    (hx : exec i s = .next t) : SentOpen t := by
  rw [exec_eq] at hx
  rcases (runOf_sentQuiet i).finish ⟨h, hf⟩ hx with ⟨bytes, u, hq, rfl⟩ | ⟨u, hsent, rfl⟩
  · exact hq.sent.of_same rfl rfl rfl rfl
  · exact hsent.of_same rfl rfl rfl rfl

/-- What the other agents and a pending stop do not touch. -/
theorem SequencerRest.of_same {s t : State} (h : SequencerRest s) (hcfg : t.cfg = s.cfg) (hcs : t.cs = s.cs)
    (hbc : t.bc = s.bc) (hbi : t.bi = s.bi) : SequencerRest t := by
  unfold SequencerRest at h ⊢
  rw [hcfg, hcs, hbc, hbi]
  exact h

/-- The other agents keep the invariant (00_scope.md R17). -/
theorem Inv.others {s : State} (h : Inv s) : Inv s.others :=
  h.sound.others.inv (by simpa using h.engine.flight_hung) (fun hrun =>
    (h.sequencer (s.others_hung.symm.trans hrun)).of_same s.others_cfg s.others_cs s.others_bc s.others_bi)

/-- A pending stop put on the wire keeps the invariant (40_bus_primitives.md R129). -/
theorem Inv.settleStop {s : State} (h : Inv s) : Inv (settleStop s) :=
  h.sound.settleStop.inv (by simpa using h.engine.flight_hung) (fun hrun =>
    (h.sequencer ((settleStop_hung s).symm.trans hrun)).of_same (settleStop_cfg s) (settleStop_cs s)
      (settleStop_bc s) (settleStop_bi s))

/-- What the stream holds is not the invariant's. -/
theorem Inv.withStream {s : State} (h : Inv s) (bytes : List Byte) : Inv { s with stream := bytes } :=
  Sound.inv (h.sound.of_same rfl rfl rfl rfl rfl rfl rfl) h.engine.flight_hung (fun hrun =>
    (h.sequencer hrun).of_same rfl rfl rfl rfl)

/-- What a step does where it answers: the other agents step; then a stuck HOST waits, a HOST with an empty
stream lets a pending stop onto the wire, or the next operation is performed. -/
theorem step_next_cases {s t : State} (h : step s = .next t) :
    (s.others.hung = true ∧ t = s.others) ∨
    (s.others.stream = [] ∧ t = settleStop s.others) ∨
    ∃ i rest, s.others.hung = false ∧ exec i { s.others with stream := rest } = .next t := by
  unfold step at h
  split at h
  · unfold State.fetch at h
    cases hhung : s.others.hung with
    | true =>
      rw [if_pos hhung] at h
      cases h
      exact .inl ⟨rfl, rfl⟩
    | false =>
      rw [if_neg (by rw [hhung]; decide)] at h
      cases hstream : s.others.stream with
      | nil =>
        rw [hstream] at h
        cases h
        exact .inr (.inl ⟨rfl, rfl⟩)
      | cons b bs =>
        rw [hstream] at h
        cases hd : decode (b :: bs) with
        | ok p =>
          simp only [hd] at h
          exact .inr (.inr ⟨p.1, p.2, rfl, h⟩)
        | error why =>
          simp only [hd] at h
          cases h
  · cases h

/-- Settles O12: by the cases of a step. The other agents and a pending stop keep the invariant; an operation
keeps it because the engine ends quiet or hangs sound, and the sequencer's pieces lead from rest to rest. -/
theorem stepKeepsInv : Obligations.StepKeepsInv := by
  intro s t hinv hstep
  have ho : Inv s.others := hinv.others
  rcases step_next_cases hstep with ⟨_, rfl⟩ | ⟨_, rfl⟩ | ⟨i, rest, hrun, hx⟩
  · exact ⟨ho, SentOpen.others⟩
  · exact ⟨ho.settleStop, fun h => h.others.settleStop⟩
  · exact ⟨exec_keeps_inv (ho.withStream rest) hrun hx, fun h =>
      exec_keeps_sentOpen (s := { s.others with stream := rest }) (ho.flight hrun)
        (h.others.of_same rfl rfl rfl rfl) hx⟩

end Sys2Proof.Machine
end

section
/-! Power-up and who writes what (10_state.md R37, R42, R45): the operations' own writes beside the frame of the
bus primitives, said once and read off field by field. -/

namespace Sys2Proof.Machine

/-! ## Reset (R45) -/

/-- Settles O10: each register of `State.powerUp` is the value written there, and with TCFG and TIE reset the
TIMER's step is not enabled. -/
theorem resetValues : Obligations.ResetValues := by
  intro c ee rtcreg inp
  exact ⟨rfl, rfl, rfl, rfl, rfl, rfl, rfl, rfl, rfl, rfl, rfl, rfl, rfl, rfl, rfl, rfl, rfl, rfl, rfl⟩

/-- After power-up the engine is idle and the sequencer rewound. -/
theorem inv_powerUp {c : Config} {ee rtcreg : Memory} (inp : Bool) (hc : configValid c = true)
    (hee : ee.wf = true) (heeSize : ee.below c.eeSize = true) (hrtc : rtcreg.wf = true)
    (hrtcSize : rtcreg.below 256 = true) : Inv (State.powerUp c ee rtcreg inp) where
  config := hc
  memory := ⟨hee, heeSize, hrtc, hrtcSize⟩
  engine := ⟨fun h => absurd rfl h, nofun, fun h => absurd rfl h, fun h => absurd rfl h⟩
  sequencer := fun _ =>
    have hrest : Resting (State.powerUp c ee rtcreg inp) :=
      .of_first hc rfl (.inl ⟨rfl, bi_eight_in_range⟩)
    ((resting_iff _).mp hrest).2

/-- After power-up no device is marked as having sent its byte. -/
theorem sentOpen_powerUp (c : Config) (ee rtcreg : Memory) (inp : Bool) :
    SentOpen (State.powerUp c ee rtcreg inp) := by
  rintro (h | h) <;> cases h

/-- Settles O11: of every valid configuration, the reference one among them. -/
theorem resetInv : Obligations.ResetInv :=
  ⟨fun c ee rtcreg inp hc hee heeSize hrtc hrtcSize =>
      ⟨inv_powerUp inp hc hee heeSize hrtc hrtcSize, sentOpen_powerUp c ee rtcreg inp⟩,
    inv_powerUp true (by decide) (by decide) (by decide) (by decide) (by decide), sentOpen_powerUp _ _ _ _⟩

/-! ## PEND and IN (R37, R42) -/

/-- A relation that speaks of the schedule, PEND and IN only holds across an operation if it goes through in
steps, the primitives' frame implies it, and the operation's own write of PEND or IN, if any, keeps it. -/
theorem exec_relates_lines {R : State → State → Prop} {i : Instr}
    (hsame : ∀ s t, t.agenda = s.agenda → t.pend = s.pend → t.inp = s.inp → R s t)
    (htrans : ∀ s t u, R s t → R t u → R s u) (hframe : ∀ s t, BusFrame s t → R s t)
    (hpoll : i = .poll → ∀ s, R s { s with pend := false })
    (htick : i = .tick → ∀ s, R s { s with pend := true })
    (hset : ∀ level, i = .setin level → ∀ s, R s { s with inp := level })
    {s t : State} (hx : exec i s = .next t) : R s t := by
  have hR : Chain R := ⟨fun s => hsame s s rfl rfl rfl, htrans⟩
  have C (s₀ : State) : SeqClosed (R s₀) (R s₀) :=
    seqClosed_of_frame hR hframe (fun _ _ _ _ _ _ _ _ _ => hsame _ _ rfl rfl rfl) s₀
  refine exec_relates hR i (fun s₀ => runOf_maintains (C s₀) i
    (fun _ _ _ _ h => htrans _ _ _ h (hsame _ _ rfl rfl rfl))
    (fun _ _ _ h => htrans _ _ _ h (hsame _ _ rfl rfl rfl))
    (fun e s h => htrans _ _ _ h (hpoll e s))
    (fun e s _ h => htrans _ _ _ h (htick e s))
    (fun level e s h => htrans _ _ _ h (hset level e s))) ?_ ?_ hx
  · exact fun _ _ _ h => htrans _ _ _ h (hsame _ _ rfl rfl rfl)
  · exact fun _ _ h => htrans _ _ _ h (hsame _ _ rfl rfl rfl)

/-- Every operation but POLL keeps a pending tick. -/
theorem exec_keeps_pend {i : Instr} {s t : State} (hi : i ≠ .poll) (hx : exec i s = .next t)
    (hp : s.pend = true) : t.pend = true :=
  exec_relates_lines (R := fun s t => s.pend = true → t.pend = true)
    (fun _ _ _ hp _ => hp.trans) (fun _ _ _ h k e => k (h e)) (fun _ _ h => h.pend)
    (fun e => absurd e hi) (fun _ _ _ => rfl) (fun _ _ _ h => h) hx hp

/-- Under a script's schedule every operation but TICK leaves no tick pending where none was. -/
theorem exec_sets_no_pend {i : Instr} {s t : State} (hi : i ≠ .tick) (hx : exec i s = .next t)
    (ha : Scripted s) (hp : s.pend = false) : t.pend = false :=
  (exec_relates_lines (R := fun s t => Scripted s ∧ s.pend = false → Scripted t ∧ t.pend = false)
    (fun _ _ ha hp _ => And.imp ha.trans hp.trans) (fun _ _ _ h k e => k (h e))
    (fun _ _ h ⟨ha, hp⟩ => ⟨h.agenda ha, (h.lines ha).1.trans hp⟩)
    (fun _ _ h => ⟨h.1, rfl⟩) (fun e => absurd e hi) (fun _ _ _ h => h) hx ⟨ha, hp⟩).2

/-- Under a script's schedule IN is written by SETIN only (30_encoding.md R110). -/
theorem exec_keeps_inp {i : Instr} {s t : State} (hx : exec i s = .next t) (hi : ∀ level, i ≠ .setin level)
    (ha : Scripted s) : t.inp = s.inp :=
  (exec_relates_lines (R := fun s t => Scripted s → Scripted t ∧ t.inp = s.inp)
    (fun _ _ ha _ hin e => ⟨ha.trans e, hin⟩)
    (fun _ _ _ h k e => ⟨(k (h e).1).1, (k (h e).1).2.trans (h e).2⟩)
    (fun _ _ h e => ⟨h.agenda e, (h.lines e).2⟩)
    (fun _ _ h => ⟨h, rfl⟩) (fun _ _ h => ⟨h, rfl⟩) (fun level e => absurd e (hi level)) hx ha).2

/-- Settles O13: both halves are relations between PEND before and after that the frame of the primitives implies
and that every operation but the one named keeps with its own writes. -/
theorem pendIsClearedByPollOnly : Obligations.PendIsClearedByPollOnly :=
  fun _ _ _ h => ⟨fun hi => exec_keeps_pend hi h, fun hi => exec_sets_no_pend hi h⟩

/-! ## The writers of R42 -/

/-- What the operations write besides the bus primitives, one line for each row of R42's table, leaves `f` as it
was; a line that `f` does not speak of holds by computation. -/
structure OwnWritesKeep {α : Type} (f : State → α) (i : Instr) : Prop where
  result : ∀ s r, f { s with resp := r } = f s := by intros; rfl
  stuck : ∀ s, f { s with hung := true } = f s := by intros; rfl
  speed : ∀ khz, i = .twinit khz → ∀ s d, f { s with br := some d } = f s := by intros; rfl
  timer : ∀ ms, i = .tmrcfg ms → ∀ s, f { s with tcfg := some ms, tie := true } = f s := by intros; rfl
  mask : i = .tmrieon ∨ i = .tmrieoff → ∀ s v, f { s with tie := v } = f s := by intros; rfl
  tick : i = .tick → ∀ s, f { s with pend := true } = f s := by intros; rfl
  input : ∀ level, i = .setin level → ∀ s, f { s with inp := level } = f s := by intros; rfl
  cursors : i = .seqinit ∨ i = .seqreinit →
    ∀ s cs bc bi, f { s with cs := cs, bc := bc, bi := bi } = f s := by intros; rfl
  output : i = .seqreinit → ∀ s v trace, f { s with out := v, outTrace := trace } = f s := by intros; rfl
  control : i = .seqstep ∨ i = .poll → ∀ s out trace tie cs bc bi acc cur,
    f (s.withControl out trace tie cs bc bi acc cur) = f s := by intros; rfl
  clear : i = .poll → ∀ s, f { s with pend := false } = f s := by intros; rfl

/-- A run keeps `f` if the primitives' frame and the operation's own writes do. -/
theorem runOf_keeps_field {α : Type} {f : State → α} {i : Instr} (W : OwnWritesKeep f i)
    (hf : ∀ s t, BusFrame s t → f t = f s) : Op.Keeps (fun s t => f t = f s) (runOf i) := by
  have hR : Chain fun s t : State => f t = f s := ⟨fun _ => rfl, fun _ _ _ h k => k.trans h⟩
  refine Op.Maintains.keeps hR (fun s₀ => ?_)
  have B : BusClosed (fun t => f t = f s₀) (fun t => f t = f s₀) := busClosed_of_frame hR hf s₀
  by_cases hi : sequencerOp i
  · rcases hi with rfl | rfl | hstep
    · exact .noResult (.of_bind
        (.of_modify _ (fun s h => (W.cursors (.inl rfl) s _ s.bc s.bi).trans h))
        (fun _ => .of_modify _ (fun s h => (W.cursors (.inl rfl) s s.cs _ _).trans h)))
    · exact seqReinit_maintains B (fun s v trace h => (W.output rfl s v trace).trans h)
        (fun s cs bc bi h => (W.cursors (.inr rfl) s cs bc bi).trans h)
    · have C : SeqClosed (fun t => f t = f s₀) (fun t => f t = f s₀) :=
        { B with control := fun s _ _ _ _ _ _ _ _ h => (W.control hstep s _ _ _ _ _ _ _ _).trans h }
      exact runOf_maintains C i (fun khz e s d h => (W.speed khz e s d).trans h)
        (fun ms e s h => (W.timer ms e s).trans h) (fun e s h => (W.clear e s).trans h)
        (fun e s _ h => (W.tick e s).trans h) (fun level e s h => (W.input level e s).trans h)
  · exact runOf_bus_maintains B i hi (fun khz e s d h => (W.speed khz e s d).trans h)
      (fun ms e s h => (W.timer ms e s).trans h) (fun e s v h => (W.mask e s v).trans h)
      (fun e s _ h => (W.tick e s).trans h) (fun level e s h => (W.input level e s).trans h)

/-- An operation keeps `f` if the primitives' frame and its own writes do. -/
theorem exec_keeps_field {α : Type} {f : State → α} {i : Instr} (W : OwnWritesKeep f i)
    (hf : ∀ s t, BusFrame s t → f t = f s) {s t : State} (h : exec i s = .next t) : f t = f s := by
  rw [exec_eq] at h
  exact finish_keeps (runOf_keeps_field W hf) (fun _ t r h => (W.result t r).trans h)
    (fun _ t h => (W.stuck t).trans h) h

section Writers

variable {i : Instr} {s t : State} (hx : exec i s = .next t)
include hx

/-- No operation writes the configuration or gives the HOST command bytes. -/
theorem exec_samePort : SamePort s t :=
  ⟨exec_keeps_field (f := State.cfg) {} (fun _ _ h => h.cfg) hx,
    exec_keeps_field (f := State.stream) {} (fun _ _ h => h.stream) hx⟩

theorem exec_keeps_br (hi : ∀ khz, i ≠ .twinit khz) : t.br = s.br :=
  exec_keeps_field (f := State.br) { speed := fun khz e => absurd e (hi khz) } (fun _ _ h => h.br) hx

theorem exec_keeps_tcfg (hi : ∀ ms, i ≠ .tmrcfg ms) : t.tcfg = s.tcfg :=
  exec_keeps_field (f := State.tcfg) { timer := fun ms e => absurd e (hi ms) } (fun _ _ h => h.tcfg) hx

theorem exec_keeps_tie (hcfg : ∀ ms, i ≠ .tmrcfg ms) (hon : i ≠ .tmrieon) (hoff : i ≠ .tmrieoff)
    (hstep : i ≠ .seqstep) (hpoll : i ≠ .poll) : t.tie = s.tie :=
  exec_keeps_field (f := State.tie)
    { timer := fun ms e => absurd e (hcfg ms)
      mask := fun e => absurd e (not_or.mpr ⟨hon, hoff⟩)
      control := fun e => absurd e (not_or.mpr ⟨hstep, hpoll⟩) }
    (fun _ _ h => h.tie) hx

theorem exec_keeps_cursors (hi : ¬ sequencerOp i) : t.cs = s.cs ∧ t.bc = s.bc ∧ t.bi = s.bi := by
  have hsame := exec_keeps_field (f := fun s => (s.cs, s.bc, s.bi))
    { cursors := fun e => absurd (e.elim .inl (.inr ∘ .inl)) hi
      control := fun e => absurd (.inr (.inr e)) hi }
    (fun _ _ h => by rw [h.cs, h.bc, h.bi]) hx
  simpa using hsame

theorem exec_keeps_acc_cur (hstep : i ≠ .seqstep) (hpoll : i ≠ .poll) : t.acc = s.acc ∧ t.cur = s.cur :=
  have hi : ¬ (i = .seqstep ∨ i = .poll) := not_or.mpr ⟨hstep, hpoll⟩
  ⟨exec_keeps_field (f := State.acc) { control := fun e => absurd e hi } (fun _ _ h => h.acc) hx,
    exec_keeps_field (f := State.cur) { control := fun e => absurd e hi } (fun _ _ h => h.cur) hx⟩

theorem exec_sameOutput (hreinit : i ≠ .seqreinit) (hstep : i ≠ .seqstep) (hpoll : i ≠ .poll) :
    SameOutput s t :=
  have hi : ¬ (i = .seqstep ∨ i = .poll) := not_or.mpr ⟨hstep, hpoll⟩
  ⟨exec_keeps_field (f := State.out)
      { output := fun e => absurd e hreinit, control := fun e => absurd e hi } (fun _ _ h => h.out) hx,
    exec_keeps_field (f := State.outTrace)
      { output := fun e => absurd e hreinit, control := fun e => absurd e hi } (fun _ _ h => h.outTrace) hx⟩

end Writers

/-- Settles O14: each register by its own row of the table, an operation outside the row leaving it alone. -/
theorem registerWriters : Obligations.RegisterWriters :=
  fun _ _ _ hx =>
    ⟨exec_samePort hx, exec_keeps_br hx, exec_keeps_tcfg hx, exec_keeps_tie hx,
      fun hinit hreinit hstep hpoll =>
        exec_keeps_cursors hx (by simp [sequencerOp, hinit, hreinit, hstep, hpoll]),
      exec_keeps_acc_cur hx, exec_sameOutput hx, exec_keeps_inp hx⟩

end Sys2Proof.Machine
end

section
/-! The memory of the EEPROM (20_memory.md R61, R62, R64): which bytes the sequencer's operations may store, and
what is refused outside the device. -/

namespace Sys2Proof.Machine

/-! ## The sample buffer (R61, R62) -/

/-- The offsets below COUNT are addresses of the buffer, with no wrap at 16 bits (00_scope.md R10). -/
theorem inBuffer_offset {c : Config} (hc : configValid c = true) {j : Nat} (hj : j < c.count) :
    inBuffer c (c.first + BitVec.ofNat 16 j).toNat := by
  obtain ⟨_, _, hroom, _⟩ := configValid_buffer hc
  have haddr : (c.first + BitVec.ofNat 16 j).toNat = c.first.toNat + j := by
    rw [BitVec.toNat_add, BitVec.toNat_ofNat]
    omega
  unfold inBuffer lastAddr
  omega

/-- The cursor header lies below the buffer (00_scope.md R10). -/
theorem header_not_inBuffer {c : Config} (hc : configValid c = true) {a : Nat} (ha : a < 2) : ¬ inBuffer c a := by
  obtain ⟨_, hfirst, _⟩ := configValid_buffer hc
  unfold inBuffer
  omega

/-- Between steps the byte cursor is an address of the buffer. -/
theorem SequencerRest.inBuffer_bc {s : State} (h : SequencerRest s) : inBuffer s.cfg s.bc.toNat := by
  obtain ⟨hlow, hhigh, _⟩ := h
  exact ⟨hlow, hhigh⟩

/-! ## Where the sequencer's operations store -/

/-- What a run leads to, whether it returns or hangs, holds after the operation if it speaks neither of the
result bytes nor of the mark of a stuck HOST. -/
theorem Op.Leads.exec_next {P Q : State → Prop} {i : Instr} (h : Op.Leads P Q Q (runOf i))
    (hresp : ∀ s r, Q s → Q { s with resp := r }) (hhung : ∀ s, Q s → Q { s with hung := true })
    {s t : State} (hs : P s) (hx : exec i s = .next t) : Q t := by
  have hrun := h s hs
  rw [exec_eq] at hx
  rcases finish_next hx with ⟨bytes, u, hok, rfl⟩ | ⟨u, hhang, rfl⟩
  · rw [hok] at hrun
    exact hresp _ _ hrun
  · rw [hhang] at hrun
    exact hhung _ hrun

section Storing

variable {c : Config} {B : Nat → Prop} {m : Memory}

/-- Only bytes of `B` have changed, and the byte cursor is in `B`. -/
def CursorWithin (c : Config) (B : Nat → Prop) (m : Memory) (s : State) : Prop :=
  OutsideKept c B m s ∧ B s.bc.toNat

/-- The other agents store nothing and leave the byte cursor. -/
theorem point_cursorWithin {H : State → Prop} : Op.Maintains (CursorWithin c B m) H point := by
  rintro s ⟨hout, hbc⟩
  have hbc' : B s.others.bc.toNat := by rwa [State.others_bc]
  exact ⟨hout.calm (Calm.others s), hbc'⟩

/-- POLL stores what its tick-processing step stores (44_tick_timer.md R228). -/
theorem poll_outside : Op.Leads (CursorWithin c B m) (OutsideKept c B m) (OutsideKept c B m) poll := by
  have hstep := seqStep_outside (c := c) (B := B) (m := m)
  refine Op.Leads.bind (Op.Maintains.of_look _).leads (fun pending => ?_)
  cases pending with
  | false => exact fun s h => h.1
  | true =>
    have hclear : Op.Maintains (CursorWithin c B m) (OutsideKept c B m)
        (update fun s => { s with pend := false }) := .of_modify _ (fun _ h => h)
    exact point_cursorWithin.leads.bind (fun _ => hclear.leads.bind (fun _ =>
      point_cursorWithin.leads.bind (fun _ => hstep)))

/-- The sequencer's operations store in `B` only, where the buffer lies in `B` and the byte cursor starts
there. -/
theorem runOf_sequencer_outside {i : Instr} (hi : sequencerOp i)
    (hB : ∀ j, j < c.count → B (c.first + BitVec.ofNat 16 j).toNat) :
    Op.Leads (CursorWithin c B m) (OutsideKept c B m) (OutsideKept c B m) (runOf i) := by
  have hout : ∀ s, CursorWithin c B m s → OutsideKept c B m s := fun _ h => h.1
  have hnone : ∀ bytes : List Byte,
      Op.Leads (OutsideKept c B m) (OutsideKept c B m) (OutsideKept c B m) (pure bytes) := fun _ _ h => h
  rcases hi with rfl | rfl | rfl | rfl
  · exact (Steers.seqInit.leads.mono hout (fun _ => id) (fun _ => id)).bind (fun _ => hnone [])
  · exact ((seqReinit_outside hB).leads.mono hout (fun _ => id) (fun _ => id)).bind (fun _ => hnone [])
  · exact seqStep_outside.bind (fun _ => hnone [])
  · exact poll_outside.bind (fun _ => hnone [])

end Storing

/-- Settles O15: the invariant puts the byte cursor in the buffer, and from there every transaction of the
sequencer's operations stores, if anything, at the address it sends, which is one of the buffer. -/
theorem sequencerStaysInItsBuffer : Obligations.SequencerStaysInItsBuffer := by
  intro i s t hi hinv hrun hx
  have hstart : CursorWithin s.cfg (inBuffer s.cfg) s.ee s :=
    ⟨⟨rfl, hinv.memory.1, fun _ _ => rfl⟩, (hinv.sequencer hrun).inBuffer_bc⟩
  have hleads := runOf_sequencer_outside (m := s.ee) hi (fun _ => inBuffer_offset hinv.config)
  have hend : OutsideKept s.cfg (inBuffer s.cfg) s.ee t :=
    hleads.exec_next (fun _ _ h => h) (fun _ h => h) hstart hx
  exact ⟨hend.ee, header_not_inBuffer hinv.config (by decide), header_not_inBuffer hinv.config (by decide)⟩

/-! ## Outside the EEPROM (R64) -/

/-- A refused piece that returns nothing is a refused operation. -/
theorem finish_noResult_refused {m : Op Unit} {s : State} {r : Refusal}
    (h : ∃ t, m s = .error (.refuse r) t) : finish (noResult m) s = .refused r := by
  obtain ⟨t, ht⟩ := h
  exact finish_of_refuse (bind_of_error ht)

/-- A refused piece that returns a byte is a refused operation. -/
theorem finish_byteResult_refused {m : Op Byte} {s : State} {r : Refusal}
    (h : ∃ t, m s = .error (.refuse r) t) : finish (byteResult m) s = .refused r := by
  obtain ⟨t, ht⟩ := h
  exact finish_of_refuse (bind_of_error ht)

/-- Settles O33: the EEPROM refuses the read and the store where its pointer has become the address sent. -/
theorem eepromRangeRefused : Obligations.EepromRangeRefused := by
  intro addr val s hready hout
  rw [exec_eq, exec_eq]
  exact ⟨finish_byteResult_refused (eerd_range hready addr hout),
    finish_noResult_refused (eewr_range hready addr val hout)⟩

end Sys2Proof.Machine
end

section
/-! The command stream (30_encoding.md R100 to R106). Each row of the opcode map is read by the reader of its
format; what such a reader can answer, and what an answer came from, is said once per format, and the statements
about the decoder follow for every row at once. -/

namespace Sys2Proof

/-! ## What is written is read back, per format (R101, R102) -/

section ReadBack

variable (rest : List Byte)

@[simp] theorem reservedUnless_some {α : Type} (a : α) (f : α → Instr) :
    reservedUnless (some a) f rest = .ok (f a, rest) := rfl

theorem operandsK_encode (f : Bool → Instr) (k : Bool) :
    operandsK f (encodeFlag k :: rest) = .ok (f k, rest) := by
  simp [operandsK]

theorem operandsH_encode (f : Half → Instr) (x : Half) :
    operandsH f (hiByte x :: loByte x :: rest) = .ok (f x, rest) := by
  simp [operandsH]

theorem operandsD_encode (f : DevAddr → Instr) (d : DevAddr) :
    operandsD f (encodeDev d :: rest) = .ok (f d, rest) := by
  simp [operandsD]

theorem operandsDK_encode (f : DevAddr → Bool → Instr) (d : DevAddr) (k : Bool) :
    operandsDK f (encodeDev d :: encodeFlag k :: rest) = .ok (f d k, rest) := by
  simp [operandsDK]

theorem operandsDR_encode (f : DevAddr → Byte → Instr) (d : DevAddr) (r : Byte) :
    operandsDR f (encodeDev d :: r :: rest) = .ok (f d r, rest) := by
  simp [operandsDR]

theorem operandsDRV_encode (f : DevAddr → Byte → Byte → Instr) (d : DevAddr) (r v : Byte) :
    operandsDRV f (encodeDev d :: r :: v :: rest) = .ok (f d r v, rest) := by
  simp [operandsDRV]

theorem operandsDA_encode (f : DevAddr → Half → Instr) (d : DevAddr) (a : Half) :
    operandsDA f (encodeDev d :: hiByte a :: loByte a :: rest) = .ok (f d a, rest) := by
  simp [operandsDA]

theorem operandsDAV_encode (f : DevAddr → Half → Byte → Instr) (d : DevAddr) (a : Half) (v : Byte) :
    operandsDAV f (encodeDev d :: hiByte a :: loByte a :: v :: rest) = .ok (f d a v, rest) := by
  simp [operandsDAV]

end ReadBack

/-- Settles O1: the opcode byte selects the reader of the operation's format, which reads its operand bytes
back; only a Time Record needs the well-formedness. -/
theorem decodeEncodeAgree : Obligations.DecodeEncodeAgree := by
  intro i rest hwf
  cases i with
  | twinit khz => exact operandsH_encode rest .twinit khz
  | start => rfl
  | write b => rfl
  | read sendAck => exact operandsK_encode rest .read sendAck
  | stop => rfl
  | wrreg dev reg val => exact operandsDRV_encode rest .wrreg dev reg val
  | rdreg dev reg => exact operandsDR_encode rest .rdreg dev reg
  | eerd dev addr => exact operandsDA_encode rest .eerd dev addr
  | eewr dev addr val => exact operandsDAV_encode rest .eewr dev addr val
  | eegetcur dev => exact operandsD_encode rest .eegetcur dev
  | eesetcur dev cursor => exact operandsDA_encode rest .eesetcur dev cursor
  | rtcinit dev batt => exact operandsDK_encode rest .rtcinit dev batt
  | rtcget dev => exact operandsD_encode rest .rtcget dev
  | rtcset dev record => exact decodeRecord_encodeRecord dev hwf rest
  | tobcd v => rfl
  | frombcd b => rfl
  | seqinit => rfl
  | seqreinit => rfl
  | seqstep => rfl
  | poll => rfl
  | tmrcfg ms => exact operandsH_encode rest .tmrcfg ms
  | tmrieon => rfl
  | tmrieoff => rfl
  | tick => rfl
  | setin level => exact operandsK_encode rest .setin level

/-! ## The reader of each row (R101, R103) -/

/-- `dec` reads the operands of the operations with opcode `op` in the given format, and each operation it makes
has just these bytes as its encoding. -/
inductive ReadsRow (op : Byte) : Format → (List Byte → Decoded) → Prop where
  | n (i : Instr) (hwf : i.wf = true) (henc : encode i = [op]) : ReadsRow op .n (fun bs => .ok (i, bs))
  | b (f : Byte → Instr) (hwf : ∀ b, (f b).wf = true) (henc : ∀ b, encode (f b) = [op, b]) :
      ReadsRow op .b (operandsB f)
  | k (f : Bool → Instr) (hwf : ∀ k, (f k).wf = true) (henc : ∀ k, encode (f k) = [op, encodeFlag k]) :
      ReadsRow op .k (operandsK f)
  | h (f : Half → Instr) (hwf : ∀ x, (f x).wf = true) (henc : ∀ x, encode (f x) = [op, hiByte x, loByte x]) :
      ReadsRow op .h (operandsH f)
  | d (f : DevAddr → Instr) (hwf : ∀ d, (f d).wf = true) (henc : ∀ d, encode (f d) = [op, encodeDev d]) :
      ReadsRow op .d (operandsD f)
  | dk (f : DevAddr → Bool → Instr) (hwf : ∀ d k, (f d k).wf = true)
      (henc : ∀ d k, encode (f d k) = [op, encodeDev d, encodeFlag k]) : ReadsRow op .dk (operandsDK f)
  | dr (f : DevAddr → Byte → Instr) (hwf : ∀ d r, (f d r).wf = true)
      (henc : ∀ d r, encode (f d r) = [op, encodeDev d, r]) : ReadsRow op .dr (operandsDR f)
  | drv (f : DevAddr → Byte → Byte → Instr) (hwf : ∀ d r v, (f d r v).wf = true)
      (henc : ∀ d r v, encode (f d r v) = [op, encodeDev d, r, v]) : ReadsRow op .drv (operandsDRV f)
  | da (f : DevAddr → Half → Instr) (hwf : ∀ d a, (f d a).wf = true)
      (henc : ∀ d a, encode (f d a) = [op, encodeDev d, hiByte a, loByte a]) : ReadsRow op .da (operandsDA f)
  | dav (f : DevAddr → Half → Byte → Instr) (hwf : ∀ d a v, (f d a v).wf = true)
      (henc : ∀ d a v, encode (f d a v) = [op, encodeDev d, hiByte a, loByte a, v]) :
      ReadsRow op .dav (operandsDAV f)
  | dt (f : DevAddr → TimeRecord → Instr) (hwf : ∀ d r, (f d r).wf = r.fits)
      (henc : ∀ d r, encode (f d r) = op :: encodeDev d :: encodeRecord r) : ReadsRow op .dt (operandsDT f)

/-- The decoder follows the opcode map, row by row. -/
theorem decodeOperands_readsRow :
    ∀ r ∈ opcodeMap, ReadsRow r.opcode r.format (decodeOperands r.opcode) := by
  simp only [opcodeMap, List.forall_mem_cons]
  exact ⟨.h .twinit (fun _ => rfl) (fun _ => rfl),
    .n .start rfl rfl,
    .b .write (fun _ => rfl) (fun _ => rfl),
    .k .read (fun _ => rfl) (fun _ => rfl),
    .n .stop rfl rfl,
    .drv .wrreg (fun _ _ _ => rfl) (fun _ _ _ => rfl),
    .dr .rdreg (fun _ _ => rfl) (fun _ _ => rfl),
    .da .eerd (fun _ _ => rfl) (fun _ _ => rfl),
    .dav .eewr (fun _ _ _ => rfl) (fun _ _ _ => rfl),
    .d .eegetcur (fun _ => rfl) (fun _ => rfl),
    .da .eesetcur (fun _ _ => rfl) (fun _ _ => rfl),
    .dk .rtcinit (fun _ _ => rfl) (fun _ _ => rfl),
    .d .rtcget (fun _ => rfl) (fun _ => rfl),
    .dt .rtcset (fun _ _ => rfl) (fun _ _ => rfl),
    .b .tobcd (fun _ => rfl) (fun _ => rfl),
    .b .frombcd (fun _ => rfl) (fun _ => rfl),
    .n .seqinit rfl rfl,
    .n .seqreinit rfl rfl,
    .n .seqstep rfl rfl,
    .n .poll rfl rfl,
    .h .tmrcfg (fun _ => rfl) (fun _ => rfl),
    .n .tmrieon rfl rfl,
    .n .tmrieoff rfl rfl,
    .n .tick rfl rfl,
    .k .setin (fun _ => rfl) (fun _ => rfl),
    List.forall_mem_nil _⟩

/-- An assigned opcode byte is read by its row. -/
theorem readsRow_of_formatOf {op : Byte} {f : Format} (hf : formatOf op = some f) :
    ReadsRow op f (decodeOperands op) := by
  obtain ⟨r, hfind, rfl⟩ := Option.map_eq_some_iff.mp hf
  obtain rfl : r.opcode = op := by simpa using List.find?_some hfind
  exact decodeOperands_readsRow r (List.mem_of_find?_eq_some hfind)

/-- An opcode byte outside the map is refused before any operand is looked at (R105). -/
theorem decode_of_unassigned {op : Byte} (hf : formatOf op = none) (bs : List Byte) :
    decode (op :: bs) = .error .unassignedOpcode := by
  have hne : ∀ r ∈ opcodeMap, op.toNat ≠ r.opcode.toNat := by
    intro r hr heq
    have hnot := List.find?_eq_none.mp (Option.map_eq_none_iff.mp hf) r hr
    exact hnot (by simpa using (BitVec.eq_of_toNat_eq heq).symm)
  simp only [opcodeMap, List.forall_mem_cons, BitVec.reduceToNat] at hne
  show decodeOperands op bs = _
  unfold decodeOperands
  split
  case h_26 => rfl
  all_goals omega

/-! ## What came out was what the bytes encode (R100 to R103) -/

/-- What a row's reader makes of the operand bytes is well-formed, and its encoding is the bytes taken. -/
theorem ReadsRow.encode_eq {op : Byte} {f : Format} {dec : List Byte → Decoded} (h : ReadsRow op f dec)
    {bs rest : List Byte} {i : Instr} (hd : dec bs = .ok (i, rest)) :
    i.wf = true ∧ op :: bs = encode i ++ rest := by
  cases h with
  | n i hwf henc => cases hd; exact ⟨hwf, by rw [henc]; rfl⟩
  | b f hwf henc => obtain ⟨b, rfl, rfl⟩ := operandsB_ok hd; exact ⟨hwf b, by rw [henc]; rfl⟩
  | k f hwf henc => obtain ⟨k, rfl, rfl⟩ := operandsK_ok hd; exact ⟨hwf k, by rw [henc]; rfl⟩
  | h f hwf henc => obtain ⟨x, rfl, rfl⟩ := operandsH_ok hd; exact ⟨hwf x, by rw [henc]; rfl⟩
  | d f hwf henc => obtain ⟨d, rfl, rfl⟩ := operandsD_ok hd; exact ⟨hwf d, by rw [henc]; rfl⟩
  | dk f hwf henc => obtain ⟨d, k, rfl, rfl⟩ := operandsDK_ok hd; exact ⟨hwf d k, by rw [henc]; rfl⟩
  | dr f hwf henc => obtain ⟨d, r, rfl, rfl⟩ := operandsDR_ok hd; exact ⟨hwf d r, by rw [henc]; rfl⟩
  | drv f hwf henc => obtain ⟨d, r, v, rfl, rfl⟩ := operandsDRV_ok hd; exact ⟨hwf d r v, by rw [henc]; rfl⟩
  | da f hwf henc => obtain ⟨d, a, rfl, rfl⟩ := operandsDA_ok hd; exact ⟨hwf d a, by rw [henc]; rfl⟩
  | dav f hwf henc => obtain ⟨d, a, v, rfl, rfl⟩ := operandsDAV_ok hd; exact ⟨hwf d a v, by rw [henc]; rfl⟩
  | dt f hwf henc =>
    obtain ⟨d, r, rfl, rfl, hfits⟩ := operandsDT_ok hd
    exact ⟨(hwf d r).trans hfits, by rw [henc]; rfl⟩

/-- Settles O2: bytes that decode begin with an assigned opcode, and its row's reader takes the encoding of what
it makes. -/
theorem encodeDecodeAgree : Obligations.EncodeDecodeAgree := by
  intro bs i rest hd
  cases bs with
  | nil => cases hd
  | cons op bs =>
    cases hf : formatOf op with
    | none => rw [decode_of_unassigned hf] at hd; cases hd
    | some f => exact (readsRow_of_formatOf hf).encode_eq hd

/-! ## What a reader can answer (R101, R105, R106) -/

/-- A reserved operand bit of the format is 1 (R105). -/
def ReservedSet (f : Format) (bs : List Byte) : Prop :=
  ∃ p ∈ Machine.reservedBits f, ∃ b, bs[p.1]? = some b ∧ b &&& p.2 ≠ 0#8

/-- The three answers to the operand bytes `bs` of an assigned opcode, each with its reason. -/
inductive ReadOutcome (f : Format) (bs : List Byte) : Decoded → Prop where
  | truncated (hshort : bs.length + 1 < f.length) : ReadOutcome f bs (.error .truncated)
  | reserved (hlong : f.length ≤ bs.length + 1) (hset : ReservedSet f bs) :
      ReadOutcome f bs (.error .reservedBits)
  | read (hlong : f.length ≤ bs.length + 1) (hclean : ¬ ReservedSet f bs) (i : Instr) :
      ReadOutcome f bs (.ok (i, bs.drop (f.length - 1)))

variable {f : Format} {bs : List Byte}

theorem reservedSet_of_none (h : Machine.reservedBits f = []) : ¬ ReservedSet f bs := by
  simp [ReservedSet, h]

/-- A reader whose last check is that `o` has no reserved bit. -/
theorem ReadOutcome.of_reservedUnless {α : Type} {o : Option α} {g : α → Instr} {rest : List Byte}
    (hlong : f.length ≤ bs.length + 1) (hrest : rest = bs.drop (f.length - 1))
    (hset : o = none ↔ ReservedSet f bs) : ReadOutcome f bs (reservedUnless o g rest) := by
  subst hrest
  cases o with
  | none => exact .reserved hlong (hset.mp rfl)
  | some a => exact .read hlong (fun h => nomatch hset.mpr h) (g a)

theorem operandsB_outcome (f : Byte → Instr) (bs : List Byte) : ReadOutcome .b bs (operandsB f bs) := by
  match bs with
  | [] => exact .truncated (by simp [Format.length])
  | b :: rest => exact .read (by simp [Format.length]) (reservedSet_of_none rfl) (f b)

theorem operandsH_outcome (f : Half → Instr) (bs : List Byte) : ReadOutcome .h bs (operandsH f bs) := by
  match bs with
  | [] | [_] => exact .truncated (by simp [Format.length])
  | hi :: lo :: rest => exact .read (by simp [Format.length]) (reservedSet_of_none rfl) (f (hi ++ lo))

theorem operandsK_outcome (f : Bool → Instr) (bs : List Byte) : ReadOutcome .k bs (operandsK f bs) := by
  match bs with
  | [] => exact .truncated (by simp [Format.length])
  | k :: rest =>
    exact .of_reservedUnless (by simp [Format.length]) rfl
      (by simp [ReservedSet, Machine.reservedBits, decodeFlag_none])

/-- The formats in which the device byte alone has a reserved bit. -/
theorem decodeDev_none_iff_reservedSet (h : Machine.reservedBits f = [(0, 0x80)]) (d : Byte) :
    decodeDev d = none ↔ ReservedSet f (d :: bs) := by
  simp [ReservedSet, h, decodeDev_none]

theorem operandsD_outcome (f : DevAddr → Instr) (bs : List Byte) : ReadOutcome .d bs (operandsD f bs) := by
  match bs with
  | [] => exact .truncated (by simp [Format.length])
  | d :: rest =>
    exact .of_reservedUnless (by simp [Format.length]) rfl (decodeDev_none_iff_reservedSet rfl d)

theorem operandsDR_outcome (f : DevAddr → Byte → Instr) (bs : List Byte) :
    ReadOutcome .dr bs (operandsDR f bs) := by
  match bs with
  | [] | [_] => exact .truncated (by simp [Format.length])
  | d :: r :: rest =>
    exact .of_reservedUnless (by simp [Format.length]) rfl (decodeDev_none_iff_reservedSet rfl d)

theorem operandsDRV_outcome (f : DevAddr → Byte → Byte → Instr) (bs : List Byte) :
    ReadOutcome .drv bs (operandsDRV f bs) := by
  match bs with
  | [] | [_] | [_, _] => exact .truncated (by simp [Format.length])
  | d :: r :: v :: rest =>
    exact .of_reservedUnless (by simp [Format.length]) rfl (decodeDev_none_iff_reservedSet rfl d)

theorem operandsDA_outcome (f : DevAddr → Half → Instr) (bs : List Byte) :
    ReadOutcome .da bs (operandsDA f bs) := by
  match bs with
  | [] | [_] | [_, _] => exact .truncated (by simp [Format.length])
  | d :: hi :: lo :: rest =>
    exact .of_reservedUnless (by simp [Format.length]) rfl (decodeDev_none_iff_reservedSet rfl d)

theorem operandsDAV_outcome (f : DevAddr → Half → Byte → Instr) (bs : List Byte) :
    ReadOutcome .dav bs (operandsDAV f bs) := by
  match bs with
  | [] | [_] | [_, _] | [_, _, _] => exact .truncated (by simp [Format.length])
  | d :: hi :: lo :: v :: rest =>
    exact .of_reservedUnless (by simp [Format.length]) rfl (decodeDev_none_iff_reservedSet rfl d)

theorem operandsDK_outcome (f : DevAddr → Bool → Instr) (bs : List Byte) :
    ReadOutcome .dk bs (operandsDK f bs) := by
  match bs with
  | [] | [_] => exact .truncated (by simp [Format.length])
  | d :: k :: rest =>
    have hset : ReservedSet .dk (d :: k :: rest) ↔ decodeDev d = none ∨ decodeFlag k = none := by
      simp [ReservedSet, Machine.reservedBits, decodeDev_none, decodeFlag_none]
    have hlong : Format.dk.length ≤ (d :: k :: rest).length + 1 := by simp [Format.length]
    cases hd : decodeDev d with
    | none =>
      simp only [operandsDK, hd]
      exact .reserved hlong (hset.mpr (.inl hd))
    | some dev =>
      simp only [operandsDK, hd]
      exact .of_reservedUnless hlong rfl (by simp [hset, hd])

theorem operandsDT_outcome (f : DevAddr → TimeRecord → Instr) (bs : List Byte) :
    ReadOutcome .dt bs (operandsDT f bs) := by
  match bs with
  | [] | [_] | [_, _] | [_, _, _] | [_, _, _, _] | [_, _, _, _, _] | [_, _, _, _, _, _]
  | [_, _, _, _, _, _, _] | [_, _, _, _, _, _, _, _] => exact .truncated (by simp [Format.length])
  | d :: y :: mo :: da :: w :: h :: fl :: mi :: s :: rest =>
    have hset : ReservedSet .dt (d :: y :: mo :: da :: w :: h :: fl :: mi :: s :: rest) ↔
        decodeDev d = none ∨ decodeHflags fl = none := by
      simp [ReservedSet, Machine.reservedBits, decodeDev_none, decodeHflags_none]
    have hlong : Format.dt.length ≤ (d :: y :: mo :: da :: w :: h :: fl :: mi :: s :: rest).length + 1 := by
      simp [Format.length]
    cases hd : decodeDev d with
    | none =>
      simp only [operandsDT, hd]
      exact .reserved hlong (hset.mpr (.inl hd))
    | some dev =>
      simp only [operandsDT, hd]
      exact .of_reservedUnless hlong rfl (by simp [hset, hd])

/-- Every row's reader has these three answers and no other. -/
theorem ReadsRow.outcome {op : Byte} {dec : List Byte → Decoded} (h : ReadsRow op f dec) (bs : List Byte) :
    ReadOutcome f bs (dec bs) := by
  cases h with
  | n i => exact .read (by simp [Format.length]) (reservedSet_of_none rfl) i
  | b f => exact operandsB_outcome f bs
  | k f => exact operandsK_outcome f bs
  | h f => exact operandsH_outcome f bs
  | d f => exact operandsD_outcome f bs
  | dk f => exact operandsDK_outcome f bs
  | dr f => exact operandsDR_outcome f bs
  | drv f => exact operandsDRV_outcome f bs
  | da f => exact operandsDA_outcome f bs
  | dav f => exact operandsDAV_outcome f bs
  | dt f => exact operandsDT_outcome f bs

/-- What the decoder can answer at an assigned opcode byte. -/
theorem decode_outcome {op : Byte} (hf : formatOf op = some f) (bs : List Byte) :
    ReadOutcome f bs (decode (op :: bs)) :=
  (readsRow_of_formatOf hf).outcome bs

/-! ## The three answers, told apart (R105, R106) -/

namespace ReadOutcome

variable {r : Decoded}

theorem truncated_iff (h : ReadOutcome f bs r) : r = .error .truncated ↔ bs.length + 1 < f.length := by
  cases h with
  | truncated hshort => exact iff_of_true rfl hshort
  | reserved hlong => exact iff_of_false nofun hlong.not_gt
  | read hlong => exact iff_of_false nofun hlong.not_gt

/-- What a reader takes off the stream is the operation's length, the opcode byte included. -/
theorem length_eq (h : ReadOutcome f bs r) {i : Instr} {rest : List Byte} (hr : r = .ok (i, rest)) :
    bs.length + 1 = f.length + rest.length := by
  cases h with
  | truncated => cases hr
  | reserved => cases hr
  | read hlong =>
    cases hr
    have hpos : 1 ≤ f.length := by cases f <;> decide
    rw [List.length_drop]
    omega

theorem assigned (h : ReadOutcome f bs r) : r ≠ .error .unassignedOpcode := by
  cases h <;> nofun

theorem reserved_iff (h : ReadOutcome f bs r) (hlong : f.length ≤ bs.length + 1) :
    r = .error .reservedBits ↔ ReservedSet f bs := by
  cases h with
  | truncated hshort => exact absurd hlong hshort.not_ge
  | reserved _ hset => exact iff_of_true rfl hset
  | read _ hclean => exact iff_of_false nofun hclean

theorem exists_ok (h : ReadOutcome f bs r) (hlong : f.length ≤ bs.length + 1) (hclean : ¬ ReservedSet f bs) :
    ∃ i, r = .ok (i, bs.drop (f.length - 1)) := by
  cases h with
  | truncated hshort => exact absurd hlong hshort.not_ge
  | reserved _ hset => exact absurd hset hclean
  | read _ _ i => exact ⟨i, rfl⟩

end ReadOutcome

/-- Settles O3: the reader of an assigned opcode byte answers by its format's length. -/
theorem opcodeDecidesLength : Obligations.OpcodeDecidesLength := fun _ _ hf bs =>
  have hout := decode_outcome hf bs
  ⟨hout.truncated_iff, fun _ _ => hout.length_eq⟩

/-- Settles O4: an opcode byte of the map reaches its reader, which never calls it unassigned and which, given
all the operand bytes, looks at nothing but their reserved bits. -/
theorem reservedEncodingsRefused : Obligations.ReservedEncodingsRefused := by
  refine ⟨fun op bs => ⟨fun hd => ?_, fun hf => decode_of_unassigned hf bs⟩, fun op f bs hf hlong => ?_⟩
  · by_contra hne
    obtain ⟨f, hf⟩ := Option.ne_none_iff_exists'.mp hne
    exact (decode_outcome hf bs).assigned hd
  · have hout := decode_outcome hf bs
    refine ⟨hout.reserved_iff hlong, fun hzero => hout.exists_ok hlong ?_⟩
    rintro ⟨p, hp, b, hb, hbit⟩
    exact hbit (hzero p hp b hb)

/-- Settles O5: each word is the encoding of its operation, with the rest of the stream behind it. -/
theorem decodedWords : Obligations.DecodedWords :=
  ⟨decodeEncodeAgree (.twinit 100) [] rfl,
    decodeEncodeAgree (.read true) [0x04] rfl,
    decodeEncodeAgree (.wrreg 0x6F 0x06 0x15) [] rfl,
    decodeEncodeAgree (.eewr 0x50 100 0xA5) [] rfl,
    decodeEncodeAgree (.rtcinit 0x6F true) [] rfl,
    decodeEncodeAgree .poll [0x42] rfl,
    decodeEncodeAgree (.tmrcfg 100) [] rfl,
    decodeEncodeAgree (.setin false) [] rfl⟩

end Sys2Proof
end

section
/-! The step that performs an operation of the command stream (30_encoding.md R100, 00_scope.md R17), and the
status numbers (R95). -/

namespace Sys2Proof.Machine

/-- A HOST that is not stuck takes the operation at the head of its stream. -/
theorem State.fetch_of_decode_ok {s : State} {i : Instr} {rest : List Byte} (hrun : s.hung = false)
    (hd : decode s.stream = .ok (i, rest)) : s.fetch = .operation i { s with stream := rest } := by
  cases hs : s.stream with
  | nil => rw [hs] at hd; cases hd
  | cons b bs =>
    rw [hs] at hd
    simp [State.fetch, hrun, hs, hd]

/-- A valid configuration's step performs what the fetch, after the other agents' steps, takes. -/
theorem step_of_fetch_operation {s t : State} {i : Instr} (hc : configValid s.cfg = true)
    (hf : s.others.fetch = .operation i t) : step s = exec i t := by
  unfold step
  rw [if_pos hc, hf]

/-- Settles O6: the other agents leave the command stream and the mark of a stuck HOST, so the fetch takes the
operation that the statement decodes; under a script's schedule they do nothing. -/
theorem stepRunsDecoded : Obligations.StepRunsDecoded := by
  intro s i rest hc hrun hd
  have hothers : s.others.hung = false := s.others_hung.trans hrun
  have hstep : step s = exec i { s.others with stream := rest } :=
    step_of_fetch_operation hc (State.fetch_of_decode_ok hothers (by rwa [s.others_stream]))
  exact ⟨hstep, fun ha => by rwa [State.others_scripted ha] at hstep⟩

/-- `S_FAIL` may carry exactly the codes that name no other status (R95, U3). -/
theorem Status.wf_fail_iff (c : Byte) : (Status.fail c).wf = true ↔
    c ≠ 0x08 ∧ c ≠ 0x10 ∧ c ≠ 0x18 ∧ c ≠ 0x20 ∧ c ≠ 0x28 ∧ c ≠ 0x30 ∧ c ≠ 0x40 ∧ c ≠ 0x48 ∧ c ≠ 0x50 ∧
    c ≠ 0x58 := by
  constructor
  · intro h
    refine ⟨?_, ?_, ?_, ?_, ?_, ?_, ?_, ?_, ?_, ?_⟩ <;> (rintro rfl; exact absurd h (by decide))
  · intro hne
    simp only [Status.wf, Status.ofNumber, hne, if_false, decide_true]

/-- Settles O16. -/
theorem statusNumbers : Obligations.StatusNumbers :=
  ⟨rfl, rfl, rfl, rfl, rfl, rfl, rfl, rfl, rfl, rfl, Status.wf_fail_iff⟩

end Sys2Proof.Machine
end

section
/-! What is refused by name (40_bus_primitives.md R120, R124, R126 to R128, 41_register_protocol.md R150): a
refusal of an operation's piece is a refusal of the operation, and what each primitive and each composite
operation tests before it does anything. -/

namespace Sys2Proof.Machine

/-! ## Refused pieces -/

/-- From this state the piece is refused, for this reason. -/
def Op.Refuses {α : Type} (m : Op α) (s : State) (r : Refusal) : Prop := ∃ t, m s = .error (.refuse r) t

/-- A test that fails. -/
theorem Op.Refuses.require {b : Bool} (hb : b = false) (s : State) (r : Refusal) :
    Op.Refuses (Sys2Proof.Machine.require b r) s r := ⟨s, by rw [hb]; rfl⟩

/-- A refused line ends the lines after it. -/
theorem Op.Refuses.bind {α β : Type} {m : Op α} {s : State} {r : Refusal} (h : Op.Refuses m s r) (f : α → Op β) :
    Op.Refuses (m >>= f) s r := by
  obtain ⟨t, ht⟩ := h
  exact ⟨t, bind_of_error ht⟩

/-- A line that answers leads to the refusal of the lines after it. -/
theorem Op.Refuses.after {α β : Type} {m : Op α} {f : α → Op β} {s t : State} {a : α} {r : Refusal}
    (hm : m s = .ok a t) (h : Op.Refuses (f a) t r) : Op.Refuses (m >>= f) s r := by
  obtain ⟨u, hu⟩ := h
  exact ⟨u, by rw [bind_of_ok hm, hu]⟩

theorem Op.Refuses.map {α β : Type} {m : Op α} {s : State} {r : Refusal} (h : Op.Refuses m s r) (f : α → β) :
    Op.Refuses (f <$> m) s r := by
  obtain ⟨t, ht⟩ := h
  exact ⟨t, by rw [map_apply, ht]⟩

/-- An operation whose run of HOST lines is refused is refused. -/
theorem exec_refused {i : Instr} {s : State} {r : Refusal} (h : Op.Refuses (runOf i) s r) :
    exec i s = .refused r := by
  obtain ⟨t, ht⟩ := h
  rw [exec_eq]
  exact finish_of_refuse ht

/-! ## What the primitives test (R120, R126 to R128) -/

/-- BR has its value. -/
theorem requireBus_set {s : State} (hb : s.br.isSome) : requireBus s = .ok () s := by
  rw [requireBus_apply, if_pos hb]

theorem requireBus_unset {s : State} (hb : s.br = none) : Op.Refuses requireBus s .busNotInitialised :=
  ⟨s, by rw [requireBus_apply, hb]; rfl⟩

/-- A byte may not be written in this phase (R126). -/
theorem busWrite_outOfPhase {s : State} (b : Byte) (hb : s.br.isSome) (hph : s.ph.canWrite = false) :
    Op.Refuses (busWrite b) s .writeOutOfPhase :=
  .after (requireBus_set hb) (.after (look_apply _ s) (.bind (.require hph s _) _))

/-- A byte may be read in phase MR only (R127). -/
theorem busRead_outOfPhase {s : State} (k : Bool) (hb : s.br.isSome) (hph : s.ph ≠ .mr) :
    Op.Refuses (busRead k) s .readOutOfPhase :=
  .after (requireBus_set hb) (.after (look_apply _ s) (.bind (.require (decide_eq_false hph) s _) _))

/-- There is nothing to stop in phase Idle (R128). -/
theorem busStop_whileIdle {s : State} (hb : s.br.isSome) (hph : s.ph = .idle) :
    Op.Refuses busStop s .stopWhileIdle :=
  .after (requireBus_set hb) (.after (look_apply _ s)
    (.bind (.require (decide_eq_false (not_not.mpr hph)) s _) _))

/-! ## What the composite operations begin with (R150) -/

/-- A composite operation may not begin inside a transaction. -/
theorem requireIdle_open {s : State} (h : s.ph ≠ .idle) :
    Op.Refuses requireIdle s .compositeInOpenTransaction :=
  .after (look_apply _ s) (.require (decide_eq_false h) s _)

theorem writeTransaction_open {s : State} (h : s.ph ≠ .idle) (dev : DevAddr) (bytes : List Byte) :
    Op.Refuses (writeTransaction dev bytes) s .compositeInOpenTransaction := (requireIdle_open h).bind _

theorem readTransaction_open {s : State} (h : s.ph ≠ .idle) (dev : DevAddr) (bytes : List Byte) :
    Op.Refuses (readTransaction dev bytes) s .compositeInOpenTransaction := (requireIdle_open h).bind _

/-- The operations whose first line is a transaction with a device: RTCSET tests its record first, the
sequencer's operations look at the sequencer first. -/
def beginsWithTransaction : Instr → Bool
  | .wrreg _ _ _ => true
  | .rdreg _ _ => true
  | .eerd _ _ => true
  | .eewr _ _ _ => true
  | .eegetcur _ => true
  | .eesetcur _ _ => true
  | .rtcinit _ _ => true
  | .rtcget _ => true
  | _ => false

/-- Where every transaction is refused, so is every operation that begins with one. -/
theorem exec_refused_of_transactions {s : State} {r : Refusal}
    (hw : ∀ dev bytes, Op.Refuses (writeTransaction dev bytes) s r)
    (hr : ∀ dev select, Op.Refuses (readTransaction dev select) s r) {i : Instr}
    (hi : beginsWithTransaction i = true) : exec i s = .refused r := by
  have heerd : ∀ dev addr, Op.Refuses (eerd dev addr) s r := fun dev addr => hr dev _
  have heewr : ∀ dev addr val, Op.Refuses (eewr dev addr val) s r := fun dev addr val => hw dev _
  have hrdreg : ∀ dev reg, Op.Refuses (rdreg dev reg) s r := fun dev reg => hr dev _
  refine exec_refused ?_
  cases i with
  | wrreg dev reg val => exact (hw dev [reg, val]).bind _
  | rdreg dev reg => exact (hrdreg dev reg).bind _
  | eerd dev addr => exact (heerd dev addr).bind _
  | eewr dev addr val => exact (heewr dev addr val).bind _
  | eegetcur dev => exact ((heerd dev 0).bind _).bind _
  | eesetcur dev cursor => exact ((heewr dev 0 (hiByte cursor)).bind _).bind _
  | rtcinit dev batt =>
    have hlines : Op.Refuses (rtcinit dev batt) s r :=
      .after (look_apply State.cfg s) ((hrdreg dev s.cfg.rtcWkday).bind _)
    exact (hlines.map boolByte).bind _
  | rtcget dev =>
    have hlines : Op.Refuses (rtcget dev) s r :=
      .after (look_apply State.cfg s) ((hrdreg dev s.cfg.rtcYear).bind _)
    exact hlines.map recordBytes
  | _ => cases hi

/-- A composite operation begins with a transaction, or is RTCSET or one of the sequencer's two. -/
theorem composite_cases {i : Instr} (hi : composite i = true) :
    beginsWithTransaction i = true ∨ (∃ dev record, i = .rtcset dev record) ∨ i = .seqreinit ∨ i = .seqstep := by
  cases i with
  | rtcset dev record => exact .inr (.inl ⟨dev, record, rfl⟩)
  | seqreinit => exact .inr (.inr (.inl rfl))
  | seqstep => exact .inr (.inr (.inr rfl))
  | _ => exact .inl hi

/-- Every composite operation is refused in an open transaction (R150; log 21). -/
theorem composite_open {s : State} (h : s.ph ≠ .idle) {i : Instr} (hi : composite i = true) :
    exec i s = .refused .compositeInOpenTransaction := by
  rcases composite_cases hi with hi | ⟨dev, record, rfl⟩ | rfl | rfl
  · exact exec_refused_of_transactions (writeTransaction_open h) (readTransaction_open h) hi
  · exact exec_refused (((requireIdle_open h).bind _).bind _)
  · exact exec_refused (((requireIdle_open h).bind _).bind _)
  · exact exec_refused (((requireIdle_open h).bind _).bind _)

/-- A POLL with a tick pending is one SEQSTEP, which the other agents' steps before it leave in the same phase
(44_tick_timer.md R228; log 21). -/
theorem poll_open {s : State} (h : s.ph ≠ .idle) (hp : s.pend = true) :
    exec .poll s = .refused .compositeInOpenTransaction := by
  have hstep : Op.Refuses seqStep ({ s.others with pend := false } : State).others .compositeInOpenTransaction :=
    (requireIdle_open (by simpa using h)).bind _
  have hlines : Op.Refuses poll s .compositeInOpenTransaction := by
    unfold poll
    refine .after (look_apply _ s) ?_
    rw [if_pos hp]
    exact .after (point_apply s) (.after (modify_apply _ _) (.after (point_apply _) hstep))
  exact exec_refused (hlines.bind _)

/-- Settles O28: each primitive tests BR first, each composite operation the phase. -/
theorem operationsOutOfPlaceAreRefused : Obligations.OperationsOutOfPlaceAreRefused := by
  intro s
  refine ⟨fun hb => ?_, fun hph => ⟨fun i => composite_open hph, poll_open hph⟩⟩
  have hbus := requireBus_unset hb
  exact ⟨exec_refused (((hbus.bind _).map _).bind _), fun b => exec_refused (((hbus.bind _).map _).bind _),
    fun k => exec_refused ((hbus.bind _).bind _), exec_refused ((hbus.bind _).bind _)⟩

/-! ## TWINIT (R124) -/

/-- TWINIT is refused inside an open transaction (U11). -/
theorem busInit_open {s : State} (h : s.ph ≠ .idle) (khz : Half) : Op.Refuses (busInit khz) s .busSpeed :=
  .after (look_apply _ s) (.bind (.require (decide_eq_false h) s _) _)

/-- TWINIT in phase Idle sets BR to what DivFor answers. -/
theorem busInit_sets {s : State} (h : s.ph = .idle) {khz : Half} {div : Nat} (hdiv : divFor s.cfg khz = some div) :
    busInit khz s = .ok () { s with br := some div } := by
  unfold busInit
  simp [bind_apply, h, hdiv]

/-- TWINIT is refused for a speed that DivFor cannot realise (U12). -/
theorem busInit_unrealisable {s : State} (h : s.ph = .idle) {khz : Half} (hdiv : divFor s.cfg khz = none) :
    Op.Refuses (busInit khz) s .busSpeed := by
  refine ⟨s, ?_⟩
  unfold busInit
  simp [bind_apply, h, hdiv]

/-- Settles O17: TWINIT tests the phase, then asks DivFor, then writes BR. -/
theorem twinitSetsBr : Obligations.TwinitSetsBr := by
  refine ⟨by decide, fun khz s => ⟨fun div hph hdiv => ?_, fun hph hdiv => ?_, fun hph => ?_, rfl⟩⟩
  · rw [exec_eq]
    exact finish_noResult (busInit_sets hph hdiv)
  · exact exec_refused ((busInit_unrealisable hph hdiv).bind _)
  · exact exec_refused ((busInit_open hph khz).bind _)

end Sys2Proof.Machine
end

section
/-! START (40_bus_primitives.md R122, R125, R130): a start that succeeds, one that fails with what it stops, and
a primitive on a bus that never steps. -/

namespace Sys2Proof.Machine

/-! ## From a primitive to its operation -/

theorem SameEe.of_eq {s t : State} (h : t.ee = s.ee) : SameEe s t := fun _ => by rw [h]

theorem SameRtc.of_eq {s t : State} (h : t.rtcreg = s.rtcreg) : SameRtc s t := fun _ => by rw [h]

/-- START returns its status as the number of it (30_encoding.md R109). -/
theorem exec_start_of_ok {s t : State} {st : Status} (h : busStart s = .ok st t) :
    exec .start s = .next { t with resp := s.resp ++ [st.number] } := by
  rw [exec_eq, ← (BusFrame.busStart.ok h).resp]
  exact finish_status h

/-- WRITE returns its status as the number of it. -/
theorem exec_write_of_ok {s t : State} {b : Byte} {st : Status} (h : busWrite b s = .ok st t) :
    exec (.write b) s = .next { t with resp := s.resp ++ [st.number] } := by
  rw [exec_eq, ← ((BusFrame.busWrite b).ok h).resp]
  exact finish_status h

/-- READ returns the byte received. -/
theorem exec_read_of_ok {s t : State} {k : Bool} {v : Byte} (h : busRead k s = .ok v t) :
    exec (.read k) s = .next { t with resp := s.resp ++ [v] } := by
  rw [exec_eq, ← ((BusFrame.busRead k).ok h).resp]
  exact finish_byteResult h

/-- A view in which a pending stop is settled and only the phase and the wire have changed since. -/
theorem devicesAfterStop_of_view {s t : State} (hl : BusLive s) {ph : Phase} {wire : List WireEvent}
    (hv : t.view = { s.view.settled s.cfg with ph := ph, wire := wire }) : DevicesAfterStop s t := by
  rw [← settleStop_view hl] at hv
  exact
    { sel := congrArg View.sel hv
      eeptr := (congrArg View.eeptr hv).trans (settleStop_eeptr s)
      eeph := congrArg View.eeph hv
      eeSent := congrArg View.eeSent hv
      rtcptr := (congrArg View.rtcptr hv).trans (settleStop_rtcptr s)
      rtcph := congrArg View.rtcph hv
      rtcSent := congrArg View.rtcSent hv }

/-! ## A start that succeeds (R125) -/

/-- An idle engine makes an initial start, any other a repeated one. -/
theorem startEvent_eq (ph : Phase) : startEvent ph = if ph = .idle then .s else .sr := by cases ph <;> rfl

theorem startStatus_eq (ph : Phase) : startStatus ph = if ph = .idle then .start else .rstart := by
  cases ph <;> rfl

theorem startStatus_number (ph : Phase) : (startStatus ph).number = if ph = .idle then 0x08 else 0x10 := by
  cases ph <;> rfl

/-- Settles O18: the law of START, whose view is the settled one with the phase and the wire moved on. -/
theorem startCompletes : Obligations.StartCompletes := by
  intro s h
  obtain ⟨t, ht, hA, hst, hrtc⟩ := busStart_spec h.init h.oracles
  have hwire : (s.view.started s.cfg).wire = wireSettled s ++ [startEvent s.ph] :=
    congrArg (· ++ [startEvent s.ph]) (View.settled_wire s.cfg s.view)
  have hee : t.ee = s.ee := (congrArg View.ee hA.view).trans (settled_ee s)
  rw [← startEvent_eq, ← startStatus_eq, ← startStatus_number]
  exact ⟨_, exec_start_of_ok ht, (hA.completed (View.settled_stopping s.cfg s.view) hwire).resp _, hst, rfl,
    congrArg View.ph hA.view, devicesAfterStop_of_view h.oracles.live hA.view, .of_eq hee,
    fun ha => .of_eq (hrtc ha)⟩

/-! ## The lines of a primitive up to its wait (R121) -/

/-- A primitive has been issued. -/
def State.issued (s : State) (op : Inflight) : State := { s with done := false, inflight := op }

theorem busStart_issued {s : State} (hb : s.br.isSome) :
    busStart s = (do awaitDone; look State.st : Op Status) (s.issued .start) := by
  unfold busStart
  rw [bind_of_ok (requireBus_set hb)]
  rfl

theorem busWrite_issued {s : State} {b : Byte} (hb : s.br.isSome) (hph : s.ph.canWrite = true) :
    busWrite b s =
      (do awaitDone; look State.st : Op Status) (({ s with dr := b } : State).issued (.write b)) := by
  have hphase : require s.ph.canWrite .writeOutOfPhase s = .ok () s := by rw [hph]; rfl
  unfold busWrite
  rw [bind_of_ok (requireBus_set hb), bind_of_ok (look_apply _ s), bind_of_ok hphase]
  rfl

theorem busRead_issued {s : State} {k : Bool} (hb : s.br.isSome) (hph : s.ph = .mr) :
    busRead k s = (do awaitDone; look State.dr : Op Byte) (s.issued (.read k)) := by
  have hphase : require (decide (s.ph = .mr)) .readOutOfPhase s = .ok () s := by rw [hph]; rfl
  unfold busRead
  rw [bind_of_ok (requireBus_set hb), bind_of_ok (look_apply _ s), bind_of_ok hphase]
  rfl

/-! ## A start that fails (R125, R130) -/

/-- What a start that failed with code `c` leaves: the engine has waited, a pending stop is on the wire, and
nothing else of the engine and the devices has changed. -/
structure StartFailed (s t : State) (c : Byte) (later : List (Option Byte)) : Prop where
  frame : BusFrame s t
  st : t.st = .fail c
  done : t.done = true
  inflight : t.inflight = .none
  view : t.view = s.view.settled s.cfg
  starts : t.startScript = later
  rtc : s.agenda = [] → t.rtcreg = s.rtcreg

/-- START's completion where BusOutcome answers with a failure. -/
theorem completeStart_fails {t : State} {c : Byte} {later : List (Option Byte)}
    (hs : t.startScript = some c :: later) (hc : (Status.fail c).wf = true) :
    completeStart t = .ok () { t with startScript := later, drawn := t.drawn + 1, st := .fail c,
                                      dr := Config.freeByte t.drawn } := by
  have ho : busOutcome t = .ok (some c) { t with startScript := later } := by
    simp [busOutcome, hs, Option.filter, hc]
  unfold completeStart
  rw [bind_of_ok ho, bind_of_ok (draw_apply _)]
  rfl

theorem busStart_fails {s : State} {c : Byte} {later : List (Option Byte)} (hb : s.br.isSome) (hl : BusLive s)
    (hs : s.startScript = some c :: later) (hc : (Status.fail c).wf = true) :
    ∃ t, busStart s = .ok (.fail c) t ∧ StartFailed s t c later := by
  obtain ⟨t, ht, hrun⟩ := await_ends (s := s.issued .start) hl rfl
  let d : State := { t with startScript := later, drawn := t.drawn + 1, st := .fail c,
                            dr := Config.freeByte t.drawn, inflight := .none, done := true }
  have hwait : awaitDone (s.issued .start) = .ok () d.others :=
    hrun _ (completeStart_fails (ht.starts.trans hs) hc)
  have hok : busStart s = .ok (.fail c) d.others := by
    rw [busStart_issued hb, bind_of_ok hwait, look_apply, State.others_st]
  have hview : d.others.view = d.view := others_view ht.settled
  refine ⟨d.others, hok, BusFrame.busStart.ok hok, d.others_st, d.others_done, d.others_inflight,
    hview.trans ht.view, d.others_startScript, fun ha => ?_⟩
  have hagenda : d.agenda = [] := ht.frame.agenda ha
  rw [State.others_scripted hagenda]
  exact ht.rtc ha

/-! ## A composite operation whose first start fails (U4) -/

/-- The next start is an initial one, reaches a live bus, and fails. -/
structure FailsToStart (s : State) : Prop where
  init : s.br.isSome
  live : BusLive s
  idle : s.ph = .idle
  fails : ∃ c later, s.startScript = some c :: later ∧ (Status.fail c).wf = true

theorem FailsToStart.others {s : State} (h : FailsToStart s) : FailsToStart s.others where
  init := by simpa using h.init
  live := State.others_live h.live
  idle := by simpa using h.idle
  fails := by simpa using h.fails

/-- After the failed start the phase is still Idle, so the write of the address byte is refused. -/
theorem transaction_fails {s : State} (h : FailsToStart s) {α : Type} (ok : Bool) (e e' : Status) (b : Byte)
    (k : Bool → Op α) :
    Op.Refuses (startChk ok e >>= fun ok => writeChk ok b e' >>= k : Op α) s .writeOutOfPhase := by
  obtain ⟨c, later, hs, hc⟩ := h.fails
  obtain ⟨t, ht, hF⟩ := busStart_fails h.init h.live hs hc
  have hstart : startChk ok e s = chk ok e t := bind_of_ok ht
  have hph : t.ph = .idle := (congrArg View.ph hF.view).trans ((View.settled_ph s.cfg s.view).trans h.idle)
  have hwrite : Op.Refuses (busWrite b) t .writeOutOfPhase :=
    busWrite_outOfPhase b (by rw [hF.frame.br]; exact h.init) (by rw [hph]; rfl)
  exact .after (hstart.trans (chk_spec ok e t)) ((hwrite.bind _).bind _)

theorem writeTransaction_fails {s : State} (h : FailsToStart s) (dev : DevAddr) (bytes : List Byte) :
    Op.Refuses (writeTransaction dev bytes) s .writeOutOfPhase :=
  .after (requireIdle_spec h.idle) (transaction_fails h _ _ _ _ _)

theorem readTransaction_fails {s : State} (h : FailsToStart s) (dev : DevAddr) (select : List Byte) :
    Op.Refuses (readTransaction dev select) s .writeOutOfPhase :=
  .after (requireIdle_spec h.idle) (transaction_fails h _ _ _ _ _)

theorem eewr_fails {s : State} (h : FailsToStart s) (dev : DevAddr) (addr : Half) (val : Byte) :
    Op.Refuses (eewr dev addr val) s .writeOutOfPhase := writeTransaction_fails h dev _

theorem rtcset_fails {s : State} (h : FailsToStart s) (dev : DevAddr) {record : TimeRecord}
    (hr : TimeRecord.settable record = true) : Op.Refuses (rtcset dev record) s .writeOutOfPhase := by
  have hsettable : require (TimeRecord.settable record) .bcdDomain s = .ok () s := by rw [hr]; rfl
  exact .after (requireIdle_spec h.idle) (.after hsettable (.after (look_apply State.cfg s)
    ((writeTransaction_fails h dev _).bind _)))

/-! ### The sequencer's, where they use the bus -/

open Op.Maintains

/-- Flashing reaches no bus. -/
theorem flash_failsToStart (n : Nat) : Op.Maintains FailsToStart (fun _ => False) (flash n) := by
  have hpoint : Op.Maintains FailsToStart (fun _ => False) point := fun _ h => h.others
  have hout : ∀ v, Op.Maintains FailsToStart (fun _ => False) (setOut v) := fun _ =>
    of_modify _ (fun _ h => ⟨h.init, h.live, h.idle, h.fails⟩)
  induction n with
  | zero => exact of_pure _
  | succ n ih =>
    exact of_bind (of_look _) (fun _ => of_bind (hout true) (fun _ => of_bind hpoint (fun _ =>
      of_bind (hout false) (fun _ => of_bind hpoint (fun _ => ih)))))

/-- Taking a sample reaches no bus. -/
theorem takeSample_failsToStart : Op.Maintains FailsToStart (fun _ => False) takeSample := by
  have hpoint : Op.Maintains FailsToStart (fun _ => False) point := fun _ h => h.others
  exact of_bind (of_look _) (fun _ => of_bind hpoint (fun _ =>
    of_bind (of_modify _ (fun _ h => ⟨h.init, h.live, h.idle, h.fails⟩)) (fun _ => of_bind hpoint (fun _ =>
      of_bind (of_modify _ (fun _ h => ⟨h.init, h.live, h.idle, h.fails⟩)) (fun _ => hpoint)))))

theorem seqReinit_fails {s : State} (h : FailsToStart s) (hcount : 0 < s.cfg.count) :
    Op.Refuses seqReinit s .writeOutOfPhase := by
  obtain ⟨t, ht, hcalm, _⟩ := Steers.flash Config.beginFlashes s
  have hfails : FailsToStart t := by
    have hkept := flash_failsToStart Config.beginFlashes s h
    rwa [ht] at hkept
  have hbuffer : Op.Refuses (reinitBuffer t.cfg.count 0) t .writeOutOfPhase := by
    obtain ⟨n, hn⟩ := Nat.exists_eq_succ_of_ne_zero hcount.ne'
    rw [hcalm.kept.cfg, hn]
    exact .after (look_apply State.cfg t) ((eewr_fails hfails _ _ _).bind _)
  exact .after (requireIdle_spec h.idle) (.after ht (.after (look_apply State.cfg t) (hbuffer.bind _)))

/-- Replay before a byte: the refill's read is refused (R198). -/
theorem stepReplay_fails {s : State} (h : FailsToStart s) (hinp : s.inp = true) (hbi : s.bi = 8) :
    Op.Refuses stepReplay s .writeOutOfPhase := by
  have hrefill : Op.Refuses refill s .writeOutOfPhase := by
    refine .after (get_apply s) ?_
    rw [if_pos hbi]
    exact Op.Refuses.bind (readTransaction_fails h _ _) _
  refine .after (look_apply _ s) ?_
  rw [hinp]
  exact hrefill.bind _

/-- Recording, a byte being complete with the sample: its store is refused (R200). -/
theorem stepRecording_fails {s : State} (h : FailsToStart s) (hbi : s.bi = 7) :
    Op.Refuses stepRecording s .writeOutOfPhase := by
  obtain ⟨t, ht, _, hcontrol⟩ := takeSample_spec s
  have hfails : FailsToStart t := by
    have hkept := takeSample_failsToStart s h
    rwa [ht] at hkept
  have hbit : t.bi = 8 := by
    have hsucc : t.bi = s.bi + 1 := congrArg Control.bi hcontrol
    rw [hsucc, hbi]
    rfl
  have hstore : Op.Refuses storeByte t .writeOutOfPhase := by
    refine .after (get_apply t) ?_
    rw [if_pos hbit]
    exact (eewr_fails hfails _ _ _).bind _
  have hrecord : Op.Refuses recordBit s .writeOutOfPhase := by
    rw [recordBit_eq]
    exact .after ht hstore
  exact hrecord.bind _

theorem seqStep_fails {s : State} (h : FailsToStart s)
    (hbus : s.cs = .replay ∧ s.inp = true ∧ s.bi = 8 ∨ s.cs = .recording ∧ s.bi = 7) :
    Op.Refuses seqStep s .writeOutOfPhase := by
  refine .after (requireIdle_spec h.idle) (.after (look_apply _ s) ?_)
  rcases hbus with ⟨hcs, hinp, hbi⟩ | ⟨hcs, hbi⟩
  · rw [hcs]
    exact stepReplay_fails h hinp hbi
  · rw [hcs]
    exact stepRecording_fails h hbi

/-- Settles O19: START returns the code with the phase and the wire as they were; a composite operation goes on
to write its address byte in phase Idle, and is refused there. -/
theorem startFails : Obligations.StartFails := by
  intro s c later hb hl hs hc
  refine ⟨?_, fun hidle => ?_⟩
  · obtain ⟨t, ht, hF⟩ := busStart_fails hb hl hs hc
    have hee : t.ee = s.ee := (congrArg View.ee hF.view).trans (settled_ee s)
    have hdone : Completed s t [] :=
      { outside := hF.frame.outside
        hung := hF.frame.hung
        done := hF.done
        inflight := hF.inflight
        stopping := (congrArg View.stopping hF.view).trans (View.settled_stopping s.cfg s.view)
        wire := by
          rw [List.append_nil]
          exact (congrArg View.wire hF.view).trans (View.settled_wire s.cfg s.view) }
    exact ⟨_, exec_start_of_ok ht, hdone.resp _, hF.st, rfl,
      (congrArg View.ph hF.view).trans (View.settled_ph s.cfg s.view), hF.starts,
      devicesAfterStop_of_view hl hF.view, .of_eq hee, fun ha => .of_eq (hF.rtc ha)⟩
  · have h : FailsToStart s := ⟨hb, hl, hidle, c, later, hs, hc⟩
    have hops : ∀ i, beginsWithTransaction i = true → exec i s = .refused .writeOutOfPhase := fun i =>
      exec_refused_of_transactions (writeTransaction_fails h) (readTransaction_fails h)
    exact ⟨fun dev reg val addr batt record => ⟨hops _ rfl, hops _ rfl, hops _ rfl, hops _ rfl, hops _ rfl,
        hops _ rfl, hops _ rfl, hops _ rfl, fun hr => exec_refused ((rtcset_fails h dev hr).bind _)⟩,
      fun hcount => exec_refused ((seqReinit_fails h hcount).bind _),
      fun hbus => exec_refused ((seqStep_fails h hbus).bind _)⟩

/-! ## A bus that never steps (R122, 10_state.md R55) -/

/-- With no BUS agent the others leave the wire alone. -/
theorem others_dead {s : State} (h : s.busLeft = some 0) : s.others.busLeft = some 0 ∧ s.others.wire = s.wire := by
  refine State.others_preserves (fun t => t.busLeft = some 0 ∧ t.wire = s.wire) (fun e t ht => ?_)
    (fun _ _ ht => ht) s ⟨h, rfl⟩
  cases e with
  | tick => simp only [AgentStep.apply]; split <;> exact ht
  | setInput b => exact ht
  | rtcField f v => exact ht
  | oscRun b => exact ht
  | busStop =>
    have hnone : settleStop t = t := by simp [settleStop, spendBusStep_dead ht.1]
    rwa [AgentStep.apply, hnone]

/-- The wait hangs at its first BUS step, a pending stop's or the primitive's. -/
theorem awaitDone_dead {s : State} (h : s.busLeft = some 0) : awaitDone s = .error .hang s.others := by
  have hmust : busMustStep s.others = .error .hang s.others := by
    simp [busMustStep, spendBusStep_dead (others_dead h).1]
  unfold awaitDone
  rw [bind_of_ok (point_apply s)]
  cases hs : s.others.stopping with
  | true =>
    have hstop : awaitStop s.others = .error .hang s.others := by
      unfold awaitStop
      rw [bind_of_ok (look_apply _ _), hs]
      exact bind_of_error hmust
    exact bind_of_error hstop
  | false =>
    have hstop : awaitStop s.others = .ok () s.others := by
      unfold awaitStop
      rw [bind_of_ok (look_apply _ _), hs]
      rfl
    rw [bind_of_ok hstop]
    exact bind_of_error hmust

/-- The frame does not speak of the mark of a stuck HOST. -/
theorem OutsideBus.withHung {s t : State} (h : OutsideBus s t) (stuck : Bool) :
    OutsideBus s { t with hung := stuck } where
  port := ⟨h.port.cfg, h.port.stream⟩
  br := h.br
  sequencer := ⟨h.sequencer.cs, h.sequencer.bc, h.sequencer.bi, h.sequencer.acc, h.sequencer.cur⟩
  output := ⟨h.output.out, h.output.outTrace⟩
  timer := ⟨h.timer.tie, h.timer.tcfg⟩
  pend := h.pend
  lines := fun ha => ⟨(h.lines ha).pend, (h.lines ha).inp⟩

/-- A primitive that has issued `op` to a dead bus, as an operation: the HOST is stuck with it in flight. -/
theorem finish_dead {m : Op (List Byte)} {s i : State} {op : Inflight} (hi : BusFrame s i)
    (hdead : i.busLeft = some 0) (hwire : i.wire = s.wire) (hm : m s = .error .hang (i.issued op).others) :
    ∃ t, finish m s = .next t ∧ t.hung = true ∧ t.done = false ∧ t.inflight = op ∧ t.wire = s.wire ∧
      t.resp = s.resp ∧ OutsideBus s t := by
  have hissue : BusFrame i (i.issued op) := .of_update rfl
  have hframe : BusFrame s (i.issued op).others := (hi.trans hissue).trans (.others _)
  exact ⟨_, finish_of_hang hm, rfl, State.others_done _, State.others_inflight _,
    (others_dead (s := i.issued op) hdead).2.trans hwire, hframe.resp,
    hframe.outside.withHung true⟩

/-- Settles O20: each primitive issues, which puts nothing on the wire, and hangs in its wait. -/
theorem deadBusHangsThePrimitives : Obligations.DeadBusHangsThePrimitives := by
  intro s hb hdead
  refine ⟨?_, fun b hph => ?_, fun k hph => ?_⟩
  · have hstart : busStart s = .error .hang (s.issued .start).others := by
      rw [busStart_issued hb]
      exact bind_of_error (awaitDone_dead hdead)
    rw [exec_eq]
    exact finish_dead (.refl s) hdead rfl (bind_of_error (by rw [map_apply, hstart]))
  · have hcan : s.ph.canWrite = true := by rcases hph with e | e <;> rw [e] <;> rfl
    have hwrite : busWrite b s = .error .hang (({ s with dr := b } : State).issued (.write b)).others := by
      rw [busWrite_issued hb hcan]
      exact bind_of_error (awaitDone_dead hdead)
    rw [exec_eq]
    exact finish_dead (i := { s with dr := b }) (.of_update rfl) hdead rfl
      (bind_of_error (by rw [map_apply, hwrite]))
  · have hread : busRead k s = .error .hang (s.issued (.read k)).others := by
      rw [busRead_issued hb hph]
      exact bind_of_error (awaitDone_dead hdead)
    rw [exec_eq]
    exact finish_dead (.refl s) hdead rfl (bind_of_error hread)

end Sys2Proof.Machine
end

section
/-! WRITE (40_bus_primitives.md R126, 10_state.md R51, R53, R54), with DevAck free: the address frame, and the data
byte in the terms of the claims, once for every device. -/

namespace Sys2Proof.Machine

theorem PrimitiveReady.primitiveLive {s : State} (h : PrimitiveReady s) : PrimitiveLive s :=
  ⟨h.init, h.oracles.live, h.engine⟩

/-- A primitive that has waited with no stop pending has put its event on the wire, whatever DevAck answered. -/
theorem Went.completed {s t : State} {v : View} {n : Nat} {events : List WireEvent} (h : Went s t v n)
    (hst : s.stopping = false) (hs : v.stopping = false) (hw : v.wire = s.wire ++ events) :
    Completed s t events where
  outside := h.frame.outside
  hung := h.frame.hung
  done := h.done
  inflight := h.inflight
  stopping := (congrArg View.stopping h.view).trans hs
  wire := by rw [wireSettled_of_settled hst]; exact (congrArg View.wire h.view).trans hw

/-- Settles O21: the law of the address frame, read off its view. -/
theorem writeAddressCompletes : Obligations.WriteAddressCompletes := by
  intro b s h hph a d k
  have hst : s.stopping = false := h.engine.settled (by rw [hph]; decide)
  obtain ⟨t, ht, hW, hstatus, hdr, hrtc⟩ := busWrite_answered b h.init h.live hph hst
  have hee : t.ee = s.ee := congrArg View.ee hW.view
  refine ⟨_, exec_write_of_ok ht, (hW.completed hst hst rfl).resp _, hstatus, rfl, hdr, congrArg View.ph hW.view,
    congrArg View.sel hW.view, congrArg View.eeph hW.view, congrArg View.eeSent hW.view,
    congrArg View.rtcph hW.view, congrArg View.rtcSent hW.view, congrArg View.eeptr hW.view,
    congrArg View.rtcptr hW.view, .of_eq hee, fun ha => .of_eq (hrtc ha), ?_, fun hideal => ackAt_ideal hideal 0 _⟩
  exact hW.acks.trans List.drop_one

/-! ## A data byte (R126, case MT) -/

/-- The event of a data frame carries the byte and its answer. -/
theorem View.take_event {c : Config} {b : Byte} {v w : View} {f : Memory → Memory} (h : v.take c b = .ok (w, f)) :
    w.wire = v.wire ++ [.dw b v.sel.isSome] := by
  unfold View.take at h
  cases hs : v.sel with
  | none => rw [hs] at h; cases h; rfl
  | some a =>
    rw [hs] at h
    simp only at h
    repeat' split at h
    all_goals cases h
    all_goals rfl

theorem View.offer_event {c : Config} {b : Byte} {k : Bool} {v w : View} {f : Memory → Memory}
    (h : v.offer c b k = .ok (w, f)) : w.wire = v.wire ++ [.dw b (v.sel.isSome && k)] := by
  unfold View.offer at h
  split at h
  · rename_i hk
    rw [hk, View.take_event h, (Bool.and_eq_true_iff.mp hk).1]
  · rename_i hk
    rw [Bool.eq_false_of_not_eq_true hk]
    cases h
    rfl

/-- A data byte that is acknowledged is taken. -/
theorem View.offer_acked {c : Config} {b : Byte} {k : Bool} {v : View} (hsel : v.sel.isSome) (hk : k = true) :
    v.offer c b k = v.take c b := by simp [View.offer, hsel, hk]

/-- A data byte that is not acknowledged is on the wire and nowhere else. -/
theorem View.offer_unacked {c : Config} {b : Byte} {k : Bool} {v : View} (hk : (v.sel.isSome && k) = false) :
    v.offer c b k = .ok ({ v with wire := v.wire ++ [.dw b false] }, id) := by simp [View.offer, hk]

theorem dataOutStatus_number (k : Bool) : (dataOutStatus k).number = if k then 0x28 else 0x30 := by
  cases k <;> rfl

/-- WRITE of a data byte has completed with the answer `k`; the engine and the devices are as the view `v` says,
and the RTC's registers, if no one else moved them, as `f` makes them. -/
structure DataWritten (s t : State) (b : Byte) (k : Bool) (v : View) (f : Memory → Memory) : Prop where
  completed : Completed s t [.dw b k]
  st : t.st = dataOutStatus k
  resp : t.resp = s.resp ++ [(dataOutStatus k).number]
  dr : t.dr = b
  ph : t.ph = s.ph
  sel : t.sel = s.sel
  view : t.view = v
  rtc : Scripted s → t.rtcreg = f s.rtcreg
  acks : t.ackScript = if s.sel.isSome then s.ackScript.tail else s.ackScript

/-- WRITE of a data byte that is not refused. -/
theorem exec_write_offer {s : State} {b : Byte} {v : View} {f : Memory → Memory} (h : PrimitiveLive s)
    (hph : s.ph = .mt) (hv : s.view.offer s.cfg b (ackAt s 0 true) = .ok (v, f)) :
    ∃ t, exec (.write b) s = .next t ∧ DataWritten s t b (s.sel.isSome && ackAt s 0 true) v f := by
  have hst : s.stopping = false := h.engine.settled (by rw [hph]; decide)
  obtain ⟨t, ht, hW, hstatus, hdr, hrtc⟩ := busWrite_offer h.init h.live hph hst hv
  obtain ⟨hvph, hvsel, hvst⟩ := View.offer_same hv
  refine ⟨_, exec_write_of_ok ht, (hW.completed hst (hvst.trans hst) (View.offer_event hv)).resp _, hstatus, rfl, hdr,
    (congrArg View.ph hW.view).trans hvph, (congrArg View.sel hW.view).trans hvsel, hW.view, hrtc, ?_⟩
  refine hW.acks.trans ?_
  split
  · exact List.drop_one
  · exact List.drop_zero

/-- WRITE of a data byte that the selected device acknowledges and takes. -/
theorem exec_write_take {s : State} {b : Byte} {v : View} {f : Memory → Memory} (h : PrimitiveLive s)
    (hph : s.ph = .mt) (hsel : s.sel.isSome) (hk : ackAt s 0 true = true) (hv : s.view.take s.cfg b = .ok (v, f)) :
    ∃ t, exec (.write b) s = .next t ∧ DataWritten s t b true v f ∧ t.ackScript = s.ackScript.tail := by
  obtain ⟨t, hx, hD⟩ := exec_write_offer h hph ((View.offer_acked (v := s.view) hsel hk).trans hv)
  rw [hsel, hk] at hD
  exact ⟨t, hx, hD, by rw [hD.acks, if_pos hsel]⟩

/-- WRITE of a data byte that the selected device does not acknowledge. -/
theorem exec_write_notTaken {s : State} (b : Byte) (h : PrimitiveLive s) (hph : s.ph = .mt) (hsel : s.sel.isSome)
    (hk : ackAt s 0 true = false) :
    ∃ t, exec (.write b) s = .next t ∧ NotTaken s t b ∧ t.ackScript = s.ackScript.tail := by
  have hnack : (s.sel.isSome && ackAt s 0 true) = false := by rw [hk, Bool.and_false]
  obtain ⟨t, hx, hD⟩ := exec_write_offer h hph (View.offer_unacked (b := b) (v := s.view) hnack)
  rw [hnack] at hD
  have hv := hD.view
  refine ⟨t, hx, ?_, by rw [hD.acks, if_pos hsel]⟩
  exact
    { completed := hD.completed
      st := hD.st
      resp := hD.resp
      dr := hD.dr
      ph := hD.ph
      sel := hD.sel
      ee := .of_eq (congrArg View.ee hv)
      rtc := fun ha => .of_eq (hD.rtc ha)
      eePointer := ⟨congrArg View.eeptr hv, congrArg View.eeph hv, congrArg View.eeSent hv⟩
      rtcPointer := ⟨congrArg View.rtcptr hv, congrArg View.rtcph hv, congrArg View.rtcSent hv⟩ }

/-- WRITE of a data byte that is acknowledged and that the rules give no meaning (U9, U10). -/
theorem exec_write_refused {s : State} {b : Byte} {r : Refusal} (h : PrimitiveLive s) (hph : s.ph = .mt)
    (hk : ackAt s 0 true = true) (hv : s.view.take s.cfg b = .error r) : exec (.write b) s = .refused r := by
  rw [exec_eq]
  exact finish_status_refused
    (busWrite_acked_refused h.init h.live hph (h.engine.settled (by rw [hph]; decide)) hk hv)

/-! ## To the EEPROM (10_state.md R51) -/

/-- The EEPROM takes an address byte, or stores a data byte inside it: its pointer becomes `ptr`, its phase `ph`
and its array `m`. -/
theorem exec_write_eeprom {s : State} {b : Byte} {ptr : Half} {ph : EePhase} {m : Memory} (h : PrimitiveLive s)
    (hph : s.ph = .mt) (hsel : s.sel = some s.cfg.eeDev) (hk : ackAt s 0 true = true)
    (hv : s.view.take s.cfg b =
      .ok ({ s.view with wire := s.wire ++ [.dw b true], eeptr := ptr, eeph := ph, ee := m }, id))
    (hm : ∀ a, m.read a = if s.eeph = .data ∧ a = s.eeptr.toNat then b else s.ee.read a) :
    ∃ t, exec (.write b) s = .next t ∧ Completed s t [.dw b true] ∧ t.st = .mtDataAck ∧
      t.resp = s.resp ++ [0x28] ∧ t.dr = b ∧ t.ph = .mt ∧ t.sel = s.sel ∧ t.eeptr = ptr ∧ t.eeph = ph ∧
      (∀ a, t.ee.read a = if s.eeph = .data ∧ a = s.eeptr.toNat then b else s.ee.read a) ∧
      t.eeSent = s.eeSent ∧ SameRtcPointer s t ∧ (Scripted s → SameRtc s t) ∧
      t.ackScript = s.ackScript.tail := by
  obtain ⟨t, hx, hD, hacks⟩ := exec_write_take h hph (by rw [hsel]; rfl) hk hv
  have hview := hD.view
  have hee : t.ee = m := congrArg View.ee hview
  exact ⟨t, hx, hD.completed, hD.st, hD.resp, hD.dr, hD.ph.trans hph, hD.sel, congrArg View.eeptr hview,
    congrArg View.eeph hview, fun a => by rw [hee]; exact hm a, congrArg View.eeSent hview,
    ⟨congrArg View.rtcptr hview, congrArg View.rtcph hview, congrArg View.rtcSent hview⟩,
    fun ha => .of_eq (hD.rtc ha), hacks⟩

/-- Settles O22: an acknowledged byte by the EEPROM's phase, one that is not acknowledged in every phase alike. -/
theorem writeToEepromCompletes : Obligations.WriteToEepromCompletes := by
  intro b s h hmem hph hsel
  obtain ⟨hee, _⟩ := hmem
  refine ⟨exec_write_notTaken b h hph (by rw [hsel]; rfl), fun hk hmay => ?_, fun hk hdata hout => ?_,
    fun hk hdone => ?_, fun hideal => ackAt_ideal hideal 0 true⟩
  · refine exec_write_eeprom (m := if s.eeph = .data then s.ee.write s.eeptr.toNat b else s.ee) h hph hsel hk ?_
      (fun a => ?_)
    · rcases hmay with hp | hp | ⟨hp, hin⟩
      · simp [View.take, State.view, hsel, hp]
      · simp [View.take, State.view, hsel, hp]
      · simp [View.take, State.view, hsel, hp, hin]
    · by_cases hp : s.eeph = .data
      · simp [hp, Memory.read_write _ hee]
      · simp [hp]
  · exact exec_write_refused h hph hk (by simp [View.take, State.view, hsel, hdata, Nat.not_lt.mpr hout])
  · exact exec_write_refused h hph hk (by simp [View.take, State.view, hsel, hdone])

/-! ## To the RTC (10_state.md R53) -/

/-- What the RTC does with a byte it takes: the register number, or the byte of that register. -/
theorem View.take_rtc {c : Config} {b : Byte} {v : View} (hne : c.rtcDev ≠ c.eeDev) (hsel : v.sel = some c.rtcDev)
    (hmay : v.rtcph = .reg ∨ v.rtcph = .data) :
    v.take c b = .ok
      ({ v with
          wire := v.wire ++ [.dw b true]
          rtcptr := if v.rtcph = .reg then b else v.rtcptr
          rtcph := if v.rtcph = .reg then .data else .done },
        fun m => if v.rtcph = .data then m.write v.rtcptr.toNat b else m) := by
  rcases hmay with hp | hp
  · simp [View.take, hsel, hne, hp]
    rfl
  · simp [View.take, hsel, hne, hp]

/-- Settles O23: as with the EEPROM, by the RTC's phase. -/
theorem writeToRtcCompletes : Obligations.WriteToRtcCompletes := by
  intro b s h hconfig hmem hph hsel
  obtain ⟨_, _, hrtc, _⟩ := hmem
  have hne : s.cfg.rtcDev ≠ s.cfg.eeDev := (configValid_devices hconfig).symm
  have hsome : s.sel.isSome := by rw [hsel]; rfl
  refine ⟨exec_write_notTaken b h hph hsome, fun hk hmay => ?_, fun hk hdone => ?_,
    fun hideal => ackAt_ideal hideal 0 true⟩
  · obtain ⟨t, hx, hD, hacks⟩ := exec_write_take h hph hsome hk (View.take_rtc (b := b) hne hsel hmay)
    have hview := hD.view
    refine ⟨t, hx, hD.completed, hD.st, hD.resp, hD.dr, hD.ph.trans hph, hD.sel, congrArg View.rtcptr hview,
      congrArg View.rtcph hview, fun ha r => ?_, congrArg View.rtcSent hview,
      ⟨congrArg View.eeptr hview, congrArg View.eeph hview, congrArg View.eeSent hview⟩,
      .of_eq (congrArg View.ee hview), hacks⟩
    have hreg : t.rtcreg = if s.rtcph = .data then s.rtcreg.write s.rtcptr.toNat b else s.rtcreg := hD.rtc ha
    rw [hreg]
    by_cases hp : s.rtcph = .data
    · simp [hp, Memory.read_write _ hrtc]
    · simp [hp]
  · exact exec_write_refused h hph hk (by simp [View.take, State.view, hsel, hne, hdone])

/-! ## Elsewhere (log 17) -/

/-- A device that the spec does not describe takes what it acknowledges, with no effect. -/
theorem View.offer_elsewhere {c : Config} {b : Byte} {k : Bool} {v : View} (hee : v.sel ≠ some c.eeDev)
    (hrtc : v.sel ≠ some c.rtcDev) :
    v.offer c b k = .ok ({ v with wire := v.wire ++ [.dw b (v.sel.isSome && k)] }, id) := by
  cases hs : v.sel with
  | none => simp [View.offer, hs]
  | some a =>
    have he : a ≠ c.eeDev := fun e => hee (by rw [hs, e])
    have hr : a ≠ c.rtcDev := fun e => hrtc (by rw [hs, e])
    cases k <;> simp [View.offer, View.take, hs, he, hr]

/-- Settles O24. -/
theorem writeElsewhereCompletes : Obligations.WriteElsewhereCompletes := by
  intro b s h hph hee hrtc k
  obtain ⟨t, hx, hD⟩ := exec_write_offer h hph (View.offer_elsewhere (b := b) (v := s.view) hee hrtc)
  have hview := hD.view
  exact ⟨t, hx, hD.completed, hD.st, by rw [hD.resp, dataOutStatus_number], hD.dr, hD.ph.trans hph, hD.sel,
    .of_eq (congrArg View.ee hview), fun ha => .of_eq (hD.rtc ha),
    ⟨congrArg View.eeptr hview, congrArg View.eeph hview, congrArg View.eeSent hview⟩,
    ⟨congrArg View.rtcptr hview, congrArg View.rtcph hview, congrArg View.rtcSent hview⟩, hD.acks⟩

end Sys2Proof.Machine
end

section
/-! READ and STOP (40_bus_primitives.md R127 to R129), and the phase table (R131), which is read off the laws of
the four primitives. -/

namespace Sys2Proof.Machine

/-! ## READ (R127) -/

/-- The selected device may be asked for a byte: it is one that the spec does not describe, or none, or its rules
let it send (10_state.md R51, R53, U9, U10). -/
def MaySendByte (s : State) : Prop :=
  (s.sel ≠ some s.cfg.eeDev ∧ s.sel ≠ some s.cfg.rtcDev) ∨
    (s.sel = some s.cfg.eeDev ∧ s.eeSent = false ∧ s.eeptr.toNat < s.cfg.eeSize) ∨
    (s.sel = some s.cfg.rtcDev ∧ s.rtcSent = false)

/-- The view after READ: the frame is on the wire, and the device that sent is marked. -/
def View.sent (c : Config) (b : Byte) (k : Bool) (v : View) : View :=
  { v with
    wire := v.wire ++ [.dr b k]
    eeSent := if v.sel = some c.eeDev then true else v.eeSent
    rtcSent := if v.sel = some c.rtcDev then true else v.rtcSent }

/-- READ, whatever device is selected, where it may be asked. -/
theorem busRead_sent {s : State} (k : Bool) (h : PrimitiveReady s) (hne : s.cfg.rtcDev ≠ s.cfg.eeDev)
    (hph : s.ph = .mr) (hmay : MaySendByte s) :
    ∃ b t, busRead k s = .ok b t ∧ After s t (s.view.sent s.cfg b k) ∧ t.st = dataInStatus k ∧ t.dr = b ∧
      (s.sel = some s.cfg.eeDev → b = s.ee.read s.eeptr.toNat) ∧
      (s.sel = some s.cfg.rtcDev → Scripted s → b = s.rtcreg.read s.rtcptr.toNat) ∧
      (Scripted s → t.rtcreg = s.rtcreg) := by
  have hst : s.stopping = false := h.engine.settled (by rw [hph]; decide)
  rcases hmay with ⟨hee, hrtc⟩ | ⟨hsel, hsent, hin⟩ | ⟨hsel, hsent⟩
  · obtain ⟨b, t, ht, hA, hstatus, hdr, hreg⟩ := busRead_undriven k h.init h.oracles hph hst hee hrtc
    have hview : s.view.sent s.cfg b k = { s.view with wire := s.wire ++ [.dr b k] } := by
      simp [View.sent, State.view, hee, hrtc]
    exact ⟨b, t, ht, by rwa [hview], hstatus, hdr, fun e => absurd e hee, fun e => absurd e hrtc, hreg⟩
  · obtain ⟨t, ht, hA, hstatus, hdr, hreg⟩ := busRead_ee k h.init h.oracles hph hst hsel hsent hin
    have hview : s.view.sent s.cfg (s.ee.read s.eeptr.toNat) k =
        { s.view with eeSent := true, wire := s.wire ++ [.dr (s.ee.read s.eeptr.toNat) k] } := by
      simp [View.sent, State.view, hsel, hne.symm]
    exact ⟨_, t, ht, by rwa [hview], hstatus, hdr, fun _ => rfl,
      fun e => absurd (Option.some.inj (hsel.symm.trans e)) hne.symm, hreg⟩
  · obtain ⟨b, t, m, ht, hA, hstatus, hdr, hb, hreg⟩ := busRead_rtc k h.init h.oracles hph hst hne hsel hsent
    have hview : s.view.sent s.cfg b k = { s.view with rtcSent := true, wire := s.wire ++ [.dr b k] } := by
      simp [View.sent, State.view, hsel, hne]
    exact ⟨b, t, ht, by rwa [hview], hstatus, hdr, fun e => absurd (Option.some.inj (hsel.symm.trans e)) hne,
      fun _ ha => by rw [hb, (hreg ha).1], fun ha => (hreg ha).2⟩

/-- What the EEPROM may not be asked for: a second byte of the transaction, a byte outside it. -/
theorem deviceSends_eeSent {t : State} (hsent : t.eeSent = true) :
    Op.Refuses (deviceSends (some t.cfg.eeDev)) t .deviceUnspecified :=
  ⟨t, by simp [deviceSends, eeSends, bind_apply, hsent]⟩

theorem deviceSends_outside {t : State} (hsent : t.eeSent = false) (hout : t.cfg.eeSize ≤ t.eeptr.toNat) :
    Op.Refuses (deviceSends (some t.cfg.eeDev)) t .eepromRange :=
  ⟨t, by simp [deviceSends, eeSends, bind_apply, hsent, Nat.not_lt.mpr hout]⟩

/-- What the RTC may not be asked for: a second byte of the transaction. -/
theorem deviceSends_rtcSent {t : State} (hne : t.cfg.rtcDev ≠ t.cfg.eeDev) (hsent : t.rtcSent = true) :
    Op.Refuses (deviceSends (some t.cfg.rtcDev)) t .deviceUnspecified :=
  ⟨t, by simp [deviceSends, rtcSends, bind_apply, hne, hsent]⟩

/-- READ is refused where what the selected device is asked for is, in every state with the same devices. -/
theorem exec_read_refused {s : State} {r : Refusal} {a : DevAddr} (k : Bool) (h : PrimitiveReady s)
    (hph : s.ph = .mr) (hsel : s.sel = some a)
    (hr : ∀ t : State, t.cfg = s.cfg → t.view = s.view → Op.Refuses (deviceSends (some a)) t r) :
    exec (.read k) s = .refused r := by
  have hread : Op.Refuses (busRead k) s r :=
    busRead_refused k h.init h.oracles hph (h.engine.settled (by rw [hph]; decide)) (fun t hc hv => by
      have htsel : t.sel = some a := (congrArg View.sel hv).trans hsel
      rw [htsel]
      exact hr t hc hv)
  exact exec_refused (hread.bind _)

/-- Settles O25: one byte from whatever is selected, where it may be asked for one, and the refusals where it may
not. -/
theorem readCompletes : Obligations.ReadCompletes := by
  intro k s h hconfig hph
  have hne : s.cfg.rtcDev ≠ s.cfg.eeDev := (configValid_devices hconfig).symm
  have hst : s.stopping = false := h.engine.settled (by rw [hph]; decide)
  refine ⟨fun hmay => ?_, fun hsel hsent => ?_, fun hsel hsent hout => ?_, fun hsel hsent => ?_⟩
  · obtain ⟨v, t, ht, hA, hstatus, hdr, hee, hrtc, hreg⟩ := busRead_sent k h hne hph hmay
    have hview := hA.view
    have heeSent : t.eeSent = if s.sel = some s.cfg.eeDev then true else s.eeSent := congrArg View.eeSent hview
    have hrtcSent : t.rtcSent = if s.sel = some s.cfg.rtcDev then true else s.rtcSent :=
      congrArg View.rtcSent hview
    have hdone : Completed s t [.dr v k] := hA.completed hst (by rw [wireSettled_of_settled hst]; rfl)
    exact ⟨v, _, exec_read_of_ok ht, hdone.resp _, hdr, rfl, hstatus, (congrArg View.ph hview).trans hph,
      congrArg View.sel hview, fun e => ⟨hee e, heeSent.trans (if_pos e)⟩, fun e => hrtcSent.trans (if_pos e), hrtc,
      fun e => heeSent.trans (if_neg e), fun e => hrtcSent.trans (if_neg e), congrArg View.eeptr hview,
      congrArg View.eeph hview, congrArg View.rtcptr hview, congrArg View.rtcph hview,
      .of_eq (congrArg View.ee hview), fun ha => .of_eq (hreg ha)⟩
  · refine exec_read_refused k h hph hsel (fun t hc hv => ?_)
    rw [← hc]
    exact deviceSends_eeSent ((congrArg View.eeSent hv).trans hsent)
  · refine exec_read_refused k h hph hsel (fun t hc hv => ?_)
    have hptr : t.eeptr = s.eeptr := congrArg View.eeptr hv
    rw [← hc]
    exact deviceSends_outside ((congrArg View.eeSent hv).trans hsent) (by rw [hc, hptr]; exact hout)
  · refine exec_read_refused k h hph hsel (fun t hc hv => ?_)
    rw [← hc]
    exact deviceSends_rtcSent (by rw [hc]; exact hne) ((congrArg View.rtcSent hv).trans hsent)

/-! ## STOP (R128, R129) -/

/-- The state that STOP leaves: the engine idle with the stop condition pending, two draws taken. -/
def State.stopIssued (s : State) : State :=
  { s with stopping := true, ph := .idle, st := Status.ofNumber (Config.freeByte s.drawn),
           dr := Config.freeByte (s.drawn + 1), drawn := s.drawn + 2 }

theorem busStop_issued {s : State} (hb : s.br.isSome) (hph : s.ph ≠ .idle) : busStop s = .ok () s.stopIssued := by
  have hphase : require (decide (s.ph ≠ .idle)) .stopWhileIdle s = .ok () s := by
    rw [require_apply, if_pos (decide_eq_true hph)]
  unfold busStop
  rw [bind_of_ok (requireBus_set hb), bind_of_ok (look_apply _ s), bind_of_ok hphase]
  rfl

theorem exec_stop {s : State} (hb : s.br.isSome) (hph : s.ph ≠ .idle) : exec .stop s = .next s.stopIssued := by
  rw [exec_eq]
  exact finish_noResult (busStop_issued hb hph)

/-- The stop condition returns the selected device to its idle phase (10_state.md R51, R53). -/
theorem completeStop_eeph {s : State} (h : s.sel = some s.cfg.eeDev) : (completeStop s).eeph = .devIdle := if_pos h

theorem completeStop_rtcph {s : State} (h : s.sel = some s.cfg.rtcDev) : (completeStop s).rtcph = .devIdle :=
  if_pos h

/-- Settles O26: the stop that STOP leaves pending is the next step of a live BUS agent. -/
theorem stopCompletes : Obligations.StopCompletes := by
  intro s hb hph
  refine ⟨s.stopIssued, exec_stop hb hph, rfl, fun hlive => ?_⟩
  rw [settleStop_of_stopping_live (s := s.stopIssued) rfl hlive]
  exact ⟨rfl, rfl, rfl, rfl, completeStop_eeph, completeStop_rtcph⟩

/-! ## The phase table (R131) -/

/-- A data byte offered in phase MT is refused, or it is on the wire and the phase stays. -/
theorem exec_write_mt {s t : State} {b : Byte} (h : PrimitiveLive s) (hph : s.ph = .mt)
    (hx : exec (.write b) s = .next t) : t.ph = .mt ∧ ∃ k, t.wire = s.wire ++ [.dw b k] := by
  have hst : s.stopping = false := h.engine.settled (by rw [hph]; decide)
  cases hv : s.view.offer s.cfg b (ackAt s 0 true) with
  | ok p =>
    obtain ⟨u, hu, hD⟩ := exec_write_offer h hph hv
    obtain rfl : u = t := by rw [hu] at hx; cases hx; rfl
    exact ⟨hD.ph.trans hph, _, hD.completed.wire.trans (by rw [wireSettled_of_settled hst])⟩
  | error r =>
    cases hk : s.view.sel.isSome && ackAt s 0 true with
    | false =>
      rw [View.offer_unacked hk] at hv
      cases hv
    | true =>
      obtain ⟨hsel, hack⟩ := Bool.and_eq_true_iff.mp hk
      rw [View.offer_acked hsel hack] at hv
      rw [exec_write_refused h hph hack hv] at hx
      cases hx

/-- A READ in phase MR is refused, or the byte is on the wire and the phase stays. -/
theorem exec_read_mr {s t : State} {k : Bool} (h : PrimitiveReady s) (hconfig : configValid s.cfg = true)
    (hph : s.ph = .mr) (hx : exec (.read k) s = .next t) : t.ph = .mr ∧ ∃ v, t.wire = s.wire ++ [.dr v k] := by
  have hst : s.stopping = false := h.engine.settled (by rw [hph]; decide)
  obtain ⟨hcompletes, heeSent, houtside, hrtcSent⟩ := readCompletes k s h hconfig hph
  have hmay : MaySendByte s := by
    by_cases hee : s.sel = some s.cfg.eeDev
    · cases hsent : s.eeSent with
      | true => rw [heeSent hee hsent] at hx; cases hx
      | false =>
        by_cases hin : s.eeptr.toNat < s.cfg.eeSize
        · exact .inr (.inl ⟨hee, hsent, hin⟩)
        · rw [houtside hee hsent (Nat.le_of_not_lt hin)] at hx; cases hx
    · by_cases hrtc : s.sel = some s.cfg.rtcDev
      · cases hsent : s.rtcSent with
        | true => rw [hrtcSent hrtc hsent] at hx; cases hx
        | false => exact .inr (.inr ⟨hrtc, hsent⟩)
      · exact .inl ⟨hee, hrtc⟩
  obtain ⟨v, u, hu, hdone, _, _, _, huph, _⟩ := hcompletes hmay
  obtain rfl : u = t := by rw [hu] at hx; cases hx; rfl
  exact ⟨huph, v, hdone.wire.trans (by rw [wireSettled_of_settled hst])⟩

/-- Settles O27: each cell is a law of its primitive, or the refusal of its test of the phase. -/
theorem phaseTable : Obligations.PhaseTable := by
  intro s h hconfig
  refine ⟨?_, fun hph b => ?_, fun hph b => ?_, fun hph b t => exec_write_mt h.primitiveLive hph, fun hph k => ?_,
    fun hph k t => exec_read_mr h hconfig hph, fun hph => ?_, fun hph => ⟨_, exec_stop h.init hph, rfl⟩⟩
  · obtain ⟨t, hx, hdone, hst, _, hph, _⟩ := startCompletes s h
    exact ⟨t, hx, hph, hdone.wire, hst⟩
  · have hcannot : s.ph.canWrite = false := by rcases hph with e | e <;> rw [e] <;> rfl
    exact exec_refused (((busWrite_outOfPhase b h.init hcannot).map _).bind _)
  · have hst : s.stopping = false := h.engine.settled (by rw [hph]; decide)
    obtain ⟨t, hx, hdone, _, _, _, htph, _⟩ := writeAddressCompletes b s h.primitiveLive hph
    exact ⟨t, hx, htph, _, hdone.wire.trans (by rw [wireSettled_of_settled hst])⟩
  · exact exec_refused ((busRead_outOfPhase k h.init hph).bind _)
  · exact exec_refused ((busStop_whileIdle h.init hph).bind _)

end Sys2Proof.Machine
end

section
/-! The operations of the register protocol under the default oracles (41_register_protocol.md R152 to R160): what one
transaction transfers, said once for whatever device, and what two in a row come to. -/

namespace Sys2Proof.Machine

/-! ## One transaction -/

/-- A transaction that offered `bytes` to `dev` has ended, with `events` on the wire: the EEPROM and the RTC hold what
their rules make of the bytes (10_state.md R51, R53), and another transaction may follow. -/
structure Transferred (s t : State) (dev : DevAddr) (bytes : List Byte) (events : List WireEvent) : Prop where
  ready : Ready t
  frame : BusFrame s t
  closed : Closed s t dev (answers s.cfg dev) events
  ee : t.ee = if dev = s.cfg.eeDev then eeAfter s.ee bytes else s.ee
  rtc : Scripted s → t.rtcreg = if dev = s.cfg.rtcDev then rtcAfter s.rtcreg bytes else s.rtcreg
  eeptr : t.eeptr = if dev = s.cfg.eeDev then eePointerAfter s.eeptr bytes else s.eeptr
  rtcptr : t.rtcptr = if dev = s.cfg.rtcDev then rtcPointerAfter s.rtcptr bytes else s.rtcptr

/-- The byte that a read transaction received after `select`: the device's own, under the pointer that the select
bytes leave (10_state.md R51, R53). -/
structure Received (s : State) (dev : DevAddr) (select : List Byte) (v : Byte) : Prop where
  ee : dev = s.cfg.eeDev → v = s.ee.read (eePointerAfter s.eeptr select).toNat
  rtc : Scripted s → dev = s.cfg.rtcDev →
    v = (rtcAfter s.rtcreg select).read (rtcPointerAfter s.rtcptr select).toNat

/-- The result of a read transaction in which an address that is no device's is not acknowledged (R153). -/
def idealResult (c : Config) (dev : DevAddr) (v : Byte) : Byte :=
  if c.monitored && !answers c dev then 0x00 else v

/-- A transaction with the EEPROM. -/
theorem Ran.toEeprom {s t : State} {v : View} {bytes : List Byte} {events : List WireEvent} (h : Ready s)
    (hR : Ran s t v) (hsel : v.sel = some s.cfg.eeDev) (hwire : v.wire = wireSettled s ++ events)
    (hee : v.ee = eeAfter s.ee bytes) (heeptr : v.eeptr = eePointerAfter s.eeptr bytes)
    (hrtcptr : v.rtcptr = s.rtcptr) (hrtc : Scripted s → t.rtcreg = s.rtcreg) :
    Transferred s t s.cfg.eeDev bytes events := by
  have hne := configValid_devices h.config
  have hview := hR.after.view
  exact
    { ready := hR.ready
      frame := hR.after.frame
      closed := hR.after.closed (by rw [hsel, answers_ee]; rfl) hwire
      ee := by rw [if_pos rfl]; exact (congrArg View.ee hview).trans hee
      rtc := fun ha => by rw [if_neg hne]; exact hrtc ha
      eeptr := by rw [if_pos rfl]; exact (congrArg View.eeptr hview).trans heeptr
      rtcptr := by rw [if_neg hne]; exact (congrArg View.rtcptr hview).trans hrtcptr }

/-- A transaction with the RTC. -/
theorem Ran.toRtc {s t : State} {v : View} {bytes : List Byte} {events : List WireEvent} (h : Ready s)
    (hR : Ran s t v) (hsel : v.sel = some s.cfg.rtcDev) (hwire : v.wire = wireSettled s ++ events)
    (hee : v.ee = s.ee) (heeptr : v.eeptr = s.eeptr) (hrtcptr : v.rtcptr = rtcPointerAfter s.rtcptr bytes)
    (hrtc : Scripted s → t.rtcreg = rtcAfter s.rtcreg bytes) : Transferred s t s.cfg.rtcDev bytes events := by
  have hne := (configValid_devices h.config).symm
  have hview := hR.after.view
  exact
    { ready := hR.ready
      frame := hR.after.frame
      closed := hR.after.closed (by rw [hsel, answers_rtc]; rfl) hwire
      ee := by rw [if_neg hne]; exact (congrArg View.ee hview).trans hee
      rtc := fun ha => by rw [if_pos rfl]; exact hrtc ha
      eeptr := by rw [if_neg hne]; exact (congrArg View.eeptr hview).trans heeptr
      rtcptr := by rw [if_pos rfl]; exact (congrArg View.rtcptr hview).trans hrtcptr }

/-- A transaction with an address where no device is. -/
theorem Ran.toNobody {s t : State} {v : View} {dev : DevAddr} {bytes : List Byte} {events : List WireEvent}
    (hd : answers s.cfg dev = false) (hR : Ran s t v) (hsel : v.sel = none)
    (hwire : v.wire = wireSettled s ++ events) (hee : v.ee = s.ee) (heeptr : v.eeptr = s.eeptr)
    (hrtcptr : v.rtcptr = s.rtcptr) (hrtc : Scripted s → t.rtcreg = s.rtcreg) :
    Transferred s t dev bytes events := by
  obtain ⟨hnee, hnrtc⟩ := not_answers hd
  have hview := hR.after.view
  exact
    { ready := hR.ready
      frame := hR.after.frame
      closed := hR.after.closed (by rw [hsel, hd]; rfl) hwire
      ee := by rw [if_neg hnee]; exact (congrArg View.ee hview).trans hee
      rtc := fun ha => by rw [if_neg hnrtc]; exact hrtc ha
      eeptr := by rw [if_neg hnee]; exact (congrArg View.eeptr hview).trans heeptr
      rtcptr := by rw [if_neg hnrtc]; exact (congrArg View.rtcptr hview).trans hrtcptr }

theorem idealResult_of_answers {c : Config} {dev : DevAddr} (h : answers c dev = true) (v : Byte) :
    idealResult c dev v = v := by simp [idealResult, h]

/-- WRREG (R152). -/
theorem wrreg_transferred {s : State} (h : Ready s) (dev : DevAddr) (reg val : Byte) :
    ∃ t, wrreg dev reg val s = .ok () t ∧
      Transferred s t dev [reg, val] (writeEvents dev (answers s.cfg dev) [reg, val]) := by
  rcases dev_cases s.cfg dev with rfl | rfl | hd
  · obtain ⟨t, ht, hR, hrtc⟩ := wrreg_ee h reg val
    rw [answers_ee]
    exact ⟨t, ht, hR.toEeprom h rfl rfl (settled_ee s) rfl (settled_rtcptr s) hrtc⟩
  · obtain ⟨t, ht, hR, hrtc⟩ := wrreg_rtc h reg val
    rw [answers_rtc]
    exact ⟨t, ht, hR.toRtc h rfl rfl (settled_ee s) (settled_eeptr s) rfl hrtc⟩
  · obtain ⟨t, ht, hR, hrtc⟩ := write_absent h hd [reg, val]
    rw [hd]
    exact ⟨t, ht, hR.toNobody hd rfl rfl (settled_ee s) (settled_eeptr s) (settled_rtcptr s) hrtc⟩

/-- EEWR with any device but the RTC; the EEPROM must have the byte (R157). -/
theorem eewr_transferred {s : State} (h : Ready s) (dev : DevAddr) (addr : Half) (val : Byte)
    (hn : dev ≠ s.cfg.rtcDev) (hin : dev = s.cfg.eeDev → addr.toNat < s.cfg.eeSize) :
    ∃ t, eewr dev addr val s = .ok () t ∧ Transferred s t dev [hiByte addr, loByte addr, val]
      (writeEvents dev (answers s.cfg dev) [hiByte addr, loByte addr, val]) := by
  rcases dev_cases s.cfg dev with rfl | rfl | hd
  · obtain ⟨t, ht, hR, hrtc⟩ := eewr_ee h addr val (hin rfl)
    rw [answers_ee]
    exact ⟨t, ht, hR.toEeprom h rfl rfl (by simp [eeAfter]) (by simp [eePointerAfter]) (settled_rtcptr s) hrtc⟩
  · exact absurd rfl hn
  · obtain ⟨t, ht, hR, hrtc⟩ := write_absent h hd [hiByte addr, loByte addr, val]
    rw [hd]
    exact ⟨t, ht, hR.toNobody hd rfl rfl (settled_ee s) (settled_eeptr s) (settled_rtcptr s) hrtc⟩

/-- RDREG; the EEPROM must have the byte (R153). -/
theorem rdreg_transferred {s : State} (h : Ready s) (dev : DevAddr) (reg : Byte)
    (hin : dev = s.cfg.eeDev → (joinBytes reg (loByte s.eeptr)).toNat < s.cfg.eeSize) :
    ∃ v t, rdreg dev reg s = .ok (idealResult s.cfg dev v) t ∧
      Transferred s t dev [reg] (readEvents dev (answers s.cfg dev) [reg] v) ∧ Received s dev [reg] v := by
  have hne := configValid_devices h.config
  rcases dev_cases s.cfg dev with rfl | rfl | hd
  · obtain ⟨t, ht, hR, hrtc⟩ := rdreg_ee h reg (hin rfl)
    rw [answers_ee]
    exact ⟨_, t, by rw [ht, idealResult_of_answers (answers_ee _)],
      hR.toEeprom h rfl rfl (settled_ee s) rfl (settled_rtcptr s) hrtc, fun _ => rfl, fun _ e => absurd e hne⟩
  · obtain ⟨v, t, m, ht, hR, hv, hrtc⟩ := rdreg_rtc h reg
    rw [answers_rtc]
    exact ⟨v, t, by rw [ht, idealResult_of_answers (answers_rtc _)],
      hR.toRtc h rfl rfl (settled_ee s) (settled_eeptr s) rfl (fun ha => (hrtc ha).2),
      fun e => absurd e hne.symm, fun ha _ => by rw [hv, (hrtc ha).1]; rfl⟩
  · obtain ⟨hnee, hnrtc⟩ := not_answers hd
    obtain ⟨v, t, ht, hR, hrtc⟩ := read_absent h hd [reg]
    rw [hd]
    exact ⟨v, t, by unfold rdreg; rw [ht, idealResult, hd, Bool.not_false, Bool.and_true],
      hR.toNobody hd rfl rfl (settled_ee s) (settled_eeptr s) (settled_rtcptr s) hrtc,
      fun e => absurd e hnee, fun _ e => absurd e hnrtc⟩

/-- EERD; the EEPROM must have the byte (R156). -/
theorem eerd_transferred {s : State} (h : Ready s) (dev : DevAddr) (addr : Half)
    (hin : dev = s.cfg.eeDev → addr.toNat < s.cfg.eeSize) :
    ∃ v t, eerd dev addr s = .ok (idealResult s.cfg dev v) t ∧
      Transferred s t dev [hiByte addr, loByte addr]
        (readEvents dev (answers s.cfg dev) [hiByte addr, loByte addr] v) ∧
      Received s dev [hiByte addr, loByte addr] v := by
  have hne := configValid_devices h.config
  have hptr : eePointerAfter s.eeptr [hiByte addr, loByte addr] = addr := joinBytes_hiByte_loByte addr
  rcases dev_cases s.cfg dev with rfl | rfl | hd
  · obtain ⟨t, ht, hR, hrtc⟩ := eerd_ee h addr (hin rfl)
    rw [answers_ee]
    exact ⟨_, t, by rw [ht, idealResult_of_answers (answers_ee _)],
      hR.toEeprom h rfl rfl (settled_ee s) hptr.symm (settled_rtcptr s) hrtc, fun _ => by rw [hptr],
      fun _ e => absurd e hne⟩
  · obtain ⟨v, t, m, ht, hR, hv, hrtc⟩ := eerd_rtc h addr
    rw [answers_rtc]
    exact ⟨v, t, by rw [ht, idealResult_of_answers (answers_rtc _)],
      hR.toRtc h rfl rfl (settled_ee s) (settled_eeptr s) rfl (fun ha => (hrtc ha).2),
      fun e => absurd e hne.symm, fun ha _ => by rw [hv, (hrtc ha).1]; rfl⟩
  · obtain ⟨hnee, hnrtc⟩ := not_answers hd
    obtain ⟨v, t, ht, hR, hrtc⟩ := read_absent h hd [hiByte addr, loByte addr]
    rw [hd]
    exact ⟨v, t, by unfold eerd; rw [ht, idealResult, hd, Bool.not_false, Bool.and_true],
      hR.toNobody hd rfl rfl (settled_ee s) (settled_eeptr s) (settled_rtcptr s) hrtc,
      fun e => absurd e hnee, fun _ e => absurd e hnrtc⟩

/-! ## What a transaction leaves in the memories -/

/-- A memory that is written only under a condition. -/
theorem Memory.read_ite_write {m : Memory} (hm : m.wf = true) (p : Prop) [Decidable p] (k : Nat) (v : Byte)
    (a : Nat) :
    (if p then m.write k v else m).read a = if p ∧ a = k then v else m.read a := by
  by_cases hp : p
  · simp only [hp, if_true, true_and]
    exact read_write m hm k v a
  · simp only [hp, if_false, false_and]

/-- Two bytes to the RTC are a register and its value (10_state.md R53). -/
theorem Transferred.rtc_read {s t : State} {dev : DevAddr} {reg val : Byte} {events : List WireEvent}
    (hT : Transferred s t dev [reg, val] events) (h : Ready s) (ha : Scripted s) (r : Nat) :
    t.rtcreg.read r = if dev = s.cfg.rtcDev ∧ r = reg.toNat then val else s.rtcreg.read r := by
  rw [hT.rtc ha]
  exact Memory.read_ite_write h.memory.2.2.1 _ _ _ r

/-- From the RTC a read after two select bytes returns the second, which it has just stored. -/
theorem Received.rtc_value {s : State} {dev : DevAddr} {reg val v : Byte} (hv : Received s dev [reg, val] v)
    (h : Ready s) (ha : Scripted s) (hd : dev = s.cfg.rtcDev) : v = val :=
  (hv.rtc ha hd).trans (Memory.read_write_same _ h.memory.2.2.1 _ _)

/-- Three bytes to the EEPROM are an address and its value (10_state.md R51). -/
theorem Transferred.ee_read {s t : State} {dev : DevAddr} {hi lo val : Byte} {events : List WireEvent}
    (hT : Transferred s t dev [hi, lo, val] events) (h : Ready s) (a : Nat) :
    t.ee.read a = if dev = s.cfg.eeDev ∧ a = (joinBytes hi lo).toNat then val else s.ee.read a := by
  rw [hT.ee]
  exact Memory.read_ite_write h.memory.1 _ _ _ a

/-- One byte or two store nothing in the EEPROM. -/
theorem Transferred.ee_one {s t : State} {dev : DevAddr} {reg : Byte} {events : List WireEvent}
    (hT : Transferred s t dev [reg] events) : t.ee = s.ee := hT.ee.trans (ite_self _)

theorem Transferred.ee_two {s t : State} {dev : DevAddr} {hi lo : Byte} {events : List WireEvent}
    (hT : Transferred s t dev [hi, lo] events) : t.ee = s.ee := hT.ee.trans (ite_self _)

/-- With any device but the RTC the RTC's registers stay. -/
theorem Transferred.rtc_other {s t : State} {dev : DevAddr} {bytes : List Byte} {events : List WireEvent}
    (hT : Transferred s t dev bytes events) (hn : dev ≠ s.cfg.rtcDev) (ha : Scripted s) : t.rtcreg = s.rtcreg :=
  (hT.rtc ha).trans (if_neg hn)

/-! ## The operations of one transaction -/

/-- An operation whose HOST lines keep the primitives' frame returns its result bytes behind those before. -/
theorem exec_returns {i : Instr} {s t : State} {bytes : List Byte} (hf : BusFrame s t) (h : runOf i s = .ok bytes t) :
    exec i s = .next { t with resp := s.resp ++ bytes } := by
  rw [exec_eq, ← hf.resp]
  exact finish_of_ok h

/-- An operation that returns nothing leaves what its HOST lines leave. -/
theorem exec_returns_nothing {i : Instr} {m : Op Unit} {s t : State} (hi : runOf i = noResult m)
    (h : m s = .ok () t) : exec i s = .next t := by
  rw [exec_eq, hi]
  exact finish_noResult h

/-- Settles O29: one write transaction of two bytes. -/
theorem wrregCompletes : Obligations.WrregCompletes := by
  intro dev reg val s h
  obtain ⟨t, ht, hT⟩ := wrreg_transferred h dev reg val
  exact ⟨t, exec_returns_nothing rfl ht, hT.closed, hT.frame.resp, .of_eq hT.ee_two, hT.rtc_read h,
    hT.eeptr, hT.rtcptr⟩

/-- Settles O30: one read transaction with one select byte. -/
theorem rdregCompletes : Obligations.RdregCompletes := by
  intro dev reg s h hin
  obtain ⟨v, t, ht, hT, hv⟩ := rdreg_transferred h dev reg hin
  exact ⟨v, _, exec_returns hT.frame (bind_of_ok ht), hT.closed.resp _, rfl, .of_eq hT.ee_one,
    fun ha => .of_eq ((hT.rtc ha).trans (ite_self _)), hv.rtc, hv.ee, hT.eeptr, hT.rtcptr⟩

/-- Settles O31: one read transaction with two select bytes, of which the RTC stores the second. -/
theorem eerdCompletes : Obligations.EerdCompletes := by
  intro dev addr s h hin
  have hptr : eePointerAfter s.eeptr [hiByte addr, loByte addr] = addr := joinBytes_hiByte_loByte addr
  obtain ⟨v, t, ht, hT, hv⟩ := eerd_transferred h dev addr hin
  have heeptr := hT.eeptr
  rw [hptr] at heeptr
  exact ⟨v, _, exec_returns hT.frame (bind_of_ok ht), hT.closed.resp _, rfl, .of_eq hT.ee_two,
    fun hd => by rw [hv.ee hd, hptr], hT.rtc_read h,
    hv.rtc_value h, heeptr, hT.rtcptr⟩

/-- Settles O32: one write transaction of three bytes, of which the RTC refuses the third. -/
theorem eewrCompletes : Obligations.EewrCompletes := by
  intro dev addr val s h
  refine ⟨fun hn hin => ?_, fun hd => ?_⟩
  · have hptr : eePointerAfter s.eeptr [hiByte addr, loByte addr, val] = addr := joinBytes_hiByte_loByte addr
    obtain ⟨t, ht, hT⟩ := eewr_transferred h dev addr val hn hin
    have heeptr := hT.eeptr
    rw [hptr] at heeptr
    exact ⟨t, exec_returns_nothing rfl ht, hT.closed, hT.frame.resp,
      fun a => by rw [hT.ee_read h, joinBytes_hiByte_loByte], fun ha => .of_eq (hT.rtc_other hn ha), heeptr,
      hT.rtcptr.trans (if_neg hn)⟩
  · have hrefused : Op.Refuses (eewr dev addr val) s .deviceUnspecified := by
      rw [hd]
      exact eewr_rtc h addr val
    exact exec_refused (hrefused.bind _)

/-! ## Two transactions -/

/-- Under a script's schedule nothing happens after an operation that keeps the primitives' frame. -/
theorem BusFrame.scripted_others {s u : State} (h : BusFrame s u) (ha : Scripted s) : Scripted u ∧ u.others = u :=
  ⟨h.agenda ha, State.others_scripted (h.agenda ha)⟩

/-- After a transaction, and whatever the other agents do then, its stop is next on the wire. -/
theorem Transferred.wire_others {s t : State} {dev : DevAddr} {bytes : List Byte} {events : List WireEvent}
    (hT : Transferred s t dev bytes events) : wireSettled t.others = wireSettled s ++ events ++ [.p] := by
  rw [wireSettled_others, wireSettled, if_pos hT.closed.stopping, hT.closed.wire]

/-- Two transactions with one device, with an interleaving point between them (R158, R159). -/
structure TransferredTwice (s u t : State) (dev : DevAddr) (bytes bytes' : List Byte)
    (events events' : List WireEvent) : Prop where
  first : Transferred s u dev bytes events
  second : Transferred u.others t dev bytes' events'

section Twice

variable {s u t : State} {dev : DevAddr} {bytes bytes' : List Byte} {events events' : List WireEvent}

theorem TransferredTwice.frame (h : TransferredTwice s u t dev bytes bytes' events events') : BusFrame s t :=
  (h.first.frame.trans (BusFrame.others u)).trans h.second.frame

/-- The configuration in which the second begins. -/
theorem TransferredTwice.cfg_others (h : TransferredTwice s u t dev bytes bytes' events events') :
    u.others.cfg = s.cfg := (State.others_cfg u).trans h.first.frame.cfg

theorem TransferredTwice.wire (h : TransferredTwice s u t dev bytes bytes' events events') :
    t.wire = wireSettled s ++ events ++ [.p] ++ events' := by rw [h.second.closed.wire, h.first.wire_others]

/-- Under a script's schedule nothing happens between the two. -/
theorem TransferredTwice.scripted (h : TransferredTwice s u t dev bytes bytes' events events') (ha : Scripted s) :
    Scripted u.others ∧ u.others.rtcreg = u.rtcreg := by
  obtain ⟨hu, hothers⟩ := h.first.frame.scripted_others ha
  rw [hothers]
  exact ⟨hu, rfl⟩

theorem TransferredTwice.rtc_other (h : TransferredTwice s u t dev bytes bytes' events events')
    (hn : dev ≠ s.cfg.rtcDev) (ha : Scripted s) : t.rtcreg = s.rtcreg := by
  obtain ⟨hscripted, hrtc⟩ := h.scripted ha
  rw [h.second.rtc_other (by rw [h.cfg_others]; exact hn) hscripted, hrtc, h.first.rtc_other hn ha]

end Twice

/-- The cursor header lies inside the EEPROM (00_scope.md R10). -/
theorem configValid_header {c : Config} (h : configValid c = true) : 1 < c.eeSize := by
  obtain ⟨_, hfirst, _, hsize⟩ := configValid_buffer h
  omega

/-- EEGETCUR with any device (R158). -/
theorem eegetcur_transferred {s : State} (h : Ready s) (dev : DevAddr) :
    ∃ hi lo u t, eegetcur dev s = .ok (joinBytes (idealResult s.cfg dev hi) (idealResult s.cfg dev lo)) t ∧
      TransferredTwice s u t dev [0x00, 0x00] [0x00, 0x01] (readEvents dev (answers s.cfg dev) [0x00, 0x00] hi)
        (readEvents dev (answers s.cfg dev) [0x00, 0x01] lo) ∧
      Received s dev [0x00, 0x00] hi ∧ Received u.others dev [0x00, 0x01] lo := by
  have hheader := configValid_header h.config
  obtain ⟨hi, u, hu, hT, hhi⟩ := eerd_transferred h dev 0 (fun _ => Nat.zero_lt_of_lt hheader)
  have hcfg : u.others.cfg = s.cfg := (State.others_cfg u).trans hT.frame.cfg
  obtain ⟨lo, t, ht, hT', hlo⟩ := eerd_transferred hT.ready.others dev 1 (fun _ => by rw [hcfg]; exact hheader)
  rw [hcfg] at ht hT'
  refine ⟨hi, lo, u, t, ?_, ⟨hT, hT'⟩, hhi, hlo⟩
  unfold eegetcur
  rw [bind_of_ok hu, bind_of_ok (point_apply u), bind_of_ok ht]
  rfl

/-- EESETCUR with any device but the RTC (R159). -/
theorem eesetcur_transferred {s : State} (h : Ready s) (dev : DevAddr) (cursor : Half) (hn : dev ≠ s.cfg.rtcDev) :
    ∃ u t, eesetcur dev cursor s = .ok () t ∧
      TransferredTwice s u t dev [0x00, 0x00, hiByte cursor] [0x00, 0x01, loByte cursor]
        (writeEvents dev (answers s.cfg dev) [0x00, 0x00, hiByte cursor])
        (writeEvents dev (answers s.cfg dev) [0x00, 0x01, loByte cursor]) := by
  have hheader := configValid_header h.config
  obtain ⟨u, hu, hT⟩ := eewr_transferred h dev 0 (hiByte cursor) hn (fun _ => Nat.zero_lt_of_lt hheader)
  have hcfg : u.others.cfg = s.cfg := (State.others_cfg u).trans hT.frame.cfg
  obtain ⟨t, ht, hT'⟩ := eewr_transferred hT.ready.others dev 1 (loByte cursor) (by rw [hcfg]; exact hn)
    (fun _ => by rw [hcfg]; exact hheader)
  rw [hcfg] at hT'
  refine ⟨u, t, ?_, hT, hT'⟩
  unfold eesetcur
  rw [bind_of_ok hu, bind_of_ok (point_apply u), ht]

/-- The array after the cursor has been stored (20_memory.md R62). -/
theorem TransferredTwice.cursor_read {s u t : State} {dev : DevAddr} {hi lo : Byte} {events events' : List WireEvent}
    (hT : TransferredTwice s u t dev [0x00, 0x00, hi] [0x00, 0x01, lo] events events') (h : Ready s) (a : Nat) :
    t.ee.read a = if dev = s.cfg.eeDev ∧ a = 0 then hi else if dev = s.cfg.eeDev ∧ a = 1 then lo
      else s.ee.read a := by
  have hzero : (joinBytes 0x00 0x00).toNat = 0 := rfl
  have hone : (joinBytes 0x00 0x01).toNat = 1 := rfl
  rw [hT.second.ee_read hT.first.ready.others, hT.cfg_others, State.others_ee, hT.first.ee_read h, hzero, hone]
  by_cases ha : a = 0
  · simp [ha]
  · simp [ha]

/-- Settles O34: two read transactions, each of which writes one of the RTC's registers first. -/
theorem eegetcurCompletes : Obligations.EegetcurCompletes := by
  intro dev s h
  obtain ⟨hi, lo, u, t, ht, hT, hhi, hlo⟩ := eegetcur_transferred h dev
  have hrun : runOf (.eegetcur dev) s = .ok [idealResult s.cfg dev hi, idealResult s.cfg dev lo] t := by
    show cursorResult (eegetcur dev) s = _
    unfold cursorResult
    rw [bind_of_ok ht, pure_apply, hiByte_joinBytes, loByte_joinBytes]
  have hue : u.others.ee = s.ee := (State.others_ee u).trans hT.first.ee_two
  refine ⟨hi, lo, _, exec_returns hT.frame hrun, hT.frame.outside.resp _, hT.frame.hung, hT.second.closed.ph,
    hT.second.closed.inflight, .of_eq (hT.second.ee_two.trans hue), ?_, hT.wire,
    fun hd => ⟨hhi.ee hd, ?_⟩, fun ha hn => .of_eq (hT.rtc_other hn ha),
    fun ha hd => ?_⟩
  · unfold idealResult
    cases s.cfg.monitored && !answers s.cfg dev <;> rfl
  · rw [← hue]
    exact hlo.ee (by rw [hT.cfg_others]; exact hd)
  · obtain ⟨hscripted, hrtc⟩ := hT.scripted ha
    refine ⟨hhi.rtc_value h ha hd,
      hlo.rtc_value hT.first.ready.others hscripted (by rw [hT.cfg_others]; exact hd), fun r => ?_⟩
    show t.rtcreg.read r = _
    rw [hT.second.rtc_read hT.first.ready.others hscripted, hT.cfg_others, hrtc, hT.first.rtc_read h ha]
    by_cases hr : r = 0
    · rw [if_pos ⟨hd, hr⟩, if_pos hr]
    · rw [if_neg (fun e => hr e.2), if_neg (fun e => hr e.2), if_neg hr]

/-- Settles O35: two write transactions, the first of which the RTC refuses. -/
theorem eesetcurCompletes : Obligations.EesetcurCompletes := by
  intro dev cursor s h
  refine ⟨fun hn => ?_, fun hd => ?_⟩
  · obtain ⟨u, t, ht, hT⟩ := eesetcur_transferred h dev cursor hn
    exact ⟨t, exec_returns_nothing rfl ht, hT.frame.outside, hT.frame.hung, hT.second.closed.ph,
      hT.second.closed.inflight, hT.frame.resp, hT.wire, hT.cursor_read h, fun ha => .of_eq (hT.rtc_other hn ha)⟩
  · have hrefused : Op.Refuses (eewr dev 0 (hiByte cursor)) s .deviceUnspecified := by
      rw [hd]
      exact eewr_rtc h 0 _
    exact exec_refused ((hrefused.bind _).bind _)

/-! ## Round trips (R160) -/

/-- EERD returns what the EEPROM holds. -/
theorem exec_eerd_ee {s : State} (h : Ready s) {a : Half} (hin : a.toNat < s.cfg.eeSize) :
    ∃ t, exec (.eerd s.cfg.eeDev a) s = .next t ∧ t.resp = s.resp ++ [s.ee.read a.toNat] := by
  obtain ⟨t, ht, hR, _⟩ := eerd_ee h a hin
  exact ⟨_, exec_returns hR.after.frame (bind_of_ok ht), rfl⟩

/-- EEGETCUR returns what the EEPROM holds at 0 and 1. -/
theorem exec_eegetcur_ee {s : State} (h : Ready s) :
    ∃ t, exec (.eegetcur s.cfg.eeDev) s = .next t ∧ t.resp = s.resp ++ [s.ee.read 0, s.ee.read 1] := by
  obtain ⟨hi, lo, t, hx, _, _, _, _, _, hresp, _, hee, _⟩ := eegetcurCompletes s.cfg.eeDev s h
  obtain ⟨rfl, rfl⟩ := hee rfl
  exact ⟨t, hx, by simpa [answers_ee] using hresp⟩

/-- Settles O36: a read returns what the array holds, and a store has put the byte there. -/
theorem eepromRoundTrip : Obligations.EepromRoundTrip := by
  refine ⟨fun a v s h hin => ?_, fun c s h => ?_⟩
  · have hn := configValid_devices h.config
    obtain ⟨t, ht, hT⟩ := eewr_transferred h s.cfg.eeDev a v hn (fun _ => hin)
    have hread : t.ee.read a.toNat = v := by
      rw [hT.ee_read h, joinBytes_hiByte_loByte, if_pos ⟨rfl, rfl⟩]
    have hlater : ∀ m, Ready m → m.cfg = s.cfg → m.ee.read a.toNat = t.ee.read a.toNat →
        ∃ u, exec (.eerd s.cfg.eeDev a) m = .next u ∧ u.resp = m.resp ++ [v] := by
      intro m hm hcfg hsame
      rw [← hcfg, ← hread, ← hsame]
      exact exec_eerd_ee hm (by rw [hcfg]; exact hin)
    exact ⟨t, exec_returns_nothing rfl ht, hlater t hT.ready hT.frame.cfg rfl, hlater⟩
  · have hn := configValid_devices h.config
    obtain ⟨u, t, ht, hT⟩ := eesetcur_transferred h s.cfg.eeDev c hn
    have hhi : t.ee.read 0 = hiByte c := by simp [hT.cursor_read h]
    have hlo : t.ee.read 1 = loByte c := by simp [hT.cursor_read h]
    obtain ⟨w, hw, hresp⟩ := exec_eegetcur_ee hT.second.ready
    rw [hT.frame.cfg] at hw
    rw [hT.frame.resp, hhi, hlo] at hresp
    exact ⟨t, w, exec_returns_nothing rfl ht, hw, hresp⟩

end Sys2Proof.Machine
end

section
/-! The transactions of the register protocol with DevAck free (10_state.md R54, 40_bus_primitives.md R126,
41_register_protocol.md R154): which bytes a device takes decides whether its rules let the transaction go on. -/

namespace Sys2Proof.Machine

/-! ## The bytes that a device takes -/

theorem dataAcks_length (s : State) (dev : DevAddr) (n : Nat) : (dataAcks s dev n).length = n := by simp [dataAcks]

/-- The bytes taken are among those offered, in their order. -/
theorem takenBytes_sublist (s : State) (dev : DevAddr) (bytes : List Byte) :
    (takenBytes s dev bytes).Sublist bytes := by
  have hall : (bytes.zip (dataAcks s dev bytes.length)).map (fun p => p.1) = bytes :=
    List.map_fst_zip (dataAcks_length s dev bytes.length).ge
  have htaken := (List.filter_sublist (p := fun p : Byte × Bool => p.2)
    (l := bytes.zip (dataAcks s dev bytes.length))).map (fun p => p.1)
  rwa [hall] at htaken

/-- If every byte was taken, every data frame was acknowledged. -/
theorem dataAcks_of_takenBytes_length {s : State} {dev : DevAddr} {bytes : List Byte}
    (h : (takenBytes s dev bytes).length = bytes.length) :
    dataAcks s dev bytes.length = List.replicate bytes.length true := by
  have hlen := dataAcks_length s dev bytes.length
  have hsnd : (bytes.zip (dataAcks s dev bytes.length)).map (fun p => p.2) = dataAcks s dev bytes.length :=
    List.map_snd_zip hlen.le
  have hfilter : ((bytes.zip (dataAcks s dev bytes.length)).filter (fun p => p.2)).length =
      (bytes.zip (dataAcks s dev bytes.length)).length := by
    rw [List.length_zip, hlen, Nat.min_self]
    exact (List.length_map _).symm.trans h
  refine List.eq_replicate_iff.mpr ⟨hlen, fun k hk => ?_⟩
  rw [← hsnd] at hk
  obtain ⟨p, hp, rfl⟩ := List.mem_map.mp hk
  exact List.length_filter_eq_length_iff.mp hfilter p hp

/-- The devices' rules give the bytes that `dev` takes a meaning: the EEPROM stores inside itself, the RTC is not
offered a second byte of data (10_state.md R51, R53). -/
structure Takes (s : State) (dev : DevAddr) (bytes : List Byte) : Prop where
  ee : dev = s.cfg.eeDev → (takenBytes s dev bytes).length ≤ 3 ∧
    ∀ h l x, takenBytes s dev bytes = [h, l, x] → (joinBytes h l).toNat < s.cfg.eeSize
  rtc : dev = s.cfg.rtcDev → (takenBytes s dev bytes).length ≤ 2

/-- Two bytes have a meaning to every device. -/
theorem Takes.two {s : State} {bytes : List Byte} (dev : DevAddr) (h : bytes.length ≤ 2) : Takes s dev bytes := by
  have hlen : (takenBytes s dev bytes).length ≤ 2 := (takenBytes_length s dev bytes).trans h
  refine ⟨fun _ => ⟨hlen.trans (by decide), fun x y z e => ?_⟩, fun _ => hlen⟩
  rw [e] at hlen
  exact absurd hlen (by simp)

/-- An address in the EEPROM and a byte; the RTC misses one of the three. -/
theorem Takes.store {s : State} {dev : DevAddr} {addr : Half} {val : Byte}
    (hee : dev = s.cfg.eeDev → addr.toNat < s.cfg.eeSize)
    (hrtc : dev = s.cfg.rtcDev → dataAcks s dev 3 ≠ [true, true, true]) :
    Takes s dev [hiByte addr, loByte addr, val] := by
  have hlen : (takenBytes s dev [hiByte addr, loByte addr, val]).length ≤ 3 := takenBytes_length s dev _
  refine ⟨fun hd => ⟨hlen, fun x y z e => ?_⟩, fun hd => ?_⟩
  · have hall : [x, y, z] = [hiByte addr, loByte addr, val] := by
      rw [← e]
      exact (takenBytes_sublist s dev _).eq_of_length (by rw [e]; rfl)
    obtain ⟨rfl, rfl, _⟩ : x = hiByte addr ∧ y = loByte addr ∧ z = val := by simpa using hall
    rw [joinBytes_hiByte_loByte]
    exact hee hd
  · have hne : (takenBytes s dev [hiByte addr, loByte addr, val]).length ≠ 3 :=
      fun e => hrtc hd (dataAcks_of_takenBytes_length e)
    omega

/-! ## One transaction -/

/-- A write transaction whose bytes have a meaning goes to its end, and another transaction may follow. -/
theorem writeTransaction_frames {s : State} {dev : DevAddr} {bytes : List Byte} (h : ReadyAnyAck s)
    (hb : Takes s dev bytes) :
    ∃ t, writeTransaction dev bytes s = .ok () t ∧ WroteFrames s t dev bytes ∧ ReadyAnyAck t ∧ BusFrame s t := by
  obtain ⟨v, f, hv⟩ := select_view h dev bytes hb.ee hb.rtc
  obtain ⟨t, ht, hW, hready, hF, _⟩ := writeTransaction_went h hv
  exact ⟨t, ht, hW, hready, hF⟩

/-- A read transaction in which the EEPROM, if it is to send, has the byte goes to its end, and another may
follow. -/
theorem readTransaction_frames {s : State} {dev : DevAddr} {select : List Byte} (h : ReadyAnyAck s)
    (hs : SentOpen s) (hlen : select.length ≤ 2) (hmay : MaySend s dev select) :
    ∃ v t, readTransaction dev select s = .ok (readResult s dev select.length v) t ∧ ReadFrames s t dev select v ∧
      ReadyAnyAck t ∧ BusFrame s t ∧ SentOpen t := by
  have hb : Takes s dev select := .two dev hlen
  obtain ⟨v, f, hv⟩ := select_view h dev select hb.ee hb.rtc
  exact readTransaction_went h hs hv (fun hd hk => by rw [hv.eeptr, if_pos hd]; exact hmay hd hk)

/-- What the frames of a read transaction were does not speak of the results. -/
theorem ReadFrames.resp {s t : State} {dev : DevAddr} {select : List Byte} {v : Byte}
    (h : ReadFrames s t dev select v) (r : List Byte) : ReadFrames s { t with resp := r } dev select v :=
  ⟨h.closed.resp r, ⟨h.took.ee, h.took.rtc, h.took.eeptr, h.took.rtcptr⟩, h.ee, h.rtc, h.acks⟩

/-! ## The operations -/

/-- An operation that is one write transaction (WRREG, EEWR). -/
theorem exec_writeFrames {i : Instr} {s : State} {dev : DevAddr} {bytes : List Byte} (h : ReadyAnyAck s)
    (hi : runOf i = noResult (writeTransaction dev bytes)) (hb : Takes s dev bytes) :
    ∃ t, exec i s = .next t ∧ t.resp = s.resp ∧ WroteFrames s t dev bytes := by
  obtain ⟨t, ht, hW, _, hF⟩ := writeTransaction_frames h hb
  exact ⟨t, exec_returns_nothing hi ht, hF.resp, hW⟩

/-- An operation that is one read transaction (RDREG, EERD). -/
theorem exec_readFrames {i : Instr} {s : State} {dev : DevAddr} {select : List Byte} (h : ReadyAnyAck s)
    (hs : SentOpen s) (hi : runOf i = byteResult (readTransaction dev select)) (hlen : select.length ≤ 2)
    (hmay : MaySend s dev select) :
    ∃ v t, exec i s = .next t ∧ t.resp = s.resp ++ [readResult s dev select.length v] ∧
      ReadFrames s t dev select v := by
  obtain ⟨v, t, ht, hR, _, hF, _⟩ := readTransaction_frames h hs hlen hmay
  exact ⟨v, _, exec_returns hF (by rw [hi]; exact bind_of_ok ht), rfl, hR.resp _⟩

/-- EESETCUR is two write transactions, with an interleaving point between them (R159). -/
theorem exec_eesetcur_frames {s : State} {dev : DevAddr} (h : ReadyAnyAck s) (cursor : Half)
    (hn : dev ≠ s.cfg.rtcDev) :
    ∃ u t, eewr dev 0 (hiByte cursor) s = .ok () u ∧ (Scripted s → Scripted u ∧ u.others = u) ∧
      exec (.eesetcur dev cursor) s = .next t ∧ t.resp = s.resp ∧
      WroteFrames s u dev [0x00, 0x00, hiByte cursor] ∧
      WroteFrames u.others t dev [0x00, 0x01, loByte cursor] := by
  have hheader := configValid_header h.config
  obtain ⟨u, hu, hW, hready, hF⟩ := writeTransaction_frames h
    (Takes.store (addr := 0) (val := hiByte cursor) (fun _ => Nat.zero_lt_of_lt hheader) (fun e => absurd e hn))
  have hcfg : u.others.cfg = s.cfg := (State.others_cfg u).trans hF.cfg
  obtain ⟨t, ht, hW', _, hF'⟩ := writeTransaction_frames hready.others
    (Takes.store (dev := dev) (addr := 1) (val := loByte cursor) (fun _ => by rw [hcfg]; exact hheader)
      (fun e => absurd (e.trans (congrArg Config.rtcDev hcfg)) hn))
  have hrun : eesetcur dev cursor s = .ok () t := by
    unfold eesetcur
    rw [bind_of_ok (show eewr dev 0 (hiByte cursor) s = .ok () u from hu), bind_of_ok (point_apply u)]
    exact ht
  exact ⟨u, t, hu, hF.scripted_others, exec_returns_nothing rfl hrun,
    ((hF.trans (BusFrame.others u)).trans hF').resp, hW, hW'⟩

/-- EEGETCUR is two read transactions, with an interleaving point between them (R158). -/
theorem exec_eegetcur_frames {s : State} {dev : DevAddr} (h : ReadyAnyAck s) (hs : SentOpen s)
    (hmay : MaySend s dev [0x00, 0x00])
    (hmay' : ∀ v u, eerd dev 0 s = .ok v u → MaySend u.others dev [0x00, 0x01]) :
    ∃ hi lo u t, eerd dev 0 s = .ok (readResult s dev 2 hi) u ∧ (Scripted s → Scripted u ∧ u.others = u) ∧
      exec (.eegetcur dev) s = .next t ∧
      t.resp = s.resp ++ [readResult s dev 2 hi, readResult u.others dev 2 lo] ∧
      ReadFrames s u dev [0x00, 0x00] hi ∧ ReadFrames u.others t dev [0x00, 0x01] lo := by
  obtain ⟨hi, u, hu, hR, hready, hF, hsent⟩ := readTransaction_frames h hs le_rfl hmay
  have hu : eerd dev 0 s = .ok (readResult s dev 2 hi) u := hu
  obtain ⟨lo, t, ht, hR', _, hF', _⟩ := readTransaction_frames hready.others hsent.others le_rfl (hmay' _ u hu)
  have ht : eerd dev 1 u.others = .ok (readResult u.others dev 2 lo) t := ht
  have hrun : runOf (.eegetcur dev) s = .ok [readResult s dev 2 hi, readResult u.others dev 2 lo] t := by
    show cursorResult (eegetcur dev) s = _
    unfold cursorResult eegetcur
    simp only [bind_apply, hu, point_apply, ht, pure_apply, hiByte_joinBytes, loByte_joinBytes]
  exact ⟨hi, lo, u, _, hu, hF.scripted_others,
    exec_returns ((hF.trans (BusFrame.others u)).trans hF') hrun, rfl, hR, hR'.resp _⟩

/-- Settles O60: each form is one transaction or two, whose taken bytes have a meaning. -/
theorem transactionsUnderAnyDevAck : Obligations.TransactionsUnderAnyDevAck := fun _ _ h =>
  ⟨fun _ _ => exec_writeFrames h rfl (.two _ le_rfl),
    fun _ _ hrtc hee => exec_writeFrames h rfl (.store hee hrtc),
    fun cursor hn => exec_eesetcur_frames h cursor hn,
    fun hs =>
      ⟨fun _ => exec_readFrames h hs rfl (Nat.le_succ 1), fun _ => exec_readFrames h hs rfl le_rfl,
        exec_eegetcur_frames h hs⟩⟩

end Sys2Proof.Machine
end

section
/-! BCD, on numbers and as the operations TOBCD and FROMBCD (42_rtc_protocol.md R171 to R173). -/

namespace Sys2Proof.Machine

/-! ## The formulas -/

/-- The high part of `toBcd` is the tens, its low digit the units. -/
theorem toBcd_digits (v : Nat) : toBcd v / 16 = v / 10 ∧ toBcd v % 16 = v % 10 := by
  unfold toBcd
  omega

/-- A value up to 99 has a byte of BCD. -/
theorem toBcd_lt {v : Nat} (h : v ≤ 99) : toBcd v < 256 := by
  unfold toBcd
  omega

theorem fromBcd_toBcd (v : Nat) : fromBcd (toBcd v) = v := by
  obtain ⟨htens, hunits⟩ := toBcd_digits v
  unfold fromBcd
  rw [htens, hunits]
  omega

theorem toBcd_fromBcd {b : Nat} (h : b % 16 ≤ 9) : toBcd (fromBcd b) = b := by
  unfold toBcd fromBcd
  omega

/-- Two BCD digits make a value up to 99. -/
theorem fromBcd_le {b : Nat} (hhi : b / 16 ≤ 9) (hlo : b % 16 ≤ 9) : fromBcd b ≤ 99 := by
  unfold fromBcd
  omega

/-- The largest value of a byte is that of 0xFF. -/
theorem fromBcd_byte_le (b : Byte) : fromBcd b.toNat ≤ 165 := by
  have hb := b.isLt
  unfold fromBcd
  omega

theorem toNat_toBcdByte {v : Nat} (h : v ≤ 99) : (toBcdByte v).toNat = toBcd v :=
  Nat.mod_eq_of_lt (toBcd_lt h)

/-! ## The operations -/

/-- TOBCD in its domain changes the results alone. -/
theorem exec_tobcd {v : Byte} (h : v.toNat ≤ 99) (s : State) :
    exec (.tobcd v) s = .next { s with resp := s.resp ++ [toBcdByte v.toNat] } := by
  have hlines : tobcd v s = .ok (toBcdByte v.toNat) s := by simp [tobcd, bind_apply, h]
  rw [exec_eq]
  exact finish_byteResult hlines

/-- TOBCD outside its domain. -/
theorem exec_tobcd_refused {v : Byte} (h : 99 < v.toNat) (s : State) :
    exec (.tobcd v) s = .refused .bcdDomain :=
  exec_refused (((Op.Refuses.require (decide_eq_false (Nat.not_le_of_lt h)) s _).bind _).bind _)

/-- FROMBCD changes the results alone. -/
theorem exec_frombcd (b : Byte) (s : State) :
    exec (.frombcd b) s = .next { s with resp := s.resp ++ [BitVec.ofNat 8 (fromBcd b.toNat)] } :=
  finish_byteResult rfl

/-- Settles O37: the operations are the formulas, behind TOBCD's test. -/
theorem bcdOperations : Obligations.BcdOperations :=
  ⟨rfl, rfl, fun _ b s => ⟨fun hv => exec_tobcd hv s, fun hv => exec_tobcd_refused hv s, exec_frombcd b s,
    fromBcd_byte_le b⟩⟩

/-- Settles O38: the formulas are inverse to each other, and in their domains no byte cuts a value off. -/
theorem bcdRoundTrip : Obligations.BcdRoundTrip := by
  refine ⟨fun v _ => ⟨fromBcd_toBcd v, toBcd_digits v⟩, fun _ _ => toBcd_fromBcd,
    fun v s h => ⟨_, exec_tobcd h s, ?_⟩, fun b s hhi hlo => ⟨_, exec_frombcd b s, ?_⟩⟩
  · rw [exec_frombcd, toNat_toBcdByte h, fromBcd_toBcd, BitVec.ofNat_toNat, BitVec.setWidth_eq]
  · have hle : fromBcd b.toNat ≤ 99 := fromBcd_le hhi hlo
    have hval : (BitVec.ofNat 8 (fromBcd b.toNat)).toNat = fromBcd b.toNat :=
      Nat.mod_eq_of_lt (Nat.lt_of_le_of_lt hle (by decide))
    rw [exec_tobcd (by rw [hval]; exact hle), hval, toBcdByte, toBcd_fromBcd hlo, BitVec.ofNat_toNat,
      BitVec.setWidth_eq]

end Sys2Proof.Machine
end

section
/-! The RTC operations as chains of transactions (42_rtc_protocol.md R174, R176, R178): what a chain has put on the
wire and stored in the RTC, carried line by line through RTCINIT, RTCGET and RTCSET with whatever device. -/

namespace Sys2Proof.Machine

/-! ## Lines that answer -/

/-- The lines answer, with a result and a state that are so related. -/
def Op.Gives {α : Type} (m : Op α) (s : State) (P : α → State → Prop) : Prop := ∃ a t, m s = .ok a t ∧ P a t

theorem Op.Gives.of_ok {α : Type} {m : Op α} {s t : State} {a : α} {P : α → State → Prop} (h : m s = .ok a t)
    (hP : P a t) : Op.Gives m s P := ⟨a, t, h, hP⟩

theorem Op.Gives.bind {α β : Type} {m : Op α} {f : α → Op β} {s : State} {P : α → State → Prop}
    {Q : β → State → Prop} (hm : Op.Gives m s P) (hf : ∀ a t, P a t → Op.Gives (f a) t Q) :
    Op.Gives (m >>= f) s Q := by
  obtain ⟨a, t, hok, hP⟩ := hm
  obtain ⟨b, u, hok', hQ⟩ := hf a t hP
  exact ⟨b, u, by rw [bind_of_ok hok, hok'], hQ⟩

/-- A line that answers so leads to the lines after it. -/
theorem Op.Gives.after {α β : Type} {m : Op α} {f : α → Op β} {s t : State} {a : α} {Q : β → State → Prop}
    (hm : m s = .ok a t) (h : Op.Gives (f a) t Q) : Op.Gives (m >>= f) s Q := by
  obtain ⟨b, u, hu, hQ⟩ := h
  exact ⟨b, u, by rw [bind_of_ok hm, hu], hQ⟩

theorem Op.Gives.mono {α : Type} {m : Op α} {s : State} {P Q : α → State → Prop} (hm : Op.Gives m s P)
    (h : ∀ a t, P a t → Q a t) : Op.Gives m s Q := by
  obtain ⟨a, t, hok, hP⟩ := hm
  exact ⟨a, t, hok, h a t hP⟩

/-- There is one answer, of which both hold. -/
theorem Op.Gives.and {α : Type} {m : Op α} {s : State} {P Q : α → State → Prop} (hP : Op.Gives m s P)
    (hQ : Op.Gives m s Q) : Op.Gives m s (fun a t => P a t ∧ Q a t) := by
  obtain ⟨a, t, hok, hP⟩ := hP
  obtain ⟨b, u, hok', hQ⟩ := hQ
  rw [hok] at hok'
  cases hok'
  exact ⟨a, t, hok, hP, hQ⟩

/-! ## Transactions on the wire -/

/-- Transactions on the wire, each with its stop. -/
def stopped (l : List (List WireEvent)) : List WireEvent := l.flatMap (fun events => events ++ [.p])

theorem stopped_concat (l : List (List WireEvent)) (events : List WireEvent) :
    stopped (l ++ [events]) = stopped l ++ events ++ [.p] := by simp [stopped]

/-- All but the last have their stop. -/
theorem transactions_concat (l : List (List WireEvent)) (events : List WireEvent) :
    transactions (l ++ [events]) = stopped l ++ events := by
  induction l with
  | nil => simp [transactions, stopped, List.intercalate]
  | cons e l ih =>
    have hcons : transactions (e :: (l ++ [events])) = e ++ [.p] ++ transactions (l ++ [events]) := by
      unfold transactions
      rw [List.intercalate_cons_of_ne_nil (by simp)]
    simpa [stopped, List.append_assoc] using hcons.trans (congrArg _ ih)

/-! ## Chains -/

/-- The RTC's registers after WRREG to a device (10_state.md R53). -/
def rtcWritten (c : Config) (dev : DevAddr) (m : Memory) (reg val : Byte) : Memory :=
  if dev = c.rtcDev then m.write reg.toNat val else m

@[simp] theorem rtcWritten_rtc (c : Config) (m : Memory) (reg val : Byte) :
    rtcWritten c c.rtcDev m reg val = m.write reg.toNat val := if_pos rfl

theorem rtcWritten_other {c : Config} {dev : DevAddr} (h : dev ≠ c.rtcDev) (m : Memory) (reg val : Byte) :
    rtcWritten c dev m reg val = m := if_neg h

/-- From `s` the transactions `l` have been performed one after the other, the stop of the last perhaps still
pending: under a script's schedule they are what is on the wire, and the RTC's registers hold `m`. -/
structure Chained (s t : State) (l : List (List WireEvent)) (m : Memory) : Prop where
  link : Link s t (wireSettled s ++ stopped l) m
  wire : Scripted s → l ≠ [] → t.wire = wireSettled s ++ transactions l

namespace Chained

variable {s t : State} {l : List (List WireEvent)} {m : Memory}

theorem start (h : Ready s) : Chained s s [] s.rtcreg :=
  ⟨by simpa [stopped] using Link.start h, fun _ hne => absurd rfl hne⟩

/-- One more transaction, which has just ended. -/
theorem concat {u : State} {m' : Memory} {events : List WireEvent}
    (hend : Ended u (wireSettled s ++ stopped l ++ events))
    (hlink : Link s u (wireSettled s ++ stopped l ++ events ++ [.p]) m') : Chained s u (l ++ [events]) m' where
  link := by simpa only [stopped_concat, List.append_assoc] using hlink
  wire _ _ := by rw [hend.wire, transactions_concat, List.append_assoc]

theorem frame (k : Chained s t l m) : BusFrame s t := k.link.next.frame

theorem cfg (k : Chained s t l m) : t.cfg = s.cfg := k.link.cfg

/-- Under a script's schedule nothing happens at the next interleaving point. -/
theorem scripted_others (k : Chained s t l m) (ha : Scripted s) : Scripted t ∧ t.others = t :=
  k.frame.scripted_others ha

theorem others (k : Chained s t l m) : Chained s t.others l m where
  link := k.link.point
  wire ha hne := by rw [(k.scripted_others ha).2, k.wire ha hne]

theorem point (k : Chained s t l m) : Op.Gives point t (fun _ u => Chained s u l m) := .of_ok rfl k.others

/-- WRREG. -/
theorem wrreg (k : Chained s t l m) (dev : DevAddr) (reg val : Byte) :
    Op.Gives (wrreg dev reg val) t (fun _ u => Chained s u (l ++ [writeEvents dev (answers s.cfg dev) [reg, val]])
      (rtcWritten s.cfg dev m reg val)) := by
  obtain ⟨u, hu, hend, hlink⟩ := k.link.wrreg dev reg val
  exact .of_ok hu (concat hend hlink)

/-- RDREG; the EEPROM must have the byte. The RTC sends its register. -/
theorem rdreg (k : Chained s t l m) (dev : DevAddr) (reg : Byte) (hin : dev = s.cfg.eeDev → s.cfg.eeSize = 65536) :
    Op.Gives (rdreg dev reg) t (fun v u => ∃ events, Chained s u (l ++ [events]) m ∧
      (Scripted s → dev = s.cfg.rtcDev →
        v = m.read reg.toNat ∧ events = readEvents s.cfg.rtcDev true [reg] (m.read reg.toNat))) := by
  obtain ⟨v, u, hu, hend, hlink, hv⟩ := k.link.rdreg dev reg hin
  refine .of_ok hu ⟨_, concat hend hlink, fun ha hd => ?_⟩
  subst hd
  simp [answers_rtc, hv ha rfl]


theorem ready (k : Chained s t l m) : Ready t := k.link.next.ready

/-- What the next operation finds does not depend on how many free values were drawn. -/
theorem drawn (k : Chained s t l m) (n : Nat) : Chained s { t with drawn := n } l m where
  link :=
    { next :=
        { ready := ⟨k.ready.running, k.ready.config, ⟨k.ready.bus.idle, k.ready.bus.init⟩,
            ⟨k.ready.engine.open_init, k.ready.engine.stop_idle, k.ready.engine.sel_open,
              k.ready.engine.flight_hung⟩,
            ⟨k.ready.oracles.live, k.ready.oracles.ideal, k.ready.oracles.starts⟩, k.ready.memory⟩
          frame := k.frame.trans (.of_update rfl)
          ee := k.link.next.ee }
      wire := k.link.wire
      rtc := k.link.rtc }
  wire := k.wire

end Chained

/-! ## RTCSET (R178) -/

/-- RTCSET of a record it accepts, with any device: six transactions, which the RTC stores. -/
theorem rtcset_chained {s : State} (h : Ready s) (dev : DevAddr) {record : TimeRecord}
    (hr : TimeRecord.settable record = true) :
    Op.Gives (rtcset dev record) s (fun _ t => Chained s t (rtcSetTransactions s.cfg dev record)
      (if dev = s.cfg.rtcDev then rtcAfterSet s.cfg s.rtcreg record else s.rtcreg)) := by
  have hsettable : require (TimeRecord.settable record) .bcdDomain s = .ok () s := by rw [hr]; rfl
  have k := Chained.start h
  refine .after (requireIdle_spec h.bus.idle) (.after hsettable (.after (look_apply State.cfg s) ?_))
  iterate 5 refine (k.wrreg dev _ _).bind fun _ _ k => k.point.bind fun _ _ k => ?_
  refine (k.wrreg dev _ _).mono fun _ _ k => ?_
  by_cases hd : dev = s.cfg.rtcDev
  · subst hd
    simpa [rtcSetTransactions, rtcAfterSet] using k
  · simpa [rtcSetTransactions, rtcWritten_other hd, hd] using k

/-- RTCSET of a record it does not accept stops in the state it began in. -/
theorem rtcset_refused {s : State} (h : s.ph = .idle) (dev : DevAddr) {record : TimeRecord}
    (hr : TimeRecord.settable record = false) :
    rtcset dev record s = .error (.refuse .bcdDomain) s := by
  unfold rtcset
  rw [bind_of_ok (requireIdle_spec h), hr]
  rfl

/-! ## RTCGET (R176) -/

/-- RTCGET with any device; the EEPROM must have every byte. From the RTC it returns the record of its registers. -/
theorem rtcget_chained {s : State} (h : Ready s) (dev : DevAddr) (hin : dev = s.cfg.eeDev → s.cfg.eeSize = 65536) :
    Op.Gives (rtcget dev) s (fun record t => ∃ l, Chained s t l s.rtcreg ∧
      (Scripted s → dev = s.cfg.rtcDev → l = rtcGetTransactions s.cfg s.rtcreg ∧
        ∃ weekday, record = rtcRecord s.cfg s.rtcreg weekday)) := by
  have k := Chained.start h
  refine .after (look_apply State.cfg s) ?_
  refine (k.rdreg dev _ hin).bind fun year _ ⟨_, k, hyear⟩ => k.point.bind fun _ _ k => ?_
  refine (k.rdreg dev _ hin).bind fun month _ ⟨_, k, hmonth⟩ => k.point.bind fun _ _ k => ?_
  refine (k.rdreg dev _ hin).bind fun day _ ⟨_, k, hday⟩ => k.point.bind fun _ _ k => ?_
  refine (k.rdreg dev _ hin).bind fun hour _ ⟨_, k, hhour⟩ => k.point.bind fun _ _ k => ?_
  refine (k.rdreg dev _ hin).bind fun minute _ ⟨_, k, hminute⟩ => k.point.bind fun _ _ k => ?_
  refine (k.rdreg dev _ hin).bind fun second _ ⟨_, k, hsecond⟩ => .after (draw_apply _) ?_
  refine .of_ok rfl ⟨_, k.drawn _, fun ha hd => ?_⟩
  obtain ⟨rfl, rfl⟩ := hyear ha hd
  obtain ⟨rfl, rfl⟩ := hmonth ha hd
  obtain ⟨rfl, rfl⟩ := hday ha hd
  obtain ⟨rfl, rfl⟩ := hhour ha hd
  obtain ⟨rfl, rfl⟩ := hminute ha hd
  obtain ⟨rfl, rfl⟩ := hsecond ha hd
  exact ⟨rfl, _, rfl⟩

/-! ## RTCINIT (R174) -/

/-- The transaction of the battery test, if there is one. -/
def batteryEvents (c : Config) (dev : DevAddr) (batt : Bool) (w : Byte) : List (List WireEvent) :=
  if w.getLsbD c.bVbaten = batt then []
  else [writeEvents dev (answers c dev) [c.rtcWkday, withBit w c.bVbaten batt]]

/-- The RTC's registers after the battery test of the byte `w`. -/
def batteryWritten (c : Config) (dev : DevAddr) (m : Memory) (batt : Bool) (w : Byte) : Memory :=
  if w.getLsbD c.bVbaten = batt then m else rtcWritten c dev m c.rtcWkday (withBit w c.bVbaten batt)

theorem batteryWritten_rtc (c : Config) (m : Memory) (batt : Bool) :
    batteryWritten c c.rtcDev m batt (m.read c.rtcWkday.toNat) = rtcAfterBattery c m batt := by
  simp [batteryWritten, rtcAfterBattery]

theorem batteryWritten_other {c : Config} {dev : DevAddr} (h : dev ≠ c.rtcDev) (m : Memory) (batt : Bool) (w : Byte) :
    batteryWritten c dev m batt w = m := by simp [batteryWritten, rtcWritten_other h]

theorem Chained.rtcBattery {s t : State} {l : List (List WireEvent)} {m : Memory} (k : Chained s t l m)
    (dev : DevAddr) (batt : Bool) (w : Byte) :
    Op.Gives (rtcBattery dev batt w) t
      (fun _ u => Chained s u (l ++ batteryEvents s.cfg dev batt w) (batteryWritten s.cfg dev m batt w)) := by
  refine .after (look_apply State.cfg t) ?_
  rw [k.cfg]
  by_cases hw : w.getLsbD s.cfg.bVbaten = batt
  · simp only [batteryEvents, batteryWritten, hw, ne_eq, not_true_eq_false, if_true, if_false, List.append_nil]
    exact .of_ok rfl k
  · simp only [batteryEvents, batteryWritten, hw, ne_eq, not_false_eq_true, if_true, if_false]
    exact k.wrreg dev _ _

/-- RTCINIT's lines before the start of a stopped oscillator, with any device. -/
theorem rtcBeforeStart_chained {s : State} (h : Ready s) (dev : DevAddr) (batt : Bool)
    (hin : dev = s.cfg.eeDev → s.cfg.eeSize = 65536) :
    Op.Gives (rtcBeforeStart dev batt) s (fun w u => ∃ events,
      Chained s u (events :: batteryEvents s.cfg dev batt w) (batteryWritten s.cfg dev s.rtcreg batt w) ∧
      (Scripted s → dev = s.cfg.rtcDev → w = s.rtcreg.read s.cfg.rtcWkday.toNat ∧
        events = readEvents s.cfg.rtcDev true [s.cfg.rtcWkday] w)) := by
  refine .after (look_apply State.cfg s) ?_
  refine ((Chained.start h).rdreg dev _ hin).bind fun w _ ⟨events, k, hw⟩ => k.point.bind fun _ _ k => ?_
  refine (k.rtcBattery dev batt w).bind fun _ _ k => k.point.bind fun _ _ k => ?_
  refine .of_ok rfl ⟨events, k, fun ha hd => ?_⟩
  obtain ⟨rfl, rfl⟩ := hw ha hd
  exact ⟨rfl, rfl⟩

/-- RTCINIT's second look at a stopped oscillator, from `u`, received `v`: with the RTC, and nothing further from the
ENV, that is the weekday register as the settle delay after the start command left it. -/
def SecondLook (c : Config) (u : State) (dev : DevAddr) (v : Byte) : Prop :=
  ∃ started, wrreg dev c.rtcSec (startCommand c) u = .ok () started ∧ Ready started ∧ started.cfg = c ∧
    (Scripted started.others → dev = c.rtcDev → v = started.others.rtcreg.read c.rtcWkday.toNat)

/-- The start of a stopped oscillator, with any device. -/
theorem Chained.rtcStartOscillator {s u : State} {l : List (List WireEvent)} {m : Memory} (k : Chained s u l m)
    (dev : DevAddr) (hin : dev = s.cfg.eeDev → s.cfg.eeSize = 65536) :
    Op.Gives (rtcStartOscillator dev) u (fun ok t => ∃ v events, ok = v.getLsbD s.cfg.bOscrun ∧
      SecondLook s.cfg u dev v ∧
      Chained s t (l ++ [writeEvents dev (answers s.cfg dev) [s.cfg.rtcSec, startCommand s.cfg]] ++ [events])
        (rtcWritten s.cfg dev m s.cfg.rtcSec (startCommand s.cfg)) ∧
      (Scripted s → dev = s.cfg.rtcDev →
        v = (m.write s.cfg.rtcSec.toNat (startCommand s.cfg)).read s.cfg.rtcWkday.toNat ∧
        events = readEvents s.cfg.rtcDev true [s.cfg.rtcWkday] v)) := by
  refine .after (look_apply State.cfg u) ?_
  rw [k.cfg]
  obtain ⟨_, started, hstarted, k⟩ := k.wrreg dev s.cfg.rtcSec (startCommand s.cfg)
  have hlook := (Chained.start k.others.ready).rdreg dev s.cfg.rtcWkday (by rw [k.others.cfg]; exact hin)
  rw [k.others.cfg] at hlook
  refine .after hstarted (.after (delay_apply _ started)
    (((k.others.rdreg dev s.cfg.rtcWkday hin).and hlook).bind ?_))
  rintro v t ⟨⟨events, k', hv⟩, _, _, hdelay⟩
  refine .of_ok rfl ⟨v, events, rfl, ⟨started, hstarted, k.ready, k.cfg, fun ha hd => (hdelay ha hd).1⟩, k',
    fun ha hd => ?_⟩
  subst hd
  obtain ⟨rfl, rfl⟩ := hv ha rfl
  rw [rtcWritten_rtc]
  exact ⟨rfl, rfl⟩

section Rtcinit

variable {s u t : State} {dev : DevAddr} {batt : Bool} {w : Byte}

/-- RTCINIT after its lines before the start of a stopped oscillator. -/
theorem rtcinit_of_beforeStart (hu : rtcBeforeStart dev batt s = .ok w u) :
    rtcinit dev batt s = (if w.getLsbD s.cfg.bOscrun then pure true else rtcStartOscillator dev : Op Bool) u := by
  unfold rtcBeforeStart at hu
  unfold rtcinit
  rw [bind_of_ok (look_apply _ _)] at hu ⊢
  cases hread : rdreg dev s.cfg.rtcWkday s with
  | error e t =>
    rw [bind_of_error hread] at hu
    cases hu
  | ok v t =>
    rw [bind_of_ok hread, bind_of_ok (point_apply t)] at hu ⊢
    cases hbattery : rtcBattery dev batt v t.others with
    | error e x =>
      rw [bind_of_error hbattery] at hu
      cases hu
    | ok y x =>
      rw [bind_of_ok hbattery, bind_of_ok (point_apply x)] at hu ⊢
      cases hu
      rfl

/-- A running oscillator is success. -/
theorem rtcinit_running (hu : rtcBeforeStart dev batt s = .ok w u) (hosc : w.getLsbD s.cfg.bOscrun = true) :
    rtcinit dev batt s = .ok true u := by
  rw [rtcinit_of_beforeStart hu, hosc]
  rfl

/-- A stopped oscillator is started. -/
theorem rtcinit_stopped {ok : Bool} (hu : rtcBeforeStart dev batt s = .ok w u)
    (hosc : w.getLsbD s.cfg.bOscrun = false) (hstart : rtcStartOscillator dev u = .ok ok t) :
    rtcinit dev batt s = .ok ok t := by
  rw [rtcinit_of_beforeStart hu, hosc, if_neg Bool.false_ne_true, hstart]

end Rtcinit

end Sys2Proof.Machine
end

section
/-! The statements about RTCINIT, RTCGET and RTCSET (42_rtc_protocol.md R174 to R179). -/

namespace Sys2Proof.Machine

/-- Between operations of a HOST that is not stuck nothing is in flight. -/
theorem Ready.inflight {s : State} (h : Ready s) : s.inflight = .none := h.quiet.flight

theorem Ready.rtcreg_wf {s : State} (h : Ready s) : s.rtcreg.wf = true := by
  obtain ⟨_, _, hwf, _⟩ := h.memory
  exact hwf

/-- RTCINIT's result is one byte. -/
theorem exec_rtcinit {s t : State} {dev : DevAddr} {batt ok : Bool} (hf : BusFrame s t)
    (h : rtcinit dev batt s = .ok ok t) :
    exec (.rtcinit dev batt) s = .next { t with resp := s.resp ++ [boolByte ok] } := by
  refine exec_returns hf ?_
  show byteResult (boolByte <$> rtcinit dev batt) s = _
  exact bind_of_ok (by rw [map_apply, h])

/-- RTCGET's result is the record's eight bytes. -/
theorem exec_rtcget {s t : State} {dev : DevAddr} {record : TimeRecord} (hf : BusFrame s t)
    (h : rtcget dev s = .ok record t) :
    exec (.rtcget dev) s = .next { t with resp := s.resp ++ encodeRecord record } := by
  refine exec_returns hf ?_
  show (recordBytes <$> rtcget dev) s = _
  rw [map_apply, h]
  rfl

/-- The RTC is no EEPROM, of which every byte would be needed. -/
theorem Ready.rtc_not_ee {s : State} (h : Ready s) : s.cfg.rtcDev = s.cfg.eeDev → s.cfg.eeSize = 65536 :=
  fun e => absurd e.symm (configValid_devices h.config)

/-! ## RTCGET and RTCSET -/

/-- Settles O40: a chain of six reads, of which each receives the RTC's register. -/
theorem rtcgetCompletes : Obligations.RtcgetCompletes := by
  intro s h ha
  obtain ⟨record, t, ht, l, k, hrtc⟩ := rtcget_chained h s.cfg.rtcDev h.rtc_not_ee
  obtain ⟨rfl, weekday, rfl⟩ := hrtc ha rfl
  exact ⟨weekday, _, exec_rtcget k.frame ht, k.frame.outside.resp _, k.frame.hung, k.ready.bus.idle,
    k.ready.inflight, .of_eq k.link.next.ee, .of_eq (k.link.rtc ha), k.wire ha (by simp [rtcGetTransactions]), rfl⟩

/-- Settles O41: a chain of six writes, behind the test of the record. -/
theorem rtcsetCompletes : Obligations.RtcsetCompletes := by
  intro record s h ha
  refine ⟨fun hr => ?_, fun hr => ?_⟩
  · obtain ⟨_, t, ht, k⟩ := rtcset_chained h s.cfg.rtcDev hr
    rw [if_pos rfl] at k
    exact ⟨t, exec_returns_nothing rfl ht, k.frame.outside, k.frame.hung, k.ready.bus.idle, k.ready.inflight,
      k.frame.resp, .of_eq k.link.next.ee, k.wire ha (by simp [rtcSetTransactions]), fun r => by rw [k.link.rtc ha]⟩
  · have hlines := rtcset_refused h.bus.idle s.cfg.rtcDev hr
    have hrefused : Op.Refuses (rtcset s.cfg.rtcDev record) s .bcdDomain := ⟨s, hlines⟩
    exact ⟨hlines, exec_refused (hrefused.bind _)⟩

/-! ## RTCINIT -/

theorem getLsbD_withBit (v : Byte) (i : Fin 8) (b : Bool) : (withBit v i b).getLsbD i = b := by
  cases b <;> simp [withBit]

/-- What the ENV reports of the oscillator is what the weekday register then holds (10_state.md R56). -/
theorem others_oscRun {s : State} (hm : s.rtcreg.wf = true) {on : Bool} (h : s.agenda = [[.oscRun on]]) :
    Scripted s.others ∧ (s.others.rtcreg.read s.cfg.rtcWkday.toNat).getLsbD s.cfg.bOscrun = on := by
  have hrtc : s.others.rtcreg = s.rtcreg.write s.cfg.rtcWkday.toNat
      (withBit (s.rtcreg.read s.cfg.rtcWkday.toNat) s.cfg.bOscrun on) := by
    simp [State.others, h, AgentStep.apply]
  refine ⟨by rw [Scripted, State.others_agenda, h]; rfl, ?_⟩
  rw [hrtc, Memory.read_write_same _ hm, getLsbD_withBit]

/-- The RTC's registers after RTCINIT has restarted a stopped oscillator. -/
def rtcAfterRestart (c : Config) (m : Memory) (batt : Bool) : Memory :=
  (rtcAfterBattery c m batt).write c.rtcSec.toNat (startCommand c)

/-- RTCINIT's transactions with the RTC, by its two tests. -/
theorem rtcInitTransactions_eq (c : Config) (m : Memory) (batt : Bool) :
    rtcInitTransactions c m batt =
      readEvents c.rtcDev true [c.rtcWkday] (m.read c.rtcWkday.toNat) ::
        batteryEvents c c.rtcDev batt (m.read c.rtcWkday.toNat) ++
      if oscillatorRuns c m then []
      else [writeEvents c.rtcDev true [c.rtcSec, startCommand c], readEvents c.rtcDev true [c.rtcWkday]
        ((rtcAfterRestart c m batt).read c.rtcWkday.toNat)] := by
  simp [rtcInitTransactions, batteryEvents, answers_rtc, rtcAfterRestart]

/-- RTCINIT with the RTC, whose registers the block alone moves. -/
theorem rtcinit_scripted {s : State} (h : Ready s) (ha : Scripted s) (batt : Bool) :
    ∃ ok t, rtcinit s.cfg.rtcDev batt s = .ok ok t ∧
      ok = (oscillatorRuns s.cfg s.rtcreg || oscillatorRuns s.cfg (rtcAfterRestart s.cfg s.rtcreg batt)) ∧
      Chained s t (rtcInitTransactions s.cfg s.rtcreg batt)
        (if oscillatorRuns s.cfg s.rtcreg then rtcAfterBattery s.cfg s.rtcreg batt
          else rtcAfterRestart s.cfg s.rtcreg batt) := by
  obtain ⟨w, u, hu, events, k, hw⟩ := rtcBeforeStart_chained h s.cfg.rtcDev batt h.rtc_not_ee
  obtain ⟨rfl, rfl⟩ := hw ha rfl
  rw [batteryWritten_rtc] at k
  rw [rtcInitTransactions_eq]
  cases hosc : oscillatorRuns s.cfg s.rtcreg with
  | true => exact ⟨true, u, rtcinit_running hu hosc, rfl, by simpa using k⟩
  | false =>
    obtain ⟨_, t, hstart, v, events, rfl, _, k', hv⟩ := k.rtcStartOscillator s.cfg.rtcDev h.rtc_not_ee
    obtain ⟨rfl, rfl⟩ := hv ha rfl
    exact ⟨_, t, rtcinit_stopped hu hosc hstart, rfl, by simpa [answers_rtc, rtcAfterRestart] using k'⟩

/-- RTCINIT with any device and every schedule; the EEPROM must have every byte. -/
theorem rtcinit_returns {s : State} (h : Ready s) (dev : DevAddr) (batt : Bool)
    (hin : dev = s.cfg.eeDev → s.cfg.eeSize = 65536) :
    ∃ w u ok t, rtcBeforeStart dev batt s = .ok w u ∧ rtcinit dev batt s = .ok ok t ∧ Next s t ∧
      (Scripted s → dev ≠ s.cfg.rtcDev → t.rtcreg = s.rtcreg) ∧
      (w.getLsbD s.cfg.bOscrun = true → ok = true) ∧
      (w.getLsbD s.cfg.bOscrun = false → ∃ v, ok = v.getLsbD s.cfg.bOscrun ∧ SecondLook s.cfg u dev v) := by
  obtain ⟨w, u, hu, events, k, _⟩ := rtcBeforeStart_chained h dev batt hin
  cases hosc : w.getLsbD s.cfg.bOscrun with
  | true =>
    exact ⟨w, u, true, u, hu, rtcinit_running hu hosc, k.link.next,
      fun ha hn => (k.link.rtc ha).trans (batteryWritten_other hn _ _ _), fun _ => rfl,
      fun e => absurd (hosc.symm.trans e) (by decide)⟩
  | false =>
    obtain ⟨_, t, hstart, v, events, rfl, hlook, k', _⟩ := k.rtcStartOscillator dev hin
    refine ⟨w, u, _, t, hu, rtcinit_stopped hu hosc hstart, k'.link.next, fun ha hn => ?_,
      fun e => absurd (e.symm.trans hosc) (by decide), fun _ => ⟨v, rfl, hlook⟩⟩
    rw [k'.link.rtc ha, rtcWritten_other hn, batteryWritten_other hn]

/-- Settles O39: a running oscillator ends the lines after the battery test, a stopped one is restarted. -/
theorem rtcinitCompletes : Obligations.RtcinitCompletes := by
  intro batt s h
  refine ⟨fun ha => ?_, ?_⟩
  · obtain ⟨ok, t, ht, hok, k⟩ := rtcinit_scripted h ha batt
    refine ⟨_, exec_rtcinit k.frame ht, k.frame.outside.resp _, k.frame.hung, k.ready.bus.idle, k.ready.inflight,
      .of_eq k.link.next.ee, k.wire ha (by simp [rtcInitTransactions]), fun hosc => ?_, fun hosc => ?_⟩
    · rw [hosc] at hok k
      exact ⟨by rw [hok]; rfl, fun r => congrArg (Memory.read · r) (k.link.rtc ha)⟩
    · rw [hosc] at hok k
      exact ⟨by rw [hok]; rfl, fun r => congrArg (Memory.read · r) (k.link.rtc ha)⟩
  · obtain ⟨w, u, ok, t, hu, ht, hnext, _, hrunning, hstopped⟩ := rtcinit_returns h s.cfg.rtcDev batt h.rtc_not_ee
    refine ⟨w, u, _, hu, exec_rtcinit hnext.frame ht, hnext.frame.outside.resp _, hnext.frame.hung,
      hnext.ready.bus.idle, hnext.ready.inflight, .of_eq hnext.ee, fun hosc => by rw [hrunning hosc]; rfl,
      fun hosc => ?_⟩
    obtain ⟨v, rfl, started, hstarted, hready, hcfg, hv⟩ := hstopped hosc
    refine ⟨started, v, hstarted, rfl, fun ha => hv ha rfl, fun on hon => ?_⟩
    obtain ⟨hscripted, hon⟩ := others_oscRun hready.rtcreg_wf hon
    rw [hcfg, ← hv hscripted rfl] at hon
    rw [hon]

/-! ## With any device -/

/-- Settles O42: each operation is a chain whatever the device, and only the RTC stores what the chain sends. -/
theorem rtcOperationsAlwaysReturn : Obligations.RtcOperationsAlwaysReturn := by
  intro dev s h hin
  refine ⟨fun batt => ?_, ?_, fun record hr => ?_⟩
  · obtain ⟨_, _, ok, t, _, ht, hnext, hrtc, _⟩ := rtcinit_returns h dev batt hin
    exact ⟨ok, _, exec_rtcinit hnext.frame ht, hnext.frame.outside.resp _, hnext.frame.hung, hnext.ready.bus.idle,
      rfl, .of_eq hnext.ee, fun ha hn => .of_eq (hrtc ha hn)⟩
  · obtain ⟨record, t, ht, l, k, _⟩ := rtcget_chained h dev hin
    exact ⟨record, _, exec_rtcget k.frame ht, k.frame.outside.resp _, k.frame.hung, k.ready.bus.idle, rfl,
      .of_eq k.link.next.ee, fun ha _ => .of_eq (k.link.rtc ha)⟩
  · obtain ⟨_, t, ht, k⟩ := rtcset_chained h dev hr
    exact ⟨t, exec_returns_nothing rfl ht, k.frame.outside, k.frame.hung, k.ready.bus.idle, k.frame.resp,
      .of_eq k.link.next.ee, fun ha hn => .of_eq ((k.link.rtc ha).trans (if_neg hn))⟩

end Sys2Proof.Machine
end

section
/-! The time that was set is the time that is got (42_rtc_protocol.md R179): each register holds what was written to
it, and its mask takes out what was put in. -/

namespace Sys2Proof.Machine

/-! ## The registers -/

/-- Registers written one after the other. -/
def writeRegs (m : Memory) (l : List (Byte × Byte)) : Memory := l.foldl (fun m p => m.write p.1.toNat p.2) m

theorem writeRegs_concat (m : Memory) (l : List (Byte × Byte)) (p : Byte × Byte) :
    writeRegs m (l ++ [p]) = (writeRegs m l).write p.1.toNat p.2 := by simp [writeRegs]

theorem wf_writeRegs {m : Memory} (hm : m.wf = true) (l : List (Byte × Byte)) : (writeRegs m l).wf = true := by
  induction l using List.reverseRecOn with
  | nil => exact hm
  | append_singleton l p ih => rw [writeRegs_concat]; exact Memory.wf_write _ ih _ _

/-- Of registers with different numbers each holds what was written to it. -/
theorem read_writeRegs {m : Memory} (hm : m.wf = true) {l : List (Byte × Byte)} (hl : (l.map Prod.fst).Nodup)
    {reg val : Byte} (h : (reg, val) ∈ l) : (writeRegs m l).read reg.toNat = val := by
  induction l using List.reverseRecOn with
  | nil => cases h
  | append_singleton l p ih =>
    rw [List.map_append, List.nodup_append] at hl
    obtain ⟨hnodup, _, hlast⟩ := hl
    rw [writeRegs_concat, Memory.read_write _ (wf_writeRegs hm l)]
    rcases List.mem_append.mp h with hin | hin
    · have hne : reg ≠ p.1 := hlast reg (List.mem_map_of_mem hin) p.1 (by simp)
      rw [if_neg (fun e => hne (BitVec.eq_of_toNat_eq e)), ih hnodup hin]
    · obtain rfl := List.mem_singleton.mp hin
      rw [if_pos rfl]

/-- What RTCSET writes, register by register. -/
def setRegs (c : Config) (r : TimeRecord) : List (Byte × Byte) :=
  [(c.rtcYear, toBcdByte r.year), (c.rtcMonth, toBcdByte r.month), (c.rtcDate, toBcdByte r.day),
    (c.rtcHour, hourEncode c r.hour r.mode12 r.pm), (c.rtcMin, toBcdByte r.minute), (c.rtcSec, secondsByte c r.second)]

theorem rtcAfterSet_eq (c : Config) (m : Memory) (r : TimeRecord) : rtcAfterSet c m r = writeRegs m (setRegs c r) := rfl

/-! ## The values -/

/-- A mask that keeps the BCD byte of a value keeps the value. -/
theorem fromBcdMasked_of_kept {v : Nat} {x mask : Byte} (hv : v ≤ 99) (h : x &&& mask = toBcdByte v) :
    fromBcdMasked x mask = v := by
  rw [fromBcdMasked, h, toNat_toBcdByte hv, fromBcd_toBcd]

theorem getLsbD_one_shiftLeft (i j : Fin 8) : (1#8 <<< i.val).getLsbD j.val = decide (i = j) := by
  revert i j
  decide

/-- A bit that the mask does not have. -/
theorem one_shiftLeft_and {i : Fin 8} {mask : Byte} (h : mask.getLsbD i = false) : (1#8 <<< i.val) &&& mask = 0#8 := by
  refine BitVec.eq_of_getLsbD_eq fun j hj => ?_
  rw [BitVec.getLsbD_and, getLsbD_one_shiftLeft i ⟨j, hj⟩, BitVec.getLsbD_zero]
  by_cases hij : i = ⟨j, hj⟩
  · subst hij
    simpa using h
  · simp [hij]

/-- The start bit lies outside the seconds mask (R97). -/
theorem secondsByte_and {c : Config} (hbit : c.mSec.getLsbD c.bSt = false) (second : Nat) :
    secondsByte c second &&& c.mSec = toBcdByte second &&& c.mSec := by
  rw [secondsByte, BitVec.and_or_distrib_right, one_shiftLeft_and hbit, BitVec.or_zero]

/-- A byte below a power of two has no bit from there on. -/
theorem getLsbD_of_lt {x : Byte} {n i : Nat} (h : x.toNat < 2 ^ n) (hi : n ≤ i) : x.getLsbD i = false :=
  Nat.testBit_lt_two_pow (Nat.lt_of_lt_of_le h (Nat.pow_le_pow_right (by decide) hi))

/-- A byte below a power of two is kept by the mask of the bits below it. -/
theorem and_of_lt {x mask : Byte} {n : Nat} (h : x.toNat < 2 ^ n) (hmask : mask.toNat = 2 ^ n - 1) :
    x &&& mask = x :=
  BitVec.eq_of_toNat_eq (by rw [BitVec.toNat_and, hmask, Nat.and_two_pow_sub_one_of_lt_two_pow h])

section HourByte

variable {c : Config} {hour : Nat} (hhour : hour ≤ 99)
include hhour

/-- The mode bit lies above the hour's six bits (R97). -/
theorem hourDecode_hourEncode_24 (h12 : 6 ≤ c.b12h.val) (hfits : toBcd hour ≤ 0x3F) (pm : Bool) :
    hourDecode c (hourEncode c hour false pm) = (hour, false, false) := by
  have hlt : (toBcdByte hour).toNat < 2 ^ 6 := by rw [toNat_toBcdByte hhour]; omega
  have hval : fromBcdMasked (toBcdByte hour) 0x3F = hour := fromBcdMasked_of_kept hhour (and_of_lt hlt rfl)
  have hbyte : hourEncode c hour false pm = toBcdByte hour := rfl
  rw [hbyte, hourDecode, getLsbD_of_lt hlt h12, if_neg Bool.false_ne_true, hval]

/-- The mode bit and the AM/PM bit are two, and lie above the hour's five bits (R97). -/
theorem hourDecode_hourEncode_12 (h12 : 6 ≤ c.b12h.val) (hpm : 5 ≤ c.bPm.val) (hne : c.bPm ≠ c.b12h)
    (hfits : toBcd hour ≤ 0x1F) (pm : Bool) :
    hourDecode c (hourEncode c hour true pm) = (hour, true, pm) := by
  have hlt : (toBcdByte hour).toNat < 2 ^ 5 := by rw [toNat_toBcdByte hhour]; omega
  have hmode : (hourEncode c hour true pm).getLsbD c.b12h = true := by
    rw [hourEncode, if_pos rfl, BitVec.getLsbD_or, BitVec.getLsbD_or, getLsbD_one_shiftLeft]
    simp
  have hflag : (hourEncode c hour true pm).getLsbD c.bPm = pm := by
    rw [hourEncode, if_pos rfl, BitVec.getLsbD_or, BitVec.getLsbD_or, getLsbD_one_shiftLeft,
      getLsbD_of_lt hlt hpm, decide_eq_false hne.symm, Bool.false_or, Bool.or_false]
    cases pm
    · exact BitVec.getLsbD_zero
    · exact (getLsbD_one_shiftLeft _ _).trans (decide_eq_true rfl)
  have hkept : hourEncode c hour true pm &&& 0x1F = toBcdByte hour := by
    have habove : ∀ i : Fin 8, 5 ≤ i.val → (0x1F : Byte).getLsbD i = false := by decide
    have hpmBit : (if pm then 1#8 <<< c.bPm.val else 0#8) &&& 0x1F = 0#8 := by
      cases pm
      · exact BitVec.zero_and
      · exact one_shiftLeft_and (habove c.bPm hpm)
    rw [hourEncode, if_pos rfl, BitVec.and_or_distrib_right, BitVec.and_or_distrib_right,
      one_shiftLeft_and (habove c.b12h (by omega)), hpmBit, and_of_lt hlt rfl, BitVec.zero_or, BitVec.zero_or]
  rw [hourDecode, if_pos hmode, hflag, fromBcdMasked_of_kept hhour hkept]

end HourByte

/-- The hour byte decodes to what was encoded, AM/PM only in the 12-hour mode (R175, R177). -/
theorem hourDecode_hourEncode {c : Config} (h12 : 6 ≤ c.b12h.val) (hpm : 5 ≤ c.bPm.val) (hne : c.bPm ≠ c.b12h)
    {hour : Nat} (hhour : hour ≤ 99) {mode12 : Bool} (hfits : toBcd hour ≤ hourLimit mode12) (pm : Bool) :
    hourDecode c (hourEncode c hour mode12 pm) = (hour, mode12, mode12 && pm) := by
  cases mode12 with
  | false => exact hourDecode_hourEncode_24 hhour h12 hfits pm
  | true => exact hourDecode_hourEncode_12 hhour h12 hpm hne hfits pm

/-! ## The record -/

/-- The layout of the RTC's registers (R97). -/
theorem configValid_layout {c : Config} (h : configValid c = true) :
    6 ≤ c.b12h.val ∧ 5 ≤ c.bPm.val ∧ c.bPm ≠ c.b12h ∧ c.mSec.getLsbD c.bSt = false := by
  simp only [configValid, rtcLayoutValid, Bool.and_eq_true, decide_eq_true_eq, Bool.not_eq_true'] at h
  tauto

/-- A record that RTCSET accepts (R177, R178). -/
theorem settable_iff {r : TimeRecord} : TimeRecord.settable r = true ↔
    (r.year ≤ 99 ∧ r.month ≤ 99 ∧ r.day ≤ 99 ∧ r.weekday ≤ 99 ∧ r.hour ≤ 99 ∧ r.minute ≤ 99 ∧ r.second ≤ 99) ∧
      toBcd r.hour ≤ hourLimit r.mode12 := by
  simp [TimeRecord.settable, and_assoc]

/-- The masks keep every bit of a record's values. -/
structure KeptByMasks (c : Config) (r : TimeRecord) : Prop where
  year : toBcdByte r.year &&& c.mYear = toBcdByte r.year
  month : toBcdByte r.month &&& c.mMonth = toBcdByte r.month
  day : toBcdByte r.day &&& c.mDate = toBcdByte r.day
  minute : toBcdByte r.minute &&& c.mMin = toBcdByte r.minute
  second : toBcdByte r.second &&& c.mSec = toBcdByte r.second

/-- What is read off the registers that RTCSET has written. -/
theorem rtcRecord_rtcAfterSet {c : Config} {m : Memory} {r : TimeRecord} (hc : configValid c = true)
    (hm : m.wf = true) (hregs : timeRegistersDistinct c) (hr : TimeRecord.settable r = true) (hmasks : KeptByMasks c r)
    (weekday : Byte) :
    rtcRecord c (rtcAfterSet c m r) weekday = { r with weekday := weekday.toNat, pm := r.mode12 && r.pm } := by
  obtain ⟨h12, hpm, hne, hst⟩ := configValid_layout hc
  obtain ⟨⟨hyear, hmonth, hday, _, hhour, hminute, hsecond⟩, hfits⟩ := settable_iff.mp hr
  have hnodup : ((setRegs c r).map Prod.fst).Nodup := hregs
  have hread : ∀ p ∈ setRegs c r, (rtcAfterSet c m r).read p.1.toNat = p.2 := by
    rw [rtcAfterSet_eq]
    exact fun _ hp => read_writeRegs hm hnodup hp
  simp only [setRegs, List.forall_mem_cons, List.not_mem_nil, false_implies, implies_true, and_true] at hread
  obtain ⟨eyear, emonth, eday, ehour, eminute, esecond⟩ := hread
  rw [rtcRecord, eyear, emonth, eday, ehour, eminute, esecond, hourDecode_hourEncode h12 hpm hne hhour hfits,
    fromBcdMasked_of_kept hyear hmasks.year, fromBcdMasked_of_kept hmonth hmasks.month,
    fromBcdMasked_of_kept hday hmasks.day, fromBcdMasked_of_kept hminute hmasks.minute,
    fromBcdMasked_of_kept hsecond ((secondsByte_and hst r.second).trans hmasks.second)]

/-- Settles O43: RTCGET reads off the registers that RTCSET has written. -/
theorem rtcRoundTrip : Obligations.RtcRoundTrip := by
  intro r s h ha hregs hr hyear hmonth hday hminute hsecond
  obtain ⟨_, t, ht, k⟩ := rtcset_chained h s.cfg.rtcDev hr
  rw [if_pos rfl] at k
  obtain ⟨record, u, hu, l, k', hrecord⟩ := rtcget_chained k.ready s.cfg.rtcDev (by rw [k.cfg]; exact h.rtc_not_ee)
  obtain ⟨_, weekday, rfl⟩ := hrecord (k.scripted_others ha).1 (by rw [k.cfg])
  refine ⟨t, _, weekday, exec_returns_nothing rfl ht, exec_rtcget k'.frame hu, ?_⟩
  rw [k.cfg, k.link.rtc ha, k.frame.resp,
    rtcRecord_rtcAfterSet h.config h.rtcreg_wf hregs hr ⟨hyear, hmonth, hday, hminute, hsecond⟩]

end Sys2Proof.Machine
end

section
/-! The tick-processing step and SEQINIT (43_sequencer.md R193 to R202): each step is one of the runs of HOST lines that
Laws/Sequencer describes, read off the control registers it leaves. -/

namespace Sys2Proof.Machine

/-! ## Control registers, one by one -/

/-- The control registers are equal exactly if each of them is. -/
theorem State.control_eq_iff {t : State} {x : Control} : t.control = x ↔ t.out = x.out ∧ t.outTrace = x.outTrace ∧
    t.tie = x.tie ∧ t.cs = x.cs ∧ t.bc = x.bc ∧ t.bi = x.bi ∧ t.acc = x.acc ∧ t.cur = x.cur := by
  cases x
  simp [State.control]

/-- SEQSTEP is the tick-processing step. -/
theorem exec_seqstep_of_ok {s t : State} (h : seqStep s = .ok () t) : exec .seqstep s = .next t :=
  exec_returns_nothing rfl h

/-- What a whole operation answers is decided by where its HOST lines lead. -/
theorem finish_noResult_congr {m n : Op Unit} {s u : State} (h : m s = n u) :
    finish (noResult m) s = finish (noResult n) u := by
  have hlines : noResult m s = noResult n u := by
    unfold noResult
    rw [bind_apply, bind_apply, h]
  unfold finish
  rw [hlines]

/-! ## SEQINIT (R193) -/

/-- Settles O44. -/
theorem seqinitRewinds : Obligations.SeqinitRewinds :=
  ⟨rfl, fun _ => exec_returns_nothing rfl rfl, exec_returns_nothing rfl rfl, rfl⟩

/-! ## Replay (R198) -/

/-- The bit cursor past a byte's last bit. -/
theorem bi_succ_eq_eight {b : BitVec 4} : b + 1 = 8 ↔ b = 7 := by bv_omega

/-- Between steps the byte under the byte cursor is inside the EEPROM (20_memory.md R61). -/
theorem SequencerRest.bc_lt_eeSize {s : State} (h : SequencerRest s) (hc : configValid s.cfg = true) :
    s.bc.toNat < s.cfg.eeSize := by
  obtain ⟨_, hhigh⟩ := h.inBuffer_bc
  obtain ⟨hcount, _, _, hsize⟩ := configValid_buffer hc
  unfold lastAddr at hhigh
  omega

/-- Settles O48: the step is `stepReplay_bit`, whose byte cursor is `nextReplay`'s past bit 7. -/
theorem seqstepReplaysABit : Obligations.SeqstepReplaysABit := by
  intro s hconfig hrest hph hcs hinp hbi
  obtain ⟨t, ht, hcalm, hcontrol⟩ := stepReplay_bit hinp hbi
  obtain ⟨hout, htrace, htie, hcs', hbc, hbi', hacc, hcur⟩ := State.control_eq_iff.mp hcontrol
  have hcursor : t.bc.toNat = if s.bi = 7 then (if s.bc.toNat = lastAddr s.cfg then s.cfg.first.toNat
      else s.bc.toNat + 1) else s.bc.toNat := by
    rw [hbc]
    simp only [bi_succ_eq_eight, ← nextReplay_toNat hconfig hrest.inBuffer_bc.2]
    exact apply_ite _ _ _ _
  exact ⟨t, exec_seqstep_of_ok ((seqStep_replay hph hcs).trans ht), hcalm.kept.port, hcalm.kept.br,
    ⟨htie, hcalm.kept.tcfg⟩, hcalm.kept.hung, hcalm.kept.resp, hout, htrace, hbi', hcursor, hcs'.trans hcs, hcur, hacc,
    hcalm.kept.pend, .of_eq hcalm.ee,
    fun ha => ⟨hcalm.kept.sameLines ha, (hcalm.scripted ha).1, (hcalm.scripted ha).2.1⟩⟩

/-- Settles O49: the step is `stepReplay_refill`, with one EERD. -/
theorem seqstepRefills : Obligations.SeqstepRefills := by
  intro s h hrest hcs hinp hbi
  obtain ⟨t, ht, hmoved, hcontrol⟩ := stepReplay_refill h hinp hbi (hrest.bc_lt_eeSize h.config)
  obtain ⟨hout, htrace, htie, hcs', hbc, hbi', hacc, hcur⟩ := State.control_eq_iff.mp hcontrol
  exact ⟨t, exec_seqstep_of_ok ((seqStep_replay h.bus.idle hcs).trans ht), hmoved.kept.port, hmoved.kept.br,
    ⟨htie, hmoved.kept.tcfg⟩, hmoved.kept.hung, hmoved.kept.resp, hcur, hout, htrace, hbi', hbc, hcs'.trans hcs, hacc,
    hmoved.kept.pend, .of_eq hmoved.ee, hmoved.ready.bus.idle, hmoved.ready.inflight, hmoved.wire,
    fun ha => ⟨hmoved.kept.sameLines ha, .of_eq (hmoved.rtc ha)⟩⟩

/-! ## Recording (R200) -/

/-- The accumulator after a sample of the level on the input: low is asserted (R191, R200). -/
theorem accumulate_level_getLsbD (s : State) (level : Bool) {j : Nat} (hj : j < 8) :
    (accumulate s (!level)).getLsbD j =
      if j = s.bi.toNat ∧ level = false then true else if s.bi = 0 then false else s.acc.getLsbD j := by
  simp only [accumulate_getLsbD s _ hj, Bool.not_eq_true']

/-- Settles O50: the step is `stepRecording_bit`. -/
theorem seqstepRecordsABit : Obligations.SeqstepRecordsABit := by
  intro s hph hcs hbi
  have hne : s.bi ≠ 7 := by
    intro e
    rw [e] at hbi
    exact absurd hbi (by decide)
  obtain ⟨t, ht, hcalm, hcontrol⟩ := stepRecording_bit hcs hne
  obtain ⟨hout, htrace, htie, hcs', hbc, hbi', hacc, hcur⟩ := State.control_eq_iff.mp hcontrol
  refine ⟨t, exec_seqstep_of_ok ((seqStep_recording hph hcs).trans ht), hcalm.kept.port, hcalm.kept.br,
    ⟨htie, hcalm.kept.tcfg⟩, hcalm.kept.hung, hcalm.kept.resp, hbi', hbc, hcs'.trans hcs, hcur, ⟨hout, htrace⟩,
    hcalm.kept.pend, .of_eq hcalm.ee, fun j hj => ?_,
    fun ha => ⟨hcalm.kept.sameLines ha, (hcalm.scripted ha).1, (hcalm.scripted ha).2.1⟩⟩
  rw [show t.acc = accumulate s (!s.inp) from hacc, accumulate_level_getLsbD s _ hj]

/-- The byte cursor passes LAST exactly behind the byte at LAST (R200). -/
theorem lastAddr_lt_succ_iff {c : Config} (hc : configValid c = true) {bc : Half} (hb : bc.toNat ≤ lastAddr c) :
    lastAddr c < (bc + 1).toNat ↔ bc.toNat = lastAddr c := by
  obtain ⟨_, _, hroom, _⟩ := configValid_buffer hc
  have hsucc : (bc + 1).toNat = bc.toNat + 1 := by
    unfold lastAddr at hb
    bv_omega
  omega

/-- Settles O51: the step is `stepRecording_byte`, with one EEWR and, past LAST, the end action. -/
theorem seqstepStoresAByte : Obligations.SeqstepStoresAByte := by
  intro s h hrest hcs hbi
  obtain ⟨t, ht, hmoved, hcontrol⟩ := stepRecording_byte h hcs hbi (hrest.bc_lt_eeSize h.config)
  rw [ite_cond_congr (propext (lastAddr_lt_succ_iff h.config hrest.inBuffer_bc.2))] at hcontrol
  have hacc : t.acc = accumulate s (!s.inp) := by
    have := congrArg Control.acc hcontrol
    rwa [apply_ite Control.acc, ite_self] at this
  have hcur : t.cur = s.cur := by
    have := congrArg Control.cur hcontrol
    rwa [apply_ite Control.cur, ite_self] at this
  refine ⟨t, exec_seqstep_of_ok ((seqStep_recording h.bus.idle hcs).trans ht), hmoved.kept.port, hmoved.kept.br,
    hmoved.kept.tcfg, hmoved.kept.hung, hmoved.kept.resp, hcur, hmoved.kept.pend, fun j hj => ?_, fun a => ?_,
    hmoved.ready.bus.idle, hmoved.ready.inflight, by rw [hacc]; exact hmoved.wire, fun hlt => ?_, fun hlast => ?_,
    fun ha => ⟨hmoved.kept.sameLines ha, .of_eq (hmoved.rtc ha)⟩⟩
  · rw [hacc, accumulate_level_getLsbD s _ hj, hbi]
    rfl
  · rw [hmoved.ee, hacc, Memory.read_write _ h.memory.1]
  · rw [if_neg (Nat.ne_of_lt hlt)] at hcontrol
    obtain ⟨hout, htrace, htie, hcs', hbc, hbi', _⟩ := State.control_eq_iff.mp hcontrol
    exact ⟨hcs'.trans hcs, hbc, hbi', ⟨hout, htrace⟩, htie⟩
  · rw [if_pos hlast] at hcontrol
    obtain ⟨hout, htrace, htie, hcs', hbc, hbi', _⟩ := State.control_eq_iff.mp hcontrol
    exact ⟨hcs', hbc, hbi', htie, hout, htrace⟩

/-! ## The begin and the end action (R197, R201, R202) -/

/-- A step of the sequencer that performs the begin or the end action: a press in Replay, or an action state. -/
abbrev StepsIntoAction (s : State) : Prop :=
  (s.cs = .replay ∧ s.inp = false) ∨ s.cs = .beginRecording ∨ s.cs = .endRecording

/-- Such a step always returns, with the registers as its action leaves them. -/
theorem seqStep_action {s : State} (hph : s.ph = .idle) (h : StepsIntoAction s) :
    ∃ t, seqStep s = .ok () t ∧ Calm s t ∧ t.control =
      if s.cs = .endRecording then
        { s.control with
          out := false, outTrace := s.outTrace ++ flashTrace 5, tie := true, cs := .replay, bc := s.cfg.first, bi := 8 }
      else
        { s.control with
          out := false, outTrace := s.outTrace ++ flashTrace 3, tie := true, cs := .recording, bc := s.cfg.first,
          bi := 0 } := by
  rcases h with ⟨hcs, hinp⟩ | hcs | hcs
  · rw [seqStep_replay hph hcs, hcs]
    exact stepReplay_press hinp
  · rw [seqStep_beginRecording hph hcs, hcs]
    exact Steers.beginAction s
  · rw [seqStep_endRecording hph hcs, hcs]
    exact Steers.endAction s

/-- The action that a state begins is its masked lines and then those that enable the tick interrupt again. -/
theorem beginAction_eq {cs : Ctl} (h : cs ≠ .endRecording) :
    beginAction = (do maskedAction cs; unmaskInto .recording) := by
  simp only [beginAction, maskedAction, unmaskInto, if_neg h, bind_assoc, Config.beginFlashes]

theorem endAction_eq : endAction = (do maskedAction .endRecording; unmaskInto .replay) := by
  simp only [endAction, maskedAction, unmaskInto, if_true, bind_assoc, Config.endFlashes]

/-- The step begins the action's lines in `actionStart` (R197). -/
theorem seqStep_eq_action {s : State} (hph : s.ph = .idle) (h : StepsIntoAction s) :
    seqStep s = (maskedAction s.cs >>= fun _ =>
      unmaskInto (if s.cs = Ctl.endRecording then .replay else .recording)) (actionStart s) := by
  rcases h with ⟨hcs, hinp⟩ | hcs | hcs
  · rw [seqStep_replay hph hcs, hcs, if_neg Ctl.noConfusion, ← beginAction_eq Ctl.noConfusion, actionStart, if_pos hcs]
    have hsample : sample s = .ok true s := by simp [sample, hinp]
    unfold stepReplay
    rw [bind_of_ok hsample, if_pos rfl]
    exact (bind_of_ok rfl).trans (bind_of_ok (point_apply _))
  · rw [seqStep_beginRecording hph hcs, hcs, if_neg Ctl.noConfusion, ← beginAction_eq Ctl.noConfusion, actionStart,
      if_neg (by rw [hcs]; decide)]
  · rw [seqStep_endRecording hph hcs, hcs, if_pos rfl, ← endAction_eq, actionStart, if_neg (by rw [hcs]; decide)]

/-- The tick interrupt is masked, and PEND is `p`. -/
structure Masked (p : Bool) (s : State) : Prop where
  tie : s.tie = false
  pend : s.pend = p

/-- A masked TIMER has no step (44_tick_timer.md R226). -/
theorem Masked.disabled {p : Bool} {s : State} (h : Masked p s) : tickEnabled s = false := by
  rw [tickEnabled, h.tie, Bool.and_false]

open Op.Maintains in
/-- Whatever the other agents try at a point, no tick becomes pending while TICK is masked. -/
theorem Masked.point (p : Bool) : Op.Maintains (Masked p) (Masked p) point :=
  of_modify State.others fun s h =>
    ⟨s.others_tie.trans h.tie, (State.others_pend_masked h.disabled).trans h.pend⟩

open Op.Maintains in
theorem Masked.flash (p : Bool) (n : Nat) : Op.Maintains (Masked p) (Masked p) (flash n) := by
  have drive (v : Bool) : Op.Maintains (Masked p) (Masked p) (setOut v) := of_modify _ fun _ h => ⟨h.tie, h.pend⟩
  induction n with
  | zero => exact of_pure ()
  | succ n ih =>
    exact of_bind (of_look _) fun _ => of_bind (drive true) fun _ => of_bind (Masked.point p) fun _ =>
      of_bind (drive false) fun _ => of_bind (Masked.point p) fun _ => ih

open Op.Maintains in
/-- The masked lines of an action mask TICK first and set no PEND. -/
theorem maskedAction_leads (cs : Ctl) (p : Bool) :
    Op.Leads (fun s => s.pend = p) (Masked p) (Masked p) (maskedAction cs) :=
  have mask : Op.Leads (fun s => s.pend = p) (Masked p) (Masked p) (setTie false) := .of_modify _ fun _ h => ⟨rfl, h⟩
  have back (i : BitVec 4) : Op.Maintains (Masked p) (Masked p) (rewind i) := of_modify _ fun _ h => ⟨h.tie, h.pend⟩
  mask.bind fun _ => (of_bind (Masked.point p) fun _ => of_bind (Masked.flash p _) fun _ => of_bind (back _) fun _ =>
    Masked.point p).leads

/-- Those lines always return. -/
theorem maskedAction_returns (cs : Ctl) (s : State) : ∃ u, maskedAction cs s = .ok () u := by
  obtain ⟨u, hu, _⟩ := ((Steers.setTie false).bind (Steers.point.bind ((Steers.flash _).bind
    ((Steers.rewind _).bind Steers.point)))) s
  exact ⟨u, hu⟩

/-- Settles O47: the masked lines keep `Masked`, and the whole step is an action that only steers. -/
theorem seqstepActions : Obligations.SeqstepActions := by
  intro s hph h
  refine ⟨?_, ?_⟩
  · obtain ⟨u, hu⟩ := maskedAction_returns s.cs (actionStart s)
    have hmasked : Masked (actionStart s).pend u := by
      have := maskedAction_leads s.cs (actionStart s).pend (actionStart s) rfl
      rwa [hu] at this
    refine ⟨u, hu, hmasked.tie, hmasked.pend, hmasked.disabled, ?_⟩
    rw [exec_eq]
    exact finish_noResult_congr ((seqStep_eq_action hph h).trans (bind_of_ok hu))
  · obtain ⟨t, ht, hcalm, hcontrol⟩ := seqStep_action hph h
    have hshared : t.tie = true ∧ t.bc = s.cfg.first ∧ t.acc = s.acc ∧ t.cur = s.cur ∧ t.out = false := by
      split at hcontrol <;>
        obtain ⟨hout, _, htie, _, hbc, _, hacc, hcur⟩ := State.control_eq_iff.mp hcontrol <;>
        exact ⟨htie, hbc, hacc, hcur, hout⟩
    obtain ⟨htie, hbc, hacc, hcur, hout⟩ := hshared
    refine ⟨t, exec_seqstep_of_ok ht, hcalm.kept.port, hcalm.kept.br, hcalm.kept.tcfg, htie, hcalm.kept.hung,
      hcalm.kept.resp, hbc, hacc, hcur, fun hend => ?_, fun hend => ?_, hout, hcalm.kept.pend, .of_eq hcalm.ee,
      fun ha => ⟨hcalm.kept.sameLines ha, (hcalm.scripted ha).1, (hcalm.scripted ha).2.1⟩⟩
    · rw [if_neg hend] at hcontrol
      obtain ⟨_, htrace, _, hcs, _, hbi, _⟩ := State.control_eq_iff.mp hcontrol
      exact ⟨hcs, hbi, htrace⟩
    · rw [if_pos hend] at hcontrol
      obtain ⟨_, htrace, _, hcs, _, hbi, _⟩ := State.control_eq_iff.mp hcontrol
      exact ⟨hcs, hbi, htrace⟩

end Sys2Proof.Machine
end

section
/-! SEQREINIT (43_sequencer.md R204, R205): the pattern, and the writes between the two acknowledgments. -/

namespace Sys2Proof.Machine

/-! ## The pattern (R205) -/

/-- Every second index, beginning with the first. -/
theorem countP_even_range (n : Nat) : (List.range n).countP (fun i => i % 2 = 0) = (n + 1) / 2 := by
  induction n with
  | zero => rfl
  | succ n ih =>
    rw [List.range_succ, List.countP_append, ih, List.countP_singleton]
    by_cases h : n % 2 = 0
    · rw [if_pos (decide_eq_true h)]
      omega
    · rw [if_neg (by simpa using h)]
      omega

/-- The indices below a bound. -/
theorem countP_lt_range (m n : Nat) : (List.range n).countP (fun i => i < m) = min m n := by
  induction n with
  | zero => exact (Nat.min_zero m).symm
  | succ n ih =>
    rw [List.range_succ, List.countP_append, ih, List.countP_singleton]
    by_cases h : n < m
    · rw [if_pos (decide_eq_true h)]
      omega
    · rw [if_neg (by simpa using h)]
      omega

theorem pattern_byteAlternating {c : Config} (h : c.reinitPattern = .byteAlternating) (i : Nat) :
    pattern c i = if i % 2 = 0 then 0xFF else 0x00 := by
  unfold pattern
  rw [h]

theorem pattern_halves {c : Config} (h : c.reinitPattern = .halves) (i : Nat) :
    pattern c i = if i < (c.count + 1) / 2 then 0xFF else 0x00 := by
  unfold pattern
  rw [h]

/-- Of a byte that is all ones or all zeroes, when it is which. -/
theorem ite_ones_eq_ones_iff {p : Prop} [Decidable p] : (if p then 0xFF else 0x00 : Byte) = 0xFF ↔ p := by
  by_cases h : p <;> simp [h]

/-- The all-ones bytes (R205). -/
theorem countP_pattern_ones (c : Config) :
    (List.range c.count).countP (fun i => pattern c i = 0xFF) = (c.count + 1) / 2 := by
  cases h : c.reinitPattern with
  | byteAlternating =>
    simp only [pattern_byteAlternating h, ite_ones_eq_ones_iff]
    exact countP_even_range c.count
  | halves =>
    simp only [pattern_halves h, ite_ones_eq_ones_iff]
    rw [countP_lt_range]
    omega

/-- Every other byte of the pattern is all zeroes. -/
theorem pattern_eq_zeroes_iff (c : Config) (i : Nat) : pattern c i = 0x00 ↔ ¬ pattern c i = 0xFF := by
  cases h : c.reinitPattern with
  | byteAlternating => by_cases hi : i % 2 = 0 <;> simp [pattern_byteAlternating h, hi]
  | halves => by_cases hi : i < (c.count + 1) / 2 <;> simp [pattern_halves h, hi]

theorem countP_pattern_zeroes (c : Config) :
    (List.range c.count).countP (fun i => pattern c i = 0x00) = c.count / 2 := by
  have hsum := List.length_eq_countP_add_countP (fun i => decide (pattern c i = 0xFF)) (l := List.range c.count)
  have hzeroes : (List.range c.count).countP (fun i => pattern c i = 0x00) =
      (List.range c.count).countP (fun i => ¬ decide (pattern c i = 0xFF) = true) := by
    simp only [pattern_eq_zeroes_iff, decide_eq_true_eq]
  rw [List.length_range, countP_pattern_ones] at hsum
  omega

/-- In a buffer of one byte or two both patterns begin with ones and end with zeroes. -/
theorem pattern_of_count_le_two {c : Config} (hc : c.count ≤ 2) {i : Nat} (hi : i < c.count) :
    pattern c i = if i = 0 then 0xFF else 0x00 := by
  cases h : c.reinitPattern with
  | byteAlternating =>
    rw [pattern_byteAlternating h]
    exact if_congr (by omega) rfl rfl
  | halves =>
    rw [pattern_halves h]
    exact if_congr (by omega) rfl rfl

/-- Settles O45. -/
theorem patternHalves : Obligations.PatternHalves := fun c =>
  ⟨fun i h => pattern_byteAlternating h i, fun i h => pattern_halves h i, countP_pattern_ones c,
    countP_pattern_zeroes c, fun hc _ hi p q =>
      (pattern_of_count_le_two (c := { c with reinitPattern := p }) hc hi).trans
        (pattern_of_count_le_two (c := { c with reinitPattern := q }) hc hi).symm⟩

/-! ## SEQREINIT (R204) -/

/-- The acknowledgment by `n` flashes that leads from `s` to `t` (R192). -/
structure Flashed (n : Nat) (s t : State) : Prop where
  run : flash n s = .ok () t
  calm : Calm s t
  control : t.control = { s.control with
    out := if n = 0 then s.out else false, outTrace := s.outTrace ++ flashTrace n }

theorem flash_flashed (n : Nat) (s : State) : ∃ t, Flashed n s t := by
  obtain ⟨t, ht, hcalm, hcontrol⟩ := Steers.flash n s
  exact ⟨t, ht, hcalm, hcontrol⟩

/-- The fill that leads from `s` to `t`: the buffer holds the pattern, by one EEWR for each byte. -/
structure Filled (s t : State) : Prop where
  run : reinitBuffer s.cfg.count 0 s = .ok () t
  kept : Kept s t
  ready : Ready t
  control : t.control = s.control
  done : t.done = true
  wire : wireSettled t = wireSettled s ++ reinitEvents s.cfg
  rtc : Scripted s → t.rtcreg = s.rtcreg
  ee : ∀ a, t.ee.read a = if s.cfg.first.toNat ≤ a ∧ a ≤ lastAddr s.cfg then pattern s.cfg (a - s.cfg.first.toNat)
    else s.ee.read a

theorem reinitBuffer_filled {s : State} (h : Ready s) : ∃ t, Filled s t := by
  obtain ⟨hcount, _⟩ := configValid_buffer h.config
  obtain ⟨t, ee, ht, hmoved, hcontrol, hdone, hee⟩ := reinitBuffer_moved s.cfg.count 0 h (by omega)
  refine ⟨t, ht, hmoved.kept, hmoved.ready, hcontrol, hdone hcount, ?_, hmoved.rtc, fun a => ?_⟩
  · rw [reinitEvents_eq]
    exact hmoved.wire
  · rw [hmoved.ee, hee]
    unfold lastAddr
    exact if_congr (by omega) rfl rfl

/-- The three parts of SEQREINIT from `s`, in their order, before its last lines. -/
structure ReinitParts (s u v w : State) : Prop where
  begun : Flashed 3 s u
  filled : Filled u v
  ended : Flashed 5 v w

theorem exists_reinitParts {s : State} (h : Ready s) : ∃ u v w, ReinitParts s u v w := by
  obtain ⟨u, hbegun⟩ := flash_flashed 3 s
  obtain ⟨v, hfilled⟩ := reinitBuffer_filled (hbegun.calm.ready h)
  obtain ⟨w, hended⟩ := flash_flashed 5 v
  exact ⟨u, v, w, hbegun, hfilled, hended⟩

namespace ReinitParts

variable {s u v w : State}

theorem kept (p : ReinitParts s u v w) : Kept s w := (p.begun.calm.kept.trans p.filled.kept).trans p.ended.calm.kept

theorem ready (p : ReinitParts s u v w) : Ready w := p.ended.calm.ready p.filled.ready

theorem control (p : ReinitParts s u v w) : w.control =
    { s.control with out := false, outTrace := s.outTrace ++ flashTrace 3 ++ flashTrace 5 } := by
  have hv : v.control = { s.control with out := false, outTrace := s.outTrace ++ flashTrace 3 } :=
    p.filled.control.trans p.begun.control
  have htrace : v.outTrace = s.outTrace ++ flashTrace 3 := congrArg Control.outTrace hv
  rw [p.ended.control, hv, htrace]
  rfl

theorem wire (p : ReinitParts s u v w) : wireSettled w = wireSettled s ++ reinitEvents s.cfg := by
  rw [p.ended.calm.wire, p.filled.wire, p.begun.calm.wire, p.begun.calm.kept.cfg]

theorem rtc (p : ReinitParts s u v w) (ha : Scripted s) : w.rtcreg = s.rtcreg := by
  have hu := p.begun.calm.kept.agenda ha
  obtain ⟨_, _, hbegun⟩ := p.begun.calm.scripted ha
  obtain ⟨_, _, hended⟩ := p.ended.calm.scripted (p.filled.kept.agenda hu)
  rw [hended, p.filled.rtc hu, hbegun]

theorem ee (p : ReinitParts s u v w) (a : Nat) : w.ee.read a =
    if s.cfg.first.toNat ≤ a ∧ a ≤ lastAddr s.cfg then pattern s.cfg (a - s.cfg.first.toNat) else s.ee.read a := by
  rw [p.ended.calm.ee, p.filled.ee, p.begun.calm.ee, p.begun.calm.kept.cfg]

/-- The state that SEQREINIT's last lines leave, those of SEQINIT. -/
theorem seqReinit_eq (p : ReinitParts s u v w) (hph : s.ph = .idle) :
    seqReinit s = .ok () { w with cs := .replay, bc := s.cfg.first, bi := 8 } := by
  have hidle : requireIdle s = .ok () s := by simp [requireIdle, bind_apply, hph]
  have hbegun : flash Config.beginFlashes s = .ok () u := p.begun.run
  have hended : flash Config.endFlashes v = .ok () w := p.ended.run
  unfold seqReinit
  rw [bind_of_ok hidle, bind_of_ok hbegun, bind_of_ok (look_apply _ u), bind_of_ok p.filled.run, bind_of_ok hended,
    ← p.kept.cfg]
  rfl

theorem exec_seqreinit (p : ReinitParts s u v w) (hph : s.ph = .idle) :
    exec .seqreinit s = .next { w with cs := .replay, bc := s.cfg.first, bi := 8 } :=
  exec_returns_nothing rfl (p.seqReinit_eq hph)

end ReinitParts

/-- Settles O46: the parts one after the other, with SEQINIT's lines at the end, also behind the boot gate. -/
theorem seqreinitCompletes : Obligations.SeqreinitCompletes := by
  intro s h
  obtain ⟨u, v, w, p⟩ := exists_reinitParts h
  obtain ⟨hout, htrace, htie, _, _, _, hacc, hcur⟩ := State.control_eq_iff.mp p.control
  refine ⟨⟨u, v, w, p.begun.run, congrArg Control.outTrace p.begun.control, p.begun.calm.wire, .of_eq p.begun.calm.ee,
      by rw [← p.begun.calm.kept.cfg]; exact p.filled.run, congrArg Control.outTrace p.filled.control,
      by rw [← p.begun.calm.kept.cfg]; exact p.filled.wire, p.ended.run, congrArg Control.outTrace p.ended.control,
      p.ended.calm.wire, .of_eq p.ended.calm.ee, p.exec_seqreinit h.bus.idle⟩,
    ⟨_, p.exec_seqreinit h.bus.idle, ⟨p.kept.cfg, p.kept.stream⟩, p.kept.br, ⟨htie, p.kept.tcfg⟩, p.kept.hung,
      p.kept.resp, p.ready.bus.idle, p.ready.inflight, p.ended.calm.done.trans p.filled.done, p.ee, rfl, rfl, rfl,
      hacc, hcur, hout, htrace, p.wire, p.kept.pend,
      fun ha => ⟨⟨(p.kept.sameLines ha).pend, (p.kept.sameLines ha).inp⟩, .of_eq (p.rtc ha)⟩⟩,
    bootGate_released, fun hinp => ?_⟩
  obtain ⟨_, _, _, q⟩ := exists_reinitParts h.others
  exact ⟨_, (bootGate_asserted hinp).trans (q.seqReinit_eq h.others.bus.idle), q.exec_seqreinit h.others.bus.idle⟩

end Sys2Proof.Machine
end

section
/-! Runs of the sequencer, and the replay (43_sequencer.md R199): what the state is after some ticks, carried from one
tick to the next. -/

namespace Sys2Proof.Machine

/-! ## One tick more -/

/-- SETIN (44_tick_timer.md R230). -/
theorem exec_setin (level : Bool) (s : State) : exec (.setin level) s = .next { s with inp := level } :=
  exec_returns_nothing rfl rfl

/-- The input's level is no part of what a transaction needs. -/
theorem Ready.setin {s : State} (h : Ready s) (level : Bool) : Ready { s with inp := level } :=
  .of_quiet ⟨h.quiet.sound.of_same rfl rfl rfl rfl rfl rfl rfl, h.quiet.flight⟩ h.running ⟨h.bus.idle, h.bus.init⟩
    ⟨h.oracles.live, h.oracles.ideal, h.oracles.starts⟩

/-- A run followed by one more tick. -/
theorem tickRun_concat {levels : List Bool} {s t u : State} {level : Bool} (h : tickRun levels s = .next t)
    (hstep : seqStep { t with inp := level } = .ok () u) : tickRun (levels ++ [level]) s = .next u := by
  induction levels generalizing s with
  | nil =>
    cases h
    simp only [List.nil_append, tickRun, exec_setin, exec_seqstep_of_ok hstep]
  | cons first rest ih =>
    simp only [List.cons_append, tickRun, exec_setin] at h ⊢
    cases hfirst : exec .seqstep { s with inp := first } with
    | next v =>
      rw [hfirst] at h
      exact ih h
    | fault r => rw [hfirst] at h; cases h
    | refused r => rw [hfirst] at h; cases h

/-! ## Replay (R199) -/

/-- The byte fetched for the `j`-th time lies `j % COUNT` bytes behind FIRST, with no wrap at 16 bits. -/
theorem replayAddress_toNat {c : Config} (hc : configValid c = true) (j : Nat) :
    (replayAddress c j).toNat = c.first.toNat + j % c.count := by
  obtain ⟨hcount, _, hroom, _⟩ := configValid_buffer hc
  have := Nat.mod_lt j hcount
  unfold replayAddress
  rw [BitVec.toNat_add, BitVec.toNat_ofNat]
  omega

/-- Every COUNT fetches the byte is that at FIRST again. -/
theorem replayAddress_of_mod_eq_zero {c : Config} {j : Nat} (h : j % c.count = 0) : replayAddress c j = c.first := by
  unfold replayAddress
  rw [h]
  exact BitVec.add_zero c.first

theorem replayAddress_le_lastAddr {c : Config} (hc : configValid c = true) (j : Nat) :
    (replayAddress c j).toNat ≤ lastAddr c := by
  obtain ⟨hcount, _⟩ := configValid_buffer hc
  have := Nat.mod_lt j hcount
  rw [replayAddress_toNat hc]
  unfold lastAddr
  omega

theorem replayAddress_lt_eeSize {c : Config} (hc : configValid c = true) (j : Nat) :
    (replayAddress c j).toNat < c.eeSize := by
  obtain ⟨hcount, _, _, hsize⟩ := configValid_buffer hc
  have := replayAddress_le_lastAddr hc j
  unfold lastAddr at this
  omega

/-- Behind the byte of one fetch comes that of the next, at FIRST again past LAST (R198). -/
theorem nextReplay_replayAddress {c : Config} (hc : configValid c = true) (j : Nat) :
    nextReplay c (replayAddress c j) = replayAddress c (j + 1) := by
  obtain ⟨hcount, _⟩ := configValid_buffer hc
  have hlt := Nat.mod_lt j hcount
  apply BitVec.eq_of_toNat_eq
  rw [nextReplay_toNat hc (replayAddress_le_lastAddr hc j), replayAddress_toNat hc, replayAddress_toNat hc, lastAddr,
    ← Nat.mod_add_mod j c.count 1]
  by_cases hend : j % c.count + 1 = c.count
  · rw [hend, Nat.mod_self, if_pos (by omega), Nat.add_zero]
  · rw [Nat.mod_eq_of_lt (by omega : j % c.count + 1 < c.count), if_neg (by omega), Nat.add_assoc]

/-- The transactions of the first `m` fetches, each with its stop. -/
def replayFetches (c : Config) (ee : Memory) (m : Nat) : List WireEvent :=
  (List.range m).flatMap fun j =>
    readEvents c.eeDev true [hiByte (replayAddress c j), loByte (replayAddress c j)]
      (ee.read (replayAddress c j).toNat) ++ [.p]

theorem replayFetches_succ (c : Config) (ee : Memory) (m : Nat) : replayFetches c ee (m + 1) =
    replayFetches c ee m ++ (readEvents c.eeDev true [hiByte (replayAddress c m), loByte (replayAddress c m)]
      (ee.read (replayAddress c m).toNat) ++ [.p]) := by
  unfold replayFetches
  rw [List.range_succ, List.flatMap_append, List.flatMap_singleton]

/-- The cursors after `n` ticks of a replay: past a byte's last bit the next byte is to be fetched, otherwise the byte
under the byte cursor is the current one. -/
def ReplayCursor (s t : State) (n : Nat) : Prop :=
  (n % 8 = 0 ∧ t.bi = 8) ∨
    (n % 8 ≠ 0 ∧ t.bi.toNat = n % 8 ∧ t.cur = s.ee.read (s.cfg.first.toNat + n / 8 % s.cfg.count))

/-- What `n` ticks of a replay from `s` have led to. -/
structure Replayed (s t : State) (n : Nat) : Prop where
  ready : Ready t
  scripted : Scripted t
  cfg : t.cfg = s.cfg
  ee : t.ee = s.ee
  outTrace : t.outTrace = s.outTrace ++ (List.range n).map (sequenceBit s.cfg s.ee)
  wire : wireSettled t = wireSettled s ++ replayFetches s.cfg s.ee ((n + 7) / 8)
  cs : t.cs = .replay
  bc : t.bc = replayAddress s.cfg (n / 8)
  cursor : ReplayCursor s t n

/-- The start of a replay. -/
theorem Replayed.start {s : State} (h : Ready s) (ha : Scripted s) (hcs : s.cs = .replay) (hbc : s.bc = s.cfg.first)
    (hbi : s.bi = 8) : Replayed s s 0 where
  ready := h
  scripted := ha
  cfg := rfl
  ee := rfl
  outTrace := (List.append_nil _).symm
  wire := (List.append_nil _).symm
  cs := hcs
  bc := hbc.trans (replayAddress_of_mod_eq_zero (by rw [Nat.zero_div, Nat.zero_mod])).symm
  cursor := .inl ⟨rfl, hbi⟩

/-- The level on the input is no part of it. -/
theorem Replayed.setin {s t : State} {n : Nat} (r : Replayed s t n) (level : Bool) :
    Replayed s { t with inp := level } n :=
  ⟨r.ready.setin level, r.scripted, r.cfg, r.ee, r.outTrace, r.wire, r.cs, r.bc, r.cursor⟩

theorem outTrace_concat_sequenceBit {c : Config} {ee : Memory} {trace : List Bool} {n : Nat} {b : Bool}
    (h : b = sequenceBit c ee n) : (trace ++ (List.range n).map (sequenceBit c ee)) ++ [b] =
      trace ++ (List.range (n + 1)).map (sequenceBit c ee) := by
  rw [h, List.range_succ, List.map_append, List.map_singleton, List.append_assoc]

/-- The tick of a byte's bit 0 fetches the byte. -/
theorem Replayed.step_refill {s t : State} {n : Nat} (r : Replayed s t n) (hinp : t.inp = true) (hn : n % 8 = 0)
    (hbi : t.bi = 8) : ∃ u, seqStep t = .ok () u ∧ Replayed s u (n + 1) := by
  have hconfig : configValid s.cfg = true := r.cfg ▸ r.ready.config
  have hin : t.bc.toNat < t.cfg.eeSize := by
    rw [r.bc, r.cfg]
    exact replayAddress_lt_eeSize hconfig _
  have hbyte : t.ee.read t.bc.toNat = s.ee.read (s.cfg.first.toNat + n / 8 % s.cfg.count) := by
    rw [r.ee, r.bc, replayAddress_toNat hconfig]
  have hdiv : (n + 1) / 8 = n / 8 := by omega
  obtain ⟨u, hu, hmoved, hcontrol⟩ := stepReplay_refill r.ready hinp hbi hin
  obtain ⟨_, htrace, _, hcs, hbc, hbi', _, hcur⟩ := State.control_eq_iff.mp hcontrol
  refine ⟨u, (seqStep_replay r.ready.bus.idle r.cs).trans hu, hmoved.ready, hmoved.kept.agenda r.scripted,
    hmoved.kept.cfg.trans r.cfg, hmoved.ee.trans r.ee, ?_, ?_, hcs.trans r.cs, ?_, .inr ⟨by omega, ?_, ?_⟩⟩
  · refine htrace.trans ?_
    rw [r.outTrace, outTrace_concat_sequenceBit]
    rw [sequenceBit, hn, hbyte]
  · refine hmoved.wire.trans ?_
    have hfetch : (n + 1 + 7) / 8 = (n + 7) / 8 + 1 := by omega
    have hindex : (n + 7) / 8 = n / 8 := by omega
    rw [r.wire, hfetch, replayFetches_succ, hindex, ← r.bc, ← r.cfg, ← r.ee, List.append_assoc, List.append_assoc]
  · rw [hdiv]
    exact hbc.trans r.bc
  · rw [hbi', show (n + 1) % 8 = 1 by omega]
    rfl
  · rw [hdiv]
    exact hcur.trans hbyte

/-- Every other tick drives a bit of the current byte, and the last one moves the byte cursor on. -/
theorem Replayed.step_bit {s t : State} {n : Nat} (r : Replayed s t n) (hinp : t.inp = true) (hn : n % 8 ≠ 0)
    (hbi : t.bi.toNat = n % 8) (hcur : t.cur = s.ee.read (s.cfg.first.toNat + n / 8 % s.cfg.count)) :
    ∃ u, seqStep t = .ok () u ∧ Replayed s u (n + 1) := by
  have hconfig : configValid s.cfg = true := r.cfg ▸ r.ready.config
  have hlt : n % 8 < 8 := Nat.mod_lt n (by decide)
  have hne : t.bi ≠ 8 := by bv_omega
  obtain ⟨u, hu, hcalm, hcontrol⟩ := stepReplay_bit hinp hne
  obtain ⟨_, htrace, _, hcs, hbc, hbi', _, hcur'⟩ := State.control_eq_iff.mp hcontrol
  have hsucc : u.bi.toNat = n % 8 + 1 := by
    rw [hbi', ← hbi]
    exact bi_succ_toNat (by omega)
  refine ⟨u, (seqStep_replay r.ready.bus.idle r.cs).trans hu, hcalm.ready r.ready,
    hcalm.kept.agenda r.scripted, hcalm.kept.cfg.trans r.cfg, hcalm.ee.trans r.ee, ?_, ?_, hcs.trans r.cs, ?_, ?_⟩
  · refine htrace.trans ?_
    rw [r.outTrace, outTrace_concat_sequenceBit]
    rw [sequenceBit, hbi, hcur]
  · rw [show (n + 1 + 7) / 8 = (n + 7) / 8 by omega]
    exact hcalm.wire.trans r.wire
  · refine hbc.trans ?_
    show (if t.bi + 1 = 8 then nextReplay t.cfg t.bc else t.bc) = _
    rw [r.cfg, r.bc, nextReplay_replayAddress hconfig]
    by_cases hlast : n % 8 = 7
    · rw [if_pos (by bv_omega), show (n + 1) / 8 = n / 8 + 1 by omega]
    · rw [if_neg (by bv_omega), show (n + 1) / 8 = n / 8 by omega]
  · by_cases hlast : n % 8 = 7
    · exact .inl ⟨by omega, by bv_omega⟩
    · refine .inr ⟨by omega, by omega, ?_⟩
      rw [show (n + 1) / 8 = n / 8 by omega]
      exact hcur'.trans hcur

theorem Replayed.step {s t : State} {n : Nat} (r : Replayed s t n) (hinp : t.inp = true) :
    ∃ u, seqStep t = .ok () u ∧ Replayed s u (n + 1) := by
  rcases r.cursor with ⟨hn, hbi⟩ | ⟨hn, hbi, hcur⟩
  · exact r.step_refill hinp hn hbi
  · exact r.step_bit hinp hn hbi hcur

theorem tickRun_replayed {s : State} (h : Replayed s s 0) (n : Nat) :
    ∃ t, tickRun (List.replicate n true) s = .next t ∧ Replayed s t n := by
  induction n with
  | zero => exact ⟨s, rfl, h⟩
  | succ n ih =>
    obtain ⟨t, ht, r⟩ := ih
    obtain ⟨u, hu, r'⟩ := (r.setin true).step rfl
    rw [List.replicate_succ']
    exact ⟨u, tickRun_concat ht hu, r'⟩

/-- After whole passes over the buffer the cursors are back at the start (R199). -/
theorem Replayed.pass {s t : State} {n : Nat} (r : Replayed s t n) (hn : n % (8 * s.cfg.count) = 0) :
    t.bc = s.cfg.first ∧ t.bi = 8 := by
  obtain ⟨k, rfl⟩ := Nat.dvd_of_mod_eq_zero hn
  rw [Nat.mul_assoc] at r
  have hbc : t.bc = s.cfg.first := by
    rw [r.bc, Nat.mul_div_cancel_left _ (by decide), replayAddress_of_mod_eq_zero (Nat.mul_mod_right _ _)]
  rcases r.cursor with ⟨_, hbi⟩ | ⟨hne, _⟩
  · exact ⟨hbc, hbi⟩
  · exact absurd (Nat.mul_mod_right 8 _) hne

/-- Settles O52, by induction on the number of ticks with `Replayed`. -/
theorem replayPass : Obligations.ReplayPass := by
  intro n s h ha hcs hbc hbi
  obtain ⟨t, ht, r⟩ := tickRun_replayed (.start h ha hcs hbc hbi) n
  exact ⟨t, ht, r.outTrace, r.wire, .of_eq r.ee, r.cs, r.pass⟩

end Sys2Proof.Machine
end

section
/-! A recording (43_sequencer.md R200, R203, 20_memory.md R63): the accumulator collects the samples of a byte, and
every eighth tick stores it. -/

namespace Sys2Proof.Machine

/-! ## The samples of a byte -/

/-- The byte holds, from bit 0 on, the samples of `levels` from `8 * k` on, `n` of them; low is asserted. -/
def HoldsSamples (levels : List Bool) (k n : Nat) (b : Byte) : Prop :=
  ∀ i < n, ∃ level, levels[8 * k + i]? = some level ∧ b.getLsbD i = !level

/-- As in the accumulator, whose bits past the samples are clear once it has been zeroed at bit 0 (R200). -/
structure Collects (levels : List Bool) (k n : Nat) (b : Byte) : Prop where
  holds : HoldsSamples levels k n b
  clear : 0 < n → ∀ i, n ≤ i → i < 8 → b.getLsbD i = false

/-- No sample is collected yet, whatever the accumulator holds. -/
theorem Collects.none (levels : List Bool) (k : Nat) (b : Byte) : Collects levels k 0 b :=
  ⟨fun _ hi => absurd hi (Nat.not_lt_zero _), fun hn => absurd hn (Nat.lt_irrefl 0)⟩

/-- A further sample does not move the ones before it. -/
theorem HoldsSamples.concat {levels : List Bool} {k n : Nat} {b : Byte} (h : HoldsSamples levels k n b) (x : Bool) :
    HoldsSamples (levels ++ [x]) k n b := by
  intro i hi
  obtain ⟨level, hlevel, hbit⟩ := h i hi
  obtain ⟨hlt, _⟩ := List.getElem?_eq_some_iff.mp hlevel
  exact ⟨level, (List.getElem?_append_left hlt).trans hlevel, hbit⟩

/-- The sample of the level on the input joins the ones collected (R200). -/
theorem Collects.accumulate {levels : List Bool} {k n : Nat} {t : State} (h : Collects levels k n t.acc)
    (hlen : levels.length = 8 * k + n) (hbi : t.bi.toNat = n) (hn : n < 8) :
    Collects (levels ++ [t.inp]) k (n + 1) (accumulate t (!t.inp)) := by
  have hzero : t.bi = 0 ↔ n = 0 := by bv_omega
  have hbit : ∀ i < 8, (Machine.accumulate t (!t.inp)).getLsbD i =
      if i = n ∧ t.inp = false then true else if n = 0 then false else t.acc.getLsbD i := fun i hi => by
    simp only [accumulate_level_getLsbD t t.inp hi, hbi, hzero]
  refine ⟨fun i hi => ?_, fun _ i hle hi => ?_⟩
  · by_cases hlast : i = n
    · refine ⟨t.inp, by rw [hlast, ← hlen, List.getElem?_concat_length], ?_⟩
      rw [hbit i (by omega)]
      cases t.inp with
      | false => exact if_pos ⟨hlast, rfl⟩
      | true =>
        rw [if_neg (fun e => Bool.noConfusion e.2)]
        by_cases h0 : n = 0
        · exact if_pos h0
        · exact (if_neg h0).trans (h.clear (by omega) i (by omega) (by omega))
    · obtain ⟨level, hlevel, hold⟩ := h.holds.concat t.inp i (by omega)
      refine ⟨level, hlevel, ?_⟩
      rw [hbit i (by omega), if_neg (fun e => hlast e.1), if_neg (by omega), hold]
  · rw [hbit i hi, if_neg (fun e => by omega)]
    by_cases h0 : n = 0
    · exact if_pos h0
    · exact (if_neg h0).trans (h.clear (by omega) i (by omega) hi)

/-! ## What a recording has led to -/

/-- The samples of the complete bytes are stored from FIRST on, and no other byte of the EEPROM has changed. -/
structure Stored (s t : State) (levels : List Bool) : Prop where
  bytes : ∀ k < levels.length / 8, HoldsSamples levels k 8 (t.ee.read (s.cfg.first.toNat + k))
  others : ∀ a, a < s.cfg.first.toNat ∨ s.cfg.first.toNat + levels.length / 8 ≤ a → t.ee.read a = s.ee.read a

/-- A sample that completes no byte stores nothing. -/
theorem Stored.concat {s t u : State} {levels : List Bool} (h : Stored s t levels) (hlen : levels.length % 8 ≠ 7)
    (hee : u.ee = t.ee) (x : Bool) : Stored s u (levels ++ [x]) := by
  have hdiv : (levels ++ [x]).length / 8 = levels.length / 8 := by
    rw [List.length_append, List.length_singleton]
    omega
  refine ⟨fun k hk => ?_, fun a ha => ?_⟩
  · rw [hee]
    exact (h.bytes k (hdiv ▸ hk)).concat x
  · rw [hee]
    exact h.others a (hdiv ▸ ha)

/-- A byte that its eighth sample completes is stored behind the ones before it. -/
theorem Stored.concat_byte {s t u : State} {levels : List Bool} {x : Bool} {b : Byte} (h : Stored s t levels)
    (hlen : levels.length % 8 = 7) (hwf : t.ee.wf = true)
    (hee : u.ee = t.ee.write (s.cfg.first.toNat + levels.length / 8) b)
    (hb : HoldsSamples (levels ++ [x]) (levels.length / 8) 8 b) : Stored s u (levels ++ [x]) := by
  have hdiv : (levels ++ [x]).length / 8 = levels.length / 8 + 1 := by
    rw [List.length_append, List.length_singleton]
    omega
  refine ⟨fun k hk => ?_, fun a ha => ?_⟩
  · rw [hdiv] at hk
    rw [hee, Memory.read_write _ hwf]
    by_cases hlast : k = levels.length / 8
    · rw [if_pos (by omega), hlast]
      exact hb
    · rw [if_neg (by omega)]
      exact (h.bytes k (by omega)).concat x
  · rw [hdiv] at ha
    rw [hee, Memory.read_write_other _ hwf _ _ _ (by omega)]
    exact h.others a (by omega)

/-- What the ticks of a recording from `s`, with the input at `levels`, have led to while it goes on. -/
structure Recording (s t : State) (levels : List Bool) : Prop where
  ready : Ready t
  scripted : Scripted t
  cfg : t.cfg = s.cfg
  cs : t.cs = .recording
  bc : t.bc.toNat = s.cfg.first.toNat + levels.length / 8
  bi : t.bi.toNat = levels.length % 8
  outTrace : t.outTrace = s.outTrace
  acc : Collects levels (levels.length / 8) (levels.length % 8) t.acc
  stored : Stored s t levels

/-- What they have led to when the buffer is full. -/
structure Recorded (s t : State) (levels : List Bool) : Prop where
  cs : t.cs = .replay
  bc : t.bc = s.cfg.first
  bi : t.bi = 8
  outTrace : t.outTrace = s.outTrace ++ flashTrace 5
  stored : Stored s t levels

/-- The start of a recording. -/
theorem Recording.start {s : State} (h : Ready s) (ha : Scripted s) (hcs : s.cs = .recording)
    (hbc : s.bc = s.cfg.first) (hbi : s.bi = 0) : Recording s s [] where
  ready := h
  scripted := ha
  cfg := rfl
  cs := hcs
  bc := congrArg BitVec.toNat hbc
  bi := congrArg BitVec.toNat hbi
  outTrace := rfl
  acc := .none [] 0 s.acc
  stored := ⟨fun _ hk => absurd hk (Nat.not_lt_zero _), fun _ _ => rfl⟩

section Steps

variable {s t : State} {levels : List Bool}

/-- The level on the input is no part of it. -/
theorem Recording.setin (r : Recording s t levels) (level : Bool) : Recording s { t with inp := level } levels :=
  ⟨r.ready.setin level, r.scripted, r.cfg, r.cs, r.bc, r.bi, r.outTrace, r.acc, ⟨r.stored.bytes, r.stored.others⟩⟩

/-- The sample that this tick takes joins the ones collected. -/
theorem Recording.collects (r : Recording s t levels) : Collects (levels ++ [t.inp]) (levels.length / 8)
    (levels.length % 8 + 1) (accumulate t (!t.inp)) :=
  r.acc.accumulate (by omega) r.bi (Nat.mod_lt _ (by decide))

/-- A tick that completes no byte. -/
theorem Recording.step_bit (r : Recording s t levels) (hlen : levels.length % 8 ≠ 7) :
    ∃ u, seqStep t = .ok () u ∧ Recording s u (levels ++ [t.inp]) := by
  have hlt : levels.length % 8 < 8 := Nat.mod_lt _ (by decide)
  have hbi : t.bi.toNat = levels.length % 8 := r.bi
  have hlength : (levels ++ [t.inp]).length = levels.length + 1 := List.length_append
  have hdiv : (levels.length + 1) / 8 = levels.length / 8 := by omega
  have hmod : (levels.length + 1) % 8 = levels.length % 8 + 1 := by omega
  obtain ⟨u, hu, hcalm, hcontrol⟩ := stepRecording_bit r.cs (by bv_omega)
  obtain ⟨_, htrace, _, hcs, hbc, hbi', hacc, _⟩ := State.control_eq_iff.mp hcontrol
  refine ⟨u, (seqStep_recording r.ready.bus.idle r.cs).trans hu,
    { ready := hcalm.ready r.ready
      scripted := hcalm.kept.agenda r.scripted
      cfg := hcalm.kept.cfg.trans r.cfg
      cs := hcs.trans r.cs
      bc := ?_
      bi := ?_
      outTrace := htrace.trans r.outTrace
      acc := ?_
      stored := r.stored.concat hlen hcalm.ee _ }⟩
  · rw [hlength, hdiv]
    exact (congrArg BitVec.toNat hbc).trans r.bc
  · rw [hlength, hmod, hbi', bi_succ_toNat (by omega), hbi]
  · rw [hlength, hdiv, hmod, show u.acc = accumulate t (!t.inp) from hacc]
    exact r.collects

/-- A tick that completes a byte stores it; it goes on, or ends the recording behind the byte at LAST. -/
theorem Recording.step_byte (r : Recording s t levels) (hlen : levels.length % 8 = 7)
    (hroom : levels.length < 8 * s.cfg.count) :
    ∃ u, seqStep t = .ok () u ∧
      if levels.length + 1 = 8 * s.cfg.count then Recorded s u (levels ++ [t.inp])
      else Recording s u (levels ++ [t.inp]) := by
  obtain ⟨hcount, _, hbuffer, hsize⟩ := configValid_buffer (r.cfg ▸ r.ready.config : configValid s.cfg = true)
  have hbi : t.bi = 7 := BitVec.eq_of_toNat_eq (r.bi.trans hlen)
  have hbc : t.bc.toNat = s.cfg.first.toNat + levels.length / 8 := r.bc
  have hin : t.bc.toNat < t.cfg.eeSize := by
    rw [r.cfg]
    omega
  have hend : lastAddr t.cfg < (t.bc + 1).toNat ↔ levels.length + 1 = 8 * s.cfg.count := by
    have hle : t.bc.toNat ≤ lastAddr t.cfg := by
      rw [r.cfg]
      unfold lastAddr
      omega
    rw [lastAddr_lt_succ_iff r.ready.config hle, r.cfg]
    unfold lastAddr
    omega
  have hlength : (levels ++ [t.inp]).length = levels.length + 1 := List.length_append
  have hdiv : (levels.length + 1) / 8 = levels.length / 8 + 1 := by omega
  have hmod : (levels.length + 1) % 8 = 0 := by omega
  have hbyte := r.collects.holds
  rw [hlen] at hbyte
  obtain ⟨u, hu, hmoved, hcontrol⟩ := stepRecording_byte r.ready r.cs hbi hin
  have hstored : Stored s u (levels ++ [t.inp]) :=
    r.stored.concat_byte hlen r.ready.memory.1 (by rw [hmoved.ee, hbc]) hbyte
  rw [ite_cond_congr (propext hend)] at hcontrol
  refine ⟨u, (seqStep_recording r.ready.bus.idle r.cs).trans hu, ?_⟩
  by_cases hlast : levels.length + 1 = 8 * s.cfg.count
  · rw [if_pos hlast] at hcontrol ⊢
    obtain ⟨_, htrace, _, hcs, hbc', hbi', _⟩ := State.control_eq_iff.mp hcontrol
    exact ⟨hcs, hbc'.trans (congrArg Config.first r.cfg), hbi', by rw [htrace, r.outTrace], hstored⟩
  · rw [if_neg hlast] at hcontrol ⊢
    obtain ⟨_, htrace, _, hcs, hbc', hbi', _⟩ := State.control_eq_iff.mp hcontrol
    exact
      { ready := hmoved.ready
        scripted := hmoved.kept.agenda r.scripted
        cfg := hmoved.kept.cfg.trans r.cfg
        cs := hcs.trans r.cs
        bc := by rw [hlength, hdiv, hbc']; bv_omega
        bi := by rw [hlength, hmod, hbi']; rfl
        outTrace := htrace.trans r.outTrace
        acc := by rw [hlength, hmod]; exact .none _ _ u.acc
        stored := hstored }

/-- A tick before the buffer is full. -/
theorem Recording.step (r : Recording s t levels) (hroom : levels.length + 1 < 8 * s.cfg.count) :
    ∃ u, seqStep t = .ok () u ∧ Recording s u (levels ++ [t.inp]) := by
  by_cases hlen : levels.length % 8 = 7
  · obtain ⟨u, hu, hr⟩ := r.step_byte hlen (by omega)
    rw [if_neg (by omega)] at hr
    exact ⟨u, hu, hr⟩
  · exact r.step_bit hlen

/-- The tick that fills the buffer. -/
theorem Recording.step_last (r : Recording s t levels) (hlast : levels.length + 1 = 8 * s.cfg.count) :
    ∃ u, seqStep t = .ok () u ∧ Recorded s u (levels ++ [t.inp]) := by
  obtain ⟨u, hu, hr⟩ := r.step_byte (by omega) (by omega)
  rw [if_pos hlast] at hr
  exact ⟨u, hu, hr⟩

end Steps

/-! ## Whole recordings -/

theorem tickRun_recording {s : State} (h : Recording s s []) (levels : List Bool)
    (hroom : levels.length < 8 * s.cfg.count) : ∃ t, tickRun levels s = .next t ∧ Recording s t levels := by
  induction levels using List.reverseRecOn with
  | nil => exact ⟨s, rfl, h⟩
  | append_singleton levels x ih =>
    rw [List.length_append, List.length_singleton] at hroom
    obtain ⟨t, ht, r⟩ := ih (by omega)
    obtain ⟨u, hu, r'⟩ := (r.setin x).step hroom
    exact ⟨u, tickRun_concat ht hu, r'⟩

theorem tickRun_recorded {s : State} (h : Recording s s []) {levels : List Bool} (hne : levels ≠ [])
    (hfull : levels.length = 8 * s.cfg.count) : ∃ t, tickRun levels s = .next t ∧ Recorded s t levels := by
  obtain ⟨before, x, rfl⟩ := (List.eq_nil_or_concat' levels).resolve_left hne
  rw [List.length_append, List.length_singleton] at hfull
  obtain ⟨t, ht, r⟩ := tickRun_recording h before (by omega)
  obtain ⟨u, hu, r'⟩ := (r.setin x).step_last hfull
  exact ⟨u, tickRun_concat ht hu, r'⟩

/-- Settles O53, by induction on the levels with `Recording`, the last tick apart. -/
theorem recordingStoresTheSamples : Obligations.RecordingStoresTheSamples := by
  intro levels s h ha hcs hbc hbi hle
  have hstart := Recording.start h ha hcs hbc hbi
  obtain ⟨hcount, _⟩ := configValid_buffer h.config
  rcases Nat.lt_or_eq_of_le hle with hroom | hfull
  · obtain ⟨t, ht, r⟩ := tickRun_recording hstart levels hroom
    exact ⟨t, ht, fun _ => ⟨r.cs, r.bc, r.bi, r.outTrace⟩, fun hfull => absurd hfull (Nat.ne_of_lt hroom),
      fun k i hk => r.stored.bytes k hk i, r.stored.others⟩
  · have hne : levels ≠ [] := List.ne_nil_of_length_pos (by omega)
    obtain ⟨t, ht, r⟩ := tickRun_recorded hstart hne hfull
    exact ⟨t, ht, fun hroom => absurd hfull (Nat.ne_of_lt hroom), fun _ => ⟨r.cs, r.bc, r.bi, r.outTrace⟩,
      fun k i hk => r.stored.bytes k hk i, r.stored.others⟩

end Sys2Proof.Machine
end

section
/-! The tick timer (44_tick_timer.md R222 to R230): what configures and masks the tick interrupt, what a tick does, and
how POLL drains it into the tick-processing step. -/

namespace Sys2Proof.Machine

/-! ## The period and the mask (R222 to R224) -/

/-- TMRCFG with a period writes the timer's two registers. -/
theorem exec_tmrcfg {ms : Half} (h : ms ≠ 0) (s : State) :
    exec (.tmrcfg ms) s = .next { s with tcfg := some ms, tie := true } := by
  have hlines : timerConfig ms s = .ok () { s with tcfg := some ms, tie := true } :=
    bind_of_ok (by rw [require_apply, if_pos (decide_eq_true h)])
  exact exec_returns_nothing rfl hlines

/-- TMRCFG tests the period before it writes anything. -/
theorem exec_tmrcfg_zero (s : State) : exec (.tmrcfg 0) s = .refused .timerPeriod :=
  exec_refused (((Op.Refuses.require (decide_eq_false fun h => h rfl) s _).bind _).bind _)

/-- Settles O56: TMRCFG writes TCFG and TIE behind its test of the period, which is what enables the TIMER. -/
theorem tmrcfgConfigures : Obligations.TmrcfgConfigures := by
  refine ⟨by decide, fun ms s => ⟨fun h => ⟨exec_tmrcfg h s, rfl⟩, ?_⟩⟩
  rintro rfl
  exact exec_tmrcfg_zero s

/-! ## The tick (R226) -/

/-- The TIMER has no step without a period, and none while TICK is masked. -/
theorem tickEnabled_eq_false_iff {s : State} : tickEnabled s = false ↔ s.tcfg = none ∨ s.tie = false := by
  rw [tickEnabled, Bool.and_eq_false_iff, Option.isSome_eq_false_iff, Option.isNone_iff_eq_none]

theorem tickEnabled_iff {s : State} : tickEnabled s = true ↔ s.tcfg ≠ none ∧ s.tie = true := by
  rw [tickEnabled, Bool.and_eq_true, Option.isSome_iff_ne_none]

/-- A script's TICK where it is enabled is the tick interrupt. -/
theorem exec_tick {s : State} (h : tickEnabled s = true) : exec .tick s = .next (tickInterrupt s) := by
  have htest : require (tickEnabled s) .tickNotEnabled s = .ok () s := by rw [require_apply, if_pos h]
  have hlines : timerTick s = .ok () (tickInterrupt s) := (bind_of_ok (get_apply s)).trans (bind_of_ok htest)
  exact exec_returns_nothing rfl hlines

theorem exec_tick_disabled {s : State} (h : tickEnabled s = false) : exec .tick s = .refused .tickNotEnabled :=
  exec_refused ((Op.Refuses.after (get_apply s) ((Op.Refuses.require h s _).bind _)).bind _)

/-- Settles O58: the two cases are those of the TIMER's enabling condition. -/
theorem tickSetsPend : Obligations.TickSetsPend :=
  fun _ => ⟨fun hcfg htie => exec_tick (tickEnabled_iff.mpr ⟨hcfg, htie⟩),
    fun h => exec_tick_disabled (tickEnabled_eq_false_iff.mpr h)⟩

/-- Settles O57: each operation is one write of TIE, and with TIE clear the TIMER has no step. -/
theorem maskOperations : Obligations.MaskOperations := by
  refine ⟨rfl, rfl, fun s => ?_⟩
  have hmasked : tickEnabled { s with tie := false } = false := tickEnabled_eq_false_iff.mpr (.inr rfl)
  exact ⟨exec_returns_nothing rfl rfl, fun hcfg => tickEnabled_eq_false_iff.mpr (.inl hcfg),
    exec_returns_nothing rfl rfl, hmasked, exec_tick_disabled hmasked⟩

/-! ## The input line (R230) -/

/-- Settles O59: `exec_setin`, and `Sample()` reads the level it wrote. -/
theorem setinSetsTheLine : Obligations.SetinSetsTheLine :=
  ⟨rfl, rfl, fun level s => ⟨exec_setin level s, rfl⟩⟩

/-! ## POLL (R228, R229) -/

/-- POLL with no tick pending has nothing to do. -/
theorem poll_none {s : State} (h : s.pend = false) : poll s = .ok () s := by
  refine (bind_of_ok (look_apply _ s)).trans ?_
  rw [if_neg (by rw [h]; exact Bool.false_ne_true)]
  rfl

/-- POLL with a tick pending clears PEND, between two interleaving points, and goes on as the tick-processing step. -/
theorem poll_pending {s : State} (h : s.pend = true) :
    poll s = seqStep ({ s.others with pend := false } : State).others := by
  unfold poll
  rw [bind_of_ok (look_apply _ s), if_pos h, bind_of_ok (point_apply s), bind_of_ok (modify_apply _ _),
    bind_of_ok (point_apply _)]

/-- Under a script's schedule nothing happens at those points. -/
theorem poll_scripted {s : State} (h : s.pend = true) (ha : Scripted s) :
    poll s = seqStep { s with pend := false } := by
  have hcleared : Scripted { s with pend := false } := ha
  rw [poll_pending h, State.others_scripted ha, State.others_scripted hcleared]

theorem exec_poll_scripted {s : State} (h : s.pend = true) (ha : Scripted s) :
    exec .poll s = exec .seqstep { s with pend := false } := by
  rw [exec_eq, exec_eq]
  exact finish_noResult_congr (poll_scripted h ha)

/-- Settles O54: `poll_none` and `poll_scripted`; a press in Replay makes the step a begin action, which returns and
keeps the cleared PEND. -/
theorem pollDrainsOneTick : Obligations.PollDrainsOneTick := by
  refine ⟨rfl, fun s => ⟨fun h => exec_returns_nothing rfl (poll_none h), exec_poll_scripted, ?_⟩⟩
  intro h ha hph hcs hinp
  obtain ⟨t, ht, hcalm, hcontrol⟩ := seqStep_action (s := { s with pend := false }) hph (.inl ⟨hcs, hinp⟩)
  rw [if_neg (by rw [hcs]; exact Ctl.noConfusion)] at hcontrol
  obtain ⟨_, _, _, hrecording, _⟩ := State.control_eq_iff.mp hcontrol
  exact ⟨t, (exec_poll_scripted h ha).trans (exec_seqstep_of_ok ht), (hcalm.kept.lines ha).1, hrecording⟩

/-- A tick that finds one pending leaves that one, and leaves the TIMER enabled. -/
theorem ticks_succ {s : State} (h : tickEnabled s = true) (k : Nat) : ticks (k + 1) s = .next (tickInterrupt s) := by
  induction k generalizing s with
  | zero => simp only [ticks, exec_tick h]
  | succ k ih =>
    have henabled : tickEnabled (tickInterrupt s) = true := h
    calc ticks (k + 1 + 1) s = ticks (k + 1) (tickInterrupt s) := by rw [ticks, exec_tick h]
      _ = .next (tickInterrupt (tickInterrupt s)) := ih henabled
      _ = .next (tickInterrupt s) := rfl

/-- Settles O55: any ticks are one tick interrupt, and the next POLL drains it into one step. -/
theorem ticksCoalesce : Obligations.TicksCoalesce :=
  fun k _ h => ⟨ticks_succ h k, fun ha => exec_poll_scripted rfl ha⟩

end Sys2Proof.Machine
end

section
/-! A HOST stuck in AwaitDone (60_exceptions.md R244, 40_bus_primitives.md R122): its step is the other agents'
steps and nothing else, one step at a time and along a run without end; what the fairness of the TIMER
(44_tick_timer.md R227) and of the BUS agent (10_state.md R55) then says of the run. -/

namespace Sys2Proof.Machine

/-! ## A step of a stuck HOST (R244) -/

/-- The stuck HOST issues nothing. -/
theorem step_of_hung {s : State} (hc : configValid s.cfg = true) (hh : s.hung = true) :
    step s = .next s.others := by
  have hfetch : s.others.fetch = .waiting s.others := if_pos (s.others_hung.trans hh)
  unfold step
  rw [if_pos hc, hfetch]

/-- The configuration is valid where a step answers, so a stuck HOST has no other step. -/
theorem step_next_of_hung {s t : State} (hh : s.hung = true) (h : step s = .next t) : t = s.others := by
  cases hc : configValid s.cfg with
  | false => rw [step_of_configInvalid hc] at h; cases h
  | true => rw [step_of_hung hc hh] at h; cases h; rfl

/-- A HOST that gets stuck in a step does so inside an operation, with a primitive in flight. -/
theorem step_hangs_inFlight {s t : State} (h : step s = .next t) (hs : s.hung = false) (ht : t.hung = true) :
    InFlight t := by
  have hrun : s.others.hung = false := s.others_hung.trans hs
  rcases step_next_cases h with ⟨hstuck, _⟩ | ⟨_, rfl⟩ | ⟨i, rest, _, hx⟩
  · exact absurd (hrun.symm.trans hstuck) Bool.false_ne_true
  · exact absurd (hrun.symm.trans ((settleStop_hung _).symm.trans ht)) Bool.false_ne_true
  · exact exec_hangs_inFlight hx hrun ht

/-! ## Any number of steps -/

/-- What the steps of a stuck HOST leave alone: what the other agents do, and the primitive in flight, which
nobody completes. -/
structure Stalled (s t : State) : Prop where
  frame : BusFrame s t
  inflight : t.inflight = s.inflight
  done : t.done = s.done
  ee : t.ee = s.ee

theorem Stalled.refl (s : State) : Stalled s s := ⟨.refl s, rfl, rfl, rfl⟩

theorem Stalled.trans {s t u : State} (h : Stalled s t) (k : Stalled t u) : Stalled s u :=
  ⟨h.frame.trans k.frame, k.inflight.trans h.inflight, k.done.trans h.done, k.ee.trans h.ee⟩

theorem Stalled.others (s : State) : Stalled s s.others :=
  ⟨.others s, s.others_inflight, s.others_done, s.others_ee⟩

theorem steps_of_hung (n : Nat) {s : State} (hc : configValid s.cfg = true) (hh : s.hung = true) :
    ∃ t, steps n s = .next t ∧ Stalled s t := by
  induction n generalizing s with
  | zero => exact ⟨s, rfl, .refl s⟩
  | succ n ih =>
    obtain ⟨t, ht, hstalled⟩ := ih (s := s.others) (by rwa [s.others_cfg]) (s.others_hung.trans hh)
    exact ⟨t, by rw [steps, step_of_hung hc hh]; exact ht, (Stalled.others s).trans hstalled⟩

/-! ## Along a run without end -/

/-- What comes from outside before a step, and the step of a stuck HOST, keep what `P` says; so it holds for
ever, with the HOST stuck. -/
theorem Run.keeps_of_hung {w : Arrivals} {σ : Nat → State} {P : State → Prop} (hrun : Run w σ)
    (hP : ∀ k s, P s → P (w.deliver k s).others) {n m : Nat} (hh : (σ n).hung = true) (hn : P (σ n))
    (hm : n ≤ m) : (σ m).hung = true ∧ P (σ m) := by
  induction m, hm using Nat.le_induction with
  | base => exact ⟨hh, hn⟩
  | succ k _ ih =>
    obtain ⟨hk, hPk⟩ := ih
    rw [step_next_of_hung (s := w.deliver k (σ k)) hk (hrun k)]
    exact ⟨(State.others_hung _).trans hk, hP k _ hPk⟩

theorem Run.hung_of_hung {w : Arrivals} {σ : Nat → State} (hrun : Run w σ) {n m : Nat} (hh : (σ n).hung = true)
    (hm : n ≤ m) : (σ m).hung = true :=
  (hrun.keeps_of_hung (P := fun _ => True) (fun _ _ h => h) hh trivial hm).1

/-- The primitive in flight stays so: the HOST waits for its completion for ever. -/
theorem Run.inFlight_of_hung {w : Arrivals} {σ : Nat → State} (hrun : Run w σ) {n m : Nat}
    (hh : (σ n).hung = true) (hf : InFlight (σ n)) (hm : n ≤ m) : InFlight (σ m) :=
  (hrun.keeps_of_hung (P := InFlight)
    (fun k s h => by rw [InFlight, State.others_inflight]; exact h) hh hf hm).2

/-- No POLL drains a pending tick. -/
theorem Run.pend_of_hung {w : Arrivals} {σ : Nat → State} (hrun : Run w σ) {n m : Nat}
    (hh : (σ n).hung = true) (hp : (σ n).pend = true) (hm : n ≤ m) : (σ m).pend = true :=
  (hrun.keeps_of_hung (P := fun s => s.pend = true) (fun _ _ h => State.others_pend h) hh hp hm).2

/-! ## The TIMER's fairness (R226, R227) -/

theorem AgentStep.apply_enabled (e : AgentStep) (s : State) : tickEnabled (e.apply s) = tickEnabled s := by
  simp only [tickEnabled, AgentStep.apply_tcfg, AgentStep.apply_tie]

theorem AgentStep.apply_tick {s : State} (he : tickEnabled s = true) :
    AgentStep.tick.apply s = tickInterrupt s := if_pos he

/-- No other agent clears PEND (10_state.md R37). -/
theorem AgentStep.apply_pend (e : AgentStep) {s : State} (h : s.pend = true) : (e.apply s).pend = true := by
  cases e with
  | tick =>
    simp only [AgentStep.apply]
    split
    · rfl
    · exact h
  | busStop => exact (settleStop_pend s).trans h
  | _ => exact h

/-- A tick among the steps of an interleaving point is pending after them. -/
theorem foldl_apply_pend {l : List AgentStep} {s : State} (he : tickEnabled s = true)
    (h : s.pend = true ∨ AgentStep.tick ∈ l) : (l.foldl (fun t e => e.apply t) s).pend = true := by
  induction l generalizing s with
  | nil => exact h.resolve_right List.not_mem_nil
  | cons e l ih =>
    refine ih ((e.apply_enabled s).trans he) ?_
    rcases h with hp | hmem
    · exact .inl (e.apply_pend hp)
    · rcases List.mem_cons.mp hmem with rfl | hlater
      · exact .inl (congrArg State.pend (AgentStep.apply_tick he))
      · exact .inr hlater

theorem State.others_pend_of_tick {s : State} {l : List AgentStep} {rest : List (List AgentStep)}
    (ha : s.agenda = l :: rest) (he : tickEnabled s = true) (ht : AgentStep.tick ∈ l) :
    s.others.pend = true := by
  unfold State.others
  rw [ha]
  exact foldl_apply_pend he (.inr ht)

/-- An interleaving point uses up the head of the schedule alone. -/
theorem State.agenda_of_used {s : State} {used : List (List AgentStep)} {l : List AgentStep}
    (h : s.agenda = used ++ s.others.agenda) (hl : l ∈ used) : s.agenda = l :: s.agenda.tail := by
  rw [s.others_agenda] at h
  cases ha : s.agenda with
  | nil =>
    rw [ha] at h
    rw [(List.append_eq_nil_iff.mp h.symm).1] at hl
    exact absurd hl List.not_mem_nil
  | cons a rest =>
    rw [ha] at h
    have hused : [a] = used := List.append_cancel_right (bs := rest) h
    rw [← hused] at hl
    obtain rfl := List.mem_singleton.mp hl
    rfl

theorem nextOp_of_hung {s : State} (hh : s.hung = true) : nextOp s = none := if_pos hh

/-- The stuck HOST issues no action that masks TICK. -/
theorem not_masks_of_hung {s t : State} (hh : s.hung = true) : ¬ Masks s t := by
  rintro ⟨hop | hop, _⟩ <;> exact nomatch (nextOp_of_hung hh).symm.trans hop

/-- The TIMER's step in a step of a stuck HOST is one of the schedule's, and leaves the tick pending. -/
theorem TimerSteps.pend_of_hung {s : State} (hh : s.hung = true) (he : tickEnabled s = true)
    (h : TimerSteps s s.others) : s.others.pend = true := by
  rcases h with ⟨used, hused, l, hl, htick⟩ | hop
  · exact State.others_pend_of_tick (State.agenda_of_used hused hl) he htick
  · exact nomatch (nextOp_of_hung hh).symm.trans hop

/-- TICK stays enabled: a stuck HOST neither writes TIE nor TCFG. -/
theorem Run.enabled_of_hung {w : Arrivals} {σ : Nat → State} (hrun : Run w σ) {n m : Nat}
    (hh : (σ n).hung = true) (he : tickEnabled (σ n) = true) (hm : n ≤ m) : tickEnabled (σ m) = true :=
  (hrun.keeps_of_hung (P := fun s => tickEnabled s = true)
    (fun k s h => (BusFrame.others (w.deliver k s)).enabled.trans h) hh he hm).2

theorem Run.staysEnabled_of_hung {w : Arrivals} {σ : Nat → State} (hrun : Run w σ) {n : Nat}
    (hh : (σ n).hung = true) (he : tickEnabled (σ n) = true) : StaysEnabled w σ n := fun m hm =>
  ⟨hrun.enabled_of_hung hh he hm, not_masks_of_hung (s := w.deliver m (σ m)) (hrun.hung_of_hung hh hm)⟩

/-- The TIMER's step comes, and its tick is never drained. -/
theorem Run.pend_eventually_of_hung {w : Arrivals} {σ : Nat → State} (hrun : Run w σ) (hlive : TimerLive w σ)
    (hh : (σ 0).hung = true) (he : tickEnabled (σ 0) = true) : ∃ n, ∀ m, n ≤ m → (σ m).pend = true := by
  obtain ⟨k, hk, htimer⟩ := hlive 0 (hrun.staysEnabled_of_hung hh he)
  have hstuck : (w.deliver k (σ k)).hung = true := hrun.hung_of_hung hh hk
  have hpend : (σ (k + 1)).pend = true := by
    rw [step_next_of_hung hstuck (hrun k)] at htimer ⊢
    exact TimerSteps.pend_of_hung hstuck (hrun.enabled_of_hung hh he hk) htimer
  exact ⟨k + 1, fun m hm => hrun.pend_of_hung (hrun.hung_of_hung hh (Nat.le_succ_of_le hk)) hpend hm⟩

/-! ## The BUS agent's fairness (R55) -/

/-- A HOST that got stuck would leave a primitive in flight for ever, which the BUS agent completes. -/
theorem Run.never_hung {w : Arrivals} {σ : Nat → State} (hrun : Run w σ) (hlive : BusLiveRun σ)
    (h0 : (σ 0).hung = false) (n : Nat) : (σ n).hung = false := by
  induction n with
  | zero => exact h0
  | succ n ih =>
    refine Bool.eq_false_iff.mpr fun hh => ?_
    have hflight : InFlight (σ (n + 1)) := step_hangs_inFlight (s := w.deliver n (σ n)) (hrun n) ih hh
    obtain ⟨m, hm, hnone⟩ := hlive.primitive (n + 1) hflight
    exact hrun.inFlight_of_hung hh hflight hm hnone

/-- Settles O9: a stuck HOST's steps are the other agents', of which only the TIMER's touches PEND; and a HOST
gets stuck with a primitive in flight only. -/
theorem stalledHostStaysStalled : Obligations.StalledHostStaysStalled := by
  refine ⟨fun n s hc hh => ?_, fun w σ hrun => hrun.pend_eventually_of_hung, fun w σ hrun => hrun.never_hung⟩
  obtain ⟨t, ht, hstalled⟩ := steps_of_hung n hc hh
  have hout : OutsideBus s t := hstalled.frame.outside
  exact ⟨t, ht, hstalled.frame.hung.trans hh, hout.port, hstalled.frame.resp, hout.output, hout.sequencer,
    hout.timer, hstalled.inflight, hstalled.done, hout.pend, .of_eq hstalled.ee⟩

end Sys2Proof.Machine
end

section
/-! The end of a finite HOST program (70_reset_and_hazards.md R294, 40_bus_primitives.md R129): with the command
stream at its end, a step is the other agents' steps and the completion of a pending stop; along a run fair to the
BUS agent (10_state.md R55) the stop is eventually on the wire, and nothing comes after it. -/

namespace Sys2Proof.Machine

/-! ## A HOST with nothing to issue (R294) -/

/-- The HOST neither waits in AwaitDone nor has an operation to issue: the run is over but for a pending stop. -/
structure HostIdle (s : State) : Prop where
  hung : s.hung = false
  stream : s.stream = []
  inflight : s.inflight = .none

theorem HostIdle.runOver {s : State} (h : HostIdle s) (hs : s.stopping = false) : RunOver s :=
  ⟨h.hung, h.stream, h.inflight, hs⟩

/-- An engine at rest has a primitive in flight only while the HOST is stuck. -/
theorem EngineRest.hostIdle {s : State} (h : EngineRest s) (hrun : s.hung = false) (hs : s.stream = []) :
    HostIdle s where
  hung := hrun
  stream := hs
  inflight := by_contra fun hne => Bool.false_ne_true (hrun.symm.trans (h.flight_hung hne))

theorem HostIdle.others {s : State} (h : HostIdle s) : HostIdle s.others :=
  ⟨s.others_hung.trans h.hung, s.others_stream.trans h.stream, s.others_inflight.trans h.inflight⟩

theorem HostIdle.settleStop {s : State} (h : HostIdle s) : HostIdle (settleStop s) :=
  ⟨(settleStop_hung s).trans h.hung, (settleStop_stream s).trans h.stream,
    (settleStop_inflight s).trans h.inflight⟩

/-- With no more bytes to come, what comes from outside leaves the HOST idle. -/
theorem HostIdle.deliver {s : State} (h : HostIdle s) {w : Arrivals} {n : Nat} (hw : w.bytes n = []) :
    HostIdle (w.deliver n s) :=
  ⟨h.hung, List.append_eq_nil_iff.mpr ⟨h.stream, hw⟩, h.inflight⟩

/-! ## A step of an idle HOST (R129, R294) -/

theorem HostIdle.fetch {s : State} (h : HostIdle s) : s.fetch = .waiting (Machine.settleStop s) := by
  simp [State.fetch, h.hung, h.stream]

theorem step_of_hostIdle {s : State} (hc : configValid s.cfg = true) (h : HostIdle s) :
    step s = .next (settleStop s.others) := by
  unfold step
  rw [if_pos hc, h.others.fetch]

/-- The configuration is valid where a step answers, so an idle HOST has no other step. -/
theorem step_next_of_hostIdle {s t : State} (h : HostIdle s) (hstep : step s = .next t) :
    t = settleStop s.others := by
  cases hc : configValid s.cfg with
  | false => rw [step_of_configInvalid hc] at hstep; cases hstep
  | true => rw [step_of_hostIdle hc h] at hstep; cases hstep; rfl

theorem BusFrame.settleStop (s : State) : BusFrame s (settleStop s) := by
  unfold Machine.settleStop
  split
  · split
    · next hspend => exact (BusFrame.spend hspend).trans (BusFrame.completeStop _)
    · exact .refl s
  · exact .refl s

/-- A pending stop is on the settled wire already. -/
theorem wireSettled_settleStop (s : State) : wireSettled (settleStop s) = wireSettled s := by
  rcases settleStop_cases s with hsame | ⟨hs, n, hdone⟩
  · rw [hsame]
  · rw [hdone, wireSettled_of_settled (completeStop_stopping _), completeStop_wire, wireSettled, if_pos hs]

/-- A live BUS agent leaves no stop pending. -/
theorem settleStop_settles {s : State} (h : BusLive s) : (settleStop s).stopping = false := by
  cases hs : s.stopping with
  | false => rw [settleStop_of_not_stopping hs, hs]
  | true => rw [settleStop_of_stopping_live hs h, completeStop_stopping]

/-- A wire that holds its pending stop already has none pending. -/
theorem not_stopping_of_settled_onWire {s : State} (h : wireSettled s <+: s.wire) : s.stopping = false := by
  refine Bool.eq_false_iff.mpr fun hs => ?_
  have hlength := h.length_le
  simp [wireSettled, hs] at hlength

/-! ## Along a run without end -/

/-- With no more bytes to come, the step of an idle HOST keeps what `P` says; so it holds for ever, with the HOST
idle. -/
theorem Run.keeps_of_hostIdle {w : Arrivals} {σ : Nat → State} {P : State → Prop} (hrun : Run w σ)
    (hquiet : ∀ n, w.bytes n = []) (hP : ∀ k s, P s → P (settleStop (w.deliver k s).others)) {n m : Nat}
    (hi : HostIdle (σ n)) (hn : P (σ n)) (hm : n ≤ m) : HostIdle (σ m) ∧ P (σ m) := by
  induction m, hm using Nat.le_induction with
  | base => exact ⟨hi, hn⟩
  | succ k _ ih =>
    obtain ⟨hk, hPk⟩ := ih
    have hidle : HostIdle (w.deliver k (σ k)) := hk.deliver (hquiet k)
    rw [step_next_of_hostIdle hidle (hrun k)]
    exact ⟨hidle.others.settleStop, hP k _ hPk⟩

section Ending

variable {w : Arrivals} {σ : Nat → State} {n m : Nat} (hrun : Run w σ) (hquiet : ∀ n, w.bytes n = [])
include hrun hquiet

/-- Nothing but the pending stop reaches the wire. -/
theorem Run.wireSettled_of_hostIdle (hi : HostIdle (σ n)) (hm : n ≤ m) :
    wireSettled (σ m) = wireSettled (σ n) :=
  (hrun.keeps_of_hostIdle hquiet (P := fun s => wireSettled s = wireSettled (σ n))
    (fun k s h => by rw [wireSettled_settleStop, wireSettled_others]; exact h) hi rfl hm).2

/-- No stop is issued any more, so the run that is over stays so. -/
theorem Run.runOver_of_hostIdle (hi : HostIdle (σ n)) (hs : (σ n).stopping = false) (hm : n ≤ m) :
    RunOver (σ m) := by
  have hkeep : ∀ k s, s.stopping = false → (settleStop (w.deliver k s).others).stopping = false := by
    intro k s h
    have hothers : (w.deliver k s).others.stopping = false := State.others_stopping h
    rwa [settleStop_of_not_stopping hothers]
  obtain ⟨hidle, hsettled⟩ :=
    hrun.keeps_of_hostIdle hquiet (P := fun s => s.stopping = false) hkeep hi hs hm
  exact hidle.runOver hsettled

/-- The BUS agent's fairness: the stop that is pending reaches the wire, after which none is. -/
theorem Run.settles_of_hostIdle (hlive : BusLiveRun σ) (hi : HostIdle (σ 0)) :
    ∃ n, (σ n).stopping = false := by
  cases hs : (σ 0).stopping with
  | false => exact ⟨0, hs⟩
  | true =>
    obtain ⟨n, hn, hwire⟩ := hlive.stop 0 hs
    have hsettled : wireSettled (σ n) = (σ 0).wire ++ [.p] := by
      rw [hrun.wireSettled_of_hostIdle hquiet hi hn, wireSettled, if_pos hs]
    exact ⟨n, not_stopping_of_settled_onWire (hsettled ▸ hwire)⟩

/-- The finite program is eventually over and stays so, its pending stop the last thing on the wire. -/
theorem Run.over_of_hostIdle (hlive : BusLiveRun σ) (hi : HostIdle (σ 0)) :
    ∃ n, ∀ m, n ≤ m → RunOver (σ m) ∧ (σ m).wire = wireSettled (σ 0) := by
  obtain ⟨n, hn⟩ := hrun.settles_of_hostIdle hquiet hlive hi
  have hidle : HostIdle (σ n) :=
    (hrun.keeps_of_hostIdle hquiet (P := fun _ => True) (fun _ _ h => h) hi trivial n.zero_le).1
  refine ⟨n, fun m hm => ?_⟩
  have hover : RunOver (σ m) := hrun.runOver_of_hostIdle hquiet hidle hn hm
  refine ⟨hover, ?_⟩
  obtain ⟨_, _, _, hsettled⟩ := hover
  rw [← wireSettled_of_settled hsettled, hrun.wireSettled_of_hostIdle hquiet hi m.zero_le]

end Ending

/-- Settles O8: the step of an idle HOST is the other agents' steps, which leave the settled wire, and the
completion of a pending stop; along a run the BUS agent's fairness brings that completion about. -/
theorem idleStepEndsTheRun : Obligations.IdleStepEndsTheRun := by
  refine ⟨fun s hc hrun hstream hrest hlive => ?_, fun w σ hrun hfair hquiet hidle hstream hrest =>
    hrun.over_of_hostIdle hquiet hfair (hrest.hostIdle hidle hstream)⟩
  have hi : HostIdle s := hrest.hostIdle hrun hstream
  have hsettled : (settleStop s.others).stopping = false := settleStop_settles (State.others_live hlive)
  have hwire : (settleStop s.others).wire = wireSettled s := by
    rw [← wireSettled_of_settled hsettled, wireSettled_settleStop, wireSettled_others]
  have hframe : BusFrame s (settleStop s.others) := (BusFrame.others s).trans (.settleStop _)
  have hout : OutsideBus s (settleStop s.others) := hframe.outside
  exact ⟨_, step_of_hostIdle hc hi, hi.others.settleStop.runOver hsettled, hwire, hframe.resp, by simp, by simp,
    by simp, .of_eq (by simp), hout.sequencer, hout.output, hout.timer⟩

end Sys2Proof.Machine
end
